-- ==== Sys2Proof/Word.lean ====
section
/-! DEFINITION. The widths the spec's wire fields and registers have. -/

namespace Sys2Proof

/-- One byte of a byte string (R7). -/
abbrev Byte := BitVec 8

/-- One colour nibble (R116). -/
abbrev Nib := BitVec 4

/-- A 16-bit wire field, sample or counter. -/
abbrev Half := BitVec 16

/-- A 32-bit quantity: a minifloat word (R119), a packet's meta field (R110), a counter (R32). -/
abbrev Word := BitVec 32

/-- A capture time (R58). -/
abbrev Stamp := BitVec 64

/-- One 11-byte depth unit as the 88-bit number U of R114. -/
abbrev DepthUnit := BitVec 88

end Sys2Proof
end

