-- ==== Sys2Proof/Syntax.lean ====
section
/-! DEFINITION. The operations of the block: one constructor of `Instr` per row of spec/opcode_table.json,
in the table's order, with the operands the operation's own rule gives it. -/

namespace Sys2Proof

/-- The two physical streams (R12). -/
inductive Endpoint where
  | color
  | depth
deriving DecidableEq, Repr

/-- An output buffer's handle: which buffer of its owner it is and how many bytes it can hold (R56, R217). -/
structure Buf where
  id  : Nat
  cap : Nat
deriving DecidableEq, Repr

/-- The four device-specific calibration words of R45. -/
structure Cal where
  dcl : Word
  pix : Word
  dsr : Word
  p4  : Word
deriving DecidableEq, Repr

/-- The operations of R100. -/
inductive Instr where
  /-- `MF.U2F(n)` R143 -/
  | mfU2f (n : Word)
  /-- `MF.MUL(a, b)` R144 -/
  | mfMul (a b : Word)
  /-- `MF.ADD(a, b)` R145 -/
  | mfAdd (a b : Word)
  /-- `MF.DIV(a, b)` R148 -/
  | mfDiv (a b : Word)
  /-- `CC.XFER(req, want_reply, max_reply)` R161 -/
  | ccXfer (req : List Byte) (wantReply : Bool) (maxReply : Nat)
  /-- `CC.GET_VERSION()` R170 -/
  | ccGetVersion
  /-- `CC.GET_FIXED()` R173 -/
  | ccGetFixed
  /-- `CC.GET_ALGO(sel)` R174 -/
  | ccGetAlgo (sel : List Byte)
  /-- `CC.GET_SERIAL()` R175 -/
  | ccGetSerial
  /-- `CC.SET_PARAM(param, value)` R176 -/
  | ccSetParam (param value : Half)
  /-- `CC.RESET()` R177 -/
  | ccReset
  /-- `CC.INIT(sel)` R178 -/
  | ccInit (sel : List Byte)
  /-- `RA.ENABLE(e)` R215 -/
  | raEnable (e : Endpoint)
  /-- `RA.DISABLE(e)` R216 -/
  | raDisable (e : Endpoint)
  /-- `BQ.ENQUEUE(e, buf)` R217 -/
  | bqEnqueue (e : Endpoint) (buf : Buf)
  /-- `FMT.SET(e, width, height, bytes_per_line, image_size)` R218 -/
  | fmtSet (e : Endpoint) (width height bytesPerLine imageSize : Nat)
  /-- `RA.CHUNK(e, s)` R201 -/
  | raChunk (e : Endpoint) (bytes : List Byte)
  /-- `RA.BYTE(e, b)` R202 -/
  | raByte (e : Endpoint) (b : Byte)
  /-- `RA.SEEK1(e, b)` R203 -/
  | raSeek1 (e : Endpoint) (b : Byte)
  /-- `RA.SEEK2(e, b)` R204 -/
  | raSeek2 (e : Endpoint) (b : Byte)
  /-- `RA.HDR(e, b)` R205 -/
  | raHdr (e : Endpoint) (b : Byte)
  /-- `RA.HDRDONE(e)` R206 -/
  | raHdrdone (e : Endpoint)
  /-- `RA.START(e)` R207 -/
  | raStart (e : Endpoint)
  /-- `RA.CONT(e, seq)` R209 -/
  | raCont (e : Endpoint) (seq : Half)
  /-- `RA.PAY(e, b)` R210 -/
  | raPay (e : Endpoint) (b : Byte)
  /-- `RA.PKTDONE(e)` R211 -/
  | raPktdone (e : Endpoint)
  /-- `LUT.BUILD()` R241 -/
  | lutBuild
  /-- `DC.START()` R245 -/
  | dcStart
  /-- `DC.DATA(s)` R246 -/
  | dcData (bytes : List Byte)
  /-- `DC.UNPACK(u)` R248 -/
  | dcUnpack (u : DepthUnit)
  /-- `DC.END()` R250 -/
  | dcEnd
  /-- `CL.START()` R271 -/
  | clStart
  /-- `CL.DATA(s)` R272 -/
  | clData (bytes : List Byte)
  /-- `CL.NIB(n)` R273 -/
  | clNib (n : Nib)
  /-- `CL.DELTA(n)` R274 -/
  | clDelta (n : Nib)
  /-- `CL.SKIP(n)` R275 -/
  | clSkip (n : Nib)
  /-- `CL.LIT()` R276 -/
  | clLit
  /-- `CL.LITHI(n)` R277 -/
  | clLithi (n : Nib)
  /-- `CL.LITLO(n)` R278 -/
  | clLitlo (n : Nib)
  /-- `CL.EMIT(v)` R279 -/
  | clEmit (v : Byte)
  /-- `CL.END()` R281 -/
  | clEnd
deriving DecidableEq, Repr

/-- Why a stimulus's bytes stand for no operation. Safe: the model stops instead of guessing an operation. -/
inductive DecodeError where
  /-- no selector byte -/
  | empty
  /-- a selector that is no row of the operation table -/
  | unknownSelector (n : Nat)
  /-- the operand bytes are not as many as the row takes -/
  | operandLength (row : Nat)
  /-- an operand byte that names no endpoint, truth value or nibble -/
  | operandValue (row : Nat)
  /-- a request whose sync field is not `HOST_SYNC` (R102) -/
  | badSync (row : Nat)
  /-- a request whose opcode is not the row's (R102) -/
  | badOpcode (row : Nat)
  /-- a request whose size field is not its body's length in words (R104) -/
  | badSize (row : Nat)
  /-- operands of the right shape that `WellFormed` rejects -/
  | illFormed (row : Nat)
deriving DecidableEq, Repr

end Sys2Proof
end

