-- ==== Sys2Proof/Config.lean ====
section
/-! DEFINITION. The configuration record `Cfg` of R5, the constants the spec fixes, and the free values: the constants
with no body that stand for what the spec leaves unspecified. -/

namespace Sys2Proof

/-- The open and decided parameters of R5. The record is a field of the machine's state that no step writes, so a
statement about every state is a statement about every configuration. -/
structure Cfg where
  /-- `HOST_SYNC` -/
  hostSync : Half
  /-- `DEV_SYNC` -/
  devSync : Half
  /-- `OP_GET_VERSION` -/
  opGetVersion : Half
  /-- `OP_GET_FIXED` -/
  opGetFixed : Half
  /-- `OP_GET_ALGO` -/
  opGetAlgo : Half
  /-- `OP_GET_SERIAL` -/
  opGetSerial : Half
  /-- `OP_SET_PARAM` -/
  opSetParam : Half
  /-- `OP_SET_MODE` -/
  opSetMode : Half
  /-- `MODE_KNOWN` -/
  modeKnown : Half
  /-- `VERSION_LEN` -/
  versionLen : Nat
  /-- `FIXED_SIZE` -/
  fixedSize : Nat
  /-- `ALGO_SIZE` -/
  algoSize : Nat
  /-- `ALGO_SEL_WORDS` -/
  algoSelWords : Nat
  /-- `SERIAL_MAX` -/
  serialMax : Nat
  /-- `MAX_REPLY` -/
  maxReply : Nat
  /-- `FW_FLOOR`, major -/
  fwMajor : Byte
  /-- `FW_FLOOR`, minor -/
  fwMinor : Byte
  /-- `FW_FLOOR`, build -/
  fwBuild : Half
  /-- `INIT_RETRIES` -/
  initRetries : Nat
  /-- `RETRY_DELAY`; OPEN, no rule depends on it and no operation reads it (R5, R165, R357; notes/assumptions/22.md) -/
  retryDelay : Nat
  /-- `START_TYPE[COLOR]` -/
  startColor : Half
  /-- `END_TYPE[COLOR]` -/
  endColor : Half
  /-- `START_TYPE[DEPTH]` -/
  startDepth : Half
  /-- `END_TYPE[DEPTH]` -/
  endDepth : Half
  /-- `MAX_DEPTH` -/
  maxDepth : Nat
  /-- `LUT_SCALE` (D20) -/
  lutScale : Nat
  /-- `LUT_OFFSET` (D20) -/
  lutOffset : Word
  /-- `LUT_INVCOEFF` (D20) -/
  lutInvcoeff : Word
deriving DecidableEq, Repr

/-- `START_TYPE[e]`. -/
def Cfg.startType (c : Cfg) : Endpoint → Half
  | .color => c.startColor
  | .depth => c.startDepth

/-- `END_TYPE[e]`. -/
def Cfg.endType (c : Cfg) : Endpoint → Half
  | .color => c.endColor
  | .depth => c.endDepth

/-- The constraints R5 puts on the parameters, and the bounds without which the formats cannot be written: a version
payload holds at least the three fields of R109, and the selector and its offset fit the 16-bit size field (R107). -/
def Cfg.ok (c : Cfg) : Bool :=
  (c.hostSync != c.devSync) && decide (10 ≤ c.maxReply) && decide (1 ≤ c.initRetries) && decide (c.maxDepth ≤ 65536)
    && decide (4 ≤ c.versionLen) && decide (c.algoSelWords + 1 < 65536)

/-- The defaults R5 and 92_eei_decisions.md section 2 list: the GK values, and test values where the spec names no
other; FIXED_SIZE, ALGO_SIZE, SERIAL_MAX and MAX_REPLY are those of 95_test_vectors.md P3. RETRY_DELAY is OPEN without a
test value: the 0 is the model's own (notes/assumptions/22.md). DESIGN CHOICE, unsafe (notes/assumptions/3.md): nothing
is proved of the block from these numbers. -/
def Cfg.default : Cfg where
  hostSync := 0x4D47
  devSync := 0x4252
  opGetVersion := 0
  opGetFixed := 4
  opGetAlgo := 22
  opGetSerial := 37
  opSetParam := 3
  opSetMode := 6
  modeKnown := 1
  versionLen := 12
  fixedSize := 12
  algoSize := 2
  algoSelWords := 4
  serialMax := 15
  maxReply := 512
  fwMajor := 5
  fwMinor := 0
  fwBuild := 0
  initRetries := 1
  retryDelay := 0
  startColor := 0x8100
  endColor := 0x8500
  startDepth := 0x7100
  endDepth := 0x7500
  maxDepth := 10000
  lutScale := 10
  lutOffset := 0xBFC00000
  lutInvcoeff := 0x3E800000

namespace Config

/-- `CTRL_HDR_LEN` (R5). -/
def ctrlHdrLen : Nat := 8
/-- `REPLY_HDR_LEN` (R5). -/
def replyHdrLen : Nat := 10
/-- `PKT_HDR_LEN` (R5). -/
def pktHdrLen : Nat := 12
/-- `MAX_READ_ATTEMPTS` (R5, R165). -/
def maxReadAttempts : Nat := 10
/-- `LUT_SIZE` (R5). -/
def lutSize : Nat := 2048
/-- `UNIT_LEN` (R5). -/
def unitLen : Nat := 11
/-- `CODES_PER_UNIT` (R5). -/
def codesPerUnit : Nat := 8
/-- `DELTA_BIAS` (R5). -/
def deltaBias : Byte := 6
/-- `CH_CYCLE = [0, 1, 2, 1]` (R5, R41): the colour channel of each cycle position. -/
def chCycle (pos : BitVec 2) : Fin 3 :=
  if pos = 0 then 0 else if pos = 2 then 2 else 1

/-- Which codec an endpoint feeds (R5). -/
inductive Codec where
  | depth
  | color
deriving DecidableEq, Repr

/-- `CODEC[e]` (R5). -/
def codec : Endpoint → Codec
  | .color => .color
  | .depth => .depth

/-- FREE VALUE: what the `k`-th drawn `CtrlWrite` answers when the environment's list is used up (R54, U15). -/
opaque freeCtrlWrite (k : Nat) : Bool
/-- FREE VALUE: what the `k`-th drawn `CtrlRead` answers; `none` is `fail` (R54, U15). -/
opaque freeCtrlRead (k : Nat) : Option (List Byte)
/-- FREE VALUE: what the `k`-th drawn `Now()` of endpoint `e`'s callback answers (R58, U18). -/
opaque freeNow (e : Endpoint) (k : Nat) : Stamp
/-- FREE VALUE: the build number of a raw value with a digit above 9 (R171, U6). -/
opaque freeBuild (k : Nat) (major : Byte) (raw : Half) : Half
/-- FREE VALUE: a LUT entry whose computation leaves the minifloat domain (R242, U5): it depends on the index, the
calibration words and the configuration alone, so that building twice gives the same table (R241). -/
opaque freeLutEntry (c : Cfg) (i : Nat) (cal : Cal) : Half

end Config

end Sys2Proof
end

