-- ==== Sys2Proof/Machine/Wire.lean ====
section
/-! DEFINITION. Byte strings and the byte order of their fields (R7, R70): the one place where wire fields are read
and written, for the decoder and the machine alike. -/

namespace Sys2Proof.Machine

/-- The byte `s[k]`; a byte the string does not have reads as zero, which no rule relies on: every rule checks the
length first. -/
def byteAt (s : List Byte) (k : Nat) : Byte := s.getD k 0

/-- A 16-bit number from its low and high byte. -/
def half (lo hi : Byte) : Half := hi ++ lo

/-- `LE16(s, k)` (R7). -/
def le16 (s : List Byte) (k : Nat) : Half := half (byteAt s k) (byteAt s (k + 1))

/-- `LE32(s, k)` (R7). -/
def le32 (s : List Byte) (k : Nat) : Word := le16 s (k + 2) ++ le16 s k

/-- `BE16(s, k)` (R7). -/
def be16 (s : List Byte) (k : Nat) : Half := half (byteAt s (k + 1)) (byteAt s k)

/-- The low byte of a 16-bit value. -/
def loByte (v : Half) : Byte := v.extractLsb' 0 8

/-- The high byte of a 16-bit value. -/
def hiByte (v : Half) : Byte := v.extractLsb' 8 8

/-- The two bytes of `v`, least significant first (R70, R71). -/
def putHalf (v : Half) : List Byte := [loByte v, hiByte v]

/-- The four bytes of `v`, least significant first (R70). -/
def putWord (v : Word) : List Byte := putHalf (v.extractLsb' 0 16) ++ putHalf (v.extractLsb' 16 16)

/-- `PutLE16(s, k, v)` (R7). -/
def putLe16 (s : List Byte) (k : Nat) (v : Half) : List Byte := (s.set k (loByte v)).set (k + 1) (hiByte v)

/-- A request before its ID is stamped (R102, R169): header, two zero bytes where the ID goes, body. -/
def reqBytes (c : Cfg) (opcode : Half) (body : List Byte) : List Byte :=
  putHalf c.hostSync ++ putHalf (BitVec.ofNat 16 (body.length / 2)) ++ putHalf opcode ++ [0, 0] ++ body

/-- `2 * n` zero bytes: a padding block of `n` output samples (R112). -/
def padBytes (n : Half) : List Byte := List.replicate (2 * n.toNat) 0

/-- The high nibble of a payload byte, which comes first (R72, R116). -/
def hiNib (b : Byte) : Nib := b.extractLsb' 4 4

/-- The low nibble of a payload byte. -/
def loNib (b : Byte) : Nib := b.extractLsb' 0 4

/-- The 88-bit number of R114 from the bytes of a unit, the first most significant. -/
def unitOfBytes (bytes : List Byte) : DepthUnit :=
  bytes.foldl (fun u b => (u <<< (8 : Nat)) ||| b.setWidth 88) 0

/-- The eleven bytes of a unit, `u[0]` first (R114). -/
def bytesOfUnit (u : DepthUnit) : List Byte :=
  [u.extractLsb' 80 8, u.extractLsb' 72 8, u.extractLsb' 64 8, u.extractLsb' 56 8, u.extractLsb' 48 8, u.extractLsb' 40 8,
    u.extractLsb' 32 8, u.extractLsb' 24 8, u.extractLsb' 16 8, u.extractLsb' 8 8, u.extractLsb' 0 8]

/-- The `n` bytes of the number `w`, the first least significant. R125 gives a row's bits as a string in wire order and no
number; the numbering of `decodeTableWord` and `withFetchWord`, bit 0 the least significant bit of the first byte, is
the model's (DESIGN CHOICE, notes/assumptions/23.md). -/
def bytesOfNat (n w : Nat) : List Byte := (List.range n).map fun i => BitVec.ofNat 8 (w >>> (8 * i))

end Sys2Proof.Machine
end

