-- ==== Sys2Proof/WellFormed.lean ====
section
/-! DEFINITION. Which terms of `Instr` are operations of the block: the operand ranges the rules give, under a
configuration. What an operation checks of the STATE is not here: its meaning checks that. -/

namespace Sys2Proof

/-- A request in format `REQ`: its length is that of the header and of the words its size field counts (R104, R161);
a request below 8 bytes, of odd body length, or with another size is refused by this one equation (U8). -/
def reqShape (req : List Byte) : Bool := req.length == 8 + 2 * (Machine.le16 req 2).toNat

/-- A selector of `ALGO_SEL_WORDS` words (R174). -/
def selShape (c : Cfg) (sel : List Byte) : Bool := sel.length == 2 * c.algoSelWords

/-- The number of bytes a reply may have: R161 bounds it when a reply is wanted, and the model's stimulus encoding
carries it in 32 bits. -/
def replyShape (c : Cfg) (want : Bool) (maxReply : Nat) : Bool :=
  decide (maxReply < 2 ^ 32) && (!want || (decide (10 ≤ maxReply) && decide (maxReply ≤ c.maxReply)))

/-- A natural number that the model's stimulus encoding carries in 32 bits (the spec bounds none of these). -/
def fits32 (n : Nat) : Bool := decide (n < 2 ^ 32)

/-- Well-formed operations. -/
def wellFormed (c : Cfg) : Instr → Bool
  | .mfU2f _ => true
  | .mfMul _ _ => true
  | .mfAdd _ _ => true
  | .mfDiv _ _ => true
  | .ccXfer req want maxReply => reqShape req && replyShape c want maxReply
  | .ccGetVersion => true
  | .ccGetFixed => true
  | .ccGetAlgo sel => selShape c sel
  | .ccGetSerial => true
  | .ccSetParam _ _ => true
  | .ccReset => true
  | .ccInit sel => selShape c sel
  | .raEnable _ => true
  | .raDisable _ => true
  | .bqEnqueue _ buf => fits32 buf.id && fits32 buf.cap
  | .fmtSet _ w h l n => fits32 w && fits32 h && fits32 l && fits32 n
  | .raChunk _ _ => true
  | .raByte _ _ => true
  | .raSeek1 _ _ => true
  | .raSeek2 _ _ => true
  | .raHdr _ _ => true
  | .raHdrdone _ => true
  | .raStart _ => true
  | .raCont _ _ => true
  | .raPay _ _ => true
  | .raPktdone _ => true
  | .lutBuild => true
  | .dcStart => true
  | .dcData _ => true
  | .dcUnpack _ => true
  | .dcEnd => true
  | .clStart => true
  | .clData _ => true
  | .clNib _ => true
  | .clDelta n => decide (n.toNat ≤ 12)
  | .clSkip n => n == 13 || n == 14
  | .clLit => true
  | .clLithi _ => true
  | .clLitlo _ => true
  | .clEmit _ => true
  | .clEnd => true

end Sys2Proof
end

