-- ==== Sys2Proof/Decode.lean ====
section
/-! DEFINITION. Stimuli as bytes. A stimulus is one selector byte, the number of the operation's row in
spec/opcode_table.json (0 to 40), and the operation's operands: in the spec's wire layout where the row has one (a
request of R102, a unit of R114, a nibble, a payload byte), else as notes/assumptions/2.md lays them out (DESIGN CHOICE: the
spec gives host calls no encoding, R100). `decode` is total and rejects by name; `encode` follows it. Below them, the
decoder of a table row's bare bits. -/

namespace Sys2Proof

open Machine (half putHalf putWord le16 le32 putLe16 reqBytes unitOfBytes bytesOfUnit bytesOfNat byteAt)

/-- The byte that names an endpoint. -/
def endpointByte : Endpoint → Byte
  | .color => 0
  | .depth => 1

/-- The endpoint a byte names. -/
def endpointOfByte (b : Byte) : Option Endpoint := if b = 0 then some .color else if b = 1 then some .depth else none

/-- Exactly four bytes, least significant first, as a number. -/
def word4 (b0 b1 b2 b3 : Byte) : Word := half b2 b3 ++ half b0 b1

/-- The body of a request whose header carries `HOST_SYNC`, the row's opcode and the body's size in words
(R102, R104); the ID bytes are ignored, since CC.XFER overwrites them (R162). -/
def requestBody (c : Cfg) (row : Nat) (opcode : Half) (bytes : List Byte) : Except DecodeError (List Byte) :=
  if bytes.length < 8 then .error (.operandLength row)
  else if le16 bytes 0 ≠ c.hostSync then .error (.badSync row)
  else if le16 bytes 4 ≠ opcode then .error (.badOpcode row)
  else if bytes.length ≠ 8 + 2 * (le16 bytes 2).toNat then .error (.badSize row)
  else .ok (bytes.drop 8)

/-- An operation with no operand. -/
def operands0 (row : Nat) (i : Instr) (bytes : List Byte) : Except DecodeError Instr :=
  match bytes with
  | [] => .ok i
  | _ => .error (.operandLength row)

/-- One endpoint. -/
def operandsE (row : Nat) (f : Endpoint → Instr) (bytes : List Byte) : Except DecodeError Instr :=
  match bytes with
  | [e] =>
    match endpointOfByte e with
    | some e => .ok (f e)
    | none => .error (.operandValue row)
  | _ => .error (.operandLength row)

/-- One endpoint and one byte. -/
def operandsEB (row : Nat) (f : Endpoint → Byte → Instr) (bytes : List Byte) : Except DecodeError Instr :=
  match bytes with
  | [e, b] =>
    match endpointOfByte e with
    | some e => .ok (f e b)
    | none => .error (.operandValue row)
  | _ => .error (.operandLength row)

/-- Two 32-bit words. -/
def operandsWW (row : Nat) (f : Word → Word → Instr) (bytes : List Byte) : Except DecodeError Instr :=
  match bytes with
  | [a0, a1, a2, a3, b0, b1, b2, b3] => .ok (f (word4 a0 a1 a2 a3) (word4 b0 b1 b2 b3))
  | _ => .error (.operandLength row)

/-- One nibble, in the low half of a byte. -/
def operandsN (row : Nat) (f : Nib → Instr) (bytes : List Byte) : Except DecodeError Instr :=
  match bytes with
  | [b] => if b.toNat < 16 then .ok (f (b.setWidth 4)) else .error (.operandValue row)
  | _ => .error (.operandLength row)

/-- The operands of CC.XFER: whether a reply is wanted, the longest reply, the request. -/
def operandsXfer (bytes : List Byte) : Except DecodeError Instr :=
  match bytes with
  | w :: m0 :: m1 :: m2 :: m3 :: req =>
    if w = 0 then .ok (.ccXfer req false (word4 m0 m1 m2 m3).toNat)
    else if w = 1 then .ok (.ccXfer req true (word4 m0 m1 m2 m3).toNat)
    else .error (.operandValue 4)
  | _ => .error (.operandLength 4)

/-- The request of an operation whose body is empty (R106). -/
def operandsEmptyBody (c : Cfg) (row : Nat) (opcode : Half) (i : Instr) (bytes : List Byte) : Except DecodeError Instr :=
  match requestBody c row opcode bytes with
  | .ok [] => .ok i
  | .ok _ => .error (.badSize row)
  | .error err => .error err

/-- The request of CC.GET_FIXED: the body is the word offset at which the first round reads, 0 (R107, R172). -/
def operandsFixed (c : Cfg) (bytes : List Byte) : Except DecodeError Instr :=
  match requestBody c 6 c.opGetFixed bytes with
  | .ok [b0, b1] => if half b0 b1 = 0 then .ok .ccGetFixed else .error (.operandValue 6)
  | .ok _ => .error (.badSize 6)
  | .error err => .error err

/-- The request of CC.GET_ALGO: the selector, then the first round's offset, 0 (R107, R172). -/
def operandsAlgo (c : Cfg) (bytes : List Byte) : Except DecodeError Instr :=
  match requestBody c 7 c.opGetAlgo bytes with
  | .ok body =>
    if body.length ≠ 2 * c.algoSelWords + 2 then .error (.badSize 7)
    else if le16 body (2 * c.algoSelWords) = 0 then .ok (.ccGetAlgo (body.take (2 * c.algoSelWords)))
    else .error (.operandValue 7)
  | .error err => .error err

/-- The request of CC.SET_PARAM (R108). -/
def operandsParam (c : Cfg) (bytes : List Byte) : Except DecodeError Instr :=
  match requestBody c 9 c.opSetParam bytes with
  | .ok [p0, p1, v0, v1] => .ok (.ccSetParam (half p0 p1) (half v0 v1))
  | .ok _ => .error (.badSize 9)
  | .error err => .error err

/-- The request of CC.RESET: the one mode it writes is MODE_KNOWN (R108, R177). -/
def operandsReset (c : Cfg) (bytes : List Byte) : Except DecodeError Instr :=
  match requestBody c 10 c.opSetMode bytes with
  | .ok [m0, m1] => if half m0 m1 = c.modeKnown then .ok .ccReset else .error (.operandValue 10)
  | .ok _ => .error (.badSize 10)
  | .error err => .error err

/-- The operands of BQ.ENQUEUE: endpoint, handle, capacity. -/
def operandsEnqueue (bytes : List Byte) : Except DecodeError Instr :=
  match bytes with
  | [e, i0, i1, i2, i3, c0, c1, c2, c3] =>
    match endpointOfByte e with
    | some e => .ok (.bqEnqueue e { id := (word4 i0 i1 i2 i3).toNat, cap := (word4 c0 c1 c2 c3).toNat })
    | none => .error (.operandValue 14)
  | _ => .error (.operandLength 14)

/-- The operands of FMT.SET: endpoint, width, height, bytes per line, image size. -/
def operandsFmt (bytes : List Byte) : Except DecodeError Instr :=
  match bytes with
  | [e, w0, w1, w2, w3, h0, h1, h2, h3, l0, l1, l2, l3, n0, n1, n2, n3] =>
    match endpointOfByte e with
    | some e => .ok (.fmtSet e (word4 w0 w1 w2 w3).toNat (word4 h0 h1 h2 h3).toNat (word4 l0 l1 l2 l3).toNat (word4 n0 n1 n2 n3).toNat)
    | none => .error (.operandValue 15)
  | _ => .error (.operandLength 15)

/-- The operands of RA.CHUNK: the endpoint and the bytes delivered. -/
def operandsChunk (bytes : List Byte) : Except DecodeError Instr :=
  match bytes with
  | e :: s =>
    match endpointOfByte e with
    | some e => .ok (.raChunk e s)
    | none => .error (.operandValue 16)
  | _ => .error (.operandLength 16)

/-- The operands of RA.CONT: the endpoint and the sequence number (R209). -/
def operandsCont (bytes : List Byte) : Except DecodeError Instr :=
  match bytes with
  | [e, q0, q1] =>
    match endpointOfByte e with
    | some e => .ok (.raCont e (half q0 q1))
    | none => .error (.operandValue 23)
  | _ => .error (.operandLength 23)

/-- The operation a selector and its operand bytes name, before the check of `wellFormed`. -/
def decodeRow (c : Cfg) (row : Nat) (bytes : List Byte) : Except DecodeError Instr :=
  match row with
  | 0 =>
    match bytes with
    | [n0, n1, n2, n3] => .ok (.mfU2f (word4 n0 n1 n2 n3))
    | _ => .error (.operandLength 0)
  | 1 => operandsWW 1 .mfMul bytes
  | 2 => operandsWW 2 .mfAdd bytes
  | 3 => operandsWW 3 .mfDiv bytes
  | 4 => operandsXfer bytes
  | 5 => operandsEmptyBody c 5 c.opGetVersion .ccGetVersion bytes
  | 6 => operandsFixed c bytes
  | 7 => operandsAlgo c bytes
  | 8 => operandsEmptyBody c 8 c.opGetSerial .ccGetSerial bytes
  | 9 => operandsParam c bytes
  | 10 => operandsReset c bytes
  | 11 => .ok (.ccInit bytes)
  | 12 => operandsE 12 .raEnable bytes
  | 13 => operandsE 13 .raDisable bytes
  | 14 => operandsEnqueue bytes
  | 15 => operandsFmt bytes
  | 16 => operandsChunk bytes
  | 17 => operandsEB 17 .raByte bytes
  | 18 => operandsEB 18 .raSeek1 bytes
  | 19 => operandsEB 19 .raSeek2 bytes
  | 20 => operandsEB 20 .raHdr bytes
  | 21 => operandsE 21 .raHdrdone bytes
  | 22 => operandsE 22 .raStart bytes
  | 23 => operandsCont bytes
  | 24 => operandsEB 24 .raPay bytes
  | 25 => operandsE 25 .raPktdone bytes
  | 26 => operands0 26 .lutBuild bytes
  | 27 => operands0 27 .dcStart bytes
  | 28 => .ok (.dcData bytes)
  | 29 => if bytes.length = 11 then .ok (.dcUnpack (unitOfBytes bytes)) else .error (.operandLength 29)
  | 30 => operands0 30 .dcEnd bytes
  | 31 => operands0 31 .clStart bytes
  | 32 => .ok (.clData bytes)
  | 33 => operandsN 33 .clNib bytes
  | 34 => operandsN 34 .clDelta bytes
  | 35 => operandsN 35 .clSkip bytes
  | 36 =>
    match bytes with
    | [b] => if b = 0xF then .ok .clLit else .error (.operandValue 36)
    | _ => .error (.operandLength 36)
  | 37 => operandsN 37 .clLithi bytes
  | 38 => operandsN 38 .clLitlo bytes
  | 39 =>
    match bytes with
    | [v] => .ok (.clEmit v)
    | _ => .error (.operandLength 39)
  | 40 => operands0 40 .clEnd bytes
  | n => .error (.unknownSelector n)

/-- The operation a stimulus stands for. Total; rejects by name. -/
def decode (c : Cfg) (bytes : List Byte) : Except DecodeError Instr :=
  match bytes with
  | [] => .error .empty
  | sel :: operands =>
    match decodeRow c sel.toNat operands with
    | .ok i => if wellFormed c i then .ok i else .error (.illFormed sel.toNat)
    | .error err => .error err

/-- The stimulus of an operation, written from the same layouts as `decode`. -/
def encode (c : Cfg) : Instr → List Byte
  | .mfU2f n => 0 :: putWord n
  | .mfMul a b => 1 :: (putWord a ++ putWord b)
  | .mfAdd a b => 2 :: (putWord a ++ putWord b)
  | .mfDiv a b => 3 :: (putWord a ++ putWord b)
  | .ccXfer req want maxReply => 4 :: (if want then 1 else 0) :: (putWord (BitVec.ofNat 32 maxReply) ++ req)
  | .ccGetVersion => 5 :: reqBytes c c.opGetVersion []
  | .ccGetFixed => 6 :: reqBytes c c.opGetFixed (putHalf 0)
  | .ccGetAlgo sel => 7 :: reqBytes c c.opGetAlgo (sel ++ putHalf 0)
  | .ccGetSerial => 8 :: reqBytes c c.opGetSerial []
  | .ccSetParam param value => 9 :: reqBytes c c.opSetParam (putHalf param ++ putHalf value)
  | .ccReset => 10 :: reqBytes c c.opSetMode (putHalf c.modeKnown)
  | .ccInit sel => 11 :: sel
  | .raEnable e => [12, endpointByte e]
  | .raDisable e => [13, endpointByte e]
  | .bqEnqueue e buf => 14 :: endpointByte e :: (putWord (BitVec.ofNat 32 buf.id) ++ putWord (BitVec.ofNat 32 buf.cap))
  | .fmtSet e w h l n =>
    15 :: endpointByte e :: (putWord (BitVec.ofNat 32 w) ++ putWord (BitVec.ofNat 32 h) ++ putWord (BitVec.ofNat 32 l)
      ++ putWord (BitVec.ofNat 32 n))
  | .raChunk e s => 16 :: endpointByte e :: s
  | .raByte e b => [17, endpointByte e, b]
  | .raSeek1 e b => [18, endpointByte e, b]
  | .raSeek2 e b => [19, endpointByte e, b]
  | .raHdr e b => [20, endpointByte e, b]
  | .raHdrdone e => [21, endpointByte e]
  | .raStart e => [22, endpointByte e]
  | .raCont e seq => 23 :: endpointByte e :: putHalf seq
  | .raPay e b => [24, endpointByte e, b]
  | .raPktdone e => [25, endpointByte e]
  | .lutBuild => [26]
  | .dcStart => [27]
  | .dcData s => 28 :: s
  | .dcUnpack u => 29 :: bytesOfUnit u
  | .dcEnd => [30]
  | .clStart => [31]
  | .clData s => 32 :: s
  | .clNib n => [33, n.setWidth 8]
  | .clDelta n => [34, n.setWidth 8]
  | .clSkip n => [35, n.setWidth 8]
  | .clLit => [36, 0xF]
  | .clLithi n => [37, n.setWidth 8]
  | .clLitlo n => [38, n.setWidth 8]
  | .clEmit v => [39, v]
  | .clEnd => [40]

/-- The number of an operation's row in spec/opcode_table.json: the selector byte of its stimulus. -/
def rowOf : Instr → Nat
  | .mfU2f _ => 0
  | .mfMul _ _ => 1
  | .mfAdd _ _ => 2
  | .mfDiv _ _ => 3
  | .ccXfer _ _ _ => 4
  | .ccGetVersion => 5
  | .ccGetFixed => 6
  | .ccGetAlgo _ => 7
  | .ccGetSerial => 8
  | .ccSetParam _ _ => 9
  | .ccReset => 10
  | .ccInit _ => 11
  | .raEnable _ => 12
  | .raDisable _ => 13
  | .bqEnqueue _ _ => 14
  | .fmtSet _ _ _ _ _ => 15
  | .raChunk _ _ => 16
  | .raByte _ _ => 17
  | .raSeek1 _ _ => 18
  | .raSeek2 _ _ => 19
  | .raHdr _ _ => 20
  | .raHdrdone _ => 21
  | .raStart _ => 22
  | .raCont _ _ => 23
  | .raPay _ _ => 24
  | .raPktdone _ => 25
  | .lutBuild => 26
  | .dcStart => 27
  | .dcData _ => 28
  | .dcUnpack _ => 29
  | .dcEnd => 30
  | .clStart => 31
  | .clData _ => 32
  | .clNib _ => 33
  | .clDelta _ => 34
  | .clSkip _ => 35
  | .clLit => 36
  | .clLithi _ => 37
  | .clLitlo _ => 38
  | .clEmit _ => 39
  | .clEnd => 40

/-- The operation a nibble code selects when no literal is being assembled (R117). -/
def nibbleCode (n : Nib) : Instr :=
  if n.toNat ≤ 12 then .clDelta n else if n = 15 then .clLit else .clSkip n

/-- The operation a complete packet header selects (R113): a start packet or a continuation packet. -/
def packetClass (c : Cfg) (e : Endpoint) (hdr : List Byte) : Instr :=
  if le16 hdr 2 = c.startType e then .raStart e else .raCont e (le16 hdr 4)

/-- The operation whose request a header names (R102, R106 to R108); a header no row's pattern matches is that of a
bare CC.XFER. A header carries no `want_reply` and no `max_reply`: the model takes true and MAX_REPLY (DESIGN CHOICE,
notes/assumptions/23.md). Bytes the table gives no bits are zero. -/
def requestClass (c : Cfg) (bytes : List Byte) : Instr :=
  let size := (le16 bytes 2).toNat
  let whole := bytes ++ List.replicate (8 + 2 * size - bytes.length) 0
  let opcode := le16 bytes 4
  if opcode = c.opGetVersion ∧ size = 0 then .ccGetVersion
  else if opcode = c.opGetSerial ∧ size = 0 then .ccGetSerial
  else if opcode = c.opGetFixed ∧ size = 1 then .ccGetFixed
  else if opcode = c.opGetAlgo ∧ size = c.algoSelWords + 1 then .ccGetAlgo ((whole.drop 8).take (2 * c.algoSelWords))
  else if opcode = c.opSetParam ∧ size = 2 then .ccSetParam (le16 whole 8) (le16 whole 10)
  else if opcode = c.opSetMode ∧ size = 1 ∧ le16 whole 8 = c.modeKnown then .ccReset
  else .ccXfer whole true c.maxReply

/-- A header's endpoint: COLOR where its type is one of COLOR's two configured types, else DEPTH; a header does not
say on which endpoint it came (R113; notes/assumptions/23.md). -/
def packetEndpoint (c : Cfg) (hdr : List Byte) : Endpoint :=
  if le16 hdr 2 = c.startColor ∨ le16 hdr 2 = c.endColor then .color else .depth

/-- The operation that a table row's bare bits select, by the formats of R101: 4 bits or one byte below 16, a nibble
(R117); another single byte, a byte of the depth endpoint's stream (R202); 11 bytes, a unit (R114); else a request or
a packet header by its sync marker (R102, R110). -/
def decodeBits (c : Cfg) (nbits w : Nat) : Option Instr :=
  let bytes := bytesOfNat ((nbits + 7) / 8) w
  if w ≥ 2 ^ nbits then none
  else if nbits = 0 then none
  else if nbits ≤ 8 then some (if w < 16 then nibbleCode (BitVec.ofNat 4 w) else .raByte .depth (BitVec.ofNat 8 w))
  else if nbits = 88 then some (.dcUnpack (unitOfBytes bytes))
  else if bytes.length < 8 then none
  else if le16 bytes 0 = c.hostSync then some (requestClass c bytes)
  else if le16 bytes 0 = c.devSync ∧ bytes.length = 12 then some (packetClass c (packetEndpoint c bytes) bytes)
  else none

/-- The decoder's answer for a row of spec/opcode_table.json whose bits are `w`, under the default configuration. -/
def decodeTableWord (nbits w : Nat) : Option Instr := decodeBits Cfg.default nbits w

end Sys2Proof
end

