-- ==== Sys2Proof/Machine/State.lean ====
section
/-! DEFINITION. The state of the block as plain data: every register of 10_state.md, the buffers it holds, the
environment's answers, the observables of R358, and the stimuli still to come. -/

namespace Sys2Proof.Machine

/-- The bytes the block has written into one output buffer, by offset (R50, R78). Canonical form: offsets strictly rising.
A byte that is not listed has not been written by the block: it is the owner's, and reads as no value (U23). -/
abbrev Memory := List Host.Cell

/-- The depth LUT by index (R38, R50). Canonical form: indices strictly rising and below 2048, no entry 0; an unlisted
entry reads as 0, its reset value (R38). -/
abbrev Lut := List (Nat × Half)

/-- The reassembly state of R27. -/
inductive RState where
  | seek1
  | seek2
  | hdr
  | payload
deriving DecidableEq, Repr

/-- The literal state `cl.lit` of R42. -/
inductive LitState where
  | none
  | wantHi
  | wantLo
deriving DecidableEq, Repr

/-- The reason a `PROTOCOL` event carries (R300 code 3). -/
inductive Reason where
  | short
  | sync
  | status (v : Half)
deriving DecidableEq, Repr

/-- One entry of an event trace (R59). -/
inductive Event where
  | loss (expected seen : Half)
  | overflow (dropped : Nat)
  | noBuffer
  | protocol (r : Reason)
deriving DecidableEq, Repr

/-- The three errors that end a control operation (R300 codes 1 to 3). -/
inductive CtrlError where
  | transport
  | timeout
  | protocol (r : Reason)
deriving DecidableEq, Repr

/-- Why CC.INIT failed (R300 code 7). `noAttempt` is the loop of R178 run zero times, which R5's `INIT_RETRIES >= 1`
excludes. -/
inductive InitCause where
  | firmwareTooOld
  | error (e : CtrlError)
  | noAttempt
deriving DecidableEq, Repr

/-- `dh.version` (R23). -/
structure Version where
  major : Byte
  minor : Byte
  build : Half
  rest  : List Byte
deriving DecidableEq, Repr

/-- What an operation returns to its caller (R161, R170, R178, R311; R143 to R148 for the minifloat unit). -/
inductive OpResult where
  /-- a minifloat word -/
  | word (w : Word)
  /-- the signed 32-bit quotient of MF.DIV -/
  | int (v : Word)
  /-- `Ok(reply)` of CC.XFER -/
  | reply (r : List Byte)
  /-- `Ok(none)` of CC.XFER -/
  | noReply
  /-- success of CC.GET_VERSION, which returns the record -/
  | version (v : Version)
  /-- success of another control operation -/
  | ok
  /-- a control operation's error -/
  | error (e : CtrlError)
  /-- `InitFailed(cause)` of CC.INIT -/
  | initFailed (cause : InitCause)
deriving DecidableEq, Repr

/-- The status of a completed buffer (R56, D31). -/
inductive Status where
  | ok
  | cancelled
deriving DecidableEq, Repr

/-- One call `Complete(e, buf, n, status, ts, seq)`, with the bytes the buffer holds (R56, R358). -/
structure Completion where
  buf    : Buf
  bytes  : Nat
  status : Status
  ts     : Stamp
  seq    : Word
  mem    : Memory
deriving DecidableEq, Repr

/-- The active buffer of an endpoint: its handle and what the block has written into it (R34). -/
structure ActiveBuf where
  buf : Buf
  mem : Memory
deriving DecidableEq, Repr

/-- The registers of one endpoint (R26 to R37, R59). -/
structure Ep where
  rstate       : RState
  hdr          : Vector Byte 12
  hdrFill      : Nat
  remaining    : Half
  ptype        : Half
  lastSeq      : Half
  corrupt      : Bool
  frameCount   : Word
  byteCount    : Word
  pktCount     : Word
  padStart     : Half
  padEnd       : Half
  ts           : Stamp
  active       : Option ActiveBuf
  cursor       : Nat
  avail        : List Buf
  enabled      : Bool
  imageSize    : Nat
  imageWidth   : Nat
  bytesPerLine : Nat
  /-- the model's own bit: FMT.SET has been called (R215's precondition "the format registers set") -/
  fmtSet       : Bool
  events       : List Event
  /-- the `Complete` calls made so far, in order (R358) -/
  completed    : List Completion
  /-- the environment's answers to coming `Now()` calls of this endpoint's callback, oldest first (R58, R85) -/
  nowAnswers   : List Stamp
  /-- the model's own counter: free capture times drawn by this endpoint's callback -/
  nowDraws     : Nat
deriving DecidableEq, Repr

/-- The control channel's registers (R22, R25, R59). -/
structure Cc where
  reqId  : Half
  lock   : Bool
  events : List Event
deriving DecidableEq, Repr

/-- The Device Handle's records (R23, R24, R45). -/
structure Dh where
  version  : Version
  fixed    : List Byte
  fixedLen : Nat
  algo     : List Byte
  algoLen  : Nat
  serial   : List Byte
  cal      : Cal
deriving DecidableEq, Repr

/-- The depth codec's registers (R38, R39). -/
structure Dc where
  lut      : Lut
  lutValid : Bool
  carry    : Vector Byte 11
  carryLen : Nat
deriving DecidableEq, Repr

/-- The colour codec's registers (R40 to R43). -/
structure Cl where
  last    : Vector Byte 3
  pos     : BitVec 2
  lit     : LitState
  litHi   : Nib
  lineCnt : Nat
deriving DecidableEq, Repr

/-- The control side of the environment: its answers to the calls of R54 that it has fixed so far, oldest first, and
what the block has said to it. When a list is used up the answer is a free value of `Config`, numbered by `draws`
(notes/assumptions/4.md, 5.md). The answers to `Now()` stand with the endpoint that asks (R85). -/
structure Env where
  /-- the answers of coming `CtrlWrite` calls: true is `ok` -/
  writeAnswers : List Bool
  /-- the answers of coming `CtrlRead` calls: none is `fail` -/
  readAnswers  : List (Option (List Byte))
  /-- the model's own counter: free values drawn -/
  draws        : Nat
  /-- the strings given to `CtrlWrite`, in order (R358) -/
  sent         : List (List Byte)
  /-- the number of `CtrlRead` calls made (R165, R181) -/
  reads        : Nat
deriving DecidableEq, Repr

/-- Where a bring-up stands between two of its exchanges (R178): what it does next; a paged read carries the bytes
gathered and the word offset reached (R172). -/
inductive InitPhase where
  | version
  | reset
  | fixed (data : List Byte) (off : Half)
  | serial
  | algo (data : List Byte) (off : Half)
deriving DecidableEq, Repr

/-- A higher-level operation that its caller has invoked and that stands between two of its exchanges (R86): another
caller's exchange may come next. CC.INIT carries how many attempts are left after the running one. -/
inductive Call where
  | getFixed (data : List Byte) (off : Half)
  | getAlgo (sel data : List Byte) (off : Half)
  | init (sel : List Byte) (left : Nat) (phase : InitPhase)
deriving DecidableEq, Repr

/-- One thing the outside world does to the block (notes/assumptions/1.md, 18.md). -/
inductive Stimulus where
  /-- an operation by an agent of R84, as the bytes `Decode.lean` lays out, in one go -/
  | op (bytes : List Byte)
  /-- the host's write of the calibration words (R45, R346 step 3) -/
  | calWrite (cal : Cal)
  /-- a caller's invocation of an operation, round by round where it makes several exchanges (R86) -/
  | invoke (bytes : List Byte)
  /-- the caller of the `k`-th operation in progress makes its next exchange (R86) -/
  | resume (k : Nat)
deriving DecidableEq, Repr

/-- The machine. -/
structure State where
  cfg     : Cfg
  cc      : Cc
  dh      : Dh
  color   : Ep
  depth   : Ep
  dc      : Dc
  cl      : Cl
  env     : Env
  /-- the results returned to callers so far, in order (R358) -/
  results : List OpResult
  /-- the model's own: the higher-level operations standing between two exchanges, oldest first (R86) -/
  calls   : List Call
  /-- the stimuli still to come, next first (R358) -/
  stim    : List Stimulus
deriving DecidableEq, Repr

/-- Faults: there is none. "Nothing is fatal" (R314): no error kind stops the block, and what it meets it returns as a
result or logs as an event (R300, R311). Safe: a step can only go on or be refused by name. -/
inductive Fault where
deriving DecidableEq, Repr

/-- Refusals. Every one is safe: the model gives the call no meaning where the spec's treatment is `refuse`
(93_implementation_defined.md) or the operand or stimulus is none of the operation's. -/
inductive Refusal where
  /-- raised by `exec` for an instruction that has no meaning yet; safe -/
  | notModelled (mnemonic : String)
  /-- raised by `step` for a stimulus that decodes to no operation; safe -/
  | undecodable (e : DecodeError)
  /-- raised by MF.U2F, MF.MUL, MF.ADD, MF.DIV outside the domain of R149 (U1 to U4); safe -/
  | mfDomain
  /-- raised by CC.XFER for a request or a reply length that R161 excludes (U8); safe -/
  | xferMalformed
  /-- raised by CC.GET_ALGO and CC.INIT for a selector that is not `2 * ALGO_SEL_WORDS` bytes (R174); safe -/
  | selectorLength
  /-- raised by RA.ENABLE on an enabled endpoint (R215, U12); safe -/
  | enableWhileEnabled
  /-- raised by RA.ENABLE before any FMT.SET of the endpoint (R215, R37, R347); safe -/
  | formatUnset
  /-- raised by RA.ENABLE(DEPTH) before LUT.BUILD (R215, R348); safe -/
  | lutNotBuilt
  /-- raised by FMT.SET on an enabled endpoint (R218, U13); safe -/
  | formatWhileEnabled
  /-- raised by FMT.SET(COLOR) with width 0 (U11); safe -/
  | colourWidthZero
  /-- raised by LUT.BUILD while the depth endpoint is enabled (R241, U14); safe -/
  | lutWhileEnabled
  /-- raised by BQ.ENQUEUE of a buffer smaller than `IMAGE_SIZE[e]` (R217, U9); safe -/
  | bufferTooSmall
  /-- raised by BQ.ENQUEUE of a buffer the block already holds (R217, R89, U9); safe -/
  | bufferHeld
  /-- raised by DC.UNPACK and by the colour operations that emit a sample when they are called with no active buffer,
  which `BufWrite` requires (R78); safe -/
  | noActiveBuffer
  /-- raised by CL.DELTA and CL.SKIP for a nibble that is not one of the row's codes (R117, R274, R275); safe -/
  | nibbleNotInRow
deriving DecidableEq, Repr

/-- An endpoint's registers at session creation (R60, R341). The format registers are DESIGN CHOICE 0
(notes/assumptions/11.md), the header's contents DESIGN CHOICE zeros (12.md): the spec leaves both unspecified. -/
def Ep.reset : Ep where
  rstate := .seek1
  hdr := Vector.replicate 12 0
  hdrFill := 0
  remaining := 0
  ptype := 0
  lastSeq := 0
  corrupt := false
  frameCount := 0
  byteCount := 0
  pktCount := 0
  padStart := 0
  padEnd := 0
  ts := 0
  active := none
  cursor := 0
  avail := []
  enabled := false
  imageSize := 0
  imageWidth := 0
  bytesPerLine := 0
  fmtSet := false
  events := []
  completed := []
  nowAnswers := []
  nowDraws := 0

/-- The Device Handle at session creation: all unspecified in the spec (R60); DESIGN CHOICE zeros and empty strings
(notes/assumptions/10.md). -/
def Dh.reset : Dh where
  version := { major := 0, minor := 0, build := 0, rest := [] }
  fixed := []
  fixedLen := 0
  algo := []
  algoLen := 0
  serial := []
  cal := { dcl := 0, pix := 0, dsr := 0, p4 := 0 }

/-- Session creation (R340 (1), R341): the machine right after reset. The configuration is the default record
(notes/assumptions/3.md); no stimulus has come and the environment has fixed no answer. -/
def State.reset : State where
  cfg := Cfg.default
  cc := { reqId := 0, lock := false, events := [] }
  dh := Dh.reset
  color := Ep.reset
  depth := Ep.reset
  dc := { lut := [], lutValid := false, carry := Vector.replicate 11 0, carryLen := 0 }
  cl := { last := Vector.replicate 3 0, pos := 0, lit := .none, litHi := 0, lineCnt := 0 }
  env := { writeAnswers := [], readAnswers := [], draws := 0, sent := [], reads := 0 }
  results := []
  calls := []
  stim := []

end Sys2Proof.Machine
end

