-- ==== Sys2Proof/Machine/Ops.lean ====
section
/-! DEFINITION. The named operations over the block's storage, registers and environment that every meaning is built
from: sparse storage in canonical form, endpoint access, BufWrite, Acquire, Complete, the environment's calls, the
event traces, and `raise`: how an error is taken (R8, R311). -/

namespace Sys2Proof.Machine

/-! ### Sparse storage -/

/-- The value stored at `a`, if any. -/
def lookupCell {α : Type} (a : Nat) : List (Nat × α) → Option α
  | [] => none
  | (b, w) :: r => if a = b then some w else lookupCell a r

/-- Store `v` at `a`, keeping the addresses strictly rising. -/
def insertCell {α : Type} (a : Nat) (v : α) : List (Nat × α) → List (Nat × α)
  | [] => [(a, v)]
  | (b, w) :: r => if a < b then (a, v) :: (b, w) :: r else if a = b then (a, v) :: r else (b, w) :: insertCell a v r

/-- Forget what is stored at `a`. -/
def eraseCell {α : Type} (a : Nat) : List (Nat × α) → List (Nat × α)
  | [] => []
  | (b, w) :: r => if a = b then r else (b, w) :: eraseCell a r

/-- Addresses strictly rising. -/
abbrev Rising {α : Type} (m : List (Nat × α)) : Prop := m.Pairwise fun x y => x.1 < y.1

/-- The canonical form of a buffer's bytes. -/
abbrev Memory.wf (m : Memory) : Prop := Rising m

/-- The byte the block has written at an offset; none where it has written none (U23). -/
def Memory.read (m : Memory) (a : Nat) : Option Byte := lookupCell a m

/-- One byte written. -/
def Memory.write (m : Memory) (a : Nat) (b : Byte) : Memory := insertCell a b m

/-- A byte string written at consecutive offsets. -/
def Memory.writeBytes (m : Memory) (a : Nat) : List Byte → Memory
  | [] => m
  | b :: r => Memory.writeBytes (m.write a b) (a + 1) r

/-- The canonical form of the LUT. -/
abbrev Lut.wf (l : Lut) : Prop := Rising l ∧ ∀ x ∈ l, x.2 ≠ 0 ∧ x.1 < Config.lutSize

/-- `LutRead(c)` (R9): an unlisted entry is the sentinel 0 (R38, R82). -/
def Lut.read (l : Lut) (c : Nat) : Half := (lookupCell c l).getD 0

/-- `LutWrite(c, v)` (R9): writing the value an unlisted entry reads as removes the entry. -/
def Lut.write (l : Lut) (c : Nat) (v : Half) : Lut := if v = 0 then eraseCell c l else insertCell c v l

/-! ### Endpoints -/

/-- `ep[e]`. -/
def State.ep (s : State) : Endpoint → Ep
  | .color => s.color
  | .depth => s.depth

/-- The state with `ep[e]` replaced; the other endpoint and everything else stay (R61). -/
def State.withEp (s : State) (e : Endpoint) (ep : Ep) : State :=
  match e with
  | .color => { s with color := ep }
  | .depth => { s with depth := ep }

/-- One endpoint's registers changed by `f`. -/
def State.modEp (s : State) (e : Endpoint) (f : Ep → Ep) : State := s.withEp e (f (s.ep e))

/-- `event K` on an endpoint (R8, R59). -/
def Ep.logEvent (ep : Ep) (ev : Event) : Ep := { ep with events := ep.events ++ [ev] }

/-- `BufWrite(e, s)` (R78): clipped at `IMAGE_SIZE`, one OVERFLOW event when anything is dropped. The rule requires an
active buffer; the meanings that can be called without one refuse that call before they come here, and the stream path
never does (R214). -/
def Ep.bufWrite (ep : Ep) (bytes : List Byte) : Ep :=
  match ep.active with
  | none => ep
  | some ab =>
    let k := min bytes.length (ep.imageSize - ep.cursor)
    let ep' := { ep with
      active := some { ab with mem := Memory.writeBytes ab.mem ep.cursor (bytes.take k) }
      cursor := ep.cursor + k }
    if k < bytes.length then ep'.logEvent (.overflow (bytes.length - k)) else ep'

/-- `Acquire(e)` into `ep.active` (R34, R56, R208): the head of `ep.avail`, or none. What the buffer held before is the
owner's (U23). -/
def Ep.acquire (ep : Ep) : Ep :=
  match ep.avail with
  | [] => ep
  | b :: r => { ep with active := some { buf := b, mem := [] }, avail := r }

/-- `Complete` of the active buffer with the endpoint's cursor, timestamp and frame count, and its release (R216,
R250, R281). -/
def Ep.complete (ep : Ep) (status : Status) : Ep :=
  match ep.active with
  | none => ep
  | some ab => { ep with
      active := none
      completed := ep.completed ++
        [{ buf := ab.buf, bytes := ep.cursor, status := status, ts := ep.ts, seq := ep.frameCount, mem := ab.mem }] }

/-- The `Complete` call of a queued buffer that RA.DISABLE gives back: no byte, timestamp 0, sequence 0 (R216, D31). -/
def cancelled (b : Buf) : Completion := { buf := b, bytes := 0, status := .cancelled, ts := 0, seq := 0, mem := [] }

/-- The drain of RA.DISABLE (R216): every queued buffer is completed as cancelled, in order. -/
def Ep.drain (ep : Ep) : Ep := { ep with completed := ep.completed ++ ep.avail.map cancelled, avail := [] }

/-- The ids of the buffers an endpoint holds: the active one, then the queue (R62 (f), R89). -/
def Ep.heldIds (ep : Ep) : List Nat := (ep.active.toList.map fun ab => ab.buf.id) ++ ep.avail.map fun b => b.id

/-! ### The environment's calls -/

/-- `CtrlWrite(s)` (R54): true is `ok`. -/
def State.ctrlWrite (s : State) (bytes : List Byte) : Bool × State :=
  match s.env.writeAnswers with
  | a :: r => (a, { s with env := { s.env with writeAnswers := r, sent := s.env.sent ++ [bytes] } })
  | [] => (Config.freeCtrlWrite s.env.draws,
      { s with env := { s.env with draws := s.env.draws + 1, sent := s.env.sent ++ [bytes] } })

/-- `CtrlRead(n)` (R54): none is `fail`; a reply is cut at `n` bytes (R75). -/
def State.ctrlRead (s : State) (n : Nat) : Option (List Byte) × State :=
  match s.env.readAnswers with
  | a :: r => (a.map (List.take n), { s with env := { s.env with readAnswers := r, reads := s.env.reads + 1 } })
  | [] => ((Config.freeCtrlRead s.env.draws).map (List.take n),
      { s with env := { s.env with draws := s.env.draws + 1, reads := s.env.reads + 1 } })

/-- `Now()` called by endpoint `e`'s callback (R58): each callback has its own answers, so that the endpoints share
nothing (R85). -/
def Ep.now (e : Endpoint) (ep : Ep) : Stamp × Ep :=
  match ep.nowAnswers with
  | a :: r => (a, { ep with nowAnswers := r })
  | [] => (Config.freeNow e ep.nowDraws, { ep with nowDraws := ep.nowDraws + 1 })

/-- A build number the spec leaves unspecified (R171, U6): a free value. -/
def State.drawBuild (s : State) (major : Byte) (raw : Half) : Half × State :=
  (Config.freeBuild s.env.draws major raw, { s with env := { s.env with draws := s.env.draws + 1 } })

/-! ### Results and errors -/

/-- An operation's result returned to its caller (R358). -/
def State.answer (s : State) (r : OpResult) : State := { s with results := s.results ++ [r] }

/-- `event PROTOCOL(r)` on the session (R59). -/
def State.logProtocol (s : State) (r : Reason) : State :=
  { s with cc := { s.cc with events := s.cc.events ++ [.protocol r] } }

/-- `cc.lock` written (R25, R160). -/
def State.setLock (s : State) (b : Bool) : State := { s with cc := { s.cc with lock := b } }

/-- How the block takes a `ProtocolError` (R303, R311): one event, the kind handed to the caller, no other change. The
lock is released by the exchange that is ending (`xferReply`). There is no return operation (R312). -/
def raiseProtocol {α : Type} (s : State) (r : Reason) : Except CtrlError α × State :=
  (.error (.protocol r), s.logProtocol r)

/-- How the block takes a `TransportError` or a `Timeout` (R301, R302, R311): the kind is handed to the caller; no
event. -/
def raiseQuiet {α : Type} (s : State) (e : CtrlError) : Except CtrlError α × State := (.error e, s)

/-- The spec's own numbers for the error kinds (R300, D27). -/
def CtrlError.code : CtrlError → Nat
  | .transport => 1
  | .timeout => 2
  | .protocol _ => 3

/-- The number of the condition or error an event records (R300): LOSS is StreamCorruption, OVERFLOW BufferOverflow,
NOBUFFER NoBuffer, PROTOCOL ProtocolError. -/
def Event.code : Event → Nat
  | .protocol _ => 3
  | .loss _ _ => 4
  | .overflow _ => 5
  | .noBuffer => 6

/-- The number of `InitFailed` (R300). -/
def initFailedCode : Nat := 7

end Sys2Proof.Machine
end

