-- ==== Sys2Proof/Machine/Operands.lean ====
section
/-! DEFINITION. The fields the operations take out of their operands: a packet header (R110), a reply (R103), a depth
unit (R114), a colour sample's channel (R41). -/

namespace Sys2Proof.Machine

/-! ### Packet header (R110 to R112) -/

/-- The packet type field. -/
def hdrType (h : Vector Byte 12) : Half := half h[2] h[3]

/-- The sequence number field. -/
def hdrSeq (h : Vector Byte 12) : Half := half h[4] h[5]

/-- The declared size: the one big-endian field (R70, R111). -/
def hdrDeclared (h : Vector Byte 12) : Half := half h[7] h[6]

/-- `meta[31:16]`, the start padding (R112). -/
def hdrPadStart (h : Vector Byte 12) : Half := half h[10] h[11]

/-- `meta[15:0]`, the end padding (R112). -/
def hdrPadEnd (h : Vector Byte 12) : Half := half h[8] h[9]

/-- The payload length: declared size less 12, or 0 when the declared size is below 12 (R111, R213). -/
def payloadLen (declared : Half) : Half := if 12 ≤ declared.toNat then declared - 12 else 0

/-- The first sync byte on the wire (R110). -/
def sync0 (c : Cfg) : Byte := loByte c.devSync

/-- The second sync byte on the wire (R110). -/
def sync1 (c : Cfg) : Byte := hiByte c.devSync

/-! ### Reply (R103, R105) -/

/-- The reply's size field: words after byte 7. -/
def replySize (r : List Byte) : Nat := (le16 r 2).toNat

/-- A reply with no status word, or that promises more bytes than were read (R105, R168). -/
def replyShort (r : List Byte) : Bool := replySize r == 0 || decide (r.length < 8 + 2 * replySize r)

/-- The reply's status word. -/
def replyStatus (r : List Byte) : Half := le16 r 8

/-- The reply's payload: `2 * size - 2` bytes from byte 10; what follows is ignored (R105, R168). -/
def replyPayload (r : List Byte) : List Byte := (r.drop 10).take (2 * replySize r - 2)

/-! ### Depth unit (R114) -/

/-- Code `j` of a unit: `U[87 - 11*j : 77 - 11*j]`. -/
def unitCode (u : DepthUnit) (j : Nat) : BitVec 11 := u.extractLsb' (77 - 11 * j) 11

/-! ### Colour (R41, R116) -/

/-- The channel of the current cycle position. -/
def Cl.channel (cl : Cl) : Fin 3 := Config.chCycle cl.pos

/-- The predictor of the current channel. -/
def Cl.predictor (cl : Cl) : Byte := cl.last[cl.channel]

/-- The sample a delta code stands for, modulo 256 (R126, R274). -/
def Cl.deltaSample (cl : Cl) (n : Nib) : Byte := cl.predictor + n.setWidth 8 - Config.deltaBias

end Sys2Proof.Machine
end

