-- ==== Sys2Proof/Machine/Flags.lean ====
section
/-! DEFINITION. The status flags of R46 and the tests that set, clear or read them. -/

namespace Sys2Proof.Machine

/-- The sequence number a continuation packet must carry (R126, R209). -/
def expectedSeq (lastSeq : Half) : Half := lastSeq + 1

/-- The gap test that sets `ep.corrupt` (R31, R209). -/
def seqGap (lastSeq seq : Half) : Bool := seq != expectedSeq lastSeq

/-- The derived flag `ep.active != none` (R46). -/
def Ep.holdsBuffer (ep : Ep) : Bool := ep.active.isSome

/-- Whether a finished packet runs the frame-end hook: the end type and no corruption (R211, R310 (e)). -/
def Ep.endsFrame (c : Cfg) (e : Endpoint) (ep : Ep) : Bool := ep.ptype == c.endType e && !ep.corrupt

/-- Whether a sample closes a scan line of width `w` (R280). -/
def lineDone (w lineCnt : Nat) : Bool := lineCnt == 2 * w

/-- Whether a nibble, in the literal state, yields a sample (R273): a delta code outside a literal, or the second
half of a literal. -/
def Cl.emits (cl : Cl) (n : Nib) : Bool :=
  match cl.lit with
  | .none => decide (n.toNat ≤ 12)
  | .wantHi => false
  | .wantLo => true

/-- Whether a version is below the firmware floor: lexicographic on (major, minor, build) (R178, D36). -/
def belowFloor (c : Cfg) (v : Version) : Bool :=
  decide (v.major < c.fwMajor) ||
    (v.major == c.fwMajor && (decide (v.minor < c.fwMinor) || (v.minor == c.fwMinor && decide (v.build < c.fwBuild))))

end Sys2Proof.Machine
end

