-- ==== Sys2Proof/Machine/Minifloat.lean ====
section
/-! DEFINITION. The minifloat unit (40_minifloat.md): the four pure operations on 32-bit words. `none` is a call outside
the domain of R149, to which the spec gives no meaning. -/

namespace Sys2Proof.Machine

/-- `S(w)` (R140). -/
def mfSign (w : Word) : Bool := w.getLsbD 31

/-- `E(w)` (R140). -/
def mfExp (w : Word) : Nat := (w.extractLsb' 23 8).toNat

/-- `F(w)` (R140). -/
def mfFrac (w : Word) : Nat := (w.extractLsb' 0 23).toNat

/-- `M(w)`: the mantissa with its leading bit (R140). -/
def mfMant (w : Word) : Nat := 2 ^ 23 + mfFrac w

/-- The magnitude bits `w[30:0]` that MF.ADD compares (R145). -/
def mfMag (w : Word) : Nat := (w.extractLsb' 0 31).toNat

/-- The well-formed domain (R141). -/
def mfWellFormed (w : Word) : Bool := w == 0 || (decide (1 ≤ mfExp w) && decide (mfExp w ≤ 254))

/-- `Pack(s, e, m)` (R140). -/
def mfPack (sign : Bool) (e m : Nat) : Word := BitVec.ofNat 32 (sign.toNat * 2 ^ 31 + e * 2 ^ 23 + (m - 2 ^ 23))

/-- `Pack` after the check `require 1 <= e <= 254` (R144, R145, R149). -/
def mfPackChecked (sign : Bool) (e : Int) (m : Nat) : Option Word :=
  if 1 ≤ e ∧ e ≤ 254 then some (mfPack sign e.toNat m) else none

/-- The value of a word (R140), as a rational number. -/
def mfValue (w : Word) : ℚ :=
  if w = 0 then 0
  else (if mfSign w then -1 else 1) * (mfMant w : ℚ) * (2 : ℚ) ^ ((mfExp w : Int) - 150)

/-- `Neg(w)` (R142). -/
def mfNeg (w : Word) : Word := if w = 0 then 0 else w ^^^ 0x80000000

/-- `MF.U2F(n)` (R143); `n >= 2^16` is outside the domain (U2). -/
def mfU2f (n : Nat) : Option Word :=
  if n = 0 then some 0
  else if n < 2 ^ 16 then some (mfPack false (127 + n.log2) (n <<< (23 - n.log2)))
  else none

/-- `MF.MUL(a, b)` (R144). -/
def mfMul (a b : Word) : Option Word :=
  if mfWellFormed a && mfWellFormed b then
    if a = 0 ∨ b = 0 then some 0
    else
      let p := mfMant a * mfMant b
      let lz := 47 - p.log2
      mfPackChecked (mfSign a ^^ mfSign b) ((mfExp a : Int) + mfExp b - 127 + (1 - lz)) (p >>> (24 - lz))
  else none

/-- The sum of MF.ADD once the operands are ordered by magnitude (R145). -/
def mfAddOrdered (hi lo : Word) : Option Word :=
  let d := mfExp hi - mfExp lo
  let ml := if d < 24 then mfMant lo >>> d else 0
  if mfSign hi = mfSign lo then
    let t := mfMant hi + ml
    if 2 ^ 24 ≤ t then mfPackChecked (mfSign hi) (mfExp hi + 1) (t >>> 1)
    else mfPackChecked (mfSign hi) (mfExp hi) t
  else
    let t := mfMant hi - ml
    if t = 0 then some 0
    else
      let lz := 23 - t.log2
      mfPackChecked (mfSign hi) ((mfExp hi : Int) - lz) (t <<< lz)

/-- `MF.ADD(a, b)` (R145). -/
def mfAdd (a b : Word) : Option Word :=
  if mfWellFormed a && mfWellFormed b then
    if a = 0 then some b
    else if b = 0 then some a
    else if mfMag b ≤ mfMag a then mfAddOrdered a b
    else mfAddOrdered b a
  else none

/-- The quotient of the magnitudes in MF.DIV (R148), exact on natural numbers. -/
def mfQuotient (a b : Word) : Nat :=
  if mfExp b ≤ mfExp a then (mfMant a <<< (mfExp a - mfExp b)) / mfMant b
  else mfMant a / (mfMant b <<< (mfExp b - mfExp a))

/-- `MF.DIV(a, b)` (R148): a signed 32-bit integer. -/
def mfDiv (a b : Word) : Option Word :=
  if mfWellFormed a && mfWellFormed b && b != 0 then
    if a = 0 then some 0
    else
      let q := mfQuotient a b
      if q < 2 ^ 31 then some (BitVec.ofInt 32 (if mfSign a ^^ mfSign b then -(q : Int) else q)) else none
  else none

/-- The meaning of a minifloat operation: its result goes to the caller; outside the domain the call is refused
(R149). No register is read or written (R44, R150). -/
def mfAnswer (f : Word → OpResult) (r : Option Word) (s : State) : Host.Outcome State Fault Refusal :=
  match r with
  | some w => .next (s.answer (f w))
  | none => .refused .mfDomain

/-- `MF.U2F` (R143). -/
def execMfU2f (n : Word) (s : State) : Host.Outcome State Fault Refusal := mfAnswer .word (mfU2f n.toNat) s

/-- `MF.MUL` (R144). -/
def execMfMul (a b : Word) (s : State) : Host.Outcome State Fault Refusal := mfAnswer .word (mfMul a b) s

/-- `MF.ADD` (R145). -/
def execMfAdd (a b : Word) (s : State) : Host.Outcome State Fault Refusal := mfAnswer .word (mfAdd a b) s

/-- `MF.DIV` (R148). -/
def execMfDiv (a b : Word) (s : State) : Host.Outcome State Fault Refusal := mfAnswer .int (mfDiv a b) s

end Sys2Proof.Machine
end

