-- ==== Sys2Proof/Machine/Control.lean ====
section
/-! DEFINITION. The control-channel client (41_control_channel.md): the exchange, the parsing of replies, the paged read,
and the operations built on them. A helper answers its result and the state; an error is a result (R311). -/

namespace Sys2Proof.Machine

/-- The eight operations of the control channel (R100, R316). -/
inductive CtrlOp where
  | xfer
  | version
  | fixed
  | algo (sel : List Byte)
  | serial
  | param (param value : Half)
  | reset
  | init (sel : List Byte)
deriving DecidableEq, Repr

/-- Which control-channel operation an instruction is, if any. -/
def ctrlOp : Instr → Option CtrlOp
  | .ccXfer _ _ _ => some .xfer
  | .ccGetVersion => some .version
  | .ccGetFixed => some .fixed
  | .ccGetAlgo sel => some (.algo sel)
  | .ccGetSerial => some .serial
  | .ccSetParam param value => some (.param param value)
  | .ccReset => some .reset
  | .ccInit sel => some (.init sel)
  | .mfU2f _ | .mfMul _ _ | .mfAdd _ _ | .mfDiv _ _ | .raEnable _ | .raDisable _ | .bqEnqueue _ _ | .fmtSet _ _ _ _ _
  | .raChunk _ _ | .raByte _ _ | .raSeek1 _ _ | .raSeek2 _ _ | .raHdr _ _ | .raHdrdone _ | .raStart _ | .raCont _ _
  | .raPay _ _ | .raPktdone _ | .lutBuild | .dcStart | .dcData _ | .dcUnpack _ | .dcEnd | .clStart | .clData _ | .clNib _
  | .clDelta _ | .clSkip _ | .clLit | .clLithi _ | .clLitlo _ | .clEmit _ | .clEnd => none

/-! ### The exchange (R160 to R167) -/

/-- The reads of one exchange: at most `n` more, then Timeout (R165, R167); the checks of each reply in the order of
R166. -/
def readLoop (maxReply : Nat) (id : Half) : Nat → State → Except CtrlError (List Byte) × State
  | 0, s => raiseQuiet s .timeout
  | n + 1, s =>
    match s.ctrlRead maxReply with
    | (none, s) => raiseQuiet s .transport
    | (some r, s) =>
      if r.length < Config.replyHdrLen then raiseProtocol s .short
      else if le16 r 0 ≠ s.cfg.devSync then raiseProtocol s .sync
      else if le16 r 6 = id then (.ok r, s)
      else readLoop maxReply id n s

/-- The opening of an exchange: take the lock, stamp the request with the counter, advance the counter (R160, R162),
and write the request (R163). -/
def sendRequest (req : List Byte) (s : State) : Bool × State :=
  State.ctrlWrite { s with cc := { s.cc with lock := true, reqId := s.cc.reqId + 1 } } (putLe16 req 6 s.cc.reqId)

/-- CC.XFER with a reply wanted (R161); the lock is released on every path (R160). -/
def xferReply (req : List Byte) (maxReply : Nat) (s : State) : Except CtrlError (List Byte) × State :=
  match sendRequest req s with
  | (false, s') => raiseQuiet (s'.setLock false) .transport
  | (true, s') =>
    match readLoop maxReply s.cc.reqId Config.maxReadAttempts s' with
    | (r, s'') => (r, s''.setLock false)

/-- CC.XFER with no reply wanted: the write alone (R164). -/
def xferSilent (req : List Byte) (s : State) : Except CtrlError Unit × State :=
  match sendRequest req s with
  | (false, s') => raiseQuiet (s'.setLock false) .transport
  | (true, s') => (.ok (), s'.setLock false)

/-! ### Replies (R168, R169) -/

/-- `ParseReply(r)` (R168). -/
def parseReply (r : List Byte) (s : State) : Except CtrlError (Half × List Byte) × State :=
  if replyShort r then raiseProtocol s .short else (.ok (replyStatus r, replyPayload r), s)

/-- `Exchange(opcode, body)` (R169): the payload of a reply with status 0. -/
def exchange (opcode : Half) (body : List Byte) (s : State) : Except CtrlError (List Byte) × State :=
  match xferReply (reqBytes s.cfg opcode body) s.cfg.maxReply s with
  | (.error err, s) => (.error err, s)
  | (.ok r, s) =>
    match parseReply r s with
    | (.error err, s) => (.error err, s)
    | (.ok (status, payload), s) => if status ≠ 0 then raiseProtocol s (.status status) else (.ok payload, s)

/-! ### Higher-level operations -/

/-- The four hexadecimal digits of a raw build number, most significant first. -/
def hexDigits (raw : Half) : List Nat :=
  [(raw.extractLsb' 12 4).toNat, (raw.extractLsb' 8 4).toNat, (raw.extractLsb' 4 4).toNat, (raw.extractLsb' 0 4).toNat]

/-- `FixBuild(major, raw)` (R171): the digits read as decimal from major 5 on. A digit above 9 leaves the result
unspecified: a free value (U6, notes/assumptions/7.md). -/
def fixBuild (major : Byte) (raw : Half) (s : State) : Half × State :=
  if major.toNat < 5 then (raw, s)
  else if (hexDigits raw).all (fun d => decide (d ≤ 9)) then
    (BitVec.ofNat 16 ((hexDigits raw).foldl (fun n d => 10 * n + d) 0), s)
  else s.drawBuild major raw

/-- `dh.version` written. -/
def State.setVersion (s : State) (v : Version) : State := { s with dh := { s.dh with version := v } }

/-- The body of CC.GET_VERSION (R170). -/
def getVersion (s : State) : Except CtrlError Version × State :=
  match exchange s.cfg.opGetVersion [] s with
  | (.error err, s) => (.error err, s)
  | (.ok p, s) =>
    if p.length < s.cfg.versionLen then raiseProtocol s .short
    else
      match fixBuild (byteAt p 0) (le16 p 2) s with
      | (build, s) =>
        let v : Version :=
          { major := byteAt p 0, minor := byteAt p 1, build := build, rest := (p.take s.cfg.versionLen).drop 4 }
        (.ok v, s.setVersion v)

/-- How one round of a paged read ends: with more to ask for, or with all there is. -/
inductive Page where
  | more (data : List Byte) (off : Half)
  | whole (data : List Byte)
deriving DecidableEq, Repr

/-- One round of `PagedRead` (R172): no exchange once the target is reached, else one exchange; `header` is what stands
before the offset. -/
def pageRound (opcode : Half) (header : List Byte) (target : Nat) (data : List Byte) (off : Half) (s : State) :
    Except CtrlError Page × State :=
  if target ≤ data.length then (.ok (.whole data), s)
  else
    match exchange opcode (header ++ putHalf off) s with
    | (.error err, s) => (.error err, s)
    | (.ok p, s) =>
      if p.length = 0 then (.ok (.whole data), s)
      else (.ok (.more (data ++ p.take (min p.length (target - data.length))) (off + BitVec.ofNat 16 (p.length / 2))), s)

/-- The rounds of `PagedRead` (R172), at most `fuel`. A round with payload adds at least one byte, so `target + 1`
rounds never run out. -/
def pagedRounds (opcode : Half) (header : List Byte) (target : Nat) :
    Nat → List Byte → Half → State → Except CtrlError (List Byte) × State
  | 0, data, _, s => (.ok data, s)
  | fuel + 1, data, off, s =>
    match pageRound opcode header target data off s with
    | (.error err, s) => (.error err, s)
    | (.ok (.whole d), s) => (.ok d, s)
    | (.ok (.more d off), s) => pagedRounds opcode header target fuel d off s

/-- `PagedRead(opcode, header, target)` (R172). -/
def pagedRead (opcode : Half) (header : List Byte) (target : Nat) (s : State) : Except CtrlError (List Byte) × State :=
  pagedRounds opcode header target (target + 1) [] 0 s

/-- `dh.fixed` and `dh.fixed_len` written (R173). -/
def State.setFixed (s : State) (d : List Byte) : State := { s with dh := { s.dh with fixed := d, fixedLen := d.length } }

/-- `dh.algo` and `dh.algo_len` written (R174). -/
def State.setAlgo (s : State) (d : List Byte) : State := { s with dh := { s.dh with algo := d, algoLen := d.length } }

/-- The body of CC.GET_FIXED (R173). -/
def getFixed (s : State) : Except CtrlError Unit × State :=
  match pagedRead s.cfg.opGetFixed [] s.cfg.fixedSize s with
  | (.error err, s) => (.error err, s)
  | (.ok d, s) => (.ok (), s.setFixed d)

/-- The body of CC.GET_ALGO (R174). -/
def getAlgo (sel : List Byte) (s : State) : Except CtrlError Unit × State :=
  match pagedRead s.cfg.opGetAlgo sel s.cfg.algoSize s with
  | (.error err, s) => (.error err, s)
  | (.ok d, s) => (.ok (), s.setAlgo d)

/-- The body of CC.GET_SERIAL (R175). -/
def getSerial (s : State) : Except CtrlError Unit × State :=
  match exchange s.cfg.opGetSerial [] s with
  | (.error err, s) => (.error err, s)
  | (.ok p, s) => (.ok (), { s with dh := { s.dh with serial := p.take s.cfg.serialMax ++ [0] } })

/-- The body of CC.SET_PARAM (R176). -/
def setParam (param value : Half) (s : State) : Except CtrlError Unit × State :=
  match exchange s.cfg.opSetParam (putHalf param ++ putHalf value) s with
  | (.error err, s) => (.error err, s)
  | (.ok _, s) => (.ok (), s)

/-- The body of CC.RESET (R177). -/
def resetDevice (s : State) : Except CtrlError Unit × State :=
  match exchange s.cfg.opSetMode (putHalf s.cfg.modeKnown) s with
  | (.error err, s) => (.error err, s)
  | (.ok _, s) => (.ok (), s)

/-- How one attempt of the bring-up ends: the sequence succeeded, a firmware below the floor, or an error. -/
inductive InitOutcome where
  | done
  | tooOld
  | failed (e : CtrlError)
deriving DecidableEq, Repr

/-- One step of the bring-up after the version check: go on when it succeeded, else the attempt fails (R178). -/
def initThen (r : Except CtrlError Unit × State) (k : State → InitOutcome × State) : InitOutcome × State :=
  match r with
  | (.error err, s) => (.failed err, s)
  | (.ok _, s) => k s

/-- One attempt of the bring-up sequence (R178): version, floor, reset, fixed block, serial, algorithm block. -/
def initAttempt (sel : List Byte) (s : State) : InitOutcome × State :=
  match getVersion s with
  | (.error err, s) => (.failed err, s)
  | (.ok v, s) =>
    if belowFloor s.cfg v then (.tooOld, s)
    else
      initThen (resetDevice s) fun s =>
        initThen (getFixed s) fun s =>
          initThen (getSerial s) fun s =>
            initThen (getAlgo sel s) fun s => (.done, s)

/-- The bounded loop of R178; `last` is the error of the latest attempt. -/
def initLoop (sel : List Byte) : Nat → InitCause → State → OpResult × State
  | 0, last, s => (.initFailed last, s)
  | n + 1, _, s =>
    match initAttempt sel s with
    | (.done, s) => (.ok, s)
    | (.tooOld, s) => (.initFailed .firmwareTooOld, s)
    | (.failed e, s) => initLoop sel n (.error e) s

/-! ### Round by round (R86)

The higher-level operations "are sequences of exchanges and are not atomic as a whole": a caller that invokes one of them
round by round makes at most one exchange at a time, and any other caller may come between. -/

/-- What a caller's operation does next: stand between two exchanges, or end with its result. -/
inductive Progress where
  | goesOn (c : Call)
  | ends (r : OpResult)
deriving DecidableEq, Repr

/-- The operation of several exchanges that an instruction invokes (R86, R173, R174, R178); none for an operation of one
exchange or of none. -/
def callOf (c : Cfg) (i : Instr) : Option Call :=
  match ctrlOp i with
  | some .fixed => some (.getFixed [] 0)
  | some (.algo sel) => if selShape c sel then some (.getAlgo sel [] 0) else none
  | some (.init sel) =>
    match c.initRetries with
    | 0 => none
    | n + 1 => if selShape c sel then some (.init sel n .version) else none
  | _ => none

/-- A round of a paged read that ends a caller's operation when all pages are in. -/
def callRound (c : List Byte → Half → Call) (store : State → List Byte → State) (r : Except CtrlError Page × State) :
    Progress × State :=
  match r with
  | (.error err, s) => (.ends (.error err), s)
  | (.ok (.whole d), s) => (.ends .ok, store s d)
  | (.ok (.more d off), s) => (.goesOn (c d off), s)

/-- How the running attempt of a bring-up goes on after one step of it. -/
inductive InitNext where
  | phase (p : InitPhase)
  | over (o : InitOutcome)
deriving DecidableEq, Repr

/-- A step of the bring-up that is one operation: the next phase when it succeeded, else the attempt fails. -/
def phaseThen (next : InitNext) (r : Except CtrlError Unit × State) : InitNext × State :=
  match r with
  | (.error err, s) => (.over (.failed err), s)
  | (.ok _, s) => (next, s)

/-- A step of the bring-up that is a round of a paged read. -/
def phasePage (more : List Byte → Half → InitPhase) (next : InitNext) (store : State → List Byte → State)
    (r : Except CtrlError Page × State) : InitNext × State :=
  match r with
  | (.error err, s) => (.over (.failed err), s)
  | (.ok (.whole d), s) => (next, store s d)
  | (.ok (.more d off), s) => (.phase (more d off), s)

/-- One step of a bring-up attempt, with at most one exchange (R178). -/
def initStep (sel : List Byte) (s : State) : InitPhase → InitNext × State
  | .version =>
    match getVersion s with
    | (.error err, s) => (.over (.failed err), s)
    | (.ok v, s) => if belowFloor s.cfg v then (.over .tooOld, s) else (.phase .reset, s)
  | .reset => phaseThen (.phase (.fixed [] 0)) (resetDevice s)
  | .fixed data off =>
    phasePage .fixed (.phase .serial) State.setFixed (pageRound s.cfg.opGetFixed [] s.cfg.fixedSize data off s)
  | .serial => phaseThen (.phase (.algo [] 0)) (getSerial s)
  | .algo data off =>
    phasePage .algo (.over .done) State.setAlgo (pageRound s.cfg.opGetAlgo sel s.cfg.algoSize data off s)

/-- What a bring-up does after one step of its running attempt: an error starts the next attempt from the version read
(R178). -/
def initProgress (sel : List Byte) (left : Nat) : InitNext × State → Progress × State
  | (.phase p, s) => (.goesOn (.init sel left p), s)
  | (.over .done, s) => (.ends .ok, s)
  | (.over .tooOld, s) => (.ends (.initFailed .firmwareTooOld), s)
  | (.over (.failed e), s) =>
    match left with
    | 0 => (.ends (.initFailed (.error e)), s)
    | n + 1 => (.goesOn (.init sel n .version), s)

/-- One step of a caller's operation in progress, with at most one exchange (R86). A paged read that has reached its
target ends in a step of its own, without an exchange. -/
def callStep (c : Call) (s : State) : Progress × State :=
  match c with
  | .getFixed data off =>
    callRound .getFixed State.setFixed (pageRound s.cfg.opGetFixed [] s.cfg.fixedSize data off s)
  | .getAlgo sel data off =>
    callRound (.getAlgo sel) State.setAlgo (pageRound s.cfg.opGetAlgo sel s.cfg.algoSize data off s)
  | .init sel left phase => initProgress sel left (initStep sel s phase)

/-- A caller's operation joins those in progress. -/
def State.addCall (s : State) (c : Call) : State := { s with calls := s.calls ++ [c] }

/-- The state after a step of the `k`-th operation in progress: it stands where it was, or leaves with its result. -/
def State.afterStep (k : Nat) : Progress × State → State
  | (.goesOn c, s) => { s with calls := s.calls.set k c }
  | (.ends r, s) => State.answer { s with calls := s.calls.eraseIdx k } r

/-- The caller of the `k`-th operation in progress goes on; there is nothing to do where there is none. -/
def State.resume (s : State) (k : Nat) : State :=
  match s.calls[k]? with
  | none => s
  | some c => State.afterStep k (callStep c s)

/-! ### Meanings -/

/-- Whether a control operation must wait: an exchange is coming and another caller holds the lock (R25, R86, R160).
The paged reads make no exchange when their target is 0 (R172), CC.INIT none when it makes no attempt. -/
def waits (s : State) (i : Instr) : Bool :=
  match ctrlOp i with
  | none => false
  | some .fixed => s.cc.lock && s.cfg.fixedSize != 0
  | some (.algo _) => s.cc.lock && s.cfg.algoSize != 0
  | some (.init _) => s.cc.lock && s.cfg.initRetries != 0
  | some .xfer | some .version | some .serial | some (.param _ _) | some .reset => s.cc.lock

/-- A control operation's result as its caller sees it. -/
def ctrlResult {α : Type} (f : α → OpResult) : Except CtrlError α → OpResult
  | .ok a => f a
  | .error e => .error e

/-- The meaning of a control operation: wait while another caller holds the lock (R160; `step` keeps the stimulus), else
run the body and return its result. -/
def runControl {α : Type} (i : Instr) (f : α → OpResult) (body : State → Except CtrlError α × State) (s : State) :
    Host.Outcome State Fault Refusal :=
  if waits s i then .next s
  else
    match body s with
    | (r, s) => .next (s.answer (ctrlResult f r))

/-- Operands of CC.XFER that R161 admits (U8). -/
def xferAdmits (c : Cfg) (req : List Byte) (want : Bool) (maxReply : Nat) : Bool :=
  reqShape req && (!want || (decide (10 ≤ maxReply) && decide (maxReply ≤ c.maxReply)))

/-- `CC.XFER` (R161). -/
def execCcXfer (req : List Byte) (wantReply : Bool) (maxReply : Nat) (s : State) : Host.Outcome State Fault Refusal :=
  if !xferAdmits s.cfg req wantReply maxReply then .refused .xferMalformed
  else if wantReply then runControl (.ccXfer req wantReply maxReply) .reply (xferReply req maxReply) s
  else runControl (.ccXfer req wantReply maxReply) (fun _ => .noReply) (xferSilent req) s

/-- `CC.GET_VERSION` (R170). -/
def execCcGetVersion (s : State) : Host.Outcome State Fault Refusal := runControl .ccGetVersion .version getVersion s

/-- `CC.GET_FIXED` (R173). -/
def execCcGetFixed (s : State) : Host.Outcome State Fault Refusal := runControl .ccGetFixed (fun _ => .ok) getFixed s

/-- `CC.GET_ALGO` (R174). -/
def execCcGetAlgo (sel : List Byte) (s : State) : Host.Outcome State Fault Refusal :=
  if !selShape s.cfg sel then .refused .selectorLength
  else runControl (.ccGetAlgo sel) (fun _ => .ok) (getAlgo sel) s

/-- `CC.GET_SERIAL` (R175). -/
def execCcGetSerial (s : State) : Host.Outcome State Fault Refusal := runControl .ccGetSerial (fun _ => .ok) getSerial s

/-- `CC.SET_PARAM` (R176). -/
def execCcSetParam (param value : Half) (s : State) : Host.Outcome State Fault Refusal :=
  runControl (.ccSetParam param value) (fun _ => .ok) (setParam param value) s

/-- `CC.RESET` (R177). -/
def execCcReset (s : State) : Host.Outcome State Fault Refusal := runControl .ccReset (fun _ => .ok) resetDevice s

/-- `CC.INIT` (R178). -/
def execCcInit (sel : List Byte) (s : State) : Host.Outcome State Fault Refusal :=
  if !selShape s.cfg sel then .refused .selectorLength
  else if waits s (.ccInit sel) then .next s
  else
    match initLoop sel s.cfg.initRetries .noAttempt s with
    | (r, s) => .next (s.answer r)

end Sys2Proof.Machine
end

