-- ==== Sys2Proof/Machine/Colour.lean ====
section
/-! DEFINITION. The colour codec (44_color_codec.md). -/

namespace Sys2Proof.Machine

/-- The three predictors cleared (R271, R280). -/
def clearedPredictors : Vector Byte 3 := Vector.replicate 3 0

/-- CL.START with a buffer held (R271). -/
def clStart (s : State) : State :=
  if s.color.holdsBuffer then
    { s with
      color := { s.color with cursor := 0 }
      cl := { s.cl with last := clearedPredictors, pos := 0, lit := .none, lineCnt := 0 } }
  else s

/-- The codec's registers after one sample (R279): predictor, cycle position, line counter, and the scan-line reset
after `2 * w` samples (R280). -/
def Cl.advance (cl : Cl) (w : Nat) (v : Byte) : Cl :=
  let cl' := { cl with last := cl.last.set cl.channel v, pos := cl.pos + 1, lineCnt := cl.lineCnt + 1 }
  if lineDone w cl'.lineCnt then { cl' with last := clearedPredictors, lineCnt := 0 } else cl'

/-- CL.EMIT (R279): the registers advance even when the write is clipped (R283). -/
def clEmit (v : Byte) (s : State) : State :=
  { s with color := s.color.bufWrite [v], cl := s.cl.advance s.color.imageWidth v }

/-- CL.DELTA (R274). -/
def clDelta (n : Nib) (s : State) : State := clEmit (s.cl.deltaSample n) s

/-- CL.SKIP (R275): nothing. -/
def clSkip (_ : Nib) (s : State) : State := s

/-- CL.LIT (R276). -/
def clLit (s : State) : State := { s with cl := { s.cl with lit := .wantHi } }

/-- CL.LITHI (R277). -/
def clLithi (n : Nib) (s : State) : State := { s with cl := { s.cl with lit := .wantLo, litHi := n } }

/-- CL.LITLO (R278). -/
def clLitlo (n : Nib) (s : State) : State := clEmit (s.cl.litHi ++ n) { s with cl := { s.cl with lit := .none } }

/-- CL.NIB (R273): the literal state first, then the code map of R117. -/
def clNib (s : State) (n : Nib) : State :=
  match s.cl.lit with
  | .wantHi => clLithi n s
  | .wantLo => clLitlo n s
  | .none => if n.toNat ≤ 12 then clDelta n s else if n = 15 then clLit s else clSkip n s

/-- One payload byte of CL.DATA: high nibble, then low nibble (R116, R272). -/
def clByte (s : State) (b : Byte) : State := clNib (clNib s (hiNib b)) (loNib b)

/-- CL.DATA (R272). -/
def clData (bytes : List Byte) (s : State) : State := if s.color.holdsBuffer then bytes.foldl clByte s else s

/-- CL.END with a buffer held (R281). -/
def clEnd (s : State) : State := { s with color := s.color.complete .ok }

/-- `CL.START` (R271). -/
def execClStart (s : State) : Host.Outcome State Fault Refusal := .next (clStart s)

/-- `CL.DATA` (R272). -/
def execClData (bytes : List Byte) (s : State) : Host.Outcome State Fault Refusal := .next (clData bytes s)

/-- `CL.NIB` (R273). Where the nibble yields a sample its BufWrite requires an active buffer (R78). -/
def execClNib (n : Nib) (s : State) : Host.Outcome State Fault Refusal :=
  if s.cl.emits n && !s.color.holdsBuffer then .refused .noActiveBuffer else .next (clNib s n)

/-- `CL.DELTA` (R274), codes 0x0 to 0xC. -/
def execClDelta (n : Nib) (s : State) : Host.Outcome State Fault Refusal :=
  if 12 < n.toNat then .refused .nibbleNotInRow
  else if s.color.holdsBuffer then .next (clDelta n s)
  else .refused .noActiveBuffer

/-- `CL.SKIP` (R275), codes 0xD and 0xE. -/
def execClSkip (n : Nib) (s : State) : Host.Outcome State Fault Refusal :=
  if n = 13 ∨ n = 14 then .next (clSkip n s) else .refused .nibbleNotInRow

/-- `CL.LIT` (R276). -/
def execClLit (s : State) : Host.Outcome State Fault Refusal := .next (clLit s)

/-- `CL.LITHI` (R277). -/
def execClLithi (n : Nib) (s : State) : Host.Outcome State Fault Refusal := .next (clLithi n s)

/-- `CL.LITLO` (R278). -/
def execClLitlo (n : Nib) (s : State) : Host.Outcome State Fault Refusal :=
  if s.color.holdsBuffer then .next (clLitlo n s) else .refused .noActiveBuffer

/-- `CL.EMIT` (R279). Called as a stimulus of its own before any FMT.SET it reads the image width and size 0 of reset: it
runs, no line ends and the sample is dropped as overflow. U11 treats width 0 as `refuse`, which the model does at
FMT.SET only (DESIGN CHOICE, notes/assumptions/11.md). -/
def execClEmit (v : Byte) (s : State) : Host.Outcome State Fault Refusal :=
  if s.color.holdsBuffer then .next (clEmit v s) else .refused .noActiveBuffer

/-- `CL.END` (R281). -/
def execClEnd (s : State) : Host.Outcome State Fault Refusal := .next (clEnd s)

/-! ### The encoder of R285, for testing -/

/-- The nibbles of one target byte: a delta code when the difference from the predictor is from −6 to +6, else a literal. -/
def encodeSample (p t : Byte) : List Nib :=
  let k := (t - p).toInt
  if -6 ≤ k ∧ k ≤ 6 then [BitVec.ofInt 4 (k + 6)] else [15, hiNib t, loNib t]

/-- The nibbles of a target string, mirroring the decoder's registers, the scan-line reset included (R285). -/
def encodeNibbles (w : Nat) : Cl → List Byte → List Nib
  | _, [] => []
  | cl, t :: r => encodeSample cl.predictor t ++ encodeNibbles w (cl.advance w t) r

/-- Nibbles in pairs, the first in the high half; an odd count is padded with 0xD (R285). -/
def packNibbles : List Nib → List Byte
  | [] => []
  | [n] => [n ++ (13 : Nib)]
  | n :: m :: r => (n ++ m) :: packNibbles r

/-- The payload that encodes a target string from the decoder's registers `cl` (R285). -/
def encodeColour (w : Nat) (cl : Cl) (target : List Byte) : List Byte := packNibbles (encodeNibbles w cl target)

end Sys2Proof.Machine
end

