-- ==== Sys2Proof/Machine/Depth.lean ====
section
/-! DEFINITION. The LUT generator and the depth codec (43_depth_codec.md). -/

namespace Sys2Proof.Machine

/-! ### The lookup table -/

/-- The body of `LutEntry` (R242): every step is a minifloat operation, in the order written; `none` where one of them
leaves its domain. R242, D20 and 93_implementation_defined.md section 2 make `LutEntry` a replaceable parameter; the
model takes the spec's default body as its only one, with its constants in `Cfg` (DESIGN CHOICE,
notes/assumptions/39.md). A calibration word that is not well-formed and that no operation meets leaves the entry as computed
(DEDUCED, notes/assumptions/37.md). -/
def lutFormula (c : Cfg) (i : Nat) (cal : Cal) : Option Half := do
  let u ← mfU2f i
  let x ← mfAdd u (mfNeg cal.p4)
  let x ← mfAdd x c.lutOffset
  let x ← mfMul x c.lutInvcoeff
  let m ← mfMul x cal.pix
  let den ← mfAdd cal.dcl (mfNeg m)
  if den = 0 then return 0
  let n1 ← mfMul cal.dsr cal.dcl
  let scale ← mfU2f c.lutScale
  let num ← mfMul n1 scale
  let d ← mfDiv num den
  if d.toInt < 0 ∨ (c.maxDepth : Int) ≤ d.toInt then return 0
  return d.setWidth 16

/-- `LutEntry(i, DCL, PIX, DSR, P4)` (R242, R243): an entry whose computation leaves the domain is unspecified, a free
value fixed by the index, the words and the configuration (U5, R241; notes/assumptions/6.md). -/
def lutEntry (c : Cfg) (i : Nat) (cal : Cal) : Half := (lutFormula c i cal).getD (Config.freeLutEntry c i cal)

/-- The 2048 `LutWrite`s of LUT.BUILD (R241). -/
def lutFill (c : Cfg) (cal : Cal) (l : Lut) : Lut :=
  (List.range Config.lutSize).foldl (fun l i => Lut.write l i (lutEntry c i cal)) l

/-- `LUT.BUILD` (R241); refused while the depth endpoint is enabled (U14). Before the host has written `dh.cal` it runs on
the zero words of reset (R60; DESIGN CHOICE, notes/assumptions/10.md). -/
def execLutBuild (s : State) : Host.Outcome State Fault Refusal :=
  if s.depth.enabled then .refused .lutWhileEnabled
  else .next { s with dc := { s.dc with lut := lutFill s.cfg s.dh.cal s.dc.lut, lutValid := true } }

/-! ### Frame operations -/

/-- DC.START with a buffer held (R245): rewind, empty the carry, write the start padding. U23 calls the start padding
region skipped; the model follows R80 and R245, which make it zero bytes written (DEDUCED, notes/assumptions/38.md). -/
def dcStart (s : State) : State :=
  if s.depth.holdsBuffer then
    { s with
      depth := Ep.bufWrite { s.depth with cursor := 0 } (padBytes s.depth.padStart)
      dc := { s.dc with carryLen := 0 } }
  else s

/-- The two bytes of the sample that code `j` of a unit selects, low byte first (R71, R248). -/
def unitSample (l : Lut) (u : DepthUnit) (j : Nat) : List Byte := putHalf (l.read (unitCode u j).toNat)

/-- DC.UNPACK (R248): eight lanes in order, one BufWrite each. -/
def dcUnpack (u : DepthUnit) (s : State) : State :=
  { s with
    depth := (List.range Config.codesPerUnit).foldl (fun ep j => ep.bufWrite (unitSample s.dc.lut u j)) s.depth }

/-- One payload byte of DC.DATA (R246): into the carry; the eleventh completes a unit. -/
def dcByte (s : State) (b : Byte) : State :=
  let carry := s.dc.carry.setIfInBounds s.dc.carryLen b
  if s.dc.carryLen + 1 = Config.unitLen then
    dcUnpack (unitOfBytes carry.toList) { s with dc := { s.dc with carry := carry, carryLen := 0 } }
  else { s with dc := { s.dc with carry := carry, carryLen := s.dc.carryLen + 1 } }

/-- DC.DATA (R246). -/
def dcData (bytes : List Byte) (s : State) : State := if s.depth.holdsBuffer then bytes.foldl dcByte s else s

/-- DC.END with a buffer held (R250): drop the carry, write the end padding, complete the buffer. -/
def dcEnd (s : State) : State :=
  if s.depth.holdsBuffer then
    { s with
      depth := Ep.complete (Ep.bufWrite s.depth (padBytes s.depth.padEnd)) .ok
      dc := { s.dc with carryLen := 0 } }
  else s

/-- `DC.START` (R245). -/
def execDcStart (s : State) : Host.Outcome State Fault Refusal := .next (dcStart s)

/-- `DC.DATA` (R246). -/
def execDcData (bytes : List Byte) (s : State) : Host.Outcome State Fault Refusal := .next (dcData bytes s)

/-- `DC.UNPACK` (R248). Its BufWrites require an active buffer (R78); called without one it is refused. -/
def execDcUnpack (u : DepthUnit) (s : State) : Host.Outcome State Fault Refusal :=
  if s.depth.holdsBuffer then .next (dcUnpack u s) else .refused .noActiveBuffer

/-- `DC.END` (R250). -/
def execDcEnd (s : State) : Host.Outcome State Fault Refusal := .next (dcEnd s)

end Sys2Proof.Machine
end

