-- ==== Sys2Proof/Machine/Reassembler.lean ====
section
/-! DEFINITION. The packet reassembler (42_reassembler.md): one per endpoint, with the three codec hooks. -/

namespace Sys2Proof.Machine

/-! ### Hooks (42_reassembler.md opening, R214) -/

/-- `Codec.Start(e)`. -/
def codecStart (e : Endpoint) (s : State) : State :=
  match Config.codec e with
  | .depth => dcStart s
  | .color => clStart s

/-- `Codec.Data(e, s)`. -/
def codecData (e : Endpoint) (bytes : List Byte) (s : State) : State :=
  match Config.codec e with
  | .depth => dcData bytes s
  | .color => clData bytes s

/-- `Codec.End(e)`. -/
def codecEnd (e : Endpoint) (s : State) : State :=
  match Config.codec e with
  | .depth => dcEnd s
  | .color => clEnd s

/-! ### Finding the marker -/

/-- RA.SEEK1 on the endpoint's registers (R203). -/
def Ep.seek1 (c : Cfg) (ep : Ep) (b : Byte) : Ep := if b = sync0 c then { ep with rstate := .seek2 } else ep

/-- RA.SEEK2 on the endpoint's registers (R204): on a mismatch the byte is examined again as a first sync byte. -/
def Ep.seek2 (c : Cfg) (ep : Ep) (b : Byte) : Ep :=
  if b = sync1 c then
    { ep with hdr := (ep.hdr.set 0 (sync0 c)).set 1 (sync1 c), hdrFill := 2, rstate := .hdr }
  else Ep.seek1 c { ep with rstate := .seek1 } b

/-- RA.SEEK1 (R203). -/
def raSeek1 (e : Endpoint) (b : Byte) (s : State) : State := s.modEp e fun ep => ep.seek1 s.cfg b

/-- RA.SEEK2 (R204). -/
def raSeek2 (e : Endpoint) (b : Byte) (s : State) : State := s.modEp e fun ep => ep.seek2 s.cfg b

/-! ### Packet end -/

/-- RA.PKTDONE (R211). -/
def raPktdone (e : Endpoint) (s : State) : State :=
  let s' := if (s.ep e).endsFrame s.cfg e then codecEnd e s else s
  s'.modEp e fun ep => { ep with rstate := .seek1, hdrFill := 0 }

/-! ### Header -/

/-- What RA.START does to the endpoint's registers before the codec hook (R207, R208): `now` is the capture time. -/
def Ep.frameStart (ep : Ep) (now : Stamp) : Ep :=
  let ep := { ep with
    lastSeq := hdrSeq ep.hdr
    corrupt := false
    padStart := hdrPadStart ep.hdr
    padEnd := hdrPadEnd ep.hdr
    ts := now
    frameCount := ep.frameCount + 1 }
  if ep.holdsBuffer then ep
  else
    let ep := ep.acquire
    if ep.holdsBuffer then ep else ep.logEvent .noBuffer

/-- RA.START on the endpoint's registers: the capture time asked for, then the frame started (R207). -/
def Ep.openFrame (e : Endpoint) (ep : Ep) : Ep :=
  match ep.now e with
  | (t, ep) => ep.frameStart t

/-- RA.START (R207). -/
def raStart (e : Endpoint) (s : State) : State := codecStart e (s.modEp e (Ep.openFrame e))

/-- RA.CONT on the endpoint's registers (R209). -/
def Ep.continuation (ep : Ep) (seq : Half) : Ep :=
  if seqGap ep.lastSeq seq then
    { Ep.logEvent { ep with corrupt := true } (.loss (expectedSeq ep.lastSeq) seq) with lastSeq := seq }
  else { ep with lastSeq := seq }

/-- RA.CONT (R209). -/
def raCont (e : Endpoint) (seq : Half) (s : State) : State := s.modEp e fun ep => ep.continuation seq

/-- The header fields RA.HDRDONE latches (R206). -/
def Ep.latchHeader (ep : Ep) : Ep :=
  { ep with pktCount := ep.pktCount + 1, ptype := hdrType ep.hdr, remaining := payloadLen (hdrDeclared ep.hdr) }

/-- RA.HDRDONE (R206). -/
def raHdrdone (e : Endpoint) (s : State) : State :=
  let s := s.modEp e Ep.latchHeader
  let s := if (s.ep e).ptype = s.cfg.startType e then raStart e s else raCont e (hdrSeq (s.ep e).hdr) s
  let s := s.modEp e fun ep => { ep with rstate := .payload }
  if (s.ep e).remaining = 0 then raPktdone e s else s

/-- One header byte stored (R205). -/
def Ep.pushHdr (ep : Ep) (b : Byte) : Ep :=
  { ep with hdr := ep.hdr.setIfInBounds ep.hdrFill b, hdrFill := ep.hdrFill + 1 }

/-- RA.HDR (R205). -/
def raHdr (e : Endpoint) (b : Byte) (s : State) : State :=
  let s := s.modEp e fun ep => ep.pushHdr b
  if (s.ep e).hdrFill = Config.pktHdrLen then raHdrdone e s else s

/-! ### Payload -/

/-- The payload count less one; the subtraction is only taken when the count is not 0 (R126). -/
def Ep.countPayload (ep : Ep) : Ep := { ep with remaining := if ep.remaining = 0 then 0 else ep.remaining - 1 }

/-- RA.PAY (R210). -/
def raPay (e : Endpoint) (b : Byte) (s : State) : State :=
  let s := if (s.ep e).corrupt then s else codecData e [b] s
  let s := s.modEp e Ep.countPayload
  if (s.ep e).remaining = 0 then raPktdone e s else s

/-! ### Bytes and chunks -/

/-- RA.BYTE (R202): count the byte, dispatch on the reassembly state. -/
def raByte (e : Endpoint) (s : State) (b : Byte) : State :=
  let s := s.modEp e fun ep => { ep with byteCount := ep.byteCount + 1 }
  match (s.ep e).rstate with
  | .seek1 => raSeek1 e b s
  | .seek2 => raSeek2 e b s
  | .hdr => raHdr e b s
  | .payload => raPay e b s

/-- RA.CHUNK (R201); a chunk for a disabled endpoint has no effect (R221). -/
def raChunk (e : Endpoint) (bytes : List Byte) (s : State) : State :=
  if (s.ep e).enabled then bytes.foldl (raByte e) s else s

/-! ### Commands -/

/-- What RA.ENABLE does to the endpoint's registers (R215, R60): all but `avail`, `events`, the format registers and
the observable completions. The header's contents are unspecified and kept (notes/assumptions/12.md). -/
def Ep.enable (ep : Ep) : Ep :=
  { ep with
    rstate := .seek1, hdrFill := 0, remaining := 0, ptype := 0, lastSeq := 0, corrupt := false, frameCount := 0
    byteCount := 0, pktCount := 0, padStart := 0, padEnd := 0, ts := 0, active := none, cursor := 0, enabled := true }

/-- The codec registers' RA.ENABLE column of R60. -/
def codecEnable (e : Endpoint) (s : State) : State :=
  match Config.codec e with
  | .depth => { s with dc := { s.dc with carryLen := 0 } }
  | .color => { s with cl := { s.cl with last := clearedPredictors, pos := 0, lit := .none, lineCnt := 0 } }

/-- RA.ENABLE (R215). -/
def raEnable (e : Endpoint) (s : State) : State := codecEnable e (s.modEp e Ep.enable)

/-- RA.DISABLE on the endpoint's registers (R216): the active buffer first, then the queue, all cancelled. -/
def Ep.disable (ep : Ep) : Ep := Ep.drain (Ep.complete { ep with enabled := false } .cancelled)

/-- The ids of every buffer the block holds, on either endpoint (R89, U9). -/
def State.heldIds (s : State) : List Nat := s.color.heldIds ++ s.depth.heldIds

/-! ### Meanings -/

/-- `RA.ENABLE` (R215); its precondition refuses an enabled endpoint (U12), an unset format (R347) and, for DEPTH, a
table not built (R348). -/
def execRaEnable (e : Endpoint) (s : State) : Host.Outcome State Fault Refusal :=
  if (s.ep e).enabled then .refused .enableWhileEnabled
  else if !(s.ep e).fmtSet then .refused .formatUnset
  else if e = .depth ∧ !s.dc.lutValid then .refused .lutNotBuilt
  else .next (raEnable e s)

/-- `RA.DISABLE` (R216). No callback is in flight between steps (R52). -/
def execRaDisable (e : Endpoint) (s : State) : Host.Outcome State Fault Refusal := .next (s.modEp e Ep.disable)

/-- `BQ.ENQUEUE` (R217); refused for a buffer that is too small or that the block holds (U9). -/
def execBqEnqueue (e : Endpoint) (buf : Buf) (s : State) : Host.Outcome State Fault Refusal :=
  if buf.cap < (s.ep e).imageSize then .refused .bufferTooSmall
  else if buf.id ∈ s.heldIds then .refused .bufferHeld
  else .next (s.modEp e fun ep => { ep with avail := ep.avail ++ [buf] })

/-- `FMT.SET` (R218); refused while enabled (U13) and for a colour width of 0 (U11). The height is read by no rule. -/
def execFmtSet (e : Endpoint) (width _height bytesPerLine imageSize : Nat) (s : State) : Host.Outcome State Fault Refusal :=
  if (s.ep e).enabled then .refused .formatWhileEnabled
  else if e = .color ∧ width = 0 then .refused .colourWidthZero
  else
    .next (s.modEp e fun ep =>
      { ep with imageWidth := width, bytesPerLine := bytesPerLine, imageSize := imageSize, fmtSet := true })

/-- `RA.CHUNK` (R201). -/
def execRaChunk (e : Endpoint) (bytes : List Byte) (s : State) : Host.Outcome State Fault Refusal := .next (raChunk e bytes s)

/-- `RA.BYTE` (R202). -/
def execRaByte (e : Endpoint) (b : Byte) (s : State) : Host.Outcome State Fault Refusal := .next (raByte e s b)

/-- `RA.SEEK1` (R203). -/
def execRaSeek1 (e : Endpoint) (b : Byte) (s : State) : Host.Outcome State Fault Refusal := .next (raSeek1 e b s)

/-- `RA.SEEK2` (R204). -/
def execRaSeek2 (e : Endpoint) (b : Byte) (s : State) : Host.Outcome State Fault Refusal := .next (raSeek2 e b s)

/-- `RA.HDR` (R205). -/
def execRaHdr (e : Endpoint) (b : Byte) (s : State) : Host.Outcome State Fault Refusal := .next (raHdr e b s)

/-- `RA.HDRDONE` (R206). -/
def execRaHdrdone (e : Endpoint) (s : State) : Host.Outcome State Fault Refusal := .next (raHdrdone e s)

/-- `RA.START` (R207). -/
def execRaStart (e : Endpoint) (s : State) : Host.Outcome State Fault Refusal := .next (raStart e s)

/-- `RA.CONT` (R209). -/
def execRaCont (e : Endpoint) (seq : Half) (s : State) : Host.Outcome State Fault Refusal := .next (raCont e seq s)

/-- `RA.PAY` (R210). -/
def execRaPay (e : Endpoint) (b : Byte) (s : State) : Host.Outcome State Fault Refusal := .next (raPay e b s)

/-- `RA.PKTDONE` (R211). -/
def execRaPktdone (e : Endpoint) (s : State) : Host.Outcome State Fault Refusal := .next (raPktdone e s)

end Sys2Proof.Machine
end

