-- ==== Sys2Proof/Machine/Dispatch.lean ====
section
/-! DEFINITION. One arm per operation of the table: a direct call of its meaning. -/

namespace Sys2Proof.Machine

/-- The meaning of one operation (R100). -/
def exec (i : Instr) (s : State) : Host.Outcome State Fault Refusal :=
  match i with
  | .mfU2f n => Sys2Proof.Machine.execMfU2f n s
  | .mfMul a b => Sys2Proof.Machine.execMfMul a b s
  | .mfAdd a b => Sys2Proof.Machine.execMfAdd a b s
  | .mfDiv a b => Sys2Proof.Machine.execMfDiv a b s
  | .ccXfer req want maxReply => Sys2Proof.Machine.execCcXfer req want maxReply s
  | .ccGetVersion => Sys2Proof.Machine.execCcGetVersion s
  | .ccGetFixed => Sys2Proof.Machine.execCcGetFixed s
  | .ccGetAlgo sel => Sys2Proof.Machine.execCcGetAlgo sel s
  | .ccGetSerial => Sys2Proof.Machine.execCcGetSerial s
  | .ccSetParam param value => Sys2Proof.Machine.execCcSetParam param value s
  | .ccReset => Sys2Proof.Machine.execCcReset s
  | .ccInit sel => Sys2Proof.Machine.execCcInit sel s
  | .raEnable e => Sys2Proof.Machine.execRaEnable e s
  | .raDisable e => Sys2Proof.Machine.execRaDisable e s
  | .bqEnqueue e buf => Sys2Proof.Machine.execBqEnqueue e buf s
  | .fmtSet e w h l n => Sys2Proof.Machine.execFmtSet e w h l n s
  | .raChunk e bytes => Sys2Proof.Machine.execRaChunk e bytes s
  | .raByte e b => Sys2Proof.Machine.execRaByte e b s
  | .raSeek1 e b => Sys2Proof.Machine.execRaSeek1 e b s
  | .raSeek2 e b => Sys2Proof.Machine.execRaSeek2 e b s
  | .raHdr e b => Sys2Proof.Machine.execRaHdr e b s
  | .raHdrdone e => Sys2Proof.Machine.execRaHdrdone e s
  | .raStart e => Sys2Proof.Machine.execRaStart e s
  | .raCont e seq => Sys2Proof.Machine.execRaCont e seq s
  | .raPay e b => Sys2Proof.Machine.execRaPay e b s
  | .raPktdone e => Sys2Proof.Machine.execRaPktdone e s
  | .lutBuild => Sys2Proof.Machine.execLutBuild s
  | .dcStart => Sys2Proof.Machine.execDcStart s
  | .dcData bytes => Sys2Proof.Machine.execDcData bytes s
  | .dcUnpack u => Sys2Proof.Machine.execDcUnpack u s
  | .dcEnd => Sys2Proof.Machine.execDcEnd s
  | .clStart => Sys2Proof.Machine.execClStart s
  | .clData bytes => Sys2Proof.Machine.execClData bytes s
  | .clNib n => Sys2Proof.Machine.execClNib n s
  | .clDelta n => Sys2Proof.Machine.execClDelta n s
  | .clSkip n => Sys2Proof.Machine.execClSkip n s
  | .clLit => Sys2Proof.Machine.execClLit s
  | .clLithi n => Sys2Proof.Machine.execClLithi n s
  | .clLitlo n => Sys2Proof.Machine.execClLitlo n s
  | .clEmit v => Sys2Proof.Machine.execClEmit v s
  | .clEnd => Sys2Proof.Machine.execClEnd s

end Sys2Proof.Machine
end

