-- ==== Sys2Proof/Machine/Fetch.lean ====
section
/-! DEFINITION. Where the next operation comes from: the stimulus list, what each kind of stimulus does, and how a table
row's bits are placed at the list's front. -/

namespace Sys2Proof.Machine

/-- The state with a packet header's bytes latched as RA.SEEK2 and RA.HDR leave them, for the operations that read
`ep.hdr` instead of an operand; any other operation needs nothing (notes/assumptions/23.md). -/
def latchTableHeader (i : Instr) (nbits w : Nat) (s : State) : State :=
  let hdr := Vector.ofFn fun k : Fin 12 => byteAt (bytesOfNat ((nbits + 7) / 8) w) k
  match i with
  | .raStart e => s.modEp e fun ep => { ep with hdr := hdr, hdrFill := 12, rstate := .hdr }
  | .raCont e _ => s.modEp e fun ep => { ep with hdr := hdr, hdrFill := 12, rstate := .hdr }
  | _ => s

/-- A stimulus put before the others. -/
def State.offer (s : State) (bytes : List Byte) : State := { s with stim := .op bytes :: s.stim }

/-- A table row's bits placed as the next stimulus; bits that select no operation leave one that `decode` rejects. -/
def placeTableWord (s : State) (nbits w : Nat) : State :=
  match decodeBits s.cfg nbits w with
  | some i => (latchTableHeader i nbits w s).offer (encode s.cfg i)
  | none => s.offer []

/-- The stimulus list after the next stimulus is taken. -/
def State.taken (s : State) : State := { s with stim := s.stim.tail }

/-- The host's write of `dh.cal` (R45, R61, R346 step 3). -/
def State.writeCal (s : State) (cal : Cal) : State := { s with dh := { s.dh with cal := cal } }

/-- An operation taken as one step: a control operation that finds the lock held waits, its stimulus where it is (R86,
R160); any other stimulus is taken off the list and its operation runs. -/
def runOp (i : Instr) (s : State) : Host.Outcome State Fault Refusal := if waits s i then .next s else exec i s.taken

/-- The caller of an operation invokes it (R86): one of several exchanges joins the operations in progress, any other
runs. -/
def invoke (i : Instr) (s : State) : Host.Outcome State Fault Refusal :=
  match callOf s.cfg i with
  | none => runOp i s
  | some c => .next (s.taken.addCall c)

/-- A stimulus that names an operation: refused where it decodes to none. -/
def runStimulus (f : Instr → State → Host.Outcome State Fault Refusal) (bytes : List Byte) (s : State) :
    Host.Outcome State Fault Refusal :=
  match decode s.cfg bytes with
  | .error err => .refused (.undecodable err)
  | .ok i => f i s

/-- The caller of the `k`-th operation in progress goes on, when the lock is free (R86, R160). -/
def resumeCall (k : Nat) (s : State) : Host.Outcome State Fault Refusal :=
  if s.cc.lock then .next s else .next (s.taken.resume k)

end Sys2Proof.Machine
end

