-- ==== Sys2Proof/Machine/Step.lean ====
section
/-! DEFINITION. One step: the next stimulus is taken and runs (R84: one operation is one atomic step). -/

namespace Sys2Proof.Machine

/-- The step. With no stimulus the block is idle and nothing changes (R321, R358). The host's write of the calibration
words is no operation of R100 (R45). A stimulus that decodes to no operation is refused. A caller may have a
higher-level operation run in one go, or invoke it and resume it exchange by exchange (R86, notes/assumptions/18.md). -/
def step (s : State) : Host.Outcome State Fault Refusal :=
  match s.stim with
  | [] => .next s
  | .calWrite cal :: _ => .next (s.taken.writeCal cal)
  | .op bytes :: _ => runStimulus runOp bytes s
  | .invoke bytes :: _ => runStimulus invoke bytes s
  | .resume k :: _ => resumeCall k s

/-- The state in which the next step runs the operation that the table's bits select. -/
def State.withFetchWord (s : State) (nbits w : Nat) : State := placeTableWord s nbits w

end Sys2Proof.Machine
end

