-- ==== Sys2Proof/Safety.lean ====
section
/-! DEFINITION. What statements about the machine are said in: the read of one output byte, which operations agents
perform as steps, and the invariants of R62 and of the storage. -/

namespace Sys2Proof.Safety

open Sys2Proof.Machine

/-! ### Reading the storage -/

/-- The byte of endpoint `e`'s active output buffer at offset `a`, where the block has written one (R50, U23). -/
def bufByte (s : State) (e : Endpoint) (a : Nat) : Option Byte := (s.ep e).active.bind fun ab => ab.mem.read a

/-- LUT entry `c` (R82). -/
def lutAt (s : State) (c : Nat) : Half := s.dc.lut.read c

/-- The other endpoint. -/
def other : Endpoint → Endpoint
  | .color => .depth
  | .depth => .color

/-! ### Agents' operations -/

/-- The operations of the control channel, which may sleep (R316). -/
def isControl (i : Instr) : Bool := (ctrlOp i).isSome

/-- The operations the agents of R84 perform as steps, and the pure minifloat operations. The others are what those
operations are made of (R100, "selected by"): a chunk's bytes select them. -/
def isAgentOp : Instr → Bool
  | .mfU2f _ | .mfMul _ _ | .mfAdd _ _ | .mfDiv _ _ | .ccXfer _ _ _ | .ccGetVersion | .ccGetFixed | .ccGetAlgo _
  | .ccGetSerial | .ccSetParam _ _ | .ccReset | .ccInit _ | .raEnable _ | .raDisable _ | .bqEnqueue _ _
  | .fmtSet _ _ _ _ _ | .raChunk _ _ | .lutBuild => true
  | .raByte _ _ | .raSeek1 _ _ | .raSeek2 _ _ | .raHdr _ _ | .raHdrdone _ | .raStart _ | .raCont _ _ | .raPay _ _
  | .raPktdone _ | .dcStart | .dcData _ | .dcUnpack _ | .dcEnd | .clStart | .clData _ | .clNib _ | .clDelta _ | .clSkip _
  | .clLit | .clLithi _ | .clLitlo _ | .clEmit _ | .clEnd => false

/-- Stimulus bytes that name an agent's operation, or none at all: those the step refuses. -/
def namesAgentOp (c : Cfg) (bytes : List Byte) : Bool :=
  match decode c bytes with
  | .ok i => isAgentOp i
  | .error _ => true

/-- A stimulus an agent of R84 can supply: one of its operations, in one go or round by round (R86), or the host's write
of `dh.cal` (R45). -/
def isAgentStimulus (c : Cfg) : Stimulus → Bool
  | .calWrite _ => true
  | .op bytes => namesAgentOp c bytes
  | .invoke bytes => namesAgentOp c bytes
  | .resume _ => true

/-! ### Invariants -/

/-- R62 (d), (e): the header count and the payload count of each reassembly state. -/
def rstateOk (ep : Ep) : Bool :=
  match ep.rstate with
  | .seek1 => ep.hdrFill == 0
  | .seek2 => ep.hdrFill == 0
  | .hdr => decide (2 ≤ ep.hdrFill) && decide (ep.hdrFill ≤ 11)
  | .payload => ep.hdrFill == 12 && ep.remaining != 0

/-- Every one of the first `n` bytes of a buffer has been written by the block. -/
def writtenUpTo (m : Memory) (n : Nat) : Bool := (List.range n).all fun a => (m.read a).isSome

/-- A held buffer's bytes lie below the image size (R50), and those below the cursor are all written (R78, R34). -/
def activeOk (ep : Ep) : Bool :=
  match ep.active with
  | none => true
  | some ab => (ab.mem.all fun x => decide (x.1 < ep.imageSize)) && writtenUpTo ab.mem ep.cursor

/-- The registers of one endpoint (R62 (b), (d), (e), R36): a disabled endpoint holds no active buffer, an enabled one
has its format and keeps its cursor within the image. -/
def epOk (ep : Ep) : Bool :=
  rstateOk ep && activeOk ep && (ep.enabled || ep.active.isNone)
    && (!ep.enabled || (ep.fmtSet && decide (ep.cursor ≤ ep.imageSize)))
    && ep.completed.all fun c => writtenUpTo c.mem c.bytes

/-- The invariant of the streaming side (R62, R39, R43, R215): both endpoints, the carry buffer, the line counter of an
enabled colour endpoint, the table built before depth streaming, no buffer held twice, and only agents' stimuli to come. -/
def StreamInv (s : State) : Prop :=
  epOk s.color = true ∧ epOk s.depth = true ∧ s.dc.carryLen ≤ 10
    ∧ (s.color.enabled = true → s.cl.lineCnt < 2 * s.color.imageWidth)
    ∧ (s.color.fmtSet = true → s.color.imageWidth ≠ 0)
    ∧ (s.depth.enabled = true → s.dc.lutValid = true)
    ∧ s.heldIds.Nodup
    ∧ ∀ x ∈ s.stim, isAgentStimulus s.cfg x = true

/-- An operation between two exchanges has gathered at most its target (R172) and has a selector of the right length
(R174). -/
def callOk (c : Cfg) : Call → Bool
  | .getFixed data _ => decide (data.length ≤ c.fixedSize)
  | .getAlgo sel data _ => selShape c sel && decide (data.length ≤ c.algoSize)
  | .init sel _ (.fixed data _) => selShape c sel && decide (data.length ≤ c.fixedSize)
  | .init sel _ (.algo data _) => selShape c sel && decide (data.length ≤ c.algoSize)
  | .init sel _ .version => selShape c sel
  | .init sel _ .reset => selShape c sel
  | .init sel _ .serial => selShape c sel

/-- The invariant of the session (R5, R21, R24): a configuration within its constraints, no exchange in progress
between steps, the records of the Device Handle within their sizes, and so what the operations in progress have
gathered. -/
def SessionInv (s : State) : Prop :=
  s.cfg.ok = true ∧ s.cc.lock = false
    ∧ s.dh.fixed.length ≤ s.cfg.fixedSize ∧ s.dh.fixedLen = s.dh.fixed.length
    ∧ s.dh.algo.length ≤ s.cfg.algoSize ∧ s.dh.algoLen = s.dh.algo.length
    ∧ s.dh.serial.length ≤ s.cfg.serialMax + 1
    ∧ ∀ c ∈ s.calls, callOk s.cfg c = true

/-- The storage's canonical form: the table's, and that of every buffer held or completed. -/
def StorageInv (s : State) : Prop :=
  Lut.wf s.dc.lut
    ∧ (∀ e, ∀ ab ∈ (s.ep e).active, Memory.wf ab.mem)
    ∧ ∀ e, ∀ c ∈ (s.ep e).completed, Memory.wf c.mem

/-! ### Sequences of operations and the hooks by name -/

/-- Operations one after another; the first that does not go on ends the sequence. -/
def runOps : List Instr → State → Host.Outcome State Fault Refusal
  | [], s => .next s
  | i :: r, s =>
    match exec i s with
    | .next t => runOps r t
    | .fault f => .fault f
    | .refused x => .refused x

/-- The operation that is an endpoint's frame-start hook. -/
def startHook : Endpoint → Instr
  | .depth => .dcStart
  | .color => .clStart

/-- The operation that is an endpoint's data hook. -/
def dataHook : Endpoint → List Byte → Instr
  | .depth => .dcData
  | .color => .clData

/-- The operation that is an endpoint's frame-end hook. -/
def endHook : Endpoint → Instr
  | .depth => .dcEnd
  | .color => .clEnd

/-- The operations of CL.NIB on a byte string's nibbles, in order (R116). -/
def nibbleOps (bytes : List Byte) : List Instr := bytes.flatMap fun b => [.clNib (hiNib b), .clNib (loNib b)]

/-! ### Streams (R123) -/

/-- `PKT(type, seq, meta, payload)`. -/
def packet (c : Cfg) (type seq : Half) (mta : Word) (payload : List Byte) : List Byte :=
  let declared := BitVec.ofNat 16 (12 + payload.length)
  putHalf c.devSync ++ putHalf type ++ putHalf seq ++ [hiByte declared, loByte declared] ++ putWord mta ++ payload

/-- A payload length a packet can declare (R110: the declared size is 16 bits). -/
def fitsPacket (payload : List Byte) : Bool := decide (12 + payload.length < 65536)

/-- Packets with consecutive sequence numbers from `seq`, each with an opaque zero meta field. -/
def packets (c : Cfg) : Half → List (Half × List Byte) → List Byte
  | _, [] => []
  | seq, (type, payload) :: r => packet c type seq 0 payload ++ packets c (seq + 1) r

/-- A depth frame on the wire: a start packet with its padding, packets of other types, an end packet. -/
def depthFrame (c : Cfg) (seq padStart padEnd : Half) (first : List Byte) (mid : List (Half × List Byte))
    (last : List Byte) : List Byte :=
  packet c c.startDepth seq (padStart ++ padEnd) first ++ packets c (seq + 1) (mid ++ [(c.endDepth, last)])

/-- A byte string cut into its whole 11-byte units; the remainder is dropped (R250). -/
def wholeUnits (payload : List Byte) : List DepthUnit :=
  (List.range (payload.length / 11)).map fun k => unitOfBytes ((payload.drop (11 * k)).take 11)

/-- The image a depth frame stands for, before the clip (R80): start padding, the samples of every whole unit in lane
order, end padding. -/
def depthImage (l : Lut) (padStart padEnd : Half) (payload : List Byte) : List Byte :=
  padBytes padStart
    ++ (wholeUnits payload).flatMap (fun u => (List.range 8).flatMap fun j => putHalf (l.read (unitCode u j).toNat))
    ++ padBytes padEnd

/-! ### Control exchanges -/

/-- `RPL(opcode, id, status, payload)` (R123). -/
def replyBytes (c : Cfg) (opcode id status : Half) (payload : List Byte) : List Byte :=
  putHalf c.devSync ++ putHalf (BitVec.ofNat 16 (1 + payload.length / 2)) ++ putHalf opcode ++ putHalf id ++ putHalf status
    ++ payload

/-- A payload that one read of a reply can carry whole: an even number of bytes, within the size field and MAX_REPLY. -/
def fitsReply (c : Cfg) (payload : List Byte) : Bool :=
  payload.length % 2 == 0 && decide (1 + payload.length / 2 < 65536) && decide (10 + payload.length ≤ c.maxReply)

/-- A well-formed reply to another request (R166 (3)). -/
def staleReply (c : Cfg) (id : Half) (r : List Byte) : Bool :=
  decide (10 ≤ r.length) && le16 r 0 == c.devSync && le16 r 6 != id

/-- A reply that passes the three checks of R166. -/
def matchingReply (c : Cfg) (id : Half) (r : List Byte) : Bool :=
  decide (10 ≤ r.length) && le16 r 0 == c.devSync && le16 r 6 == id

/-- The state after one exchange that sent `req` and read `reads` answers, leaving the environment the answers `ws` and
`rs`: the counter has advanced, the stamped request stands in the record (R162). -/
def exchanged (s : State) (req : List Byte) (ws : List Bool) (rs : List (Option (List Byte))) (reads : Nat) : State :=
  { s with
    cc := { s.cc with reqId := s.cc.reqId + 1 }
    env := { s.env with
      writeAnswers := ws, readAnswers := rs, sent := s.env.sent ++ [putLe16 req 6 s.cc.reqId], reads := s.env.reads + reads } }

/-- The one exchange of the operations that make exactly one: opcode and body (R106, R108, R170, R175 to R177). -/
def oneExchange (c : Cfg) (i : Instr) : Option (Half × List Byte) :=
  match ctrlOp i with
  | some .version => some (c.opGetVersion, [])
  | some .serial => some (c.opGetSerial, [])
  | some (.param param value) => some (c.opSetParam, putHalf param ++ putHalf value)
  | some .reset => some (c.opSetMode, putHalf c.modeKnown)
  | _ => none

/-- The replies that carry the pages of a paged read, one exchange each, from request ID `id` on. -/
def pageReplies (c : Cfg) (opcode : Half) : Half → List (List Byte) → List (Option (List Byte))
  | _, [] => []
  | id, p :: r => some (replyBytes c opcode id 0 p) :: pageReplies c opcode (id + 1) r

/-- The requests of a paged read (R107, R172): each carries the word offset reached so far. -/
def pageRequests (c : Cfg) (opcode : Half) (header : List Byte) : Half → Half → List (List Byte) → List (List Byte)
  | _, _, [] => []
  | id, off, p :: r =>
    putLe16 (reqBytes c opcode (header ++ putHalf off)) 6 id
      :: pageRequests c opcode header (id + 1) (off + BitVec.ofNat 16 (p.length / 2)) r

/-- The pages are exactly those a paged read consumes once it holds `got` bytes (R172): it asks while below the target,
and an empty page ends it. -/
def pagesEnd (target : Nat) : Nat → List (List Byte) → Bool
  | got, [] => decide (target ≤ got)
  | got, p :: r => decide (got < target) && if p.isEmpty then r.isEmpty else pagesEnd target (got + p.length) r

/-- The decimal reading of four hexadecimal digits (R171). -/
def decimalDigits (raw : Half) : Nat :=
  1000 * (raw.toNat / 4096) + 100 * (raw.toNat / 256 % 16) + 10 * (raw.toNat / 16 % 16) + raw.toNat % 16

/-- Every hexadecimal digit is at most 9 (R171). -/
def allDecimal (raw : Half) : Bool :=
  decide (raw.toNat / 4096 ≤ 9) && decide (raw.toNat / 256 % 16 ≤ 9) && decide (raw.toNat / 16 % 16 ≤ 9)
    && decide (raw.toNat % 16 ≤ 9)

/-- The build number of a version payload where the spec states one (R171): below major 5 the raw value, from 5 on its
digits read as decimal. -/
def buildOf (major : Byte) (raw build : Half) : Prop :=
  (major.toNat < 5 → build = raw) ∧ (5 ≤ major.toNat → allDecimal raw = true → build.toNat = decimalDigits raw)

/-- The version record of a payload (R109, R170), its build number as far as the spec states it. -/
def versionOf (c : Cfg) (payload : List Byte) (v : Version) : Prop :=
  v.major = byteAt payload 0 ∧ v.minor = byteAt payload 1 ∧ v.rest = (payload.take c.versionLen).drop 4
    ∧ buildOf v.major (le16 payload 2) v.build

/-- A version payload that one reply carries whole, long enough, and with a build number that the spec states (R171). -/
def plainVersion (c : Cfg) (payload : List Byte) : Bool :=
  fitsReply c payload && decide (c.versionLen ≤ payload.length)
    && (decide ((byteAt payload 0).toNat < 5) || allDecimal (le16 payload 2))

/-- The paged reads (R173, R174): opcode, what stands before the offset, and target; for a selector of the right length. -/
def pagedOp (c : Cfg) (i : Instr) : Option (Half × List Byte × Nat) :=
  match ctrlOp i with
  | some .fixed => some (c.opGetFixed, [], c.fixedSize)
  | some (.algo sel) => if selShape c sel then some (c.opGetAlgo, sel, c.algoSize) else none
  | _ => none

/-- A paged read in progress. -/
def pagedCall (i : Instr) (data : List Byte) (off : Half) : Call :=
  match ctrlOp i with
  | some (.algo sel) => .getAlgo sel data off
  | _ => .getFixed data off

/-- The record a paged read writes (R173, R174). -/
def pagedRecord (i : Instr) (dh : Dh) (d : List Byte) : Dh :=
  match ctrlOp i with
  | some (.algo _) => { dh with algo := d, algoLen := d.length }
  | _ => { dh with fixed := d, fixedLen := d.length }

/-- The pages leave a paged read that holds `got` bytes still asking (R172): none of them is empty and the target is not
reached. -/
def pagesOpen (target : Nat) : Nat → List (List Byte) → Bool
  | got, [] => decide (got < target)
  | got, p :: r => decide (got < target) && !p.isEmpty && pagesOpen target (got + p.length) r

/-! ### Failed attempts of the bring-up (R178)

`none` is a version request whose write fails; `some st` is a version read that succeeds, followed by a CC.RESET that the
device answers with the status `st`. -/

/-- What the writes of the failed attempts answer. -/
def failWrites (failures : List (Option Half)) : List Bool :=
  failures.flatMap fun f => if f.isSome then [true, true] else [false]

/-- The request ID after the failed attempts. -/
def failId : Half → List (Option Half) → Half
  | id, [] => id
  | id, f :: r => failId (if f.isSome then id + 2 else id + 1) r

/-- The replies of the failed attempts, each with the version payload `version`. -/
def failReplies (c : Cfg) (version : List Byte) : Half → List (Option Half) → List (Option (List Byte))
  | _, [] => []
  | id, none :: r => failReplies c version (id + 1) r
  | id, some st :: r =>
    some (replyBytes c c.opGetVersion id 0 version) :: some (replyBytes c c.opSetMode (id + 1) st [])
      :: failReplies c version (id + 2) r

/-- The requests of the failed attempts. -/
def failRequests (c : Cfg) : Half → List (Option Half) → List (List Byte)
  | _, [] => []
  | id, none :: r => putLe16 (reqBytes c c.opGetVersion []) 6 id :: failRequests c (id + 1) r
  | id, some _ :: r =>
    putLe16 (reqBytes c c.opGetVersion []) 6 id
      :: putLe16 (reqBytes c c.opSetMode (putHalf c.modeKnown)) 6 (id + 1) :: failRequests c (id + 2) r

/-- The events of the failed attempts: one for each status. -/
def failEvents (failures : List (Option Half)) : List Event :=
  failures.filterMap fun f => f.map fun st => .protocol (.status st)

/-- The error a failed attempt ends with. -/
def failError : Option Half → CtrlError
  | none => .transport
  | some st => .protocol (.status st)

/-! ### Buffers -/

/-- The ids of the buffers an endpoint has handed back (R89). -/
def completedIds (ep : Ep) : List Nat := ep.completed.map fun c => c.buf.id

/-- The endpoint an operation works on, if it works on one (R61). -/
def endpointOf : Instr → Option Endpoint
  | .raEnable e | .raDisable e | .bqEnqueue e _ | .fmtSet e _ _ _ _ | .raChunk e _ | .raByte e _ | .raSeek1 e _
  | .raSeek2 e _ | .raHdr e _ | .raHdrdone e | .raStart e | .raCont e _ | .raPay e _ | .raPktdone e => some e
  | .lutBuild | .dcStart | .dcData _ | .dcUnpack _ | .dcEnd => some .depth
  | .clStart | .clData _ | .clNib _ | .clDelta _ | .clSkip _ | .clLit | .clLithi _ | .clLitlo _ | .clEmit _
  | .clEnd => some .color
  | .mfU2f _ | .mfMul _ _ | .mfAdd _ _ | .mfDiv _ _ | .ccXfer _ _ _ | .ccGetVersion | .ccGetFixed | .ccGetAlgo _
  | .ccGetSerial | .ccSetParam _ _ | .ccReset | .ccInit _ => none

/-- The id of the buffer that an operation adds to endpoint `e`: BQ.ENQUEUE's on its endpoint (R217). -/
def enqueuedIds (i : Instr) (e : Endpoint) : List Nat :=
  match i with
  | .bqEnqueue d buf => if d = e then [buf.id] else []
  | .mfU2f _ | .mfMul _ _ | .mfAdd _ _ | .mfDiv _ _ | .ccXfer _ _ _ | .ccGetVersion | .ccGetFixed | .ccGetAlgo _
  | .ccGetSerial | .ccSetParam _ _ | .ccReset | .ccInit _ | .raEnable _ | .raDisable _ | .fmtSet _ _ _ _ _
  | .raChunk _ _ | .raByte _ _ | .raSeek1 _ _ | .raSeek2 _ _ | .raHdr _ _ | .raHdrdone _ | .raStart _ | .raCont _ _
  | .raPay _ _ | .raPktdone _ | .lutBuild | .dcStart | .dcData _ | .dcUnpack _ | .dcEnd | .clStart | .clData _ | .clNib _
  | .clDelta _ | .clSkip _ | .clLit | .clLithi _ | .clLitlo _ | .clEmit _ | .clEnd => []

end Sys2Proof.Safety
end

