-- ==== Sys2Proof/Certificates/Slice0/Obligations.lean ====
section
/-! DEFINITION. The statements for the provers. Each says what it claims in its docstring, with the rules it formalises;
`s.answer r` is the state `s` with the result `r` returned to the caller (R358). -/

open Sys2Proof Sys2Proof.Machine Sys2Proof.Safety

/-! ### Encoding and stepping -/

/-- Decode and encode agree: every operation the encoding admits is read back with every operand. The stimulus layout
is the model's (notes/assumptions/2.md); the requests, units and nibbles in it are those of R102 to R108, R114, R116.
The layouts rest on the spec's decisions D1, D6, D8. -/
def Obligations.DecodeOfEncodeIsTheOperation : Prop :=
  ∀ (c : Cfg) (i : Instr), c.ok = true → wellFormed c i = true → decode c (encode c i) = .ok i

/-- A few stimuli written out from the spec's own byte strings decode to the operations they stand for: the request of
R176's example, that of R177's example (before the ID is stamped), the unit of R248's example, code 0xF. The selector
byte before each of them is the model's choice (notes/assumptions/2.md, DESIGN CHOICE); that eight bare bits 0x0F are
taken as CL.LIT is the model's choice too (notes/assumptions/23.md, DESIGN CHOICE). The byte strings rest on D1, D8, D19. -/
def Obligations.WrittenOutStimuliDecode : Prop :=
  decode Cfg.default [9, 0x47, 0x4D, 0x02, 0x00, 0x03, 0x00, 0x07, 0x00, 0x05, 0x00, 0x01, 0x00] = .ok (.ccSetParam 5 1)
    ∧ decode Cfg.default [10, 0x47, 0x4D, 0x01, 0x00, 0x06, 0x00, 0x00, 0x00, 0x01, 0x00] = .ok .ccReset
    ∧ (decode Cfg.default [29, 0x00, 0x00, 0x04, 0x01, 0x00, 0x30, 0x08, 0x01, 0x40, 0x30, 0x07]
        = .ok (.dcUnpack 0x0000040100300801403007))
    ∧ decode Cfg.default [36, 0x0F] = .ok .clLit
    ∧ decodeTableWord 8 0x0F = some .clLit

/-- A step runs the operation its stimulus decodes to, with that stimulus taken; one that decodes to none is refused; the
host's calibration write writes `dh.cal` and nothing else; with no stimulus nothing changes. A caller that invokes an
operation of several exchanges puts it with those in progress, any other runs; resuming where nothing is in progress
changes nothing else. The stimulus list, and the invocation round by round that stands for R86, are the model's
(notes/assumptions/1.md, 18.md, 24.md, 25.md). -/
def Obligations.StepRunsTheDecodedOperation : Prop :=
  ∀ (s : State) (rest : List Stimulus),
    (∀ bytes i, s.stim = .op bytes :: rest → decode s.cfg bytes = .ok i → waits s i = false →
        step s = exec i { s with stim := rest })
    ∧ (∀ bytes err, s.stim = .op bytes :: rest ∨ s.stim = .invoke bytes :: rest → decode s.cfg bytes = .error err →
        step s = .refused (.undecodable err))
    ∧ (∀ cal, s.stim = .calWrite cal :: rest → step s = .next { s with dh := { s.dh with cal := cal }, stim := rest })
    ∧ (s.stim = [] → step s = .next s)
    ∧ (∀ bytes i, s.stim = .invoke bytes :: rest → decode s.cfg bytes = .ok i → callOf s.cfg i = none →
        waits s i = false → step s = exec i { s with stim := rest })
    ∧ (∀ bytes i c, s.stim = .invoke bytes :: rest → decode s.cfg bytes = .ok i → callOf s.cfg i = some c →
        step s = .next { s with calls := s.calls ++ [c], stim := rest })
    ∧ (∀ k, s.stim = .resume k :: rest → s.calls.length ≤ k → s.cc.lock = false → step s = .next { s with stim := rest })

/-- A control operation that finds the lock held waits (R25, R86, R160). The paged reads and CC.INIT are included where
they make an exchange at all, and so is an operation in progress that is resumed. That the waiting step changes nothing
and keeps its stimulus before every other agent's is the model's choice (notes/assumptions/18.md, DESIGN CHOICE); the
session invariant says that the lock is free between the steps of every run. -/
def Obligations.HeldLockMakesTheCallerWait : Prop :=
  ∀ (s : State) (rest : List Stimulus), s.cc.lock = true →
    (∀ (bytes : List Byte) (i : Instr),
      s.stim = .op bytes :: rest ∨ s.stim = .invoke bytes :: rest ∧ callOf s.cfg i = none →
      decode s.cfg bytes = .ok i → isControl i = true →
      s.cfg.fixedSize ≠ 0 → s.cfg.algoSize ≠ 0 → s.cfg.initRetries ≠ 0 → step s = .next s)
    ∧ (∀ k, s.stim = .resume k :: rest → step s = .next s)

/-! ### Reset and invariants -/

/-- What session creation sets (R341, R60), for every register to which R60 gives a value. The values rest on D4, D26,
D28 and D39. -/
def Obligations.SessionCreationSetsTheRegisters : Prop :=
  let s := State.reset
  s.cc.reqId = 0 ∧ s.cc.lock = false ∧ s.cc.events = []
    ∧ (∀ e, (s.ep e).enabled = false ∧ (s.ep e).rstate = .seek1 ∧ (s.ep e).hdrFill = 0 ∧ (s.ep e).frameCount = 0
        ∧ (s.ep e).byteCount = 0 ∧ (s.ep e).pktCount = 0 ∧ (s.ep e).corrupt = false ∧ (s.ep e).active = none
        ∧ (s.ep e).avail = [] ∧ (s.ep e).events = [] ∧ (s.ep e).remaining = 0 ∧ (s.ep e).ptype = 0
        ∧ (s.ep e).lastSeq = 0 ∧ (s.ep e).padStart = 0 ∧ (s.ep e).padEnd = 0 ∧ (s.ep e).ts = 0 ∧ (s.ep e).cursor = 0)
    ∧ (∀ c, c < 2048 → lutAt s c = 0) ∧ s.dc.lutValid = false ∧ s.dc.carryLen = 0
    ∧ (∀ k : Fin 3, s.cl.last[k] = 0) ∧ s.cl.pos = 0 ∧ s.cl.lit = .none ∧ s.cl.lineCnt = 0

/-- The reset state meets the three invariants below. The invariants are the model's reading of R62 and R24. The session
invariant at reset rests on the model's choices of the default configuration (notes/assumptions/3.md) and of empty
Device Handle records (10.md), the storage invariant on the canonical form (13.md), the streaming invariant on the
format registers' values (11.md) and on its added clauses (36.md); the empty list of operations in progress is the
model's own (18.md). -/
def Obligations.ResetMeetsTheInvariants : Prop :=
  StreamInv State.reset ∧ SessionInv State.reset ∧ StorageInv State.reset

/-- Every step keeps the streaming invariant of R62: header and payload counts agree with the reassembly state, the
cursor of an enabled endpoint stays within the image, the carry buffer holds at most 10 bytes, no buffer is held
twice, and every byte a `Complete` reports was written. R62 is marked as derived in the spec; the clauses on written
bytes, the line counter and the format are DEDUCED; the stimuli still to come are those of R84's agents
(notes/assumptions/27.md, 36.md). -/
def Obligations.EveryStepKeepsTheStreamInvariant : Prop :=
  ∀ s t : State, StreamInv s → step s = .next t → StreamInv t

/-- Every step keeps the session invariant: the lock is free between steps (R21, R25) and the Device Handle's records
stay within their sizes (R24), and so does what the operations in progress have gathered (R172; the list of them is the
model's, notes/assumptions/18.md). The sizes of the records rest on D10 and D11. -/
def Obligations.EveryStepKeepsTheSessionInvariant : Prop :=
  ∀ s t : State, SessionInv s → step s = .next t → SessionInv t

/-- Every step keeps the table and every buffer in canonical form. The form is the model's (notes/assumptions/13.md). -/
def Obligations.EveryStepKeepsTheStorageInvariant : Prop :=
  ∀ s t : State, StorageInv s → step s = .next t → StorageInv t

/-! ### Minifloat unit -/

/-- MF.U2F (R143): zero gives the zero word; `n` with highest bit `k` gives `Pack(0, 127 + k, n * 2^(23 - k))`; the
conversion is exact on the whole domain; `n` of 2^16 or more is refused. The algorithm and the domain rest on D21; that a
call outside R149's domain is refused is notes/assumptions/9.md (DEDUCED). -/
def Obligations.MfU2fConvertsExactly : Prop :=
  ∀ (s : State) (n : Word),
    (n = 0 → exec (.mfU2f n) s = .next (s.answer (.word 0)))
    ∧ (∀ k, n.toNat < 2 ^ 16 → 2 ^ k ≤ n.toNat → n.toNat < 2 ^ (k + 1) →
        exec (.mfU2f n) s = .next (s.answer (.word (mfPack false (127 + k) (n.toNat * 2 ^ (23 - k))))))
    ∧ (n.toNat < 2 ^ 16 →
        ∃ w, exec (.mfU2f n) s = .next (s.answer (.word w)) ∧ mfWellFormed w = true ∧ mfValue w = n.toNat)
    ∧ (2 ^ 16 ≤ n.toNat → exec (.mfU2f n) s = .refused .mfDomain)

/-- MF.MUL (R144): a zero operand gives the zero word; else the top 24 bits of the 48-bit product, the exponents' sum,
the signs' parity; an operand that is not well-formed, or a result exponent outside 1 to 254, is refused (R149). It
rests on D21. -/
def Obligations.MfMulPacksTheTruncatedProduct : Prop :=
  ∀ (s : State) (a b : Word),
    (mfWellFormed a = false ∨ mfWellFormed b = false → exec (.mfMul a b) s = .refused .mfDomain)
    ∧ (mfWellFormed a = true → mfWellFormed b = true → a = 0 ∨ b = 0 →
        exec (.mfMul a b) s = .next (s.answer (.word 0)))
    ∧ ∀ (e : Int) (m : Nat), mfWellFormed a = true → mfWellFormed b = true → a ≠ 0 → b ≠ 0 →
        (mfMant a * mfMant b < 2 ^ 47 ∧ e = (mfExp a : Int) + mfExp b - 127 ∧ m = mfMant a * mfMant b / 2 ^ 23
          ∨ 2 ^ 47 ≤ mfMant a * mfMant b ∧ e = (mfExp a : Int) + mfExp b - 126 ∧ m = mfMant a * mfMant b / 2 ^ 24) →
        (1 ≤ e ∧ e ≤ 254 →
          exec (.mfMul a b) s = .next (s.answer (.word (mfPack (mfSign a ^^ mfSign b) e.toNat m))))
        ∧ (e < 1 ∨ 254 < e → exec (.mfMul a b) s = .refused .mfDomain)

/-- MF.ADD (R145): a zero operand returns the other; the smaller magnitude is shifted right, bits dropped; equal signs
add, different signs subtract and renormalise; the result takes the sign of the larger magnitude; and the operation is
commutative bit for bit. Outside its domain it is refused (R149). It rests on D21. -/
def Obligations.MfAddAlignsAndTruncates : Prop :=
  ∀ (s : State) (a b : Word),
    (mfWellFormed a = false ∨ mfWellFormed b = false → exec (.mfAdd a b) s = .refused .mfDomain)
    ∧ (a = 0 → mfWellFormed b = true → exec (.mfAdd a b) s = .next (s.answer (.word b)))
    ∧ (b = 0 → mfWellFormed a = true → exec (.mfAdd a b) s = .next (s.answer (.word a)))
    ∧ (∀ (hi lo : Word) (ml m : Nat) (e : Int), mfWellFormed a = true → mfWellFormed b = true → a ≠ 0 → b ≠ 0 →
        (mfMag b ≤ mfMag a ∧ hi = a ∧ lo = b) ∨ (mfMag a < mfMag b ∧ hi = b ∧ lo = a) →
        ml = (if mfExp hi - mfExp lo < 24 then mfMant lo / 2 ^ (mfExp hi - mfExp lo) else 0) →
        (mfSign hi ≠ mfSign lo → mfMant hi = ml → exec (.mfAdd a b) s = .next (s.answer (.word 0)))
        ∧ ((mfSign hi = mfSign lo ∧ 2 ^ 24 ≤ mfMant hi + ml ∧ m = (mfMant hi + ml) / 2 ∧ e = mfExp hi + 1)
            ∨ (mfSign hi = mfSign lo ∧ mfMant hi + ml < 2 ^ 24 ∧ m = mfMant hi + ml ∧ e = mfExp hi)
            ∨ (mfSign hi ≠ mfSign lo ∧ 2 ^ 23 ≤ m ∧ m < 2 ^ 24
                ∧ ∃ lz : Nat, m = (mfMant hi - ml) * 2 ^ lz ∧ e = (mfExp hi : Int) - lz) →
          (1 ≤ e ∧ e ≤ 254 → exec (.mfAdd a b) s = .next (s.answer (.word (mfPack (mfSign hi) e.toNat m))))
          ∧ (e < 1 ∨ 254 < e → exec (.mfAdd a b) s = .refused .mfDomain)))
    ∧ exec (.mfAdd a b) s = exec (.mfAdd b a) s

/-- MF.DIV (R148, R151 (e)): the exact real quotient truncated toward zero, as a signed 32-bit integer; a quotient of
magnitude 2^31 or more, a zero divisor and an operand that is not well-formed are refused (R149). It rests on D21. -/
def Obligations.MfDivTruncatesTheRealQuotient : Prop :=
  ∀ (s : State) (a b : Word),
    (mfWellFormed a = false ∨ mfWellFormed b = false ∨ b = 0 → exec (.mfDiv a b) s = .refused .mfDomain)
    ∧ (mfWellFormed a = true → mfWellFormed b = true → b ≠ 0 → |mfValue a / mfValue b| < 2 ^ 31 →
      ∃ v : Word, exec (.mfDiv a b) s = .next (s.answer (.int v))
        ∧ v.toInt = if 0 ≤ mfValue a / mfValue b then ⌊mfValue a / mfValue b⌋ else ⌈mfValue a / mfValue b⌉)
    ∧ (mfWellFormed a = true → mfWellFormed b = true → b ≠ 0 → 2 ^ 31 ≤ |mfValue a / mfValue b| →
      exec (.mfDiv a b) s = .refused .mfDomain)

/-- MF.MUL's error (R151 (c)): the result's magnitude is not larger than the real product's and within 2^-22 of it,
and its sign is that of the product. The spec marks the bound as derived. -/
def Obligations.MfMulErrorIsBounded : Prop :=
  ∀ (s : State) (a b w : Word), mfWellFormed a = true → mfWellFormed b = true →
    exec (.mfMul a b) s = .next (s.answer (.word w)) →
    |mfValue w| ≤ |mfValue a * mfValue b|
      ∧ |mfValue a * mfValue b| - |mfValue w| ≤ |mfValue a * mfValue b| / 2 ^ 22
      ∧ 0 ≤ mfValue w * (mfValue a * mfValue b)

/-- MF.ADD's error (R151 (d)): within 2^-22 of the larger magnitude of the real sum, and zero or of the sign of the
operand of larger magnitude. The spec marks the bound as derived. -/
def Obligations.MfAddErrorIsBounded : Prop :=
  ∀ (s : State) (a b w : Word), mfWellFormed a = true → mfWellFormed b = true →
    exec (.mfAdd a b) s = .next (s.answer (.word w)) →
    |mfValue w - (mfValue a + mfValue b)| ≤ max |mfValue a| |mfValue b| / 2 ^ 22
      ∧ (|mfValue b| ≤ |mfValue a| → 0 ≤ mfValue w * mfValue a)
      ∧ (|mfValue a| ≤ |mfValue b| → 0 ≤ mfValue w * mfValue b)

/-! ### Lookup table and depth codec -/

/-- LUT.BUILD (R241): with the depth endpoint disabled, entry `i` becomes LutEntry(i) of the calibration words for every
index 0 to 2047, `lut_valid` becomes 1, nothing else changes, and a second build changes nothing; while the endpoint is
enabled it is refused. That LutEntry is the spec's default body and no configuration function is the model's choice
(notes/assumptions/39.md, DESIGN CHOICE). That a second build leaves also the entries outside the minifloat domain as they were is the
model's choice (U5, notes/assumptions/6.md, DESIGN CHOICE); the refusal follows the treatment of U14
(notes/assumptions/15.md, DEDUCED); the words may be any (10.md, 37.md); LutEntry rests on D20. -/
def Obligations.LutBuildFillsTheTable : Prop :=
  ∀ s : State,
    (s.depth.enabled = false → Lut.wf s.dc.lut →
      ∃ t, exec .lutBuild s = .next t
        ∧ t = { s with dc := { s.dc with lut := t.dc.lut, lutValid := true } }
        ∧ (∀ i, i < 2048 → lutAt t i = lutEntry s.cfg i s.dh.cal)
        ∧ exec .lutBuild t = .next t)
    ∧ (s.depth.enabled = true → exec .lutBuild s = .refused .lutWhileEnabled)

/-- The range check of LutEntry (R243 (c)): a computed entry is 0 or below MAX_DEPTH. The formula rests on D20, and on the
model's choice of the default body for the configuration function (notes/assumptions/39.md, DESIGN CHOICE). -/
def Obligations.LutEntriesPassTheRangeCheck : Prop :=
  ∀ (c : Cfg) (i : Nat) (cal : Cal) (v : Half), c.maxDepth ≤ 65536 → lutFormula c i cal = some v →
    v = 0 ∨ v.toNat < c.maxDepth

/-- The table is written only by LUT.BUILD (R38): no other operation writes an entry, which with R244 makes it immutable, or
`lut_valid` (R46, which the spec marks as derived). LUT.BUILD itself is left out: a second build replaces the table (U14;
notes/assumptions/31.md, DEDUCED), although R244 says that no operation writes it after LUT.BUILD. -/
def Obligations.OnlyLutBuildWritesTheTable : Prop :=
  ∀ (i : Instr) (s t : State), i ≠ .lutBuild → exec i s = .next t → t.dc.lut = s.dc.lut ∧ t.dc.lutValid = s.dc.lutValid

/-- The eight codes of a unit as byte arithmetic (R115). R115 is marked as derived; it rests on D19. -/
def Obligations.UnitCodesAsByteArithmetic : Prop :=
  ∀ u0 u1 u2 u3 u4 u5 u6 u7 u8 u9 u10 : Byte,
    let u := unitOfBytes [u0, u1, u2, u3, u4, u5, u6, u7, u8, u9, u10]
    let z := fun b : Byte => b.setWidth 11
    unitCode u 0 = (z u0 <<< 3 ||| z u1 >>> 5)
      ∧ unitCode u 1 = ((z u1 &&& 0x1F) <<< 6 ||| z u2 >>> 2)
      ∧ unitCode u 2 = ((z u2 &&& 0x03) <<< 9 ||| z u3 <<< 1 ||| z u4 >>> 7)
      ∧ unitCode u 3 = ((z u4 &&& 0x7F) <<< 4 ||| z u5 >>> 4)
      ∧ unitCode u 4 = ((z u5 &&& 0x0F) <<< 7 ||| z u6 >>> 1)
      ∧ unitCode u 5 = ((z u6 &&& 0x01) <<< 10 ||| z u7 <<< 2 ||| z u8 >>> 6)
      ∧ unitCode u 6 = ((z u8 &&& 0x3F) <<< 5 ||| z u9 >>> 3)
      ∧ unitCode u 7 = ((z u9 &&& 0x07) <<< 8 ||| z u10)

/-- BufWrite (R78): the bytes that fit are written at the cursor, the cursor moves past them, every other byte stays,
and one OVERFLOW event with the number dropped is recorded exactly when some are; nothing else of the endpoint
changes. It rests on D22. -/
def Obligations.BufWriteClipsAtTheImageSize : Prop :=
  ∀ (ep : Ep) (ab : ActiveBuf) (bytes : List Byte), ep.active = some ab → ep.cursor ≤ ep.imageSize →
    ∃ m, ep.bufWrite bytes =
        { ep with
          active := some { ab with mem := m }
          cursor := min (ep.cursor + bytes.length) ep.imageSize
          events := ep.events ++
            if ep.imageSize < ep.cursor + bytes.length then [.overflow (ep.cursor + bytes.length - ep.imageSize)] else [] }
      ∧ ∀ a, m.read a =
          if ep.cursor ≤ a ∧ a < min (ep.cursor + bytes.length) ep.imageSize then bytes[a - ep.cursor]? else ab.mem.read a

/-- DC.START (R245): with a buffer held the cursor is rewound, the carry emptied, and `2 * pad_start` zero bytes written
from offset 0, clipped at the image size byte by byte with one OVERFLOW event that counts the bytes dropped; without one
nothing changes (R252). The clip, the event and its count rest on D22, the spec's own choice (notes/assumptions/29.md);
that the zero bytes are written, where U23 has the region skipped, is notes/assumptions/38.md (DEDUCED). -/
def Obligations.DcStartWritesTheStartPadding : Prop :=
  ∀ s : State,
    (s.depth.active = none → exec .dcStart s = .next s)
    ∧ ∀ ab, s.depth.active = some ab →
        ∃ t, exec .dcStart s = .next t
          ∧ t = { s with
              depth := { s.depth with active := t.depth.active, cursor := t.depth.cursor, events := t.depth.events }
              dc := { s.dc with carryLen := 0 } }
          ∧ t.depth.active.map (·.buf) = some ab.buf
          ∧ t.depth.cursor = min (2 * s.depth.padStart.toNat) s.depth.imageSize
          ∧ t.depth.events = s.depth.events ++
              (if s.depth.imageSize < 2 * s.depth.padStart.toNat then
                [.overflow (2 * s.depth.padStart.toNat - s.depth.imageSize)] else [])
          ∧ ∀ a, bufByte t .depth a = if a < t.depth.cursor then some 0 else bufByte s .depth a

/-- DC.UNPACK (R248, R71, R249): sample `j` is LUT entry code `j`, its low byte at `cursor + 2*j` and its high byte after
it, clipped at the image size with one OVERFLOW event per clipped lane; every other byte stays; without a buffer the
call is refused. The codes' and the samples' bit and byte order rest on D19 and D1, the clip on D22 and on R249, which
the spec marks as derived (notes/assumptions/29.md); the refusal is the model's reading of R78
(notes/assumptions/17.md, DEDUCED). -/
def Obligations.DcUnpackWritesEightSamples : Prop :=
  ∀ (s : State) (u : DepthUnit),
    (s.depth.active = none → exec (.dcUnpack u) s = .refused .noActiveBuffer)
    ∧ ∀ ab, s.depth.active = some ab → s.depth.cursor ≤ s.depth.imageSize →
        ∃ t, exec (.dcUnpack u) s = .next t
          ∧ t = { s with
              depth := { s.depth with active := t.depth.active, cursor := t.depth.cursor, events := t.depth.events } }
          ∧ t.depth.active.map (·.buf) = some ab.buf
          ∧ t.depth.cursor = min (s.depth.cursor + 16) s.depth.imageSize
          ∧ t.depth.events = s.depth.events ++ ((List.range 8).filterMap fun j =>
              if s.depth.imageSize < s.depth.cursor + 2 * j + 2 then
                some (.overflow (min 2 (s.depth.cursor + 2 * j + 2 - s.depth.imageSize))) else none)
          ∧ (∀ j, j < 8 → s.depth.cursor + 2 * j < s.depth.imageSize →
              bufByte t .depth (s.depth.cursor + 2 * j) = some (loByte (lutAt s (unitCode u j).toNat)))
          ∧ (∀ j, j < 8 → s.depth.cursor + 2 * j + 1 < s.depth.imageSize →
              bufByte t .depth (s.depth.cursor + 2 * j + 1) = some (hiByte (lutAt s (unitCode u j).toNat)))
          ∧ ∀ a, a < s.depth.cursor ∨ t.depth.cursor ≤ a → bufByte t .depth a = bufByte s .depth a

/-- DC.DATA (R246): with a buffer held, `n` bytes after a carry of `k` leave a carry of `(k + n) mod 11` and write 16
bytes per completed unit, clipped at the image size; only the depth endpoint's buffer, cursor and events and the carry
change; without a buffer nothing changes (R252). The clip rests on D22. -/
def Obligations.DcDataConsumesWholeUnits : Prop :=
  ∀ (s : State) (bytes : List Byte),
    (s.depth.active = none → exec (.dcData bytes) s = .next s)
    ∧ ∀ ab : ActiveBuf, s.depth.active = some ab → s.dc.carryLen ≤ 10 → s.depth.cursor ≤ s.depth.imageSize →
        ∃ t, exec (.dcData bytes) s = .next t
          ∧ t = { s with
              depth := { s.depth with active := t.depth.active, cursor := t.depth.cursor, events := t.depth.events }
              dc := { s.dc with carry := t.dc.carry, carryLen := t.dc.carryLen } }
          ∧ t.depth.active.map (·.buf) = some ab.buf
          ∧ t.dc.carryLen = (s.dc.carryLen + bytes.length) % 11
          ∧ t.depth.cursor = min (s.depth.cursor + 16 * ((s.dc.carryLen + bytes.length) / 11)) s.depth.imageSize
          ∧ ∀ a, a < s.depth.cursor ∨ t.depth.cursor ≤ a → bufByte t .depth a = bufByte s .depth a

/-- A whole unit through DC.DATA is that unit through DC.UNPACK, whatever the carry holds when it starts: the `k`
bytes already carried and the `11 - k` delivered are one unit (R246, S1 of 95_test_vectors.md). R253 is marked as
derived. -/
def Obligations.DcDataUnpacksACompletedUnit : Prop :=
  ∀ (s : State) (ab : ActiveBuf) (bytes : List Byte),
    s.depth.active = some ab → s.dc.carryLen + bytes.length = 11 → bytes ≠ [] →
    ∃ t carry, exec (.dcUnpack (unitOfBytes (s.dc.carry.toList.take s.dc.carryLen ++ bytes))) s = .next t
      ∧ exec (.dcData bytes) s = .next { t with dc := { t.dc with carry := carry, carryLen := 0 } }

/-- DC.END (R250): with a buffer held the carry is dropped, `2 * pad_end` zero bytes are written, and the buffer is
completed with its final cursor, status OK, the capture time and the frame count, and released; without one nothing
changes (R252). The sequence metadata rests on D18, the clip on D22. -/
def Obligations.DcEndCompletesTheFrame : Prop :=
  ∀ s : State,
    (s.depth.active = none → exec .dcEnd s = .next s)
    ∧ ∀ ab, s.depth.active = some ab → s.depth.cursor ≤ s.depth.imageSize →
        ∃ m, exec .dcEnd s = .next { s with
            depth := { s.depth with
              active := none
              cursor := min (s.depth.cursor + 2 * s.depth.padEnd.toNat) s.depth.imageSize
              events := s.depth.events ++
                (if s.depth.imageSize < s.depth.cursor + 2 * s.depth.padEnd.toNat then
                  [.overflow (s.depth.cursor + 2 * s.depth.padEnd.toNat - s.depth.imageSize)] else [])
              completed := s.depth.completed ++
                [{ buf := ab.buf, bytes := min (s.depth.cursor + 2 * s.depth.padEnd.toNat) s.depth.imageSize, status := .ok,
                   ts := s.depth.ts, seq := s.depth.frameCount, mem := m }] }
            dc := { s.dc with carryLen := 0 } }
          ∧ ∀ a, m.read a =
              if s.depth.cursor ≤ a ∧ a < min (s.depth.cursor + 2 * s.depth.padEnd.toNat) s.depth.imageSize then some 0
              else ab.mem.read a

/-- A whole depth frame, from the wire to the owner (R80, R207, R250, R254): fed to an idle enabled endpoint with a
buffer queued, a start packet, packets of other types and an end packet with consecutive sequence numbers make exactly
one `Complete`, of the head of the queue, whose bytes are the start padding, the table's samples of every whole unit
and the end padding, clipped at the image size. It rests on D1, D13, D15 to D19, D22 and D30, its start padding on
notes/assumptions/38.md (DEDUCED). -/
def Obligations.DepthFrameIsDelivered : Prop :=
  ∀ (s : State) (buf : Buf) (queue : List Buf) (now : Stamp) (times : List Stamp) (seq padStart padEnd : Half)
    (first last : List Byte) (mid : List (Half × List Byte)) (image : List Byte),
    s.depth.enabled = true → s.depth.rstate = .seek1 → s.depth.hdrFill = 0 → s.depth.active = none →
    s.depth.avail = buf :: queue → s.depth.nowAnswers = now :: times → s.cfg.endDepth ≠ s.cfg.startDepth →
    fitsPacket first = true → fitsPacket last = true →
    (∀ p ∈ mid, fitsPacket p.2 = true ∧ p.1 ≠ s.cfg.startDepth ∧ p.1 ≠ s.cfg.endDepth) →
    image = depthImage s.dc.lut padStart padEnd (first ++ mid.flatMap (·.2) ++ last) →
    ∃ t m, exec (.raChunk .depth (depthFrame s.cfg seq padStart padEnd first mid last)) s = .next t
      ∧ t.depth.completed = s.depth.completed ++
          [{ buf := buf, bytes := min image.length s.depth.imageSize, status := .ok, ts := now,
             seq := s.depth.frameCount + 1, mem := m }]
      ∧ (∀ a, m.read a = if a < s.depth.imageSize then image[a]? else none)
      ∧ t.depth.active = none ∧ t.depth.avail = queue ∧ t.depth.rstate = .seek1 ∧ t.depth.corrupt = false
      ∧ (image.length ≤ s.depth.imageSize → t.depth.events = s.depth.events)

/-! ### Colour codec -/

/-- CL.START (R271) and CL.END (R281), each with a buffer held and without one (R284). CL.END's metadata rests on D18;
that CL.START keeps `cl.lit_hi`, which R60 leaves unspecified, is the model's choice (notes/assumptions/12.md, DESIGN
CHOICE). -/
def Obligations.ClStartResetsAndClEndCompletes : Prop :=
  ∀ (s : State) (ab : ActiveBuf),
    (s.color.active = some ab →
      exec .clStart s = .next { s with
        color := { s.color with cursor := 0 }
        cl := { s.cl with last := #v[0, 0, 0], pos := 0, lit := .none, lineCnt := 0 } })
    ∧ (s.color.active = some ab →
      exec .clEnd s = .next { s with
        color := { s.color with
          active := none
          completed := s.color.completed ++
            [{ buf := ab.buf, bytes := s.color.cursor, status := .ok, ts := s.color.ts, seq := s.color.frameCount,
               mem := ab.mem }] } })
    ∧ (s.color.active = none →
      exec .clStart s = .next s ∧ exec .clEnd s = .next s)

/-- CL.DATA (R272, R116): with a buffer held it answers a next state, that of CL.NIB on the high and then the low nibble of
each byte in order; without one nothing changes (R284). -/
def Obligations.ClDataRunsTheNibblesInOrder : Prop :=
  ∀ (s : State) (bytes : List Byte),
    (s.color.active = none → exec (.clData bytes) s = .next s)
    ∧ ∀ ab, s.color.active = some ab →
        ∃ t, exec (.clData bytes) s = .next t ∧ runOps (nibbleOps bytes) s = .next t
          ∧ t.color.active.map (·.buf) = some ab.buf

/-- CL.NIB (R273): the literal state first, then the code; with a buffer held it always goes on. It rests on D23. -/
def Obligations.ClNibDispatches : Prop :=
  ∀ (s : State) (n : Nib),
    (s.cl.lit = .wantHi → exec (.clNib n) s = exec (.clLithi n) s)
    ∧ (s.cl.lit = .wantLo → exec (.clNib n) s = exec (.clLitlo n) s)
    ∧ (s.cl.lit = .none → n.toNat ≤ 12 → exec (.clNib n) s = exec (.clDelta n) s)
    ∧ (s.cl.lit = .none → n = 13 ∨ n = 14 → exec (.clNib n) s = exec (.clSkip n) s)
    ∧ (s.cl.lit = .none → n = 15 → exec (.clNib n) s = exec .clLit s)
    ∧ (s.color.active ≠ none → ∃ t, exec (.clNib n) s = .next t)

/-- CL.EMIT (R279, R280, R283): the channel's predictor becomes the sample, the position moves round the cycle 0, 1,
2, 1, the line counter advances, and after `2 * W` samples predictors and counter are cleared; the byte is written at
the cursor, or dropped with one OVERFLOW event when the image is full. Nothing else changes. It rests on D25 and D40;
that it also runs at width 0, where no line ends and which U11 refuses at FMT.SET, is the model's choice
(notes/assumptions/11.md, DESIGN CHOICE). -/
def Obligations.ClEmitWritesOneSample : Prop :=
  ∀ (s : State) (ab : ActiveBuf) (v : Byte), s.color.active = some ab → s.color.cursor ≤ s.color.imageSize →
    ∃ t, exec (.clEmit v) s = .next t
      ∧ t = { s with
          color := { s.color with active := t.color.active, cursor := t.color.cursor, events := t.color.events }
          cl := { s.cl with last := t.cl.last, pos := s.cl.pos + 1, lineCnt := t.cl.lineCnt } }
      ∧ t.color.active.map (·.buf) = some ab.buf
      ∧ t.color.cursor = min (s.color.cursor + 1) s.color.imageSize
      ∧ t.color.events = s.color.events ++ (if s.color.cursor = s.color.imageSize then [.overflow 1] else [])
      ∧ (∀ a, bufByte t .color a =
          if a = s.color.cursor ∧ s.color.cursor < s.color.imageSize then some v else bufByte s .color a)
      ∧ (s.cl.lineCnt + 1 = 2 * s.color.imageWidth → t.cl.last = #v[0, 0, 0] ∧ t.cl.lineCnt = 0)
      ∧ (s.cl.lineCnt + 1 ≠ 2 * s.color.imageWidth →
          t.cl.lineCnt = s.cl.lineCnt + 1
          ∧ t.cl.last[0] = (if s.cl.pos = 0 then v else s.cl.last[0])
          ∧ t.cl.last[1] = (if s.cl.pos = 1 ∨ s.cl.pos = 3 then v else s.cl.last[1])
          ∧ t.cl.last[2] = (if s.cl.pos = 2 then v else s.cl.last[2]))

/-- CL.DELTA (R274) and CL.LITLO (R278): with a buffer held each goes on, as CL.EMIT of its sample: the predictor of
the position's channel plus the code minus 6, modulo 256; the two halves of the literal, with the literal state
closed. It rests on D23 and D24. -/
def Obligations.ClDeltaAndClLitloEmitTheirSample : Prop :=
  ∀ (s : State) (n : Nib), s.color.active ≠ none →
    (n.toNat ≤ 12 → ∀ v p : Byte,
      p = (if s.cl.pos = 0 then s.cl.last[0] else if s.cl.pos = 2 then s.cl.last[2] else s.cl.last[1]) →
      v.toNat = (p.toNat + n.toNat + 250) % 256 →
      ∃ t, exec (.clDelta n) s = .next t ∧ exec (.clEmit v) s = .next t)
    ∧ ∀ v : Byte, v.toNat = 16 * s.cl.litHi.toNat + n.toNat →
      ∃ t, exec (.clLitlo n) s = .next t ∧ exec (.clEmit v) { s with cl := { s.cl with lit := .none } } = .next t

/-- CL.SKIP (R275), CL.LIT (R276) and CL.LITHI (R277): what each changes, and nothing else. The literal's two halves
rest on D23. -/
def Obligations.ClSkipLitAndLithi : Prop :=
  ∀ (s : State) (n : Nib),
    (n = 13 ∨ n = 14 → exec (.clSkip n) s = .next s)
    ∧ exec .clLit s = .next { s with cl := { s.cl with lit := .wantHi } }
    ∧ exec (.clLithi n) s = .next { s with cl := { s.cl with lit := .wantLo, litHi := n } }

/-- The round trip (R285, S2): after CL.START, the payload that the encoder makes of any target string, delivered in
any pieces, decodes to exactly that string. The encoder is marked as derived; it rests on D23 to D25,
for width 0 on notes/assumptions/11.md (DESIGN CHOICE). -/
def Obligations.ColourRoundTrip : Prop :=
  ∀ (s s1 : State) (ab : ActiveBuf) (target : List Byte) (pieces : List (List Byte)),
    s.color.active = some ab → target.length ≤ s.color.imageSize → exec .clStart s = .next s1 →
    pieces.flatten = encodeColour s.color.imageWidth s1.cl target →
    ∃ t, runOps (pieces.map .clData) s1 = .next t ∧ t.color.cursor = target.length
      ∧ (∀ a, a < target.length → bufByte t .color a = target[a]?)
      ∧ t.color.events = s.color.events

/-! ### Reassembler -/

/-- RA.CHUNK (R201, R200): on an enabled endpoint it answers a next state, that of RA.BYTE on each byte in order; on a
disabled one nothing changes (R221), which is the spec's own decision D32 (notes/assumptions/29.md, PRESUMED). -/
def Obligations.RaChunkRunsItsBytesInOrder : Prop :=
  ∀ (s : State) (e : Endpoint) (bytes : List Byte),
    ((s.ep e).enabled = true →
      ∃ t, exec (.raChunk e bytes) s = .next t ∧ runOps (bytes.map (.raByte e)) s = .next t)
    ∧ ((s.ep e).enabled = false → exec (.raChunk e bytes) s = .next s)

/-- Chunk boundaries carry no meaning (R219, R253, R282): two deliveries are one delivery of the two strings together,
for RA.CHUNK, DC.DATA and CL.DATA. The spec marks the three rules as derived. -/
def Obligations.DeliveriesMayBeSplitAnywhere : Prop :=
  ∀ (s : State) (e : Endpoint) (x y : List Byte),
    runOps [.raChunk e x, .raChunk e y] s = exec (.raChunk e (x ++ y)) s
    ∧ runOps [.dcData x, .dcData y] s = exec (.dcData (x ++ y)) s
    ∧ runOps [.clData x, .clData y] s = exec (.clData (x ++ y)) s

/-- RA.BYTE (R202): the byte is counted, then the reassembly state chooses the operation; it always goes on. The
counter rests on D39. -/
def Obligations.RaByteCountsAndDispatches : Prop :=
  ∀ (s u : State) (e : Endpoint) (b : Byte), u = s.withEp e { s.ep e with byteCount := (s.ep e).byteCount + 1 } →
    ((s.ep e).rstate = .seek1 → exec (.raByte e b) s = exec (.raSeek1 e b) u)
    ∧ ((s.ep e).rstate = .seek2 → exec (.raByte e b) s = exec (.raSeek2 e b) u)
    ∧ ((s.ep e).rstate = .hdr → exec (.raByte e b) s = exec (.raHdr e b) u)
    ∧ ((s.ep e).rstate = .payload → exec (.raByte e b) s = exec (.raPay e b) u)
    ∧ ∃ t, exec (.raByte e b) s = .next t

/-- RA.SEEK1 (R203) and RA.SEEK2 (R204): a first sync byte opens the marker, a second completes it and is stored with
the first; a mismatch on the second is examined again as a first. Nothing else changes. It rests on D12 and D13. -/
def Obligations.SeekFindsTheMarker : Prop :=
  ∀ (s : State) (e : Endpoint) (b : Byte),
    (b = loByte s.cfg.devSync → exec (.raSeek1 e b) s = .next (s.withEp e { s.ep e with rstate := .seek2 }))
    ∧ (b ≠ loByte s.cfg.devSync → exec (.raSeek1 e b) s = .next s)
    ∧ (b = hiByte s.cfg.devSync →
        exec (.raSeek2 e b) s = .next (s.withEp e { s.ep e with
          hdr := ((s.ep e).hdr.set 0 (loByte s.cfg.devSync)).set 1 (hiByte s.cfg.devSync), hdrFill := 2, rstate := .hdr }))
    ∧ (b ≠ hiByte s.cfg.devSync → b = loByte s.cfg.devSync →
        exec (.raSeek2 e b) s = .next (s.withEp e { s.ep e with rstate := .seek2 }))
    ∧ (b ≠ hiByte s.cfg.devSync → b ≠ loByte s.cfg.devSync →
        exec (.raSeek2 e b) s = .next (s.withEp e { s.ep e with rstate := .seek1 }))

/-- RA.HDR (R205): the byte is stored at the fill count, which advances; the twelfth byte runs RA.HDRDONE. -/
def Obligations.RaHdrCollectsTwelveBytes : Prop :=
  ∀ (s u : State) (e : Endpoint) (b : Byte) (h : (s.ep e).hdrFill < 12),
    u = s.withEp e { s.ep e with hdr := (s.ep e).hdr.set (s.ep e).hdrFill b, hdrFill := (s.ep e).hdrFill + 1 } →
    ((s.ep e).hdrFill < 11 → exec (.raHdr e b) s = .next u)
    ∧ ((s.ep e).hdrFill = 11 → exec (.raHdr e b) s = exec (.raHdrdone e) u)
    ∧ ∃ t, exec (.raHdr e b) s = .next t

/-- RA.HDRDONE (R206, R111 to R113, R212, R213): the type, sequence number and declared size are read from the header in
their byte orders, the payload length is the declared size less 12 or 0, the type chooses RA.START or RA.CONT, the state
becomes PAYLOAD, and an empty payload ends the packet in the same step. The byte orders rest on D1, a payload of 0 for a
declared size below 12 on D14, the end of an empty payload in the same step on D15: the spec's own choices
(notes/assumptions/29.md). -/
def Obligations.RaHdrdoneReadsTheHeader : Prop :=
  ∀ (s u : State) (e : Endpoint) (type seq len : Half),
    type.toNat = (s.ep e).hdr[2].toNat + 256 * (s.ep e).hdr[3].toNat →
    seq.toNat = (s.ep e).hdr[4].toNat + 256 * (s.ep e).hdr[5].toNat →
    len.toNat = 256 * (s.ep e).hdr[6].toNat + (s.ep e).hdr[7].toNat - 12 →
    u = s.withEp e { s.ep e with pktCount := (s.ep e).pktCount + 1, ptype := type, remaining := len } →
    ∃ t1 t2, exec (if type = s.cfg.startType e then .raStart e else .raCont e seq) u = .next t1
      ∧ t2 = t1.withEp e { t1.ep e with rstate := .payload }
      ∧ exec (.raHdrdone e) s = (if len = 0 then exec (.raPktdone e) t2 else .next t2)
      ∧ ∃ t, exec (.raHdrdone e) s = .next t

/-- RA.START (R207, R208, R112): the tracker takes the packet's own number, the flag is cleared, the paddings come
from `meta`, the capture time and the frame counter are set; a held buffer is kept, else the head of the queue is
taken, else NOBUFFER is recorded; then the codec's start hook runs, which goes on. The capture time is the next of the
callback's answers, or some time where they are used up. It rests on D16, D17, D28 and D30; that the callback's capture
times come from a list of its own, and then from free values that a counter numbers, is the model's choice
(notes/assumptions/4.md, 5.md). -/
def Obligations.RaStartBeginsAFrame : Prop :=
  ∀ (s : State) (e : Endpoint) (seq ps pe : Half),
    seq.toNat = (s.ep e).hdr[4].toNat + 256 * (s.ep e).hdr[5].toNat →
    pe.toNat = (s.ep e).hdr[8].toNat + 256 * (s.ep e).hdr[9].toNat →
    ps.toNat = (s.ep e).hdr[10].toNat + 256 * (s.ep e).hdr[11].toNat →
    ∃ (now : Stamp) (times : List Stamp) (draws : Nat),
      (∀ a r, (s.ep e).nowAnswers = a :: r → now = a ∧ times = r ∧ draws = (s.ep e).nowDraws)
      ∧ ((s.ep e).nowAnswers = [] → times = [])
      ∧ ∀ u : State, u = s.withEp e { s.ep e with
          nowAnswers := times, nowDraws := draws
          lastSeq := seq, corrupt := false, padStart := ps, padEnd := pe, ts := now
          frameCount := (s.ep e).frameCount + 1 } →
        ((s.ep e).active ≠ none → exec (.raStart e) s = exec (startHook e) u)
        ∧ (∀ b r, (s.ep e).active = none → (s.ep e).avail = b :: r →
            exec (.raStart e) s =
              exec (startHook e) (u.withEp e { u.ep e with active := some { buf := b, mem := [] }, avail := r }))
        ∧ ((s.ep e).active = none → (s.ep e).avail = [] →
            exec (.raStart e) s = .next (u.withEp e { u.ep e with events := (s.ep e).events ++ [.noBuffer] }))
        ∧ ∃ t, exec (.raStart e) s = .next t

/-- RA.CONT (R209): a number that is not one more than the last, modulo 2^16, marks the frame corrupt and records one
LOSS; the tracker follows the received number either way; nothing else changes. It rests on D16. -/
def Obligations.RaContChecksTheSequence : Prop :=
  ∀ (s : State) (e : Endpoint) (seq : Half),
    (seq.toNat = ((s.ep e).lastSeq.toNat + 1) % 65536 →
      exec (.raCont e seq) s = .next (s.withEp e { s.ep e with lastSeq := seq }))
    ∧ (seq.toNat ≠ ((s.ep e).lastSeq.toNat + 1) % 65536 →
      exec (.raCont e seq) s = .next (s.withEp e { s.ep e with
        corrupt := true, lastSeq := seq, events := (s.ep e).events ++ [.loss ((s.ep e).lastSeq + 1) seq] }))

/-- RA.PAY (R210): the byte goes to the codec unless the frame is corrupt, the count goes down by one, and the last byte
ends the packet; it always goes on. -/
def Obligations.RaPayForwardsAndCounts : Prop :=
  ∀ (s : State) (e : Endpoint) (b : Byte), (s.ep e).remaining ≠ 0 →
    ∃ u v, (if (s.ep e).corrupt then .next s else exec (dataHook e [b]) s) = .next u
      ∧ v = u.withEp e { u.ep e with remaining := (s.ep e).remaining - 1 }
      ∧ exec (.raPay e b) s = (if (s.ep e).remaining = 1 then exec (.raPktdone e) v else .next v)
      ∧ ∃ t, exec (.raPay e b) s = .next t

/-- RA.PKTDONE (R211): the end hook runs for the end type of a frame that is not corrupt, and only then; the state returns
to SEEK1 with an empty header count regardless. -/
def Obligations.RaPktdoneEndsThePacket : Prop :=
  ∀ (s : State) (e : Endpoint),
    ((s.ep e).ptype = s.cfg.endType e → (s.ep e).corrupt = false →
      ∃ u, exec (endHook e) s = .next u
        ∧ exec (.raPktdone e) s = .next (u.withEp e { u.ep e with rstate := .seek1, hdrFill := 0 }))
    ∧ ((s.ep e).ptype ≠ s.cfg.endType e ∨ (s.ep e).corrupt = true →
      exec (.raPktdone e) s = .next (s.withEp e { s.ep e with rstate := .seek1, hdrFill := 0 }))

/-- RA.ENABLE (R215, R60): under its precondition every endpoint register but the queue, the events, the format and
the header's contents takes its RA.ENABLE value, and so do the codec's registers; nothing else changes. That the contents
of the header, of the carry and of `cl.lit_hi`, which R60 and R345 leave unspecified, are kept is the model's choice
(notes/assumptions/12.md, DESIGN CHOICE). Outside the precondition the call is refused: an enabled endpoint (U12), no format set, a depth table not built. `fmtSet` is the model's own bit
(notes/assumptions/11.md, DESIGN CHOICE); the refusals are the model's reading of R215's precondition (15.md, DEDUCED;
only U12 is a `refuse` treatment of the spec). The registers the source does not name rest on D26 and D39. -/
def Obligations.RaEnableResetsTheEndpoint : Prop :=
  ∀ (s : State) (e : Endpoint) (ep : Ep),
    (ep = { s.ep e with
        rstate := .seek1, hdrFill := 0, remaining := 0, ptype := 0, lastSeq := 0, corrupt := false, frameCount := 0
        byteCount := 0, pktCount := 0, padStart := 0, padEnd := 0, ts := 0, active := none, cursor := 0, enabled := true } →
      (s.ep e).enabled = false → (s.ep e).fmtSet = true → (e = .depth → s.dc.lutValid = true) →
      (e = .depth → exec (.raEnable e) s = .next { s with depth := ep, dc := { s.dc with carryLen := 0 } })
      ∧ (e = .color → exec (.raEnable e) s = .next { s with
          color := ep, cl := { s.cl with last := #v[0, 0, 0], pos := 0, lit := .none, lineCnt := 0 } }))
    ∧ ((s.ep e).enabled = true → exec (.raEnable e) s = .refused .enableWhileEnabled)
    ∧ ((s.ep e).enabled = false → (s.ep e).fmtSet = false → exec (.raEnable e) s = .refused .formatUnset)
    ∧ (s.depth.enabled = false → s.depth.fmtSet = true → s.dc.lutValid = false →
        exec (.raEnable .depth) s = .refused .lutNotBuilt)

/-- RA.DISABLE (R216): the active buffer is completed first, with its cursor, time and frame count, then every queued
one in order with zeros, all cancelled; nothing stays held, the endpoint is disabled, nothing else changes. The order
and the metadata rest on D31. -/
def Obligations.RaDisableReleasesEveryBuffer : Prop :=
  ∀ (s : State) (e : Endpoint),
    exec (.raDisable e) s = .next (s.withEp e { s.ep e with
      enabled := false, active := none, avail := []
      completed := (s.ep e).completed
        ++ (match (s.ep e).active with
          | none => []
          | some ab => [{ buf := ab.buf, bytes := (s.ep e).cursor, status := .cancelled, ts := (s.ep e).ts,
                          seq := (s.ep e).frameCount, mem := ab.mem }])
        ++ (s.ep e).avail.map fun b => { buf := b, bytes := 0, status := .cancelled, ts := 0, seq := 0, mem := [] } })

/-- BQ.ENQUEUE (R217): a buffer large enough and not held is appended to the queue, whether or not the endpoint is
enabled; a smaller one, or one the block holds on either endpoint, is refused (U9). The queue's order rests on D17;
the refusals are the model's (notes/assumptions/15.md). -/
def Obligations.BqEnqueueAppends : Prop :=
  ∀ (s : State) (e : Endpoint) (buf : Buf),
    ((s.ep e).imageSize ≤ buf.cap → buf.id ∉ s.heldIds →
      exec (.bqEnqueue e buf) s = .next (s.withEp e { s.ep e with avail := (s.ep e).avail ++ [buf] }))
    ∧ (buf.cap < (s.ep e).imageSize → exec (.bqEnqueue e buf) s = .refused .bufferTooSmall)
    ∧ ((s.ep e).imageSize ≤ buf.cap → buf.id ∈ s.heldIds → exec (.bqEnqueue e buf) s = .refused .bufferHeld)

/-- FMT.SET (R218): on a disabled endpoint the three format registers are written, and nothing the rules name changes
otherwise; on an enabled endpoint (U13), and for a colour width of 0 (U11), it is refused. `fmtSet` is the model's own
bit. (notes/assumptions/11.md, 15.md.) -/
def Obligations.FmtSetWritesTheFormat : Prop :=
  ∀ (s : State) (e : Endpoint) (w h l n : Nat),
    ((s.ep e).enabled = false → (e = .color → w ≠ 0) →
      exec (.fmtSet e w h l n) s =
        .next (s.withEp e { s.ep e with imageWidth := w, bytesPerLine := l, imageSize := n, fmtSet := true }))
    ∧ ((s.ep e).enabled = true → exec (.fmtSet e w h l n) s = .refused .formatWhileEnabled)
    ∧ (s.color.enabled = false → exec (.fmtSet .color 0 h l n) s = .refused .colourWidthZero)

/-- Sequence-gap containment (R222, S4), on either endpoint: a continuation packet with a wrong number, any packets
that are no start packets, and an end packet make no `Complete`, write nothing into the buffer and leave the frame
corrupt; then a start packet with no payload begins a fresh frame, not corrupt, in the same buffer. The spec marks
R222 as derived; it rests on D16 and D17. -/
def Obligations.SequenceGapIsContained : Prop :=
  ∀ (s : State) (e : Endpoint) (ab : ActiveBuf) (type seq : Half) (payload last : List Byte)
    (mid : List (Half × List Byte)) (now : Stamp) (times : List Stamp) (seq' ps pe : Half),
    (s.ep e).enabled = true → (s.ep e).rstate = .seek1 → (s.ep e).hdrFill = 0 → (s.ep e).active = some ab →
    (s.ep e).nowAnswers = now :: times → s.cfg.endType e ≠ s.cfg.startType e →
    type ≠ s.cfg.startType e → seq ≠ (s.ep e).lastSeq + 1 → fitsPacket payload = true → fitsPacket last = true →
    (∀ p ∈ mid, fitsPacket p.2 = true ∧ p.1 ≠ s.cfg.startType e) →
    ∃ t u,
      exec (.raChunk e (packets s.cfg seq ((type, payload) :: mid ++ [(s.cfg.endType e, last)]))) s = .next t
      ∧ (t.ep e).completed = (s.ep e).completed ∧ (t.ep e).active = some ab ∧ (t.ep e).corrupt = true
      ∧ (t.ep e).events = (s.ep e).events ++ [.loss ((s.ep e).lastSeq + 1) seq] ∧ (t.ep e).rstate = .seek1
      ∧ exec (.raChunk e (packet s.cfg (s.cfg.startType e) seq' (ps ++ pe) [])) t = .next u
      ∧ (u.ep e).corrupt = false ∧ (u.ep e).active.map (·.buf) = some ab.buf ∧ (u.ep e).avail = (s.ep e).avail
      ∧ (u.ep e).completed = (s.ep e).completed ∧ (u.ep e).frameCount = (s.ep e).frameCount + 1
      ∧ (u.ep e).lastSeq = seq' ∧ (u.ep e).padStart = ps ∧ (u.ep e).padEnd = pe ∧ (u.ep e).ts = now

/-! ### Control channel -/

/-- CC.XFER with a matching reply (R161, R162, R165, R166): after at most nine stale replies, the first reply that
passes the three checks is returned; the request goes out with the counter's value stamped and the counter advances by
one; stale replies are consumed; nothing else changes. A reply is cut at `max_reply` bytes (R75). It rests on D4 and
D5. -/
def Obligations.XferReturnsTheMatchingReply : Prop :=
  ∀ (s : State) (req : List Byte) (maxReply : Nat) (ws : List Bool) (stale : List (List Byte)) (r : List Byte)
    (rest : List (Option (List Byte))),
    s.cc.lock = false → reqShape req = true → 10 ≤ maxReply → maxReply ≤ s.cfg.maxReply →
    s.env.writeAnswers = true :: ws → s.env.readAnswers = stale.map some ++ some r :: rest → stale.length ≤ 9 →
    (∀ x ∈ stale, staleReply s.cfg s.cc.reqId (x.take maxReply) = true) →
    matchingReply s.cfg s.cc.reqId (r.take maxReply) = true →
    exec (.ccXfer req true maxReply) s =
      .next ((exchanged s req ws rest (stale.length + 1)).answer (.reply (r.take maxReply)))

/-- The errors of CC.XFER and the exchange without a reply (R163, R164, R166, R167): a failed write, a failed read, a
short reply (checked before its sync), a wrong sync marker, and ten stale replies; each ends the exchange at once,
with an event for ProtocolError only. The checks' order rests on D5. -/
def Obligations.XferErrorsAndSilentExchange : Prop :=
  ∀ (s : State) (req : List Byte) (maxReply : Nat) (ws : List Bool) (stale : List (List Byte))
    (rest : List (Option (List Byte))),
    s.cc.lock = false → reqShape req = true → 10 ≤ maxReply → maxReply ≤ s.cfg.maxReply →
    (∀ x ∈ stale, staleReply s.cfg s.cc.reqId (x.take maxReply) = true) →
    (s.env.writeAnswers = false :: ws →
      exec (.ccXfer req true maxReply) s = .next ((exchanged s req ws s.env.readAnswers 0).answer (.error .transport))
      ∧ exec (.ccXfer req false maxReply) s = .next ((exchanged s req ws s.env.readAnswers 0).answer (.error .transport)))
    ∧ (s.env.writeAnswers = true :: ws →
      exec (.ccXfer req false maxReply) s = .next ((exchanged s req ws s.env.readAnswers 0).answer .noReply)
      ∧ (s.env.readAnswers = stale.map some ++ none :: rest → stale.length ≤ 9 →
          exec (.ccXfer req true maxReply) s =
            .next ((exchanged s req ws rest (stale.length + 1)).answer (.error .transport)))
      ∧ (∀ r, s.env.readAnswers = stale.map some ++ some r :: rest → stale.length ≤ 9 → r.length < 10 →
          exec (.ccXfer req true maxReply) s =
            .next (((exchanged s req ws rest (stale.length + 1)).logProtocol .short).answer (.error (.protocol .short))))
      ∧ (∀ r, s.env.readAnswers = stale.map some ++ some r :: rest → stale.length ≤ 9 → 10 ≤ r.length →
          le16 r 0 ≠ s.cfg.devSync →
          exec (.ccXfer req true maxReply) s =
            .next (((exchanged s req ws rest (stale.length + 1)).logProtocol .sync).answer (.error (.protocol .sync))))
      ∧ (s.env.readAnswers = stale.map some ++ rest → stale.length = 10 →
          exec (.ccXfer req true maxReply) s = .next ((exchanged s req ws rest 10).answer (.error .timeout))))

/-- Exactly-once-visible (R180, R181): whatever the environment answers, a CC.XFER that R161 admits ends with one
result, after one write and at most ten reads (none without a wanted reply), the counter advanced once and the lock
free; a reply it returns carries DEV_SYNC and the ID it stamped, and no endpoint or Device Handle register changes.
The spec marks R180 and R181 as derived; the counter rests on D4. -/
def Obligations.XferIsExactlyOnceVisible : Prop :=
  ∀ (s : State) (req : List Byte) (want : Bool) (maxReply : Nat),
    s.cc.lock = false → reqShape req = true → 10 ≤ maxReply → maxReply ≤ s.cfg.maxReply →
    ∃ t res, exec (.ccXfer req want maxReply) s = .next t
      ∧ t.results = s.results ++ [res] ∧ t.env.sent = s.env.sent ++ [putLe16 req 6 s.cc.reqId]
      ∧ s.env.reads ≤ t.env.reads ∧ t.env.reads ≤ s.env.reads + 10 ∧ (want = false → t.env.reads = s.env.reads)
      ∧ t.cc.reqId = s.cc.reqId + 1 ∧ t.cc.lock = false
      ∧ ((∃ r, res = .reply r ∧ want = true ∧ 10 ≤ r.length ∧ le16 r 0 = s.cfg.devSync ∧ le16 r 6 = s.cc.reqId)
          ∨ (res = .noReply ∧ want = false) ∨ res = .error .transport
          ∨ (want = true ∧ (res = .error .timeout ∨ res = .error (.protocol .short) ∨ res = .error (.protocol .sync))))
      ∧ t.dh = s.dh ∧ t.color = s.color ∧ t.depth = s.depth ∧ t.dc = s.dc ∧ t.cl = s.cl ∧ t.calls = s.calls

/-- CC.GET_VERSION (R170, R171): an accepted reply with status 0 and a payload of at least VERSION_LEN bytes gives the
record its fields, the build number corrected from major 5 on where its digits are decimal (else unspecified, U6), and
returns it; a shorter payload gives ProtocolError(short) with one event and leaves the record as it was. The payload's
layout rests on D9. -/
def Obligations.GetVersionRecordsTheVersion : Prop :=
  ∀ (s u : State) (payload : List Byte) (ws : List Bool) (rest : List (Option (List Byte))),
    s.cc.lock = false → fitsReply s.cfg payload = true → s.env.writeAnswers = true :: ws →
    s.env.readAnswers = some (replyBytes s.cfg s.cfg.opGetVersion s.cc.reqId 0 payload) :: rest →
    u = exchanged s (reqBytes s.cfg s.cfg.opGetVersion []) ws rest 1 →
    (4 ≤ s.cfg.versionLen → s.cfg.versionLen ≤ payload.length →
      ∃ (v : Version) (d : Nat), versionOf s.cfg payload v
        ∧ exec .ccGetVersion s = .next (State.answer
            { u with dh := { s.dh with version := v }, env := { u.env with draws := d } } (.version v)))
    ∧ (payload.length < s.cfg.versionLen →
      exec .ccGetVersion s = .next ((u.logProtocol .short).answer (.error (.protocol .short)))
      ∧ (u.logProtocol .short).dh.version = s.dh.version)

/-- CC.GET_SERIAL (R175), CC.SET_PARAM (R176) and CC.RESET (R177) on an accepted reply with status 0: the serial is at
most SERIAL_MAX payload bytes and one zero byte; the other two keep nothing of the reply. It rests on D6, D8 and D11. -/
def Obligations.SerialParamAndResetSucceed : Prop :=
  ∀ (s : State) (payload : List Byte) (ws : List Bool) (rest : List (Option (List Byte))) (param value op : Half),
    s.cc.lock = false → fitsReply s.cfg payload = true → s.env.writeAnswers = true :: ws →
    s.env.readAnswers = some (replyBytes s.cfg op s.cc.reqId 0 payload) :: rest →
    exec .ccGetSerial s = .next (State.answer
        { exchanged s (reqBytes s.cfg s.cfg.opGetSerial []) ws rest 1 with
          dh := { s.dh with serial := payload.take s.cfg.serialMax ++ [0] } } .ok)
    ∧ exec (.ccSetParam param value) s = .next ((exchanged s
        (reqBytes s.cfg s.cfg.opSetParam (putHalf param ++ putHalf value)) ws rest 1).answer .ok)
    ∧ exec .ccReset s = .next ((exchanged s (reqBytes s.cfg s.cfg.opSetMode (putHalf s.cfg.modeKnown)) ws rest 1).answer .ok)

/-- A device error surfaces (R168, R169, R303): on the operations of one exchange, an accepted reply with a non-zero
status gives ProtocolError with that status and its event; one whose size is 0, or promises more bytes than were read,
gives ProtocolError(short), whatever its status (R310 (b)). The Device Handle keeps its records. It rests on D6 and
D7. -/
def Obligations.DeviceErrorsSurface : Prop :=
  ∀ (s : State) (i : Instr) (opcode : Half) (body : List Byte) (ws : List Bool) (r : List Byte)
    (rest : List (Option (List Byte))),
    oneExchange s.cfg i = some (opcode, body) → s.cc.lock = false → s.env.writeAnswers = true :: ws →
    s.env.readAnswers = some r :: rest → r.length ≤ s.cfg.maxReply → matchingReply s.cfg s.cc.reqId r = true →
    (le16 r 2 = 0 ∨ r.length < 8 + 2 * (le16 r 2).toNat →
      exec i s = .next (((exchanged s (reqBytes s.cfg opcode body) ws rest 1).logProtocol .short).answer
        (.error (.protocol .short))))
    ∧ (le16 r 2 ≠ 0 → 8 + 2 * (le16 r 2).toNat ≤ r.length → le16 r 8 ≠ 0 →
      exec i s = .next (((exchanged s (reqBytes s.cfg opcode body) ws rest 1).logProtocol (.status (le16 r 8))).answer
        (.error (.protocol (.status (le16 r 8))))))

/-- The paged reads (R172 to R174): the block asks for page after page, each request carrying the word offset reached,
until the target is reached or a page is empty; the record is the pages joined and cut at the target, with its length.
An error in any round ends the operation with that error and leaves the records as they were. Between two rounds another
caller's exchange may fall (R86): a read that its caller takes round by round makes exactly one exchange of its own at
each, from whatever state the others left, and ends with its record and result, or at the first error with that error
and the records as they were. The read in progress is the model's form of R86 (notes/assumptions/18.md). It rests on D8
and D10. -/
def Obligations.PagedReadsCollectThePages : Prop :=
  ∀ (i : Instr) (s : State) (opcode : Half) (header : List Byte) (target : Nat),
    pagedOp s.cfg i = some (opcode, header, target) → s.cc.lock = false →
    (∀ (t : State) (pages : List (List Byte)) (ws : List Bool) (rest : List (Option (List Byte))),
      (∀ p ∈ pages, fitsReply s.cfg p = true) →
      s.env.writeAnswers = List.replicate pages.length true ++ ws →
      s.env.readAnswers = pageReplies s.cfg opcode s.cc.reqId pages ++ rest →
      t = { s with
        cc := { s.cc with reqId := s.cc.reqId + BitVec.ofNat 16 pages.length }
        env := { s.env with
          writeAnswers := ws, readAnswers := rest, reads := s.env.reads + pages.length
          sent := s.env.sent ++ pageRequests s.cfg opcode header s.cc.reqId 0 pages } } →
      (pagesEnd target 0 pages = true →
        exec i s = .next (State.answer { t with dh := pagedRecord i s.dh (pages.flatten.take target) } .ok))
      ∧ (∀ e u, pagesOpen target 0 pages = true →
        exchange opcode (header ++ putHalf (BitVec.ofNat 16 (pages.flatten.length / 2))) t = (.error e, u) →
        exec i s = .next (u.answer (.error e)) ∧ u.dh = s.dh))
    ∧ (∀ (pre post : List Call) (stims : List Stimulus) (data : List Byte) (off : Half),
      s.stim = .resume pre.length :: stims → s.calls = pre ++ pagedCall i data off :: post →
      (target ≤ data.length →
        step s = .next (State.answer { s with stim := stims, calls := pre ++ post, dh := pagedRecord i s.dh data } .ok))
      ∧ (∀ (p : List Byte) (ws : List Bool) (rest : List (Option (List Byte))) (u : State),
        data.length < target → fitsReply s.cfg p = true → s.env.writeAnswers = true :: ws →
        s.env.readAnswers = some (replyBytes s.cfg opcode s.cc.reqId 0 p) :: rest →
        u = { exchanged s (reqBytes s.cfg opcode (header ++ putHalf off)) ws rest 1 with stim := stims } →
        (p ≠ [] → step s = .next { u with
          calls := pre ++ pagedCall i ((data ++ p).take target) (off + BitVec.ofNat 16 (p.length / 2)) :: post })
        ∧ (p = [] →
          step s = .next (State.answer { u with calls := pre ++ post, dh := pagedRecord i s.dh data } .ok)))
      ∧ ∀ (err : CtrlError) (u : State),
        data.length < target → exchange opcode (header ++ putHalf off) { s with stim := stims } = (.error err, u) →
        step s = .next (State.answer { u with calls := pre ++ post } (.error err)) ∧ u.dh = s.dh)

/-- CC.INIT (R178). Whatever the environment answers, it goes on with one result, `Ok` or InitFailed, and leaves the
endpoints, the codecs and `dh.cal` as they were. After fewer than INIT_RETRIES failed attempts, each of them a failed
write of the version request or a CC.RESET that the device answers with a non-zero status, an attempt with every
exchange answered sends the requests of the sequence in its order, each with a fresh ID, and leaves every record read;
a firmware below the floor ends it after the version read, without a retry; INIT_RETRIES failed attempts end it with the
last error. Invoked and resumed exchange by exchange (R86) with nothing in between, whatever the environment answers, it
ends after some number of steps with the result and the state of the bring-up in one go; and each resumption, in whatever
state the others left, sends at most one request and leaves the other operations in progress as they were. The bring-up
in progress is the model's form of R86 (notes/assumptions/18.md). It rests on D8, D9, D36 and D37. -/
def Obligations.InitRunsTheBringUpSequence : Prop :=
  ∀ (s : State) (sel : List Byte), s.cc.lock = false → selShape s.cfg sel = true →
    (∃ t res, exec (.ccInit sel) s = .next t ∧ t.results = s.results ++ [res]
      ∧ (res = .ok ∨ ∃ why, res = .initFailed why) ∧ t.cc.lock = false
      ∧ t.color = s.color ∧ t.depth = s.depth ∧ t.dc = s.dc ∧ t.cl = s.cl ∧ t.dh.cal = s.dh.cal ∧ t.calls = s.calls)
    ∧ (∃ n, ∀ (bytes : List Byte) (rest : List Stimulus), decode s.cfg bytes = .ok (.ccInit sel) →
      core.run (n + 1) { s with stim := .invoke bytes :: List.replicate n (.resume s.calls.length) ++ rest }
        = exec (.ccInit sel) { s with stim := rest })
    ∧ (∀ (pre post : List Call) (left : Nat) (phase : InitPhase) (rest : List Stimulus),
      s.stim = .resume pre.length :: rest → s.calls = pre ++ .init sel left phase :: post →
      ∃ t, step s = .next t ∧ (t.env.sent = s.env.sent ∨ ∃ req, t.env.sent = s.env.sent ++ [req])
        ∧ ((∃ c, t.calls = pre ++ c :: post ∧ t.results = s.results)
          ∨ ∃ r, t.calls = pre ++ post ∧ t.results = s.results ++ [r]))
    ∧ ∀ (version serial old : List Byte) (fixed algo : List (List Byte)) (failures : List (Option Half)) (ws : List Bool)
        (rest : List (Option (List Byte))) (id id' : Half) (v w : Version) (sent : List (List Byte)),
      4 ≤ s.cfg.versionLen → plainVersion s.cfg version = true → versionOf s.cfg version v → belowFloor s.cfg v = false →
      (∀ st, some st ∈ failures → st ≠ 0) → id = failId s.cc.reqId failures →
      sent = s.env.sent ++ failRequests s.cfg s.cc.reqId failures →
      (failures.length < s.cfg.initRetries → fitsReply s.cfg serial = true →
        (∀ p ∈ fixed, fitsReply s.cfg p = true) → (∀ p ∈ algo, fitsReply s.cfg p = true) →
        pagesEnd s.cfg.fixedSize 0 fixed = true → pagesEnd s.cfg.algoSize 0 algo = true →
        id' = id + 2 + BitVec.ofNat 16 fixed.length →
        s.env.writeAnswers = failWrites failures ++ List.replicate (3 + fixed.length + algo.length) true ++ ws →
        s.env.readAnswers = failReplies s.cfg version s.cc.reqId failures
          ++ [some (replyBytes s.cfg s.cfg.opGetVersion id 0 version), some (replyBytes s.cfg s.cfg.opSetMode (id + 1) 0 [])]
          ++ pageReplies s.cfg s.cfg.opGetFixed (id + 2) fixed
          ++ [some (replyBytes s.cfg s.cfg.opGetSerial id' 0 serial)]
          ++ pageReplies s.cfg s.cfg.opGetAlgo (id' + 1) algo ++ rest →
        exec (.ccInit sel) s = .next (State.answer { s with
          cc := { s.cc with
            reqId := id' + 1 + BitVec.ofNat 16 algo.length, events := s.cc.events ++ failEvents failures }
          env := { s.env with
            writeAnswers := ws, readAnswers := rest
            reads := s.env.reads + (failReplies s.cfg version s.cc.reqId failures).length + 3 + fixed.length + algo.length
            sent := sent
              ++ [putLe16 (reqBytes s.cfg s.cfg.opGetVersion []) 6 id,
                  putLe16 (reqBytes s.cfg s.cfg.opSetMode (putHalf s.cfg.modeKnown)) 6 (id + 1)]
              ++ pageRequests s.cfg s.cfg.opGetFixed [] (id + 2) 0 fixed
              ++ [putLe16 (reqBytes s.cfg s.cfg.opGetSerial []) 6 id']
              ++ pageRequests s.cfg s.cfg.opGetAlgo sel (id' + 1) 0 algo }
          dh := { s.dh with
            version := v
            fixed := fixed.flatten.take s.cfg.fixedSize, fixedLen := (fixed.flatten.take s.cfg.fixedSize).length
            algo := algo.flatten.take s.cfg.algoSize, algoLen := (algo.flatten.take s.cfg.algoSize).length
            serial := serial.take s.cfg.serialMax ++ [0] } } .ok))
      ∧ (failures.length < s.cfg.initRetries → plainVersion s.cfg old = true → versionOf s.cfg old w →
        belowFloor s.cfg w = true → s.env.writeAnswers = failWrites failures ++ true :: ws →
        s.env.readAnswers = failReplies s.cfg version s.cc.reqId failures
          ++ some (replyBytes s.cfg s.cfg.opGetVersion id 0 old) :: rest →
        exec (.ccInit sel) s = .next (State.answer { s with
          cc := { s.cc with reqId := id + 1, events := s.cc.events ++ failEvents failures }
          env := { s.env with
            writeAnswers := ws, readAnswers := rest
            reads := s.env.reads + (failReplies s.cfg version s.cc.reqId failures).length + 1
            sent := sent ++ [putLe16 (reqBytes s.cfg s.cfg.opGetVersion []) 6 id] }
          dh := { s.dh with version := w } } (.initFailed .firmwareTooOld)))
      ∧ (∀ last, failures.getLast? = some last → failures.length = s.cfg.initRetries →
        s.env.writeAnswers = failWrites failures ++ ws →
        s.env.readAnswers = failReplies s.cfg version s.cc.reqId failures ++ rest →
        exec (.ccInit sel) s = .next (State.answer { s with
          cc := { s.cc with reqId := id, events := s.cc.events ++ failEvents failures }
          env := { s.env with
            writeAnswers := ws, readAnswers := rest
            reads := s.env.reads + (failReplies s.cfg version s.cc.reqId failures).length
            sent := sent }
          dh := if failures.all Option.isNone then s.dh else { s.dh with version := v } }
          (.initFailed (.error (failError last)))))

/-- CC.XFER outside R161's operands is refused: a malformed request, and a `max_reply` below 10, by the spec's treatment of
U8. That a `max_reply` above MAX_REPLY is refused, and a selector of another length than R174 gives it, is the model's
own reading of R161's and R174's operands, which the spec gives no treatment (notes/assumptions/15.md, DEDUCED). -/
def Obligations.MalformedControlCallsAreRefused : Prop :=
  ∀ (s : State) (req sel : List Byte) (want : Bool) (maxReply : Nat),
    (reqShape req = false → exec (.ccXfer req want maxReply) s = .refused .xferMalformed)
    ∧ (maxReply < 10 ∨ s.cfg.maxReply < maxReply → exec (.ccXfer req true maxReply) s = .refused .xferMalformed)
    ∧ (sel.length ≠ 2 * s.cfg.algoSelWords →
        exec (.ccGetAlgo sel) s = .refused .selectorLength ∧ exec (.ccInit sel) s = .refused .selectorLength)

/-! ### The whole machine -/

/-- The control channel and the streaming side share no register (R61, R182, R313): a control operation changes no
endpoint or codec register and not `dh.cal`, whether it runs in one go or is invoked and resumed exchange by exchange
(R86, in the model's form of notes/assumptions/18.md); another operation changes no session register and nothing the
control channel said or read. -/
def Obligations.ControlAndStreamShareNoRegister : Prop :=
  (∀ (i : Instr) (s t : State), exec i s = .next t →
    t.cfg = s.cfg ∧ t.stim = s.stim ∧ t.calls = s.calls
    ∧ (isControl i = true → t.color = s.color ∧ t.depth = s.depth ∧ t.dc = s.dc ∧ t.cl = s.cl ∧ t.dh.cal = s.dh.cal)
    ∧ (isControl i = false → t.cc = s.cc ∧ t.dh = s.dh ∧ t.env = s.env))
  ∧ ∀ (s t : State) (rest : List Stimulus), step s = .next t →
    ((∃ k, s.stim = .resume k :: rest)
      ∨ ∃ bytes i, s.stim = .invoke bytes :: rest ∧ decode s.cfg bytes = .ok i ∧ isControl i = true) →
    t.cfg = s.cfg ∧ t.color = s.color ∧ t.depth = s.depth ∧ t.dc = s.dc ∧ t.cl = s.cl ∧ t.dh.cal = s.dh.cal

/-- The two endpoints share no register (R61, R85): an operation of one changes no register of the other or of its codec,
and a minifloat operation none at all; and any two steps of their callbacks commute. That each callback has its own
answers to `Now()` is the model's choice (notes/assumptions/4.md). -/
def Obligations.EndpointsShareNoRegister : Prop :=
  (∀ (i : Instr) (s t : State), exec i s = .next t →
    (endpointOf i = some .depth → t.color = s.color ∧ t.cl = s.cl)
    ∧ (endpointOf i = some .color → t.depth = s.depth ∧ t.dc = s.dc)
    ∧ (endpointOf i = none → t.color = s.color ∧ t.cl = s.cl ∧ t.depth = s.depth ∧ t.dc = s.dc))
  ∧ ∀ (s : State) (x y : List Byte),
    ∃ t, runOps [.raChunk .color x, .raChunk .depth y] s = .next t
      ∧ runOps [.raChunk .depth y, .raChunk .color x] s = .next t

/-- Buffers are moved, never dropped (R89): on each endpoint, what is held and what has been handed back are after every
operation the same buffers as before, with exactly its buffer added by BQ.ENQUEUE on its endpoint. RA.ENABLE is called
on an endpoint that holds no active buffer: that a disabled endpoint holds none is a clause of the streaming invariant
(R36; notes/assumptions/35.md). -/
def Obligations.BuffersAreNeverDropped : Prop :=
  ∀ (i : Instr) (s t : State) (e : Endpoint), exec i s = .next t →
    (∀ d, i = .raEnable d → (s.ep d).active = none) →
    ((t.ep e).heldIds ++ completedIds (t.ep e)).Perm (enqueuedIds i e ++ (s.ep e).heldIds ++ completedIds (s.ep e))
end

