-- ==== Sys2Proof/Laws/State.lean ====
section
/-! SUPPORT. One lemma per field per update, so that no proof unfolds a record update. -/

namespace Sys2Proof.Machine

variable (s : State) (e : Endpoint) (ep : Ep) (f : Ep → Ep)

/-! ### Endpoint access -/

@[simp] theorem ep_color : s.ep .color = s.color := rfl
@[simp] theorem ep_depth : s.ep .depth = s.depth := rfl
@[simp] theorem withEp_color : s.withEp .color ep = { s with color := ep } := rfl
@[simp] theorem withEp_depth : s.withEp .depth ep = { s with depth := ep } := rfl
@[simp] theorem withEp_ep : (s.withEp e ep).ep e = ep := by cases e <;> rfl
theorem withEp_ep_ne {d : Endpoint} (h : d ≠ e) : (s.withEp e ep).ep d = s.ep d := by
  cases e <;> cases d <;> first | rfl | exact absurd rfl h
@[simp] theorem withEp_cfg : (s.withEp e ep).cfg = s.cfg := by cases e <;> rfl
@[simp] theorem withEp_cc : (s.withEp e ep).cc = s.cc := by cases e <;> rfl
@[simp] theorem withEp_dh : (s.withEp e ep).dh = s.dh := by cases e <;> rfl
@[simp] theorem withEp_dc : (s.withEp e ep).dc = s.dc := by cases e <;> rfl
@[simp] theorem withEp_cl : (s.withEp e ep).cl = s.cl := by cases e <;> rfl
@[simp] theorem withEp_env : (s.withEp e ep).env = s.env := by cases e <;> rfl
@[simp] theorem withEp_results : (s.withEp e ep).results = s.results := by cases e <;> rfl
@[simp] theorem withEp_calls : (s.withEp e ep).calls = s.calls := by cases e <;> rfl
@[simp] theorem withEp_stim : (s.withEp e ep).stim = s.stim := by cases e <;> rfl

@[simp] theorem modEp_ep : (s.modEp e f).ep e = f (s.ep e) := withEp_ep ..
theorem modEp_ep_ne {d : Endpoint} (h : d ≠ e) : (s.modEp e f).ep d = s.ep d := withEp_ep_ne _ _ _ h
@[simp] theorem modEp_cfg : (s.modEp e f).cfg = s.cfg := withEp_cfg ..
@[simp] theorem modEp_cc : (s.modEp e f).cc = s.cc := withEp_cc ..
@[simp] theorem modEp_dh : (s.modEp e f).dh = s.dh := withEp_dh ..
@[simp] theorem modEp_dc : (s.modEp e f).dc = s.dc := withEp_dc ..
@[simp] theorem modEp_cl : (s.modEp e f).cl = s.cl := withEp_cl ..
@[simp] theorem modEp_env : (s.modEp e f).env = s.env := withEp_env ..
@[simp] theorem modEp_results : (s.modEp e f).results = s.results := withEp_results ..
@[simp] theorem modEp_calls : (s.modEp e f).calls = s.calls := withEp_calls ..
@[simp] theorem modEp_stim : (s.modEp e f).stim = s.stim := withEp_stim ..

/-! ### Results, errors, the lock -/

variable (r : OpResult) (why : Reason) (b : Bool)

@[simp] theorem answer_cfg : (s.answer r).cfg = s.cfg := rfl
@[simp] theorem answer_cc : (s.answer r).cc = s.cc := rfl
@[simp] theorem answer_dh : (s.answer r).dh = s.dh := rfl
@[simp] theorem answer_color : (s.answer r).color = s.color := rfl
@[simp] theorem answer_depth : (s.answer r).depth = s.depth := rfl
@[simp] theorem answer_dc : (s.answer r).dc = s.dc := rfl
@[simp] theorem answer_cl : (s.answer r).cl = s.cl := rfl
@[simp] theorem answer_env : (s.answer r).env = s.env := rfl
@[simp] theorem answer_results : (s.answer r).results = s.results ++ [r] := rfl
@[simp] theorem answer_calls : (s.answer r).calls = s.calls := rfl
@[simp] theorem answer_stim : (s.answer r).stim = s.stim := rfl

@[simp] theorem logProtocol_cfg : (s.logProtocol why).cfg = s.cfg := rfl
@[simp] theorem logProtocol_reqId : (s.logProtocol why).cc.reqId = s.cc.reqId := rfl
@[simp] theorem logProtocol_lock : (s.logProtocol why).cc.lock = s.cc.lock := rfl
@[simp] theorem logProtocol_events : (s.logProtocol why).cc.events = s.cc.events ++ [.protocol why] := rfl
@[simp] theorem logProtocol_dh : (s.logProtocol why).dh = s.dh := rfl
@[simp] theorem logProtocol_color : (s.logProtocol why).color = s.color := rfl
@[simp] theorem logProtocol_depth : (s.logProtocol why).depth = s.depth := rfl
@[simp] theorem logProtocol_dc : (s.logProtocol why).dc = s.dc := rfl
@[simp] theorem logProtocol_cl : (s.logProtocol why).cl = s.cl := rfl
@[simp] theorem logProtocol_env : (s.logProtocol why).env = s.env := rfl
@[simp] theorem logProtocol_results : (s.logProtocol why).results = s.results := rfl
@[simp] theorem logProtocol_calls : (s.logProtocol why).calls = s.calls := rfl
@[simp] theorem logProtocol_stim : (s.logProtocol why).stim = s.stim := rfl

@[simp] theorem setLock_cfg : (s.setLock b).cfg = s.cfg := rfl
@[simp] theorem setLock_lock : (s.setLock b).cc.lock = b := rfl
@[simp] theorem setLock_reqId : (s.setLock b).cc.reqId = s.cc.reqId := rfl
@[simp] theorem setLock_events : (s.setLock b).cc.events = s.cc.events := rfl
@[simp] theorem setLock_dh : (s.setLock b).dh = s.dh := rfl
@[simp] theorem setLock_color : (s.setLock b).color = s.color := rfl
@[simp] theorem setLock_depth : (s.setLock b).depth = s.depth := rfl
@[simp] theorem setLock_dc : (s.setLock b).dc = s.dc := rfl
@[simp] theorem setLock_cl : (s.setLock b).cl = s.cl := rfl
@[simp] theorem setLock_env : (s.setLock b).env = s.env := rfl
@[simp] theorem setLock_results : (s.setLock b).results = s.results := rfl
@[simp] theorem setLock_calls : (s.setLock b).calls = s.calls := rfl
@[simp] theorem setLock_stim : (s.setLock b).stim = s.stim := rfl

variable (v : Version)

@[simp] theorem setVersion_cfg : (s.setVersion v).cfg = s.cfg := rfl
@[simp] theorem setVersion_cc : (s.setVersion v).cc = s.cc := rfl
@[simp] theorem setVersion_version : (s.setVersion v).dh.version = v := rfl
@[simp] theorem setVersion_fixed : (s.setVersion v).dh.fixed = s.dh.fixed := rfl
@[simp] theorem setVersion_color : (s.setVersion v).color = s.color := rfl
@[simp] theorem setVersion_depth : (s.setVersion v).depth = s.depth := rfl
@[simp] theorem setVersion_env : (s.setVersion v).env = s.env := rfl
@[simp] theorem setVersion_results : (s.setVersion v).results = s.results := rfl
@[simp] theorem setVersion_calls : (s.setVersion v).calls = s.calls := rfl
@[simp] theorem setVersion_stim : (s.setVersion v).stim = s.stim := rfl

variable (d : List Byte)

@[simp] theorem setFixed_cfg : (s.setFixed d).cfg = s.cfg := rfl
@[simp] theorem setFixed_cc : (s.setFixed d).cc = s.cc := rfl
@[simp] theorem setFixed_fixed : (s.setFixed d).dh.fixed = d := rfl
@[simp] theorem setFixed_fixedLen : (s.setFixed d).dh.fixedLen = d.length := rfl
@[simp] theorem setFixed_version : (s.setFixed d).dh.version = s.dh.version := rfl
@[simp] theorem setFixed_cal : (s.setFixed d).dh.cal = s.dh.cal := rfl
@[simp] theorem setFixed_env : (s.setFixed d).env = s.env := rfl
@[simp] theorem setFixed_calls : (s.setFixed d).calls = s.calls := rfl
@[simp] theorem setAlgo_cfg : (s.setAlgo d).cfg = s.cfg := rfl
@[simp] theorem setAlgo_cc : (s.setAlgo d).cc = s.cc := rfl
@[simp] theorem setAlgo_algo : (s.setAlgo d).dh.algo = d := rfl
@[simp] theorem setAlgo_algoLen : (s.setAlgo d).dh.algoLen = d.length := rfl
@[simp] theorem setAlgo_version : (s.setAlgo d).dh.version = s.dh.version := rfl
@[simp] theorem setAlgo_fixed : (s.setAlgo d).dh.fixed = s.dh.fixed := rfl
@[simp] theorem setAlgo_cal : (s.setAlgo d).dh.cal = s.dh.cal := rfl
@[simp] theorem setAlgo_env : (s.setAlgo d).env = s.env := rfl
@[simp] theorem setAlgo_calls : (s.setAlgo d).calls = s.calls := rfl

variable (c : Call)

@[simp] theorem addCall_calls : (s.addCall c).calls = s.calls ++ [c] := rfl
@[simp] theorem addCall_cfg : (s.addCall c).cfg = s.cfg := rfl
@[simp] theorem addCall_cc : (s.addCall c).cc = s.cc := rfl
@[simp] theorem addCall_dh : (s.addCall c).dh = s.dh := rfl
@[simp] theorem addCall_color : (s.addCall c).color = s.color := rfl
@[simp] theorem addCall_depth : (s.addCall c).depth = s.depth := rfl
@[simp] theorem addCall_dc : (s.addCall c).dc = s.dc := rfl
@[simp] theorem addCall_cl : (s.addCall c).cl = s.cl := rfl
@[simp] theorem addCall_env : (s.addCall c).env = s.env := rfl
@[simp] theorem addCall_results : (s.addCall c).results = s.results := rfl
@[simp] theorem addCall_stim : (s.addCall c).stim = s.stim := rfl

/-! ### The stimulus list -/

@[simp] theorem taken_cfg : s.taken.cfg = s.cfg := rfl
@[simp] theorem taken_cc : s.taken.cc = s.cc := rfl
@[simp] theorem taken_dh : s.taken.dh = s.dh := rfl
@[simp] theorem taken_color : s.taken.color = s.color := rfl
@[simp] theorem taken_depth : s.taken.depth = s.depth := rfl
@[simp] theorem taken_dc : s.taken.dc = s.dc := rfl
@[simp] theorem taken_cl : s.taken.cl = s.cl := rfl
@[simp] theorem taken_env : s.taken.env = s.env := rfl
@[simp] theorem taken_results : s.taken.results = s.results := rfl
@[simp] theorem taken_calls : s.taken.calls = s.calls := rfl
@[simp] theorem taken_stim : s.taken.stim = s.stim.tail := rfl

/-! ### Endpoint registers -/

variable (ev : Event)

@[simp] theorem logEvent_events : (ep.logEvent ev).events = ep.events ++ [ev] := rfl
@[simp] theorem logEvent_active : (ep.logEvent ev).active = ep.active := rfl
@[simp] theorem logEvent_avail : (ep.logEvent ev).avail = ep.avail := rfl
@[simp] theorem logEvent_cursor : (ep.logEvent ev).cursor = ep.cursor := rfl
@[simp] theorem logEvent_enabled : (ep.logEvent ev).enabled = ep.enabled := rfl
@[simp] theorem logEvent_rstate : (ep.logEvent ev).rstate = ep.rstate := rfl
@[simp] theorem logEvent_completed : (ep.logEvent ev).completed = ep.completed := rfl
@[simp] theorem logEvent_imageSize : (ep.logEvent ev).imageSize = ep.imageSize := rfl
@[simp] theorem logEvent_corrupt : (ep.logEvent ev).corrupt = ep.corrupt := rfl
@[simp] theorem drain_avail : ep.drain.avail = [] := rfl
@[simp] theorem drain_completed : ep.drain.completed = ep.completed ++ ep.avail.map cancelled := rfl
@[simp] theorem logEvent_nowAnswers : (ep.logEvent ev).nowAnswers = ep.nowAnswers := rfl
@[simp] theorem drain_nowAnswers : ep.drain.nowAnswers = ep.nowAnswers := rfl
@[simp] theorem drain_active : ep.drain.active = ep.active := rfl

end Sys2Proof.Machine
end

