-- ==== Sys2Proof/Laws/Store.lean ====
section
/-! SUPPORT. The laws of the sparse storage: a read after a write, and that every write keeps the canonical form. -/

namespace Sys2Proof.Machine

section Cells

variable {α : Type} {a b : Nat} {v : α} {m : List (Nat × α)}

theorem mem_insertCell {x : Nat × α} (h : x ∈ insertCell a v m) : x = (a, v) ∨ x ∈ m := by
  induction m with
  | nil => simpa [insertCell] using h
  | cons y r ih =>
    obtain ⟨k, w⟩ := y
    simp only [insertCell] at h
    split at h
    · simpa using h
    · split at h
      · simp only [List.mem_cons] at h ⊢; tauto
      · simp only [List.mem_cons] at h ⊢
        rcases h with h | h
        · exact .inr (.inl h)
        · rcases ih h with h | h <;> tauto

theorem mem_eraseCell {x : Nat × α} (h : x ∈ eraseCell a m) : x ∈ m := by
  induction m with
  | nil => simp [eraseCell] at h
  | cons y r ih =>
    obtain ⟨k, w⟩ := y
    simp only [eraseCell] at h
    split at h
    · exact List.mem_cons_of_mem _ h
    · simp only [List.mem_cons] at h ⊢
      rcases h with h | h
      · exact .inl h
      · exact .inr (ih h)

theorem insertCell_rising (h : Rising m) : Rising (insertCell a v m) := by
  induction m with
  | nil => simp [insertCell, Rising]
  | cons y r ih =>
    obtain ⟨k, w⟩ := y
    have hr := List.pairwise_cons.1 h
    simp only [insertCell]
    split
    · rename_i hlt
      refine List.pairwise_cons.2 ⟨fun x hx => ?_, h⟩
      rcases List.mem_cons.1 hx with rfl | hx
      · exact hlt
      · exact Nat.lt_trans hlt (hr.1 x hx)
    · split
      · rename_i heq
        subst heq
        exact List.pairwise_cons.2 ⟨hr.1, hr.2⟩
      · rename_i h1 h2
        refine List.pairwise_cons.2 ⟨fun x hx => ?_, ih hr.2⟩
        rcases mem_insertCell hx with rfl | hx
        · show k < a; omega
        · exact hr.1 x hx

theorem eraseCell_rising (h : Rising m) : Rising (eraseCell a m) := by
  induction m with
  | nil => simp [eraseCell, Rising]
  | cons y r ih =>
    obtain ⟨k, w⟩ := y
    have hr := List.pairwise_cons.1 h
    simp only [eraseCell]
    split
    · exact hr.2
    · exact List.pairwise_cons.2 ⟨fun x hx => hr.1 x (mem_eraseCell hx), ih hr.2⟩

@[simp] theorem lookup_insertCell_same : lookupCell a (insertCell a v m) = some v := by
  induction m with
  | nil => simp [insertCell, lookupCell]
  | cons y r ih =>
    obtain ⟨k, w⟩ := y
    simp only [insertCell]
    split
    · simp [lookupCell]
    · split
      · simp [lookupCell]
      · simp [lookupCell, *]

@[simp] theorem lookup_insertCell_other (h : b ≠ a) : lookupCell b (insertCell a v m) = lookupCell b m := by
  induction m with
  | nil => simp [insertCell, lookupCell, h]
  | cons y r ih =>
    obtain ⟨k, w⟩ := y
    simp only [insertCell]
    split
    · simp [lookupCell, h]
    · split
      · rename_i heq; subst heq; simp [lookupCell, h]
      · simp [lookupCell, ih]

theorem lookup_none_of_lt (h : ∀ x ∈ m, a < x.1) : lookupCell a m = none := by
  induction m with
  | nil => rfl
  | cons y r ih =>
    obtain ⟨k, w⟩ := y
    have hk : a < k := h (k, w) (by simp)
    simp only [lookupCell, if_neg (Nat.ne_of_lt hk)]
    exact ih fun x hx => h x (by simp [hx])

theorem lookup_eraseCell_same (h : Rising m) : lookupCell a (eraseCell a m) = none := by
  induction m with
  | nil => rfl
  | cons y r ih =>
    obtain ⟨k, w⟩ := y
    have hr := List.pairwise_cons.1 h
    simp only [eraseCell]
    split
    · rename_i heq; subst heq; exact lookup_none_of_lt hr.1
    · rename_i hne; simp only [lookupCell, if_neg hne]; exact ih hr.2

theorem lookup_eraseCell_other (h : b ≠ a) : lookupCell b (eraseCell a m) = lookupCell b m := by
  induction m with
  | nil => rfl
  | cons y r ih =>
    obtain ⟨k, w⟩ := y
    simp only [eraseCell]
    split
    · rename_i heq; subst heq; simp [lookupCell, h]
    · simp [lookupCell, ih]

end Cells

/-! ### Output buffers -/

@[simp] theorem Memory.read_write_same (m : Memory) (a : Nat) (b : Byte) : (m.write a b).read a = some b :=
  lookup_insertCell_same

@[simp] theorem Memory.read_write_other (m : Memory) {a c : Nat} (b : Byte) (h : c ≠ a) :
    (m.write a b).read c = m.read c :=
  lookup_insertCell_other h

theorem Memory.write_wf {m : Memory} {a : Nat} {b : Byte} (h : m.wf) : (m.write a b).wf := insertCell_rising h

theorem Memory.writeBytes_wf {m : Memory} {a : Nat} {bytes : List Byte} (h : m.wf) : (m.writeBytes a bytes).wf := by
  induction bytes generalizing m a with
  | nil => exact h
  | cons b r ih => exact ih (Memory.write_wf h)

/-- What a byte string's write does to every read: the string's bytes at its offsets, the old byte elsewhere. -/
theorem Memory.read_writeBytes (m : Memory) (a : Nat) (bytes : List Byte) (c : Nat) :
    (m.writeBytes a bytes).read c = if a ≤ c ∧ c < a + bytes.length then bytes[c - a]? else m.read c := by
  induction bytes generalizing m a with
  | nil => simp [Memory.writeBytes]
  | cons b r ih =>
    simp only [Memory.writeBytes, ih, List.length_cons]
    by_cases h1 : a + 1 ≤ c ∧ c < a + 1 + r.length
    · have e : c - a = (c - (a + 1)) + 1 := by omega
      rw [if_pos h1, if_pos ⟨by omega, by omega⟩, e, List.getElem?_cons_succ]
    · rw [if_neg h1]
      by_cases h2 : c = a
      · subst h2; simp
      · rw [if_neg (by omega), Memory.read_write_other _ _ h2]

/-! ### The table -/

theorem Lut.read_write_same {l : Lut} (h : l.wf) (c : Nat) (v : Half) : (l.write c v).read c = v := by
  unfold Lut.write Lut.read
  split
  · rename_i h0; simp [lookup_eraseCell_same h.1, h0]
  · simp

theorem Lut.read_write_other (l : Lut) {c d : Nat} (v : Half) (h : d ≠ c) : (l.write c v).read d = l.read d := by
  unfold Lut.write Lut.read
  split
  · rw [lookup_eraseCell_other h]
  · rw [lookup_insertCell_other h]

theorem Lut.write_wf {l : Lut} {c : Nat} {v : Half} (h : l.wf) (hc : c < Config.lutSize) : (l.write c v).wf := by
  unfold Lut.write
  split
  · exact ⟨eraseCell_rising h.1, fun x hx => h.2 x (mem_eraseCell hx)⟩
  · rename_i hv
    refine ⟨insertCell_rising h.1, fun x hx => ?_⟩
    rcases mem_insertCell hx with rfl | hx
    · exact ⟨hv, hc⟩
    · exact h.2 x hx

/-- At reset the table and every buffer are in canonical form. -/
theorem reset_lut_wf : Lut.wf State.reset.dc.lut := ⟨List.Pairwise.nil, fun _ h => by cases h⟩

end Sys2Proof.Machine
end

