-- ==== Sys2Proof/Laws/Ops.lean ====
section
/-! SUPPORT. For each shared operation one lemma that says once everything it can do. -/

namespace Sys2Proof.Machine

/-- Everything BufWrite can do: nothing without a buffer; else the clipped write, and one event when bytes were
dropped. -/
theorem bufWrite_cases (ep : Ep) (bytes : List Byte) :
    (ep.active = none ∧ ep.bufWrite bytes = ep) ∨
    ∃ ab, ep.active = some ab ∧
      ep.bufWrite bytes =
        { ep with
          active := some { ab with mem := ab.mem.writeBytes ep.cursor (bytes.take (min bytes.length (ep.imageSize - ep.cursor))) }
          cursor := ep.cursor + min bytes.length (ep.imageSize - ep.cursor)
          events := ep.events ++
            if ep.imageSize - ep.cursor < bytes.length then [.overflow (bytes.length - (ep.imageSize - ep.cursor))] else [] } := by
  unfold Ep.bufWrite
  cases hact : ep.active with
  | none => exact .inl ⟨rfl, rfl⟩
  | some ab =>
    refine .inr ⟨ab, rfl, ?_⟩
    by_cases h : ep.imageSize - ep.cursor < bytes.length
    · simp only [Nat.min_eq_right (Nat.le_of_lt h), if_pos h]
      rfl
    · simp only [Nat.min_eq_left (Nat.le_of_not_lt h), if_neg h, Nat.lt_irrefl, if_false, List.append_nil]

/-- A write changes only the active buffer's bytes, the cursor and the event trace. -/
theorem bufWrite_frame (ep : Ep) (bytes : List Byte) :
    ep.bufWrite bytes =
      { ep with active := (ep.bufWrite bytes).active, cursor := (ep.bufWrite bytes).cursor, events := (ep.bufWrite bytes).events } := by
  rcases bufWrite_cases ep bytes with ⟨_, h⟩ | ⟨ab, _, h⟩ <;> rw [h]

@[simp] theorem bufWrite_enabled (ep : Ep) (bytes : List Byte) : (ep.bufWrite bytes).enabled = ep.enabled := by
  rw [bufWrite_frame]
@[simp] theorem bufWrite_avail (ep : Ep) (bytes : List Byte) : (ep.bufWrite bytes).avail = ep.avail := by
  rw [bufWrite_frame]
@[simp] theorem bufWrite_completed (ep : Ep) (bytes : List Byte) : (ep.bufWrite bytes).completed = ep.completed := by
  rw [bufWrite_frame]
@[simp] theorem bufWrite_imageSize (ep : Ep) (bytes : List Byte) : (ep.bufWrite bytes).imageSize = ep.imageSize := by
  rw [bufWrite_frame]
@[simp] theorem bufWrite_rstate (ep : Ep) (bytes : List Byte) : (ep.bufWrite bytes).rstate = ep.rstate := by
  rw [bufWrite_frame]
@[simp] theorem bufWrite_remaining (ep : Ep) (bytes : List Byte) : (ep.bufWrite bytes).remaining = ep.remaining := by
  rw [bufWrite_frame]
@[simp] theorem bufWrite_corrupt (ep : Ep) (bytes : List Byte) : (ep.bufWrite bytes).corrupt = ep.corrupt := by
  rw [bufWrite_frame]

/-- A write neither takes nor releases a buffer. -/
@[simp] theorem bufWrite_holdsBuffer (ep : Ep) (bytes : List Byte) : (ep.bufWrite bytes).holdsBuffer = ep.holdsBuffer := by
  rcases bufWrite_cases ep bytes with ⟨h, e⟩ | ⟨ab, h, e⟩ <;> simp [Ep.holdsBuffer, e, h]

/-- A write keeps the cursor within the image (R34, R62 (b)). -/
theorem bufWrite_cursor_le {ep : Ep} {bytes : List Byte} (h : ep.cursor ≤ ep.imageSize) :
    (ep.bufWrite bytes).cursor ≤ ep.imageSize := by
  rcases bufWrite_cases ep bytes with ⟨_, e⟩ | ⟨ab, _, e⟩
  · rw [e]; exact h
  · rw [e]; show ep.cursor + min _ _ ≤ _; omega

/-- A write keeps the buffer's canonical form. -/
theorem bufWrite_mem_wf {ep : Ep} {bytes : List Byte} (h : ∀ ab ∈ ep.active, Memory.wf ab.mem) :
    ∀ ab ∈ (ep.bufWrite bytes).active, Memory.wf ab.mem := by
  rcases bufWrite_cases ep bytes with ⟨_, e⟩ | ⟨ab, hab, e⟩
  · rw [e]; exact h
  · rw [e]
    intro x hx
    simp only [Option.mem_def, Option.some.injEq] at hx
    subst hx
    exact Memory.writeBytes_wf (h ab hab)

/-- Everything Acquire can do. -/
theorem acquire_cases (ep : Ep) :
    (ep.avail = [] ∧ ep.acquire = ep) ∨
    ∃ b r, ep.avail = b :: r ∧ ep.acquire = { ep with active := some { buf := b, mem := [] }, avail := r } := by
  unfold Ep.acquire
  cases h : ep.avail with
  | nil => exact .inl ⟨rfl, rfl⟩
  | cons b r => exact .inr ⟨b, r, rfl, rfl⟩

/-- Everything Complete can do. -/
theorem complete_cases (ep : Ep) (st : Status) :
    (ep.active = none ∧ ep.complete st = ep) ∨
    ∃ ab, ep.active = some ab ∧
      ep.complete st =
        { ep with
          active := none
          completed := ep.completed ++
            [{ buf := ab.buf, bytes := ep.cursor, status := st, ts := ep.ts, seq := ep.frameCount, mem := ab.mem }] } := by
  unfold Ep.complete
  cases h : ep.active with
  | none => exact .inl ⟨rfl, rfl⟩
  | some ab => exact .inr ⟨ab, rfl, rfl⟩

/-- Everything CtrlWrite can do: it sends the string, and only the environment's record changes. -/
theorem ctrlWrite_cases (s : State) (bytes : List Byte) :
    ∃ ans w d, s.ctrlWrite bytes =
      (ans, { s with env := { s.env with writeAnswers := w, draws := d, sent := s.env.sent ++ [bytes] } }) := by
  unfold State.ctrlWrite
  split <;> exact ⟨_, _, _, rfl⟩

/-- Everything CtrlRead can do: at most `n` bytes, one read counted, and only the environment's record changes. -/
theorem ctrlRead_cases (s : State) (n : Nat) :
    ∃ ans w d, s.ctrlRead n =
        (ans, { s with env := { s.env with readAnswers := w, draws := d, reads := s.env.reads + 1 } }) ∧
      ∀ r ∈ ans, r.length ≤ n := by
  unfold State.ctrlRead
  split <;>
  · refine ⟨_, _, _, rfl, fun r hr => ?_⟩
    obtain ⟨x, _, rfl⟩ := Option.map_eq_some_iff.1 hr
    simp

/-- Everything Now can do: only the asking endpoint's answers and its counter change. -/
theorem now_cases (e : Endpoint) (ep : Ep) : ∃ t w d, ep.now e = (t, { ep with nowAnswers := w, nowDraws := d }) := by
  unfold Ep.now
  split <;> exact ⟨_, _, _, rfl⟩

/-- `raise` hands the kind to the caller, records one event and changes nothing else (R303, R311). -/
theorem raiseProtocol_eq {α : Type} (s : State) (r : Reason) :
    (raiseProtocol s r : Except CtrlError α × State) = (.error (.protocol r), s.logProtocol r) := rfl

/-- The other errors change nothing (R301, R302). -/
theorem raiseQuiet_eq {α : Type} (s : State) (e : CtrlError) :
    (raiseQuiet s e : Except CtrlError α × State) = (.error e, s) := rfl

end Sys2Proof.Machine
end

