-- ==== Sys2Proof/Laws/Control.lean ====
section
/-! SUPPORT. What the control channel's shared operations can do, said once. -/

namespace Sys2Proof.Machine

/-- The result of a read loop: a reply that passes the three checks of R166, or one of the four errors. -/
def LoopResult (c : Cfg) (id : Half) : Except CtrlError (List Byte) → Prop
  | .ok r => 10 ≤ r.length ∧ le16 r 0 = c.devSync ∧ le16 r 6 = id
  | .error e => e = .transport ∨ e = .timeout ∨ e = .protocol .short ∨ e = .protocol .sync

/-- What an operation of the control channel may change: the session's registers, the environment's record and the
Device Handle but for `cal`; a free lock stays free. -/
def CtrlFrame (s t : State) : Prop :=
  ∃ cc env dh, t = { s with cc := cc, env := env, dh := dh } ∧ dh.cal = s.dh.cal ∧ (s.cc.lock = false → cc.lock = false)

theorem CtrlFrame.refl (s : State) : CtrlFrame s s := ⟨s.cc, s.env, s.dh, rfl, rfl, id⟩

theorem CtrlFrame.trans {s t u : State} (h : CtrlFrame s t) (k : CtrlFrame t u) : CtrlFrame s u := by
  obtain ⟨_, _, _, rfl, hc, hl⟩ := h
  obtain ⟨_, _, _, rfl, kc, kl⟩ := k
  exact ⟨_, _, _, rfl, kc.trans hc, fun x => kl (hl x)⟩

/-- Opening an exchange takes the lock, advances the counter, and sends one string. -/
theorem sendRequest_cases (req : List Byte) (s : State) :
    ∃ ans w d, sendRequest req s =
      (ans, { s with
        cc := { s.cc with lock := true, reqId := s.cc.reqId + 1 }
        env := { s.env with writeAnswers := w, draws := d, sent := s.env.sent ++ [putLe16 req 6 s.cc.reqId] } }) := by
  obtain ⟨ans, w, d, h⟩ :=
    ctrlWrite_cases { s with cc := { s.cc with lock := true, reqId := s.cc.reqId + 1 } } (putLe16 req 6 s.cc.reqId)
  exact ⟨ans, w, d, h⟩

/-- The read loop makes at most its budget of reads, changes the environment's record and the event trace only, and
ends with a checked reply or an error. -/
theorem readLoop_cases (m : Nat) (id : Half) (n : Nat) (s : State) :
    ∃ res evs ra d k, readLoop m id n s =
        (res, { s with
          cc := { s.cc with events := evs }
          env := { s.env with readAnswers := ra, draws := d, reads := s.env.reads + k } }) ∧
      k ≤ n ∧ LoopResult s.cfg id res := by
  induction n generalizing s with
  | zero => exact ⟨_, s.cc.events, s.env.readAnswers, s.env.draws, 0, rfl, Nat.le_refl _, .inr (.inl rfl)⟩
  | succ n ih =>
    obtain ⟨ans, w, d, h, -⟩ := ctrlRead_cases s m
    simp only [readLoop, h]
    cases ans with
    | none => exact ⟨_, s.cc.events, _, _, 1, rfl, by omega, .inl rfl⟩
    | some r =>
      simp only []
      split
      · exact ⟨_, _, _, _, 1, rfl, by omega, .inr (.inr (.inl rfl))⟩
      · rename_i hlen
        split
        · exact ⟨_, _, _, _, 1, rfl, by omega, .inr (.inr (.inr rfl))⟩
        · rename_i hsync
          split
          · rename_i hid
            exact ⟨_, s.cc.events, _, _, 1, rfl, by omega, Nat.le_of_not_lt hlen, not_not.1 hsync, hid⟩
          · obtain ⟨res, evs, ra, d', k, e, hk, hr⟩ :=
              ih { s with env := { s.env with readAnswers := w, draws := d, reads := s.env.reads + 1 } }
            refine ⟨res, evs, ra, d', k + 1, ?_, by omega, hr⟩
            rw [e]
            simp only [Nat.add_assoc, Nat.add_comm 1 k]

/-- One exchange with a reply: one string sent, at most ten reads, the counter advanced once, the lock released. -/
theorem xferReply_cases (req : List Byte) (m : Nat) (s : State) :
    ∃ res evs env, xferReply req m s =
        (res, { s with cc := { s.cc with lock := false, reqId := s.cc.reqId + 1, events := evs }, env := env }) ∧
      LoopResult s.cfg s.cc.reqId res ∧ env.sent = s.env.sent ++ [putLe16 req 6 s.cc.reqId] ∧
      s.env.reads ≤ env.reads ∧ env.reads ≤ s.env.reads + 10 := by
  obtain ⟨ans, w, d, h⟩ := sendRequest_cases req s
  simp only [xferReply, h]
  cases ans with
  | false => exact ⟨_, s.cc.events, _, rfl, .inl rfl, rfl, Nat.le_refl _, Nat.le_add_right _ _⟩
  | true =>
    obtain ⟨res, evs, ra, d', k, e, hk, hr⟩ := readLoop_cases m s.cc.reqId Config.maxReadAttempts
      { s with
        cc := { s.cc with lock := true, reqId := s.cc.reqId + 1 }
        env := { s.env with writeAnswers := w, draws := d, sent := s.env.sent ++ [putLe16 req 6 s.cc.reqId] } }
    simp only [e]
    exact ⟨res, evs, _, rfl, hr, rfl, Nat.le_add_right _ _, Nat.add_le_add_left hk _⟩

/-- An exchange without a reply sends one string and reads nothing. -/
theorem xferSilent_cases (req : List Byte) (s : State) :
    ∃ res w d, xferSilent req s =
        (res, { s with
          cc := { s.cc with lock := false, reqId := s.cc.reqId + 1 }
          env := { s.env with writeAnswers := w, draws := d, sent := s.env.sent ++ [putLe16 req 6 s.cc.reqId] } }) ∧
      (res = .ok () ∨ res = .error .transport) := by
  obtain ⟨ans, w, d, h⟩ := sendRequest_cases req s
  simp only [xferSilent, h]
  cases ans with
  | false => exact ⟨_, w, d, rfl, .inr rfl⟩
  | true => exact ⟨_, w, d, rfl, .inl rfl⟩

/-- Parsing a reply records an event at most. -/
theorem parseReply_cases (r : List Byte) (s : State) :
    (replyShort r = true ∧ parseReply r s = (.error (.protocol .short), s.logProtocol .short)) ∨
    (replyShort r = false ∧ parseReply r s = (.ok (replyStatus r, replyPayload r), s)) := by
  unfold parseReply
  cases h : replyShort r with
  | true => exact .inl ⟨rfl, rfl⟩
  | false => exact .inr ⟨rfl, rfl⟩

/-- Every exchange leaves the lock free and changes only the session's registers and the environment's record. -/
theorem exchange_cases (opcode : Half) (body : List Byte) (s : State) :
    ∃ res evs env, exchange opcode body s =
        (res, { s with cc := { s.cc with lock := false, reqId := s.cc.reqId + 1, events := evs }, env := env }) ∧
      s.env.reads ≤ env.reads ∧ env.reads ≤ s.env.reads + 10 := by
  obtain ⟨res, evs, env, h, -, -, h1, h2⟩ := xferReply_cases (reqBytes s.cfg opcode body) s.cfg.maxReply s
  simp only [exchange, h]
  cases res with
  | error e => exact ⟨_, evs, env, rfl, h1, h2⟩
  | ok r =>
    rcases parseReply_cases r
        { s with cc := { s.cc with lock := false, reqId := s.cc.reqId + 1, events := evs }, env := env } with
      ⟨-, hp⟩ | ⟨-, hp⟩
    · simp only [hp]; exact ⟨_, _, env, rfl, h1, h2⟩
    · simp only [hp]
      split
      · exact ⟨_, _, env, rfl, h1, h2⟩
      · exact ⟨_, evs, env, rfl, h1, h2⟩

/-- One round of a paged read: nothing once the target is reached; else one exchange, whose error ends the read, whose
empty payload completes it, and whose payload is added up to the target. -/
theorem pageRound_cases (opcode : Half) (header : List Byte) (target : Nat) (data : List Byte) (off : Half) (s : State) :
    (target ≤ data.length ∧ pageRound opcode header target data off s = (.ok (.whole data), s)) ∨
    (data.length < target ∧ ∃ evs env, ∃ u : State,
      u = { s with cc := { s.cc with lock := false, reqId := s.cc.reqId + 1, events := evs }, env := env } ∧
      ((∃ e, pageRound opcode header target data off s = (.error e, u)) ∨
        pageRound opcode header target data off s = (.ok (.whole data), u) ∨
        ∃ p : List Byte, p ≠ [] ∧ exchange opcode (header ++ putHalf off) s = (.ok p, u) ∧
          pageRound opcode header target data off s =
            (.ok (.more (data ++ p.take (min p.length (target - data.length))) (off + BitVec.ofNat 16 (p.length / 2))), u))) := by
  by_cases hle : target ≤ data.length
  · exact .inl ⟨hle, by simp [pageRound, hle]⟩
  · obtain ⟨res, evs, env, h, -⟩ := exchange_cases opcode (header ++ putHalf off) s
    refine .inr ⟨Nat.lt_of_not_le hle, evs, env, _, rfl, ?_⟩
    simp only [pageRound, if_neg hle, h]
    cases res with
    | error e => exact .inl ⟨e, rfl⟩
    | ok p =>
      by_cases hp : p.length = 0
      · exact .inr (.inl (by simp [hp]))
      · exact .inr (.inr ⟨p, by simpa using hp, rfl, by simp [hp]⟩)

/-- A round that asks for more has gathered more, and at most the target. -/
theorem pageRound_more {opcode : Half} {header : List Byte} {target : Nat} {data d : List Byte} {off o : Half} {s u : State}
    (h : pageRound opcode header target data off s = (.ok (.more d o), u)) :
    data.length < d.length ∧ d.length ≤ target ∧ data.length < target ∧ u.cc.lock = false := by
  rcases pageRound_cases opcode header target data off s with ⟨-, e⟩ | ⟨hlt, evs, env, v, hv, ⟨x, e⟩ | e | ⟨p, hp, -, e⟩⟩ <;>
    rw [e] at h <;> simp only [Prod.mk.injEq, Except.ok.injEq, Page.more.injEq, reduceCtorEq, false_and] at h
  obtain ⟨⟨rfl, -⟩, rfl⟩ := h
  have := List.length_pos_of_ne_nil hp
  refine ⟨?_, ?_, hlt, by rw [hv]⟩ <;> simp only [List.length_append, List.length_take] <;> omega

/-- The rounds of a paged read change only the session's registers and the environment's record, leave a free lock
free, and gather at most the target. -/
theorem pagedRounds_cases (opcode : Half) (header : List Byte) (target fuel : Nat) (data : List Byte) (off : Half)
    (s : State) :
    ∃ res cc env, pagedRounds opcode header target fuel data off s = (res, { s with cc := cc, env := env }) ∧
      (s.cc.lock = false → cc.lock = false) ∧
      (data.length ≤ target → ∀ d, res = .ok d → d.length ≤ target) := by
  induction fuel generalizing data off s with
  | zero =>
    refine ⟨_, s.cc, s.env, rfl, id, fun h d hd => ?_⟩
    cases hd; exact h
  | succ fuel ih =>
    simp only [pagedRounds]
    rcases pageRound_cases opcode header target data off s with
      ⟨-, e⟩ | ⟨hlt, evs, env, u, rfl, ⟨x, e⟩ | e | ⟨p, hp, -, e⟩⟩ <;> simp only [e]
    · refine ⟨_, s.cc, s.env, rfl, id, fun h d hd => ?_⟩
      cases hd; exact h
    · exact ⟨_, _, env, rfl, fun _ => rfl, fun _ d hd => by cases hd⟩
    · refine ⟨_, _, env, rfl, fun _ => rfl, fun h d hd => ?_⟩
      cases hd; exact h
    · obtain ⟨res, cc, env', e', hl, hd⟩ := ih (data ++ p.take (min p.length (target - data.length)))
        (off + BitVec.ofNat 16 (p.length / 2))
        { s with cc := { s.cc with lock := false, reqId := s.cc.reqId + 1, events := evs }, env := env }
      exact ⟨res, cc, env', e', fun _ => hl rfl, fun _ => hd (pageRound_more e).2.1⟩

/-- A firmware build number draws at most one free value. -/
theorem fixBuild_cases (major : Byte) (raw : Half) (s : State) :
    ∃ b d, fixBuild major raw s = (b, { s with env := { s.env with draws := d } }) := by
  unfold fixBuild
  split
  · exact ⟨_, _, rfl⟩
  · split <;> exact ⟨_, _, rfl⟩

/-! ### Frames -/

theorem raise_frame (s : State) (r : Reason) : CtrlFrame s (s.logProtocol r) := ⟨_, _, _, rfl, rfl, id⟩

theorem exchange_frame (opcode : Half) (body : List Byte) (s : State) : CtrlFrame s (exchange opcode body s).2 := by
  obtain ⟨res, evs, env, h, -⟩ := exchange_cases opcode body s
  rw [h]
  exact ⟨_, _, s.dh, rfl, rfl, fun _ => rfl⟩

theorem pageRound_frame (opcode : Half) (header : List Byte) (target : Nat) (data : List Byte) (off : Half) (s : State) :
    CtrlFrame s (pageRound opcode header target data off s).2 := by
  rcases pageRound_cases opcode header target data off s with
    ⟨-, e⟩ | ⟨-, evs, env, u, rfl, ⟨x, e⟩ | e | ⟨p, -, -, e⟩⟩ <;> rw [e]
  · exact CtrlFrame.refl s
  all_goals exact ⟨_, _, s.dh, rfl, rfl, fun _ => rfl⟩

theorem pagedRounds_frame (opcode : Half) (header : List Byte) (target fuel : Nat) (data : List Byte) (off : Half)
    (s : State) : CtrlFrame s (pagedRounds opcode header target fuel data off s).2 := by
  obtain ⟨res, cc, env, e, hl, -⟩ := pagedRounds_cases opcode header target fuel data off s
  rw [e]
  exact ⟨cc, env, s.dh, rfl, rfl, hl⟩

theorem getVersion_frame (s : State) : CtrlFrame s (getVersion s).2 := by
  have h := exchange_frame s.cfg.opGetVersion [] s
  unfold getVersion
  revert h
  rcases exchange s.cfg.opGetVersion [] s with ⟨_ | p, u⟩ <;> intro h
  · exact h
  · simp only []
    split
    · exact h.trans (raise_frame u _)
    · obtain ⟨b, d, e⟩ := fixBuild_cases (byteAt p 0) (le16 p 2) u
      rw [e]
      exact h.trans ⟨_, _, _, rfl, rfl, id⟩

theorem getSerial_frame (s : State) : CtrlFrame s (getSerial s).2 := by
  have h := exchange_frame s.cfg.opGetSerial [] s
  unfold getSerial
  revert h
  rcases exchange s.cfg.opGetSerial [] s with ⟨_ | p, u⟩ <;> intro h
  · exact h
  · exact h.trans ⟨_, _, _, rfl, rfl, id⟩

theorem resetDevice_frame (s : State) : CtrlFrame s (resetDevice s).2 := by
  have h := exchange_frame s.cfg.opSetMode (putHalf s.cfg.modeKnown) s
  unfold resetDevice
  revert h
  rcases exchange s.cfg.opSetMode (putHalf s.cfg.modeKnown) s with ⟨_ | p, u⟩ <;> exact id

theorem setFixed_frame (s : State) (d : List Byte) : CtrlFrame s (s.setFixed d) := ⟨_, _, _, rfl, rfl, id⟩

theorem setAlgo_frame (s : State) (d : List Byte) : CtrlFrame s (s.setAlgo d) := ⟨_, _, _, rfl, rfl, id⟩

theorem getFixed_frame (s : State) : CtrlFrame s (getFixed s).2 := by
  have h := pagedRounds_frame s.cfg.opGetFixed [] s.cfg.fixedSize (s.cfg.fixedSize + 1) [] 0 s
  unfold getFixed pagedRead
  revert h
  rcases pagedRounds s.cfg.opGetFixed [] s.cfg.fixedSize (s.cfg.fixedSize + 1) [] 0 s with ⟨_ | d, u⟩ <;> intro h
  · exact h
  · exact h.trans (setFixed_frame u d)

theorem getAlgo_frame (sel : List Byte) (s : State) : CtrlFrame s (getAlgo sel s).2 := by
  have h := pagedRounds_frame s.cfg.opGetAlgo sel s.cfg.algoSize (s.cfg.algoSize + 1) [] 0 s
  unfold getAlgo pagedRead
  revert h
  rcases pagedRounds s.cfg.opGetAlgo sel s.cfg.algoSize (s.cfg.algoSize + 1) [] 0 s with ⟨_ | d, u⟩ <;> intro h
  · exact h
  · exact h.trans (setAlgo_frame u d)

theorem callRound_frame (c : List Byte → Half → Call) {store : State → List Byte → State} {s : State}
    {r : Except CtrlError Page × State} (hst : ∀ u d, CtrlFrame u (store u d)) (h : CtrlFrame s r.2) :
    CtrlFrame s (callRound c store r).2 := by
  rcases r with ⟨_ | _ | _, u⟩
  · exact h
  · exact h
  · exact h.trans (hst u _)

theorem phasePage_frame (more : List Byte → Half → InitPhase) (next : InitNext) {store : State → List Byte → State}
    {s : State} {r : Except CtrlError Page × State} (hst : ∀ u d, CtrlFrame u (store u d)) (h : CtrlFrame s r.2) :
    CtrlFrame s (phasePage more next store r).2 := by
  rcases r with ⟨_ | _ | _, u⟩
  · exact h
  · exact h
  · exact h.trans (hst u _)

theorem phaseThen_state (next : InitNext) (r : Except CtrlError Unit × State) : (phaseThen next r).2 = r.2 := by
  rcases r with ⟨_ | _, u⟩ <;> rfl

/-- One step of the bring-up's running attempt. -/
theorem initStep_frame (sel : List Byte) (s : State) (p : InitPhase) : CtrlFrame s (initStep sel s p).2 := by
  cases p with
  | version =>
    have h := getVersion_frame s
    unfold initStep
    revert h
    rcases getVersion s with ⟨_ | v, u⟩ <;> intro h
    · exact h
    · simp only []
      split <;> exact h
  | reset => rw [initStep, phaseThen_state]; exact resetDevice_frame s
  | serial => rw [initStep, phaseThen_state]; exact getSerial_frame s
  | fixed data off => rw [initStep]; exact phasePage_frame _ _ setFixed_frame (pageRound_frame ..)
  | algo data off => rw [initStep]; exact phasePage_frame _ _ setAlgo_frame (pageRound_frame ..)

/-- Where a bring-up goes next is decided without another change of the state. -/
theorem initProgress_state (sel : List Byte) (left : Nat) (r : InitNext × State) : (initProgress sel left r).2 = r.2 := by
  rcases r with ⟨_ | _ | _ | _, u⟩
  · rfl
  · rfl
  · rfl
  · cases left <;> rfl

/-- One step of an operation in progress. -/
theorem callStep_frame (c : Call) (s : State) : CtrlFrame s (callStep c s).2 := by
  cases c with
  | getFixed data off => rw [callStep]; exact callRound_frame _ setFixed_frame (pageRound_frame ..)
  | getAlgo sel data off => rw [callStep]; exact callRound_frame _ setAlgo_frame (pageRound_frame ..)
  | init sel left p => rw [callStep, initProgress_state]; exact initStep_frame sel s p

/-! ### What the control channel does not read

No operation of the control channel looks at the stimuli to come or at the operations in progress: beside any others it
does the same. -/

/-- The same machine with other stimuli to come and other operations in progress. -/
def State.beside (stim : List Stimulus) (calls : List Call) (s : State) : State := { s with stim := stim, calls := calls }

section Beside

variable (st : List Stimulus) (cs : List Call)

theorem ctrlWrite_beside (s : State) (bytes : List Byte) :
    State.ctrlWrite (s.beside st cs) bytes = Prod.map id (State.beside st cs) (s.ctrlWrite bytes) := by
  unfold State.ctrlWrite
  show (match s.env.writeAnswers with | a :: r => _ | [] => _) = _
  rcases s.env.writeAnswers with _ | ⟨a, r⟩ <;> rfl

theorem ctrlRead_beside (s : State) (n : Nat) :
    State.ctrlRead (s.beside st cs) n = Prod.map id (State.beside st cs) (s.ctrlRead n) := by
  unfold State.ctrlRead
  show (match s.env.readAnswers with | a :: r => _ | [] => _) = _
  rcases s.env.readAnswers with _ | ⟨a, r⟩ <;> rfl


theorem readLoop_beside (m : Nat) (id' : Half) (n : Nat) (s : State) :
    readLoop m id' n (s.beside st cs) = Prod.map id (State.beside st cs) (readLoop m id' n s) := by
  induction n generalizing s with
  | zero => rfl
  | succ n ih =>
    simp only [readLoop, ctrlRead_beside]
    rcases s.ctrlRead m with ⟨_ | r, u⟩
    · rfl
    · simp only [Prod.map, id]
      show (if _ then _ else if le16 r 0 ≠ u.cfg.devSync then _ else _) = _
      split
      · rfl
      · split
        · rfl
        · split
          · rfl
          · exact ih u

/-- An exchange is the same beside any other stimuli and operations in progress. -/
theorem exchange_beside (opcode : Half) (body : List Byte) (s : State) :
    exchange opcode body (s.beside st cs) = Prod.map id (State.beside st cs) (exchange opcode body s) := by
  have hw : sendRequest (reqBytes s.cfg opcode body) (s.beside st cs)
      = Prod.map id (State.beside st cs) (sendRequest (reqBytes s.cfg opcode body) s) :=
    ctrlWrite_beside st cs { s with cc := { s.cc with lock := true, reqId := s.cc.reqId + 1 } } _
  have hx : xferReply (reqBytes s.cfg opcode body) s.cfg.maxReply (s.beside st cs)
      = Prod.map id (State.beside st cs) (xferReply (reqBytes s.cfg opcode body) s.cfg.maxReply s) := by
    unfold xferReply
    rw [hw]
    rcases sendRequest (reqBytes s.cfg opcode body) s with ⟨_ | _, u⟩
    · rfl
    · have hl := readLoop_beside st cs s.cfg.maxReply s.cc.reqId Config.maxReadAttempts u
      show (match readLoop s.cfg.maxReply s.cc.reqId Config.maxReadAttempts (u.beside st cs) with
        | (r, s'') => (r, s''.setLock false)) = Prod.map id (State.beside st cs)
          (match readLoop s.cfg.maxReply s.cc.reqId Config.maxReadAttempts u with | (r, s'') => (r, s''.setLock false))
      rw [hl]; rfl
  unfold exchange
  show (match xferReply (reqBytes s.cfg opcode body) s.cfg.maxReply (s.beside st cs) with
    | (.error err, s) => _
    | (.ok r, s) => _) = _
  rw [hx]
  rcases xferReply (reqBytes s.cfg opcode body) s.cfg.maxReply s with ⟨_ | r, u⟩
  · rfl
  · simp only [Prod.map, id, parseReply]
    cases replyShort r with
    | true => rfl
    | false => simp only [Bool.false_eq_true, if_false]; split <;> rfl

theorem pageRound_beside (opcode : Half) (header : List Byte) (target : Nat) (data : List Byte) (off : Half) (s : State) :
    pageRound opcode header target data off (s.beside st cs)
      = Prod.map id (State.beside st cs) (pageRound opcode header target data off s) := by
  unfold pageRound
  split
  · rfl
  · rw [exchange_beside]
    rcases exchange opcode (header ++ putHalf off) s with ⟨_ | p, u⟩
    · rfl
    · simp only [Prod.map, id]; split <;> rfl

theorem fixBuild_beside (major : Byte) (raw : Half) (s : State) :
    fixBuild major raw (s.beside st cs) = Prod.map id (State.beside st cs) (fixBuild major raw s) := by
  unfold fixBuild
  split
  · rfl
  · split <;> rfl

theorem getVersion_beside (s : State) : getVersion (s.beside st cs) = Prod.map id (State.beside st cs) (getVersion s) := by
  unfold getVersion
  show (match exchange s.cfg.opGetVersion [] (s.beside st cs) with | (.error err, s) => _ | (.ok r, s) => _) = _
  rw [exchange_beside]
  rcases exchange s.cfg.opGetVersion [] s with ⟨_ | p, u⟩
  · rfl
  · show (if p.length < u.cfg.versionLen then _ else _) = Prod.map id (State.beside st cs) (if _ then _ else _)
    split
    · rfl
    · rw [fixBuild_beside]; rfl

theorem getSerial_beside (s : State) : getSerial (s.beside st cs) = Prod.map id (State.beside st cs) (getSerial s) := by
  unfold getSerial
  show (match exchange s.cfg.opGetSerial [] (s.beside st cs) with | (.error err, s) => _ | (.ok r, s) => _) = _
  rw [exchange_beside]
  rcases exchange s.cfg.opGetSerial [] s with ⟨_ | p, u⟩ <;> rfl

theorem resetDevice_beside (s : State) : resetDevice (s.beside st cs) = Prod.map id (State.beside st cs) (resetDevice s) := by
  unfold resetDevice
  show (match exchange s.cfg.opSetMode (putHalf s.cfg.modeKnown) (s.beside st cs) with
    | (.error err, s) => _
    | (.ok r, s) => _) = _
  rw [exchange_beside]
  rcases exchange s.cfg.opSetMode (putHalf s.cfg.modeKnown) s with ⟨_ | p, u⟩ <;> rfl

theorem initStep_beside (sel : List Byte) (s : State) (p : InitPhase) :
    initStep sel (s.beside st cs) p = Prod.map id (State.beside st cs) (initStep sel s p) := by
  cases p with
  | version =>
    unfold initStep
    rw [getVersion_beside]
    rcases getVersion s with ⟨_ | v, u⟩
    · rfl
    · show (if belowFloor u.cfg v then _ else _) = Prod.map id (State.beside st cs) (if _ then _ else _)
      split <;> rfl
  | reset => simp only [initStep, resetDevice_beside]; rcases resetDevice s with ⟨_ | _, u⟩ <;> rfl
  | serial => simp only [initStep, getSerial_beside]; rcases getSerial s with ⟨_ | _, u⟩ <;> rfl
  | fixed data off =>
    show phasePage .fixed (.phase .serial) State.setFixed
      (pageRound s.cfg.opGetFixed [] s.cfg.fixedSize data off (s.beside st cs)) = _
    rw [pageRound_beside, initStep]
    rcases pageRound s.cfg.opGetFixed [] s.cfg.fixedSize data off s with ⟨_ | _ | _, u⟩ <;> rfl
  | algo data off =>
    show phasePage .algo (.over .done) State.setAlgo
      (pageRound s.cfg.opGetAlgo sel s.cfg.algoSize data off (s.beside st cs)) = _
    rw [pageRound_beside, initStep]
    rcases pageRound s.cfg.opGetAlgo sel s.cfg.algoSize data off s with ⟨_ | _ | _, u⟩ <;> rfl

/-- A step of an operation in progress is the same beside any other stimuli and operations. -/
theorem callStep_beside (c : Call) (s : State) :
    callStep c (s.beside st cs) = Prod.map id (State.beside st cs) (callStep c s) := by
  cases c with
  | getFixed data off =>
    show callRound .getFixed State.setFixed (pageRound s.cfg.opGetFixed [] s.cfg.fixedSize data off (s.beside st cs)) = _
    rw [pageRound_beside, callStep]
    rcases pageRound s.cfg.opGetFixed [] s.cfg.fixedSize data off s with ⟨_ | _ | _, u⟩ <;> rfl
  | getAlgo sel data off =>
    show callRound (.getAlgo sel) State.setAlgo (pageRound s.cfg.opGetAlgo sel s.cfg.algoSize data off (s.beside st cs)) = _
    rw [pageRound_beside, callStep]
    rcases pageRound s.cfg.opGetAlgo sel s.cfg.algoSize data off s with ⟨_ | _ | _, u⟩ <;> rfl
  | init sel left p =>
    simp only [callStep, initStep_beside]
    rcases initStep sel s p with ⟨_ | _ | _ | _, u⟩
    · rfl
    · rfl
    · rfl
    · cases left <;> rfl

end Beside

/-! ### An operation that no other caller interrupts (R86)

Taken round by round with nothing in between, an operation of several exchanges is the operation in one go. -/

/-- An operation in progress that its caller alone resumes ends so. -/
inductive RunsAlone : Call → State → OpResult → State → Prop where
  | last {c s r u} (h : callStep c s = (.ends r, u)) : RunsAlone c s r u
  | more {c s c' t r u} (h : callStep c s = (.goesOn c', t)) (k : RunsAlone c' t r u) : RunsAlone c s r u

/-- An operation in progress that its caller alone resumes ends with this result and state. -/
abbrev RunsTo (c : Call) (s : State) (p : OpResult × State) : Prop := RunsAlone c s p.1 p.2

/-- What an operation comes to when nothing interrupts it is fixed. -/
theorem RunsAlone.unique {c : Call} {s u v : State} {r q : OpResult} (h : RunsAlone c s r u) (k : RunsAlone c s q v) :
    r = q ∧ u = v := by
  induction h with
  | last h =>
    cases k with
    | last k => rw [h] at k; cases k; exact ⟨rfl, rfl⟩
    | more k _ => rw [h] at k; cases k
  | more h _ ih =>
    cases k with
    | last k => rw [h] at k; cases k
    | more k k' => rw [h] at k; cases k; exact ih k'

/-- It is the same beside any other stimuli and operations in progress. -/
theorem RunsAlone.beside {c : Call} {s u : State} {r : OpResult} (st : List Stimulus) (cs : List Call)
    (h : RunsAlone c s r u) : RunsAlone c (s.beside st cs) r (u.beside st cs) := by
  induction h with
  | last h => exact .last (by rw [callStep_beside, h]; rfl)
  | more h _ ih => exact .more (by rw [callStep_beside, h]; rfl) ih

/-- A paged read from any round on: `call` is the read in progress, `fin` what its end leads to. -/
theorem runsAlone_paged {op : Cfg → Half} {header : List Byte} {target : Cfg → Nat} {call : List Byte → Half → Call}
    {fin : Except CtrlError (List Byte) × State → OpResult × State}
    (herr : ∀ data off s e u, pageRound (op s.cfg) header (target s.cfg) data off s = (.error e, u) →
      RunsTo (call data off) s (fin (.error e, u)))
    (hwhole : ∀ data off s d u, pageRound (op s.cfg) header (target s.cfg) data off s = (.ok (.whole d), u) →
      RunsTo (call data off) s (fin (.ok d, u)))
    (hmore : ∀ data off s d o u, pageRound (op s.cfg) header (target s.cfg) data off s = (.ok (.more d o), u) →
      callStep (call data off) s = (.goesOn (call d o), u))
    (fuel : Nat) (data : List Byte) (off : Half) (s : State) (hf : target s.cfg < data.length + fuel) :
    RunsTo (call data off) s (fin (pagedRounds (op s.cfg) header (target s.cfg) fuel data off s)) := by
  induction fuel generalizing data off s with
  | zero =>
    have hle : target s.cfg ≤ data.length := by omega
    exact hwhole data off s data s (by simp [pageRound, hle])
  | succ fuel ih =>
    have hfr := pageRound_frame (op s.cfg) header (target s.cfg) data off s
    cases hp : pageRound (op s.cfg) header (target s.cfg) data off s with
    | mk res v =>
      rw [hp] at hfr
      have hc : v.cfg = s.cfg := by obtain ⟨_, _, _, rfl, -⟩ := hfr; rfl
      simp only [pagedRounds, hp]
      match res with
      | .error x => exact herr data off s x v hp
      | .ok (.whole w) => exact hwhole data off s w v hp
      | .ok (.more w o) =>
        have hm := pageRound_more hp
        have := ih w o v (by rw [hc]; omega)
        rw [hc] at this
        exact .more (hmore data off s w o v hp) this

/-- CC.GET_FIXED round by round and alone is CC.GET_FIXED. -/
theorem getFixed_runsAlone (s : State) :
    RunsAlone (.getFixed [] 0) s (ctrlResult (fun _ => .ok) (getFixed s).1) (getFixed s).2 := by
  have h := runsAlone_paged (op := Cfg.opGetFixed) (header := []) (target := Cfg.fixedSize) (call := .getFixed)
    (fin := fun | (.error e, u) => (.error e, u) | (.ok d, u) => (.ok, u.setFixed d))
    (fun _ _ _ _ _ h => .last (by simp [callStep, callRound, h]))
    (fun _ _ _ _ _ h => .last (by simp [callStep, callRound, h]))
    (fun _ _ _ _ _ _ h => by simp [callStep, callRound, h]) (s.cfg.fixedSize + 1) [] 0 s (by simp)
  unfold getFixed pagedRead
  revert h
  rcases pagedRounds s.cfg.opGetFixed [] s.cfg.fixedSize (s.cfg.fixedSize + 1) [] 0 s with ⟨_ | _, u⟩ <;> exact id

/-- CC.GET_ALGO round by round and alone is CC.GET_ALGO. -/
theorem getAlgo_runsAlone (sel : List Byte) (s : State) :
    RunsAlone (.getAlgo sel [] 0) s (ctrlResult (fun _ => .ok) (getAlgo sel s).1) (getAlgo sel s).2 := by
  have h := runsAlone_paged (op := Cfg.opGetAlgo) (header := sel) (target := Cfg.algoSize) (call := .getAlgo sel)
    (fin := fun | (.error e, u) => (.error e, u) | (.ok d, u) => (.ok, u.setAlgo d))
    (fun _ _ _ _ _ h => .last (by simp [callStep, callRound, h]))
    (fun _ _ _ _ _ h => .last (by simp [callStep, callRound, h]))
    (fun _ _ _ _ _ _ h => by simp [callStep, callRound, h]) (s.cfg.algoSize + 1) [] 0 s (by simp)
  unfold getAlgo pagedRead
  revert h
  rcases pagedRounds s.cfg.opGetAlgo sel s.cfg.algoSize (s.cfg.algoSize + 1) [] 0 s with ⟨_ | _, u⟩ <;> exact id

/-- What a bring-up comes to once its running attempt has ended so, with `left` attempts after it (R178). -/
def initFinish (sel : List Byte) (left : Nat) : InitOutcome × State → OpResult × State
  | (.done, s) => (.ok, s)
  | (.tooOld, s) => (.initFailed .firmwareTooOld, s)
  | (.failed e, s) => initLoop sel left (.error e) s

/-- Each attempt after the running one, exchange by exchange and alone, is that of the loop. -/
def LaterAttemptsRun (sel : List Byte) (left : Nat) : Prop :=
  ∀ n s e, left = n + 1 → RunsTo (.init sel n .version) s (initLoop sel left (.error e) s)

/-- The end of an attempt, when every further attempt runs alone to the end of the loop. -/
theorem runsAlone_over {sel : List Byte} {left : Nat} (later : LaterAttemptsRun sel left)
    {p : InitPhase} {s u : State} {o : InitOutcome} (h : initStep sel s p = (.over o, u)) :
    RunsTo (.init sel left p) s (initFinish sel left (o, u)) := by
  cases o with
  | done => exact .last (by simp [callStep, initProgress, h, initFinish])
  | tooOld => exact .last (by simp [callStep, initProgress, h, initFinish])
  | failed e =>
    cases left with
    | zero => exact .last (by simp [callStep, initProgress, h, initFinish, initLoop])
    | succ n => exact .more (by simp [callStep, initProgress, h]) (later n u e rfl)

/-- A phase that ends: the next phase runs on from where it ended. -/
theorem runsAlone_phase {sel : List Byte} {left : Nat} {p q : InitPhase} {s u t : State} {r : OpResult}
    (h : initStep sel s p = (.phase q, u)) (k : RunsAlone (.init sel left q) u r t) : RunsAlone (.init sel left p) s r t :=
  .more (by simp [callStep, initProgress, h]) k

/-- A bring-up step that is one operation: an error ends the attempt, success goes on with `rest`. -/
theorem runsAlone_then {sel : List Byte} {left : Nat} {p q : InitPhase} {s : State} {r : Except CtrlError Unit × State}
    {rest : State → InitOutcome × State} (later : LaterAttemptsRun sel left)
    (hp : initStep sel s p = phaseThen (.phase q) r)
    (k : ∀ u, RunsTo (.init sel left q) u (initFinish sel left (rest u))) :
    RunsTo (.init sel left p) s (initFinish sel left (initThen r rest)) := by
  rcases r with ⟨_ | _, u⟩
  · exact runsAlone_over later hp
  · exact runsAlone_phase hp (k u)

/-- The bring-up's algorithm block and the end of its attempt. -/
theorem runsAlone_algo {sel : List Byte} {left : Nat} (later : LaterAttemptsRun sel left) (s : State) :
    RunsTo (.init sel left (.algo [] 0)) s (initFinish sel left (initThen (getAlgo sel s) fun s => (.done, s))) := by
  have h := runsAlone_paged (op := Cfg.opGetAlgo) (header := sel) (target := Cfg.algoSize)
    (call := fun d o => .init sel left (.algo d o))
    (fin := fun | (.error e, u) => initFinish sel left (.failed e, u) | (.ok d, u) => initFinish sel left (.done, u.setAlgo d))
    (fun _ _ _ _ _ h => runsAlone_over later (by simp [initStep, phasePage, h]))
    (fun _ _ _ _ _ h => runsAlone_over later (by simp [initStep, phasePage, h]))
    (fun _ _ _ _ _ _ h => by simp [callStep, initStep, phasePage, initProgress, h])
    (s.cfg.algoSize + 1) [] 0 s (by simp)
  unfold getAlgo pagedRead
  revert h
  rcases pagedRounds s.cfg.opGetAlgo sel s.cfg.algoSize (s.cfg.algoSize + 1) [] 0 s with ⟨_ | _, u⟩ <;> exact id

/-- The bring-up's fixed block, going on with `rest` after the serial number's phase is reached. -/
theorem runsAlone_fixed {sel : List Byte} {left : Nat} {rest : State → InitOutcome × State}
    (later : LaterAttemptsRun sel left) (k : ∀ u, RunsTo (.init sel left .serial) u (initFinish sel left (rest u)))
    (s : State) :
    RunsTo (.init sel left (.fixed [] 0)) s (initFinish sel left (initThen (getFixed s) rest)) := by
  have h := runsAlone_paged (op := Cfg.opGetFixed) (header := []) (target := Cfg.fixedSize)
    (call := fun d o => .init sel left (.fixed d o))
    (fin := fun
      | (.error e, u) => initFinish sel left (.failed e, u)
      | (.ok d, u) => initFinish sel left (rest (u.setFixed d)))
    (fun _ _ _ _ _ h => runsAlone_over later (by simp [initStep, phasePage, h]))
    (fun _ _ _ _ _ h => runsAlone_phase (by simp [initStep, phasePage, h]) (k _))
    (fun _ _ _ _ _ _ h => by simp [callStep, initStep, phasePage, initProgress, h])
    (s.cfg.fixedSize + 1) [] 0 s (by simp)
  unfold getFixed pagedRead
  revert h
  rcases pagedRounds s.cfg.opGetFixed [] s.cfg.fixedSize (s.cfg.fixedSize + 1) [] 0 s with ⟨_ | _, u⟩ <;> exact id

/-- One attempt exchange by exchange and alone. -/
theorem runsAlone_attempt {sel : List Byte} {left : Nat} (later : LaterAttemptsRun sel left) (s : State) :
    RunsTo (.init sel left .version) s (initFinish sel left (initAttempt sel s)) := by
  have hs : initStep sel s .version = match getVersion s with
      | (.error err, s) => (.over (.failed err), s)
      | (.ok v, s) => if belowFloor s.cfg v then (.over .tooOld, s) else (.phase .reset, s) := rfl
  unfold initAttempt
  rcases hv : getVersion s with ⟨e | v, u⟩ <;> rw [hv] at hs
  · exact runsAlone_over later hs
  · dsimp only at hs ⊢
    cases hb : belowFloor u.cfg v with
    | true => rw [hb] at hs; exact runsAlone_over later hs
    | false =>
      rw [hb] at hs
      exact runsAlone_phase hs (runsAlone_then later rfl fun s =>
        runsAlone_fixed later (fun s => runsAlone_then later rfl fun s => runsAlone_algo later s) s)

/-- The loop's next attempt. -/
theorem initLoop_succ (sel : List Byte) (n : Nat) (last : InitCause) (s : State) :
    initLoop sel (n + 1) last s = initFinish sel n (initAttempt sel s) := by
  rw [initLoop]
  rcases initAttempt sel s with ⟨_ | _ | _, u⟩ <;> rfl

/-- CC.INIT exchange by exchange and alone is CC.INIT: the running attempt and the `n` after it. -/
theorem init_runsAlone (sel : List Byte) (n : Nat) (last : InitCause) (s : State) :
    RunsTo (.init sel n .version) s (initLoop sel (n + 1) last s) := by
  rw [initLoop_succ]
  induction n generalizing last s with
  | zero => exact runsAlone_attempt (fun n s e h => by cases h) s
  | succ n ih =>
    refine runsAlone_attempt (fun m s e h => ?_) s
    cases h
    rw [initLoop_succ]
    exact ih (.error e) s

/-- The bring-up's loop is the same beside any other stimuli and operations in progress. -/
theorem initLoop_beside (st : List Stimulus) (cs : List Call) (sel : List Byte) (n : Nat) (last : InitCause) (s : State) :
    initLoop sel n last (s.beside st cs) = Prod.map id (State.beside st cs) (initLoop sel n last s) := by
  cases n with
  | zero => rfl
  | succ n =>
    have h := (init_runsAlone sel n last (s.beside st cs)).unique ((init_runsAlone sel n last s).beside st cs)
    exact Prod.ext h.1 h.2

end Sys2Proof.Machine
end

