-- ==== Sys2Proof/Laws/PerInstr.lean ====
section
/-! SUPPORT. The family EncodedRow: an operation's stimulus opens with its row's number. -/

namespace Sys2Proof.Laws

/-- The first byte of an encoded operation is the number of its row in spec/opcode_table.json. -/
def EncodedRow.Statement (i : Instr) : Prop := ∀ c : Cfg, (encode c i).head? = some (BitVec.ofNat 8 (rowOf i))

theorem EncodedRow.mfU2f a : EncodedRow.Statement (.mfU2f a) := fun _ => rfl
theorem EncodedRow.mfMul a b : EncodedRow.Statement (.mfMul a b) := fun _ => rfl
theorem EncodedRow.mfAdd a b : EncodedRow.Statement (.mfAdd a b) := fun _ => rfl
theorem EncodedRow.mfDiv a b : EncodedRow.Statement (.mfDiv a b) := fun _ => rfl
theorem EncodedRow.ccXfer a b c : EncodedRow.Statement (.ccXfer a b c) := fun _ => rfl
theorem EncodedRow.ccGetVersion : EncodedRow.Statement .ccGetVersion := fun _ => rfl
theorem EncodedRow.ccGetFixed : EncodedRow.Statement .ccGetFixed := fun _ => rfl
theorem EncodedRow.ccGetAlgo a : EncodedRow.Statement (.ccGetAlgo a) := fun _ => rfl
theorem EncodedRow.ccGetSerial : EncodedRow.Statement .ccGetSerial := fun _ => rfl
theorem EncodedRow.ccSetParam a b : EncodedRow.Statement (.ccSetParam a b) := fun _ => rfl
theorem EncodedRow.ccReset : EncodedRow.Statement .ccReset := fun _ => rfl
theorem EncodedRow.ccInit a : EncodedRow.Statement (.ccInit a) := fun _ => rfl
theorem EncodedRow.raEnable a : EncodedRow.Statement (.raEnable a) := fun _ => rfl
theorem EncodedRow.raDisable a : EncodedRow.Statement (.raDisable a) := fun _ => rfl
theorem EncodedRow.bqEnqueue a b : EncodedRow.Statement (.bqEnqueue a b) := fun _ => rfl
theorem EncodedRow.fmtSet a b c d e : EncodedRow.Statement (.fmtSet a b c d e) := fun _ => rfl
theorem EncodedRow.raChunk a b : EncodedRow.Statement (.raChunk a b) := fun _ => rfl
theorem EncodedRow.raByte a b : EncodedRow.Statement (.raByte a b) := fun _ => rfl
theorem EncodedRow.raSeek1 a b : EncodedRow.Statement (.raSeek1 a b) := fun _ => rfl
theorem EncodedRow.raSeek2 a b : EncodedRow.Statement (.raSeek2 a b) := fun _ => rfl
theorem EncodedRow.raHdr a b : EncodedRow.Statement (.raHdr a b) := fun _ => rfl
theorem EncodedRow.raHdrdone a : EncodedRow.Statement (.raHdrdone a) := fun _ => rfl
theorem EncodedRow.raStart a : EncodedRow.Statement (.raStart a) := fun _ => rfl
theorem EncodedRow.raCont a b : EncodedRow.Statement (.raCont a b) := fun _ => rfl
theorem EncodedRow.raPay a b : EncodedRow.Statement (.raPay a b) := fun _ => rfl
theorem EncodedRow.raPktdone a : EncodedRow.Statement (.raPktdone a) := fun _ => rfl
theorem EncodedRow.lutBuild : EncodedRow.Statement .lutBuild := fun _ => rfl
theorem EncodedRow.dcStart : EncodedRow.Statement .dcStart := fun _ => rfl
theorem EncodedRow.dcData a : EncodedRow.Statement (.dcData a) := fun _ => rfl
theorem EncodedRow.dcUnpack a : EncodedRow.Statement (.dcUnpack a) := fun _ => rfl
theorem EncodedRow.dcEnd : EncodedRow.Statement .dcEnd := fun _ => rfl
theorem EncodedRow.clStart : EncodedRow.Statement .clStart := fun _ => rfl
theorem EncodedRow.clData a : EncodedRow.Statement (.clData a) := fun _ => rfl
theorem EncodedRow.clNib a : EncodedRow.Statement (.clNib a) := fun _ => rfl
theorem EncodedRow.clDelta a : EncodedRow.Statement (.clDelta a) := fun _ => rfl
theorem EncodedRow.clSkip a : EncodedRow.Statement (.clSkip a) := fun _ => rfl
theorem EncodedRow.clLit : EncodedRow.Statement .clLit := fun _ => rfl
theorem EncodedRow.clLithi a : EncodedRow.Statement (.clLithi a) := fun _ => rfl
theorem EncodedRow.clLitlo a : EncodedRow.Statement (.clLitlo a) := fun _ => rfl
theorem EncodedRow.clEmit a : EncodedRow.Statement (.clEmit a) := fun _ => rfl
theorem EncodedRow.clEnd : EncodedRow.Statement .clEnd := fun _ => rfl

end Sys2Proof.Laws
end

