-- ==== Sys2Proof/Laws/Stream.lean ====
section
/-! SUPPORT. What the codecs' and the reassembler's shared operations can do, said once. -/

namespace Sys2Proof.Machine

/-! ### Depth -/

/-- Filling the table keeps its canonical form. -/
theorem lutFill_wf {c : Cfg} {cal : Cal} {l : Lut} (h : l.wf) : (lutFill c cal l).wf := by
  have aux : ∀ (is : List Nat) (l : Lut), (∀ i ∈ is, i < Config.lutSize) → l.wf →
      Lut.wf (is.foldl (fun l i => Lut.write l i (lutEntry c i cal)) l) := by
    intro is
    induction is with
    | nil => exact fun _ _ h => h
    | cons i r ih =>
      exact fun l hi h => ih _ (fun j hj => hi j (by simp [hj])) (Lut.write_wf h (hi i (by simp)))
  exact aux _ _ (fun i hi => List.mem_range.1 hi) h

/-- A unit's eight lanes change only the active buffer's bytes, the cursor and the event trace. -/
theorem foldl_bufWrite_frame (f : Nat → List Byte) (js : List Nat) (ep : Ep) :
    ∃ act cur evs, js.foldl (fun ep j => ep.bufWrite (f j)) ep =
        { ep with active := act, cursor := cur, events := evs } ∧
      act.map (·.buf) = ep.active.map (·.buf) ∧
      ((∀ ab ∈ ep.active, Memory.wf ab.mem) → ∀ ab ∈ act, Memory.wf ab.mem) ∧
      (ep.cursor ≤ ep.imageSize → cur ≤ ep.imageSize) := by
  induction js generalizing ep with
  | nil => exact ⟨ep.active, ep.cursor, ep.events, rfl, rfl, id, id⟩
  | cons j r ih =>
    obtain ⟨act, cur, evs, e, h1, h2, h3⟩ := ih (ep.bufWrite (f j))
    refine ⟨act, cur, evs, ?_, ?_, fun h => h2 (bufWrite_mem_wf h), fun h => ?_⟩
    · rw [List.foldl_cons, e]
      rcases bufWrite_cases ep (f j) with ⟨_, h⟩ | ⟨ab, _, h⟩ <;> rw [h]
    · rw [h1]
      rcases bufWrite_cases ep (f j) with ⟨_, h⟩ | ⟨ab, hab, h⟩ <;> rw [h]
      simp [hab]
    · have := h3 (by rw [bufWrite_imageSize]; exact bufWrite_cursor_le h)
      rwa [bufWrite_imageSize] at this

/-- DC.UNPACK changes only the depth endpoint's buffer, cursor and event trace. -/
theorem dcUnpack_cases (u : DepthUnit) (s : State) :
    ∃ act cur evs, dcUnpack u s = { s with depth := { s.depth with active := act, cursor := cur, events := evs } } ∧
      act.map (·.buf) = s.depth.active.map (·.buf) ∧
      ((∀ ab ∈ s.depth.active, Memory.wf ab.mem) → ∀ ab ∈ act, Memory.wf ab.mem) ∧
      (s.depth.cursor ≤ s.depth.imageSize → cur ≤ s.depth.imageSize) := by
  obtain ⟨act, cur, evs, e, h⟩ :=
    foldl_bufWrite_frame (unitSample s.dc.lut u) (List.range Config.codesPerUnit) s.depth
  exact ⟨act, cur, evs, by rw [dcUnpack, e], h⟩

/-- One payload byte keeps the carry below a whole unit. -/
theorem dcByte_carryLen {s : State} {b : Byte} (h : s.dc.carryLen ≤ 10) : (dcByte s b).dc.carryLen ≤ 10 := by
  unfold dcByte
  simp only []
  split
  · simp [dcUnpack]
  · rename_i hne
    have : s.dc.carryLen + 1 ≠ 11 := hne
    show s.dc.carryLen + 1 ≤ 10
    omega

/-! ### Colour -/

/-- The channel of each cycle position (R41). -/
theorem chCycle_cases (pos : BitVec 2) :
    (pos = 0 ∧ Config.chCycle pos = 0) ∨ (pos = 2 ∧ Config.chCycle pos = 2) ∨
    ((pos = 1 ∨ pos = 3) ∧ Config.chCycle pos = 1) := by
  revert pos; decide

/-- A sample below the line's end. -/
theorem advance_of_ne {cl : Cl} {w : Nat} {v : Byte} (h : cl.lineCnt + 1 ≠ 2 * w) :
    cl.advance w v = { cl with last := cl.last.set cl.channel v, pos := cl.pos + 1, lineCnt := cl.lineCnt + 1 } := by
  simp [Cl.advance, lineDone, h]

/-- A sample that closes the line. -/
theorem advance_of_eq {cl : Cl} {w : Nat} {v : Byte} (h : cl.lineCnt + 1 = 2 * w) :
    cl.advance w v = { cl with last := clearedPredictors, pos := cl.pos + 1, lineCnt := 0 } := by
  simp [Cl.advance, lineDone, h]

/-- A sample neither opens nor closes a literal. -/
@[simp] theorem advance_lit (cl : Cl) (w : Nat) (v : Byte) : (cl.advance w v).lit = cl.lit := by
  unfold Cl.advance; simp only []; split <;> rfl

/-- CL.EMIT keeps a held buffer held. -/
@[simp] theorem clEmit_holdsBuffer (v : Byte) (s : State) : (clEmit v s).color.holdsBuffer = s.color.holdsBuffer :=
  bufWrite_holdsBuffer ..

/-- Every nibble keeps a held buffer held. -/
@[simp] theorem clNib_holdsBuffer (s : State) (n : Nib) : (clNib s n).color.holdsBuffer = s.color.holdsBuffer := by
  unfold clNib
  split
  · rfl
  · exact clEmit_holdsBuffer ..
  · split
    · exact clEmit_holdsBuffer ..
    · split <;> rfl

/-! ### Reassembler -/

/-- The hooks do nothing on an endpoint that holds no buffer (R214, R252, R284). -/
theorem codec_noop {e : Endpoint} {s : State} (h : (s.ep e).holdsBuffer = false) (bytes : List Byte) :
    codecStart e s = s ∧ codecData e bytes s = s ∧ codecEnd e s = s := by
  cases e with
  | depth => simp [codecStart, codecData, codecEnd, Config.codec, dcStart, dcData, dcEnd, show s.depth.holdsBuffer = false from h]
  | color =>
    have hn : s.color.active = none := by simpa [Ep.holdsBuffer] using h
    have hc : s.color.complete .ok = s.color := by simp [Ep.complete, hn]
    simp [codecStart, codecData, codecEnd, Config.codec, clStart, clData, clEnd, show s.color.holdsBuffer = false from h, hc]

/-- The gap test of R209. -/
theorem seqGap_iff (last seq : Half) : seqGap last seq = true ↔ seq ≠ last + 1 := by
  simp [seqGap, expectedSeq]

/-- RA.CONT changes the flag, the tracker and the event trace only. -/
theorem continuation_cases (ep : Ep) (seq : Half) :
    (seq = ep.lastSeq + 1 ∧ ep.continuation seq = { ep with lastSeq := seq }) ∨
    (seq ≠ ep.lastSeq + 1 ∧ ep.continuation seq =
      { ep with corrupt := true, lastSeq := seq, events := ep.events ++ [.loss (ep.lastSeq + 1) seq] }) := by
  by_cases h : seq = ep.lastSeq + 1
  · left; exact ⟨h, by simp [Ep.continuation, seqGap, expectedSeq, h]⟩
  · right
    refine ⟨h, ?_⟩
    rw [Ep.continuation, if_pos ((seqGap_iff _ _).2 h)]
    rfl

/-- RA.DISABLE leaves nothing held (R216). -/
theorem disable_heldIds (ep : Ep) : ep.disable.heldIds = [] := by
  unfold Ep.disable
  rcases complete_cases { ep with enabled := false } .cancelled with ⟨h, e⟩ | ⟨ab, h, e⟩ <;>
    (rw [e]; simp [Ep.heldIds, Ep.drain]; try exact h)

end Sys2Proof.Machine
end

