-- ==== Sys2Proof/Tests/Slice0.lean ====
section
/-! SUPPORT. Tests of the model, every expected value taken from spec/95_test_vectors.md (section named at each test) or from
the example of the rule named, and witnesses that the statements' hypotheses can be met. -/

namespace Sys2Proof.Tests

open Sys2Proof.Machine Sys2Proof.Safety

set_option maxRecDepth 20000

/-! ### Helpers -/

/-- What `f` reads in the state after an operation; none where the operation does not go on. -/
def after {α : Type} (i : Instr) (s : State) (f : State → α) : Option α :=
  match exec i s with
  | .next t => some (f t)
  | .fault _ => none
  | .refused _ => none

/-- The refusal an operation answers with, if it does. -/
def refusal (i : Instr) (s : State) : Option Refusal :=
  match exec i s with
  | .next _ => none
  | .fault _ => none
  | .refused r => some r

/-- The bytes of a buffer below `n`. -/
def image (m : Memory) (n : Nat) : List (Option Byte) := (List.range n).map m.read

/-- Two buffers of one endpoint. -/
def bufA : Buf := { id := 1, cap := 64 }
def bufB : Buf := { id := 2, cap := 64 }

/-- An endpoint enabled with a format: width 4, image size `n`, two buffers queued. -/
def readyEp (n : Nat) (first : Nat) : Ep :=
  { Ep.reset with
    enabled := true, fmtSet := true, imageSize := n, imageWidth := 4, bytesPerLine := 8
    avail := [{ bufA with id := first }, { bufB with id := first + 1 }], nowAnswers := [1001, 1002] }

/-- The same with the first buffer held. -/
def heldEp (n : Nat) (first : Nat) : Ep :=
  { readyEp n first with
    active := some { buf := { bufA with id := first }, mem := [] }, avail := [{ bufB with id := first + 1 }] }

/-- Both endpoints enabled and idle, a small table, capture times to come. -/
def ready : State :=
  { State.reset with
    color := readyEp 16 1
    depth := readyEp 64 3
    dc := { State.reset.dc with lut := [(1, 0x0102), (2, 3), (7, 0xFFFE)], lutValid := true } }

/-- The same with a buffer held on each endpoint. -/
def held : State := { ready with color := heldEp 16 1, depth := heldEp 64 3 }

/-- `held` with another depth endpoint, another colour codec. -/
def withDepth (f : Ep → Ep) : State := { held with depth := f held.depth }
def withCl (cl : Cl) : State := { held with cl := cl }

/-- The state in which the device gives these answers, request ID `id`. -/
def device (id : Half) (rs : List (List Byte)) : State :=
  { State.reset with
    cc := { State.reset.cc with reqId := id }
    env := { State.reset.env with writeAnswers := List.replicate 9 true, readAnswers := rs.map some } }

/-- The request of section 2.10, its ID not yet stamped; the replies RPL(3, 6, 0, -) and RPL(3, 7, 0, -). -/
def req210 : List Byte := [0x47, 0x4D, 0x02, 0x00, 0x03, 0x00, 0x00, 0x00, 0x05, 0x00, 0x01, 0x00]
def rpl6 : List Byte := [0x52, 0x42, 0x01, 0x00, 0x03, 0x00, 0x06, 0x00, 0x00, 0x00]
def rpl7 : List Byte := [0x52, 0x42, 0x01, 0x00, 0x03, 0x00, 0x07, 0x00, 0x00, 0x00]

/-- The version payload, the selector and the calibration of sections 2.11, P3 and 2.5. -/
def version586 : List Byte := [5, 8, 0x42, 6, 1, 2, 3, 4, 5, 6, 7, 8]
def selP3 : List Byte := [1, 0, 2, 0, 3, 0, 4, 0]
def cal25 : Cal := { dcl := 0x40F00000, pix := 0x3DD566CF, dsr := 0x42F00000, p4 := 0x44480000 }

/-! ### WellFormed: each check refuses -/

theorem test_wf_request_size : wellFormed Cfg.default (.ccXfer (req210.dropLast) true 512) = false := by decide
theorem test_wf_reply_short : wellFormed Cfg.default (.ccXfer req210 true 9) = false := by decide
theorem test_wf_reply_long : wellFormed Cfg.default (.ccXfer req210 true 513) = false := by decide
theorem test_wf_reply_width : wellFormed Cfg.default (.ccXfer req210 false (2 ^ 32)) = false := by decide
theorem test_wf_selector : wellFormed Cfg.default (.ccGetAlgo [1, 2]) = false := by decide
theorem test_wf_init_selector : wellFormed Cfg.default (.ccInit (selP3 ++ [0])) = false := by decide
theorem test_wf_buffer_id : wellFormed Cfg.default (.bqEnqueue .depth { id := 2 ^ 32, cap := 0 }) = false := by decide
theorem test_wf_buffer_cap : wellFormed Cfg.default (.bqEnqueue .depth { id := 0, cap := 2 ^ 32 }) = false := by decide
theorem test_wf_format : wellFormed Cfg.default (.fmtSet .depth 4 8 8 (2 ^ 32)) = false := by decide
theorem test_wf_delta : wellFormed Cfg.default (.clDelta 13) = false := by decide
theorem test_wf_skip : wellFormed Cfg.default (.clSkip 12) = false ∧ wellFormed Cfg.default (.clSkip 15) = false := by decide

/-! ### Decoding, the operands written out from their encodings -/

/-- R119: minifloat words, least significant byte first. -/
theorem test_decode_minifloat :
    decode Cfg.default [0, 10, 0, 0, 0] = .ok (.mfU2f 10)
      ∧ decode Cfg.default [1, 0x00, 0x00, 0xC0, 0x3F, 0x00, 0x00, 0x20, 0x40] = .ok (.mfMul 0x3FC00000 0x40200000)
      ∧ decode Cfg.default [2, 0x00, 0x00, 0x40, 0x40, 0x00, 0x00, 0xA0, 0xC0] = .ok (.mfAdd 0x40400000 0xC0A00000)
      ∧ decode Cfg.default [3, 0x00, 0x00, 0xE0, 0x40, 0x00, 0x00, 0x00, 0x40] = .ok (.mfDiv 0x40E00000 0x40000000) := by
  decide

/-- The requests of P3 (R102, R106 to R108), before their IDs are stamped. -/
theorem test_decode_requests :
    decode Cfg.default [5, 0x47, 0x4D, 0x00, 0x00, 0x00, 0x00, 0x00, 0x00] = .ok .ccGetVersion
      ∧ decode Cfg.default [6, 0x47, 0x4D, 0x01, 0x00, 0x04, 0x00, 0x02, 0x00, 0x00, 0x00] = .ok .ccGetFixed
      ∧ decode Cfg.default
          [7, 0x47, 0x4D, 0x05, 0x00, 0x16, 0x00, 0x06, 0x00, 0x01, 0x00, 0x02, 0x00, 0x03, 0x00, 0x04, 0x00, 0x00, 0x00]
          = .ok (.ccGetAlgo [1, 0, 2, 0, 3, 0, 4, 0])
      ∧ decode Cfg.default [8, 0x47, 0x4D, 0x00, 0x00, 0x25, 0x00, 0x05, 0x00] = .ok .ccGetSerial
      ∧ decode Cfg.default [9, 0x47, 0x4D, 0x02, 0x00, 0x03, 0x00, 0x07, 0x00, 0x05, 0x00, 0x01, 0x00]
          = .ok (.ccSetParam 0x0005 0x0001)
      ∧ decode Cfg.default [10, 0x47, 0x4D, 0x01, 0x00, 0x06, 0x00, 0x01, 0x00, 0x01, 0x00] = .ok .ccReset
      ∧ decode Cfg.default ([4, 1, 0x00, 0x02, 0x00, 0x00] ++ req210) = .ok (.ccXfer req210 true 512)
      ∧ decode Cfg.default [11, 1, 0, 2, 0, 3, 0, 4, 0] = .ok (.ccInit [1, 0, 2, 0, 3, 0, 4, 0]) := by
  decide

/-- The reassembler's operations: the endpoint byte, then the operand. -/
theorem test_decode_reassembler :
    decode Cfg.default [12, 1] = .ok (.raEnable .depth) ∧ decode Cfg.default [13, 0] = .ok (.raDisable .color)
      ∧ decode Cfg.default [14, 1, 2, 0, 0, 0, 64, 0, 0, 0] = .ok (.bqEnqueue .depth { id := 2, cap := 64 })
      ∧ decode Cfg.default [15, 1, 0x80, 2, 0, 0, 0xE0, 1, 0, 0, 0, 5, 0, 0, 0, 0x60, 9, 0]
          = .ok (.fmtSet .depth 640 480 1280 614400)
      ∧ decode Cfg.default [16, 0, 0x52, 0x42] = .ok (.raChunk .color [0x52, 0x42])
      ∧ decode Cfg.default [17, 1, 0xAA] = .ok (.raByte .depth 0xAA)
      ∧ decode Cfg.default [18, 1, 0x52] = .ok (.raSeek1 .depth 0x52)
      ∧ decode Cfg.default [19, 1, 0x42] = .ok (.raSeek2 .depth 0x42) ∧ decode Cfg.default [20, 0, 7] = .ok (.raHdr .color 7)
      ∧ decode Cfg.default [21, 1] = .ok (.raHdrdone .depth) ∧ decode Cfg.default [22, 1] = .ok (.raStart .depth)
      ∧ decode Cfg.default [23, 1, 0x07, 0x01] = .ok (.raCont .depth 0x0107)
      ∧ decode Cfg.default [24, 0, 0xDD] = .ok (.raPay .color 0xDD) ∧ decode Cfg.default [25, 1] = .ok (.raPktdone .depth) := by
  decide

/-- The codecs' operations; the unit is R248's example, the nibbles R117's codes. -/
theorem test_decode_codecs :
    decode Cfg.default [26] = .ok .lutBuild ∧ decode Cfg.default [27] = .ok .dcStart
      ∧ decode Cfg.default [28, 1, 2, 3] = .ok (.dcData [1, 2, 3])
      ∧ decode Cfg.default [29, 0x00, 0x00, 0x04, 0x01, 0x00, 0x30, 0x08, 0x01, 0x40, 0x30, 0x07]
          = .ok (.dcUnpack 0x0000040100300801403007)
      ∧ decode Cfg.default [30] = .ok .dcEnd ∧ decode Cfg.default [31] = .ok .clStart
      ∧ decode Cfg.default [32, 0x6F, 0x80] = .ok (.clData [0x6F, 0x80]) ∧ decode Cfg.default [33, 6] = .ok (.clNib 6)
      ∧ decode Cfg.default [34, 12] = .ok (.clDelta 12) ∧ decode Cfg.default [35, 13] = .ok (.clSkip 13)
      ∧ decode Cfg.default [36, 15] = .ok .clLit ∧ decode Cfg.default [37, 8] = .ok (.clLithi 8)
      ∧ decode Cfg.default [38, 0] = .ok (.clLitlo 0) ∧ decode Cfg.default [39, 0x80] = .ok (.clEmit 0x80)
      ∧ decode Cfg.default [40] = .ok .clEnd := by
  decide

/-- R102, R104: a request with the wrong sync marker, opcode or size, and a short one, are rejected by name. -/
theorem test_decode_rejects_requests :
    decode Cfg.default [8, 0x52, 0x42, 0x00, 0x00, 0x25, 0x00, 0x05, 0x00] = .error (.badSync 8)
      ∧ decode Cfg.default [8, 0x47, 0x4D, 0x00, 0x00, 0x24, 0x00, 0x05, 0x00] = .error (.badOpcode 8)
      ∧ decode Cfg.default [8, 0x47, 0x4D, 0x01, 0x00, 0x25, 0x00, 0x05, 0x00] = .error (.badSize 8)
      ∧ decode Cfg.default [8, 0x47, 0x4D, 0x00, 0x00, 0x25, 0x00, 0x05] = .error (.operandLength 8)
      ∧ decode Cfg.default [34, 13] = .error (.illFormed 34) ∧ decode Cfg.default [12, 2] = .error (.operandValue 12)
      ∧ decode Cfg.default [41] = .error (.unknownSelector 41) ∧ decode Cfg.default [] = .error .empty := by
  decide

/-- R117, R114, R102, R110: bare table rows. -/
theorem test_decode_table :
    decodeTableWord 4 0xD = some (.clSkip 13) ∧ decodeTableWord 8 0xC = some (.clDelta 12)
      ∧ decodeTableWord 88 0x0730400108300001040000 = some (.dcUnpack 0x0000040100300801403007)
      ∧ decodeTableWord 64 0x0000002500004D47 = some .ccGetSerial
      ∧ decodeTableWord 96 0x000200030C00000071004252 = some (.raStart .depth)
      ∧ decodeTableWord 96 0x000000000C00000782004252 = some (.raCont .depth 0x0007) := by
  decide

/-! ### Minifloat (sections 2.1 to 2.5, R147) -/

theorem test_u2f_ten : after (.mfU2f 10) State.reset (·.results) = some [.word 0x41200000] := by decide
theorem test_u2f_largest : after (.mfU2f 65535) State.reset (·.results) = some [.word 0x477FFF00] := by decide
theorem test_mul_truncates : after (.mfMul 0x3FC00001 0x3FC00001) State.reset (·.results) = some [.word 0x40100001] := by
  decide
theorem test_mul_negative : after (.mfMul 0xC0400000 0x40E00000) State.reset (·.results) = some [.word 0xC1A80000] := by
  decide
theorem test_add_drops_aligned_bits :
    after (.mfAdd 0x3F800000 0xBF7FFFFF) State.reset (·.results) = some [.word 0x34000000] := by decide
theorem test_add_carries : after (.mfAdd 0x4B7FFFFF 0x3F800000) State.reset (·.results) = some [.word 0x4B800000] := by
  decide
theorem test_div_toward_zero : after (.mfDiv 0xC0E00000 0x40000000) State.reset (·.results) = some [.int (-3)] := by decide
theorem test_div_large : after (.mfDiv 0x4EFFFFFF 0x3F800000) State.reset (·.results) = some [.int 2147483520] := by decide

/-! ### Control channel (sections 2.10, 2.11, P3) -/

theorem test_xfer_tenth_reply :
    after (.ccXfer req210 true 512) (device 7 (List.replicate 9 rpl6 ++ [rpl7]))
        (fun t => (t.results, t.env.sent, t.env.reads, t.cc.reqId))
      = some ([.reply rpl7], [[0x47, 0x4D, 0x02, 0x00, 0x03, 0x00, 0x07, 0x00, 0x05, 0x00, 0x01, 0x00]], 10, 8) := by decide
theorem test_xfer_length_before_sync :
    after (.ccXfer req210 true 512) (device 7 [[0x47, 0x4D, 0x01, 0x00]]) (fun t => (t.results, t.cc.events, t.cc.lock))
      = some ([.error (.protocol .short)], [.protocol .short], false) := by decide
theorem test_get_version :
    after .ccGetVersion (device 0 [[0x52, 0x42, 7, 0, 0, 0, 0, 0, 0, 0] ++ version586]) (fun t => t.dh.version)
      = some { major := 5, minor := 8, build := 642, rest := [1, 2, 3, 4, 5, 6, 7, 8] } := by decide
theorem test_get_version_old :
    after .ccGetVersion (device 0 [[0x52, 0x42, 7, 0, 0, 0, 0, 0, 0, 0, 4, 2, 0x23, 1, 0, 0, 0, 0, 0, 0, 0, 0]])
      (fun t => t.dh.version.build) = some 291 := by decide
theorem test_get_fixed_short_read :
    after .ccGetFixed
        (device 2
          [[0x52, 0x42, 3, 0, 4, 0, 2, 0, 0, 0, 0x11, 0x22, 0x33, 0x44], [0x52, 0x42, 3, 0, 4, 0, 3, 0, 0, 0, 0x55, 0x66, 0x77, 0x88],
            [0x52, 0x42, 1, 0, 4, 0, 4, 0, 0, 0]])
        (fun t => (t.dh.fixed, t.dh.fixedLen, t.env.sent.getLast?))
      = some ([0x11, 0x22, 0x33, 0x44, 0x55, 0x66, 0x77, 0x88], 8, some [0x47, 0x4D, 1, 0, 4, 0, 4, 0, 4, 0]) := by decide
theorem test_get_algo :
    after (.ccGetAlgo selP3) (device 6 [[0x52, 0x42, 2, 0, 0x16, 0, 6, 0, 0, 0, 0xA0, 0xA1]])
        (fun t => (t.dh.algo, t.dh.algoLen, t.env.sent))
      = some ([0xA0, 0xA1], 2, [[0x47, 0x4D, 5, 0, 0x16, 0, 6, 0, 1, 0, 2, 0, 3, 0, 4, 0, 0, 0]]) := by decide
theorem test_get_serial :
    after .ccGetSerial (device 5 [[0x52, 0x42, 3, 0, 0x25, 0, 5, 0, 0, 0, 0x31, 0x32, 0x33, 0x34]]) (fun t => t.dh.serial)
      = some [0x31, 0x32, 0x33, 0x34, 0] := by decide
theorem test_set_param_status :
    after (.ccSetParam 5 1) (device 7 [[0x52, 0x42, 1, 0, 3, 0, 7, 0, 2, 0]]) (fun t => (t.results, t.cc.events))
      = some ([.error (.protocol (.status 2))], [.protocol (.status 2)]) := by decide
theorem test_set_param_timeout :
    after (.ccSetParam 5 1) (device 7 (List.replicate 11 rpl6)) (fun t => (t.results, t.env.reads, t.cc.events))
      = some ([.error .timeout], 10, []) := by decide
theorem test_reset_device :
    after .ccReset (device 1 [[0x52, 0x42, 1, 0, 6, 0, 1, 0, 0, 0]]) (fun t => (t.results, t.env.sent))
      = some ([.ok], [[0x47, 0x4D, 1, 0, 6, 0, 1, 0, 1, 0]]) := by decide
theorem test_init_firmware_floor :
    after (.ccInit selP3) (device 0 [[0x52, 0x42, 7, 0, 0, 0, 0, 0, 0, 0, 4, 2, 0x23, 1, 0, 0, 0, 0, 0, 0, 0, 0]])
      (fun t => (t.results, t.env.sent.length)) = some ([.initFailed .firmwareTooOld], 1) := by decide
/-- P3, stimulus 1. -/
theorem test_init_p3 :
    after (.ccInit selP3)
        (device 0
          [[0x52, 0x42, 7, 0, 0, 0, 0, 0, 0, 0] ++ version586, [0x52, 0x42, 7, 0, 0, 0, 0, 0, 0, 0] ++ version586,
            [0x52, 0x42, 1, 0, 6, 0, 1, 0, 0, 0], [0x52, 0x42, 3, 0, 4, 0, 2, 0, 0, 0, 0x11, 0x22, 0x33, 0x44],
            [0x52, 0x42, 3, 0, 4, 0, 3, 0, 0, 0, 0x55, 0x66, 0x77, 0x88], [0x52, 0x42, 1, 0, 4, 0, 4, 0, 0, 0],
            [0x52, 0x42, 3, 0, 0x25, 0, 5, 0, 0, 0, 0x31, 0x32, 0x33, 0x34], [0x52, 0x42, 2, 0, 0x16, 0, 6, 0, 0, 0, 0xA0, 0xA1]])
        (fun t => (t.results, t.cc.reqId, t.env.sent.length, t.env.reads, t.dh.fixedLen)) = some ([.ok], 7, 7, 8, 8) := by
  decide

/-! ### Reassembler (section 2.9, the rules' examples) -/

theorem test_enable_clears : after (.raEnable .depth) { ready with depth := { readyEp 64 3 with enabled := false, rstate := .hdr, hdrFill := 5, byteCount := 9 } }
    (fun t => (t.depth.rstate, t.depth.hdrFill, t.depth.byteCount, t.depth.avail.length)) = some (.seek1, 0, 0, 2) := by decide
theorem test_enable_twice : refusal (.raEnable .depth) ready = some .enableWhileEnabled := by decide
theorem test_disable_releases :
    after (.raDisable .depth) (withDepth fun ep => { ep with cursor := 100, ts := 9, frameCount := 3 })
        (fun t => t.depth.completed.map fun c => (c.buf.id, c.bytes, c.status, c.ts, c.seq))
      = some [(3, 100, .cancelled, 9, 3), (4, 0, .cancelled, 0, 0)] := by decide
theorem test_enqueue : after (.bqEnqueue .depth { id := 9, cap := 64 }) ready (fun t => t.depth.avail.map (·.id)) = some [3, 4, 9] := by
  decide
theorem test_enqueue_small : refusal (.bqEnqueue .depth { id := 9, cap := 63 }) ready = some .bufferTooSmall := by decide
theorem test_format : after (.fmtSet .depth 640 480 1280 614400) State.reset
    (fun t => (t.depth.imageWidth, t.depth.bytesPerLine, t.depth.imageSize)) = some (640, 1280, 614400) := by decide
theorem test_chunk_resync : after (.raChunk .depth [0x52, 0x52, 0x42]) ready
    (fun t => (t.depth.rstate, t.depth.hdrFill, t.depth.byteCount)) = some (.hdr, 2, 3) := by decide
theorem test_chunk_gap :
    after (.raChunk .depth [0x52, 0x42, 0x00, 0x72, 5, 0, 0, 0x0F, 0, 0, 0, 0, 1, 2, 3]) ready
        (fun t => (t.depth.corrupt, t.depth.events, t.depth.lastSeq, t.depth.rstate)) = some (true, [.loss 1 5], 5, .seek1) := by
  decide
theorem test_byte_counts : after (.raByte .depth 0xAA) ready (fun t => (t.depth.byteCount, t.depth.rstate)) = some (1, .seek1) := by
  decide
theorem test_seek1 : after (.raSeek1 .depth 0x52) ready (fun t => t.depth.rstate) = some .seek2 := by decide
theorem test_seek2_reexamines : after (.raSeek2 .depth 0x52) (withDepth fun ep => { ep with rstate := .seek2 })
    (fun t => t.depth.rstate) = some .seek2 := by decide
theorem test_seek2_marker : after (.raSeek2 .depth 0x42) (withDepth fun ep => { ep with rstate := .seek2 })
    (fun t => (t.depth.rstate, t.depth.hdrFill, t.depth.hdr[0], t.depth.hdr[1])) = some (.hdr, 2, 0x52, 0x42) := by decide
theorem test_hdr_stores : after (.raHdr .color 0x77) { held with color := { held.color with rstate := .hdr, hdrFill := 2 } }
    (fun t => (t.color.hdr[2], t.color.hdrFill, t.color.rstate)) = some (0x77, 3, .hdr) := by decide

/-- The header of R207's example: `52 42 00 71 00 00 00 0C 03 00 02 00`. -/
def hdr207 : Vector Byte 12 := #v[0x52, 0x42, 0x00, 0x71, 0, 0, 0, 0x0C, 3, 0, 2, 0]

theorem test_hdrdone_r207 :
    after (.raHdrdone .depth) { ready with depth := { readyEp 64 3 with hdr := hdr207, hdrFill := 12, rstate := .hdr } }
        (fun t => (t.depth.lastSeq, t.depth.padStart, t.depth.padEnd, t.depth.frameCount, t.depth.remaining))
      = some (0, 2, 3, 1, 0) := by decide
/-- Section 2.9: declared 5 is below 12. -/
theorem test_hdrdone_declared_small :
    after (.raHdrdone .depth)
        { ready with depth := { readyEp 64 3 with hdr := #v[0x52, 0x42, 0, 0x72, 1, 0, 0, 5, 0, 0, 0, 0], hdrFill := 12, rstate := .hdr } }
        (fun t => (t.depth.remaining, t.depth.rstate, t.depth.pktCount, t.depth.lastSeq, t.depth.corrupt))
      = some (0, .seek1, 1, 1, false) := by decide
theorem test_start_acquires :
    after (.raStart .depth) { ready with depth := { readyEp 64 3 with hdr := hdr207 } }
        (fun t => (t.depth.active.map (·.buf.id), t.depth.ts, t.depth.cursor)) = some (some 3, 1001, 4) := by decide
theorem test_start_no_buffer :
    after (.raStart .depth) { ready with depth := { readyEp 64 3 with hdr := hdr207, avail := [] } }
        (fun t => (t.depth.active, t.depth.events, t.depth.frameCount)) = some (none, [.noBuffer], 1) := by decide
theorem test_cont_gap : after (.raCont .depth 7) (withDepth fun ep => { ep with lastSeq := 5 })
    (fun t => (t.depth.corrupt, t.depth.events, t.depth.lastSeq)) = some (true, [.loss 6 7], 7) := by decide
theorem test_cont_wraps : after (.raCont .depth 0) (withDepth fun ep => { ep with lastSeq := 0xFFFF })
    (fun t => (t.depth.corrupt, t.depth.events, t.depth.lastSeq)) = some (false, [], 0) := by decide
theorem test_pay_forwards : after (.raPay .depth 0xAB) (withDepth fun ep => { ep with rstate := .payload, remaining := 4 })
    (fun t => (t.dc.carry[0], t.dc.carryLen, t.depth.remaining)) = some (0xAB, 1, 3) := by decide
theorem test_pay_corrupt : after (.raPay .depth 0xAB) (withDepth fun ep => { ep with rstate := .payload, remaining := 1, corrupt := true })
    (fun t => (t.dc.carryLen, t.depth.remaining, t.depth.rstate)) = some (0, 0, .seek1) := by decide
/-- R211's example: an end packet with `cursor = 20`, here with `pad_end = 3`. -/
theorem test_pktdone_completes :
    after (.raPktdone .depth) (withDepth fun ep => { ep with ptype := 0x7500, cursor := 20, padEnd := 3, ts := 8, frameCount := 2 })
        (fun t => t.depth.completed.map fun c => (c.buf.id, c.bytes, c.status, c.ts, c.seq)) = some [(3, 26, .ok, 8, 2)] := by
  decide
theorem test_pktdone_corrupt :
    after (.raPktdone .depth) (withDepth fun ep => { ep with ptype := 0x7500, corrupt := true })
        (fun t => (t.depth.completed, t.depth.active.map (·.buf.id), t.depth.rstate)) = some ([], some 3, .seek1) := by decide

/-! ### Depth (sections 2.5 to 2.7) -/

theorem test_lut_entry_800 : lutEntry Cfg.default 800 cal25 = 1193 := by decide
theorem test_lut_entry_cutoff :
    lutEntry Cfg.default 1054 cal25 = 9757 ∧ lutEntry Cfg.default 1055 cal25 = 0 ∧ lutEntry Cfg.default 1090 cal25 = 0 := by
  decide
theorem test_dc_start_clips :
    after .dcStart (withDepth fun ep => { ep with imageSize := 4, padStart := 3 })
        (fun t => (t.depth.cursor, t.depth.events, (List.range 5).map (bufByte t .depth)))
      = some (4, [.overflow 2], [some 0, some 0, some 0, some 0, none]) := by decide
theorem test_dc_data_two_units :
    after (.dcData (List.replicate 25 0)) held (fun t => (t.dc.carryLen, t.depth.cursor)) = some (3, 32) := by decide
/-- The unit of R248's example holds the codes 0 to 7. -/
theorem test_dc_unpack :
    after (.dcUnpack 0x0000040100300801403007) held
        (fun t => ((List.range 6).map (bufByte t .depth), bufByte t .depth 14, bufByte t .depth 15, t.depth.cursor))
      = some ([some 0, some 0, some 2, some 1, some 3, some 0], some 0xFE, some 0xFF, 16) := by decide
theorem test_dc_unpack_clips :
    after (.dcUnpack 0) (withDepth fun ep => { ep with imageSize := 5, cursor := 4 }) (fun t => (t.depth.cursor, t.depth.events))
      = some (5, [.overflow 1, .overflow 2, .overflow 2, .overflow 2, .overflow 2, .overflow 2, .overflow 2, .overflow 2]) := by
  decide
theorem test_dc_end : after .dcEnd { withDepth fun ep => { ep with cursor := 20, padEnd := 3 } with dc := { held.dc with carryLen := 3 } }
    (fun t => (t.dc.carryLen, t.depth.completed.map (·.bytes), t.depth.active)) = some (0, [26], none) := by decide

/-! ### Colour (section 2.8) -/

theorem test_cl_start : after .clStart (withCl { last := #v[1, 2, 3], pos := 3, lit := .wantLo, litHi := 5, lineCnt := 7 })
    (fun t => (t.cl.last, t.cl.pos, t.cl.lit, t.cl.lineCnt)) = some (#v[0, 0, 0], 0, .none, 0) := by decide
theorem test_cl_data_straddle : after (.clData [0xF8, 0x06]) held
    (fun t => (bufByte t .color 0, bufByte t .color 1, t.cl.last, t.cl.pos)) = some (some 0x80, some 0, #v[0x80, 0, 0], 2) := by
  decide
theorem test_cl_data_overflow : after (.clData [0xC6]) { held with color := { held.color with imageSize := 1 } }
    (fun t => (t.color.events, t.cl.last, t.cl.pos, t.cl.lineCnt)) = some ([.overflow 1], #v[6, 0, 0], 2, 2) := by decide
theorem test_cl_nib_inside_literal : after (.clNib 15) (withCl { State.reset.cl with lit := .wantHi })
    (fun t => (t.cl.lit, t.cl.litHi)) = some (.wantLo, 15) := by decide
theorem test_cl_delta_wraps : after (.clDelta 0) held (fun t => (bufByte t .color 0, t.cl.last[0])) = some (some 0xFA, 0xFA) := by
  decide
theorem test_cl_skip : after (.clSkip 13) held (fun t => (t.cl, t.color.cursor)) = some (held.cl, 0) := by decide
theorem test_cl_lit : after .clLit held (fun t => t.cl.lit) = some .wantHi := by decide
theorem test_cl_lithi : after (.clLithi 1) held (fun t => (t.cl.lit, t.cl.litHi)) = some (.wantLo, 1) := by decide
theorem test_cl_litlo : after (.clLitlo 2) (withCl { State.reset.cl with lit := .wantLo, litHi := 1 })
    (fun t => (bufByte t .color 0, t.cl.lit)) = some (some 0x12, .none) := by decide
theorem test_cl_emit_line_end :
    after (.clEmit 0x12) (withCl { last := #v[0x7E, 0x18, 0x85], pos := 3, lit := .none, litHi := 0, lineCnt := 7 })
        (fun t => (t.cl.last, t.cl.pos, t.cl.lineCnt)) = some (#v[0, 0, 0], 0, 0) := by decide
theorem test_cl_end : after .clEnd { held with color := { held.color with cursor := 16, ts := 7, frameCount := 1 } }
    (fun t => t.color.completed.map fun c => (c.buf.id, c.bytes, c.status, c.ts, c.seq)) = some [(1, 16, .ok, 7, 1)] := by decide
/-- R285's example: the first bytes of the encoding of `80 10 80 12`. -/
theorem test_encoder : encodeColour 4 State.reset.cl [0x80, 0x10, 0x80, 0x12] = [0xF8, 0x0F, 0x10, 0xF8, 0x08] := by decide

/-! ### The step -/

theorem test_step_from_fetch : (match step (State.reset.withFetchWord 4 15) with
    | .next t => t.cl.lit
    | .fault _ => .none
    | .refused _ => .none) = .wantHi := by decide

/-- R86, with R173's example: between two rounds of a paged read falls another caller's CC.SET_PARAM, so that the read's
requests carry the IDs 2 and 4. -/
theorem test_rounds_interleave :
    let s := { device 2
        [[0x52, 0x42, 3, 0, 4, 0, 2, 0, 0, 0, 0x11, 0x22, 0x33, 0x44], [0x52, 0x42, 1, 0, 3, 0, 3, 0, 0, 0],
          [0x52, 0x42, 3, 0, 4, 0, 4, 0, 0, 0, 0x55, 0x66, 0x77, 0x88]] with
      calls := [.getFixed [] 0] }
    let u := ((s.resume 0).env.sent, (s.resume 0).calls)
    let v := after (.ccSetParam 5 1) (s.resume 0) fun t => ((t.resume 0).env.sent.drop 2, (t.resume 0).calls)
    u = ([[0x47, 0x4D, 1, 0, 4, 0, 2, 0, 0, 0]], [.getFixed [0x11, 0x22, 0x33, 0x44] 2])
      ∧ v = some ([[0x47, 0x4D, 1, 0, 4, 0, 4, 0, 2, 0]], [.getFixed [0x11, 0x22, 0x33, 0x44, 0x55, 0x66, 0x77, 0x88] 4]) := by
  decide

/-- R86 and R178: a bring-up resumed twice reads the version, then sends R177's request, and stands before the fixed
block. -/
theorem test_init_rounds :
    let s := { device 0 [[0x52, 0x42, 7, 0, 0, 0, 0, 0, 0, 0] ++ version586, [0x52, 0x42, 1, 0, 6, 0, 1, 0, 0, 0]] with
      calls := [.init selP3 0 .version] }
    let t := (s.resume 0).resume 0
    (t.env.sent, t.calls, t.results)
      = ([[0x47, 0x4D, 0, 0, 0, 0, 0, 0], [0x47, 0x4D, 1, 0, 6, 0, 1, 0, 1, 0]], [.init selP3 0 (.fixed [] 0)], []) := by
  decide

/-! ### Witnesses: the hypotheses of each statement, met by a concrete state and operands -/

/-- A state whose next stimulus is `bytes`. -/
def offered (s : State) (bytes : List Byte) : State := { s with stim := [.op bytes] }

theorem witness_DecodeOfEncodeIsTheOperation :
    Cfg.default.ok = true ∧ wellFormed Cfg.default (.ccXfer req210 true 10) = true
      ∧ wellFormed Cfg.default (.ccXfer req210 true 512) = true
      ∧ wellFormed Cfg.default (.bqEnqueue .depth { id := 2 ^ 32 - 1, cap := 0 }) = true
      ∧ wellFormed Cfg.default (.clDelta 12) = true ∧ wellFormed Cfg.default (.ccGetAlgo selP3) = true := by decide

theorem witness_StepRunsTheDecodedOperation :
    (offered ready [12, 0]).stim = .op [12, 0] :: [] ∧ decode Cfg.default [12, 0] = .ok (.raEnable .color)
      ∧ waits (offered ready [12, 0]) (.raEnable .color) = false
      ∧ decode Cfg.default [41] = .error (.unknownSelector 41)
      ∧ callOf Cfg.default (.raEnable .color) = none ∧ callOf Cfg.default (.ccGetAlgo selP3) = some (.getAlgo selP3 [] 0)
      ∧ callOf Cfg.default (.ccInit selP3) = some (.init selP3 0 .version)
      ∧ decode Cfg.default [6, 0x47, 0x4D, 1, 0, 4, 0, 0, 0, 0, 0] = .ok .ccGetFixed
      ∧ callOf Cfg.default .ccGetFixed = some (.getFixed [] 0) ∧ ready.calls.length ≤ 0 ∧ ready.cc.lock = false := by decide

theorem witness_HeldLockMakesTheCallerWait :
    let bytes : List Byte := [5, 0x47, 0x4D, 0, 0, 0, 0, 0, 0]
    let s := offered { ready with cc := { ready.cc with lock := true } } bytes
    s.stim = .op bytes :: [] ∧ callOf s.cfg .ccGetVersion = none ∧ decode s.cfg bytes = .ok .ccGetVersion
      ∧ isControl .ccGetVersion = true ∧ s.cc.lock = true
      ∧ s.cfg.fixedSize ≠ 0 ∧ s.cfg.algoSize ≠ 0 ∧ s.cfg.initRetries ≠ 0 := by decide

/-- A chunk that starts a depth frame, as the next stimulus of an enabled block. -/
def streaming : State :=
  offered ready [16, 1, 0x52, 0x42, 0x00, 0x71, 0, 0, 0, 0x0D, 3, 0, 2, 0, 0xAA]

theorem witness_EveryStepKeepsTheStreamInvariant : StreamInv streaming ∧ ∃ t, step streaming = .next t :=
  ⟨by unfold StreamInv; decide, _, rfl⟩

theorem witness_EveryStepKeepsTheSessionInvariant :
    SessionInv (offered (device 0 [rpl6]) [5, 0x47, 0x4D, 0, 0, 0, 0, 0, 0])
      ∧ ∃ t, step (offered (device 0 [rpl6]) [5, 0x47, 0x4D, 0, 0, 0, 0, 0, 0]) = .next t :=
  ⟨by unfold SessionInv; decide, _, rfl⟩

theorem witness_EveryStepKeepsTheStorageInvariant : StorageInv streaming ∧ ∃ t, step streaming = .next t := by
  refine ⟨⟨by decide, ?_, ?_⟩, _, rfl⟩
  · intro e ab h; cases e <;> cases h
  · intro e c h; cases e <;> cases h

/-- The domain's two ends, and a zero, a middle and an outside operand of MF.U2F. -/
theorem witness_MfU2fConvertsExactly :
    (65535 : Word).toNat < 2 ^ 16 ∧ 2 ^ 15 ≤ (65535 : Word).toNat ∧ (65535 : Word).toNat < 2 ^ (15 + 1)
      ∧ 2 ^ 0 ≤ (1 : Word).toNat ∧ (1 : Word).toNat < 2 ^ (0 + 1) ∧ 2 ^ 16 ≤ (65536 : Word).toNat := by decide

/-- Both normalisations, an exponent at each end of the domain, and one outside it. -/
theorem witness_MfMulPacksTheTruncatedProduct :
    mfWellFormed 0x80000000 = false
      ∧ (mfWellFormed 0x3FC00000 = true ∧ mfWellFormed 0x40200000 = true ∧ mfMant 0x3FC00000 * mfMant 0x40200000 < 2 ^ 47)
      ∧ (mfWellFormed 0x3FFFFFFF = true ∧ 2 ^ 47 ≤ mfMant 0x3FFFFFFF * mfMant 0x3FFFFFFF)
      ∧ (mfExp 0x7F000000 : Int) + mfExp 0x3F800000 - 127 = 254 ∧ (mfExp 0x00800000 : Int) + mfExp 0x3F800000 - 127 = 1
      ∧ (254 : Int) < (mfExp 0x7F000000 : Int) + mfExp 0x7F000000 - 127 := by decide

/-- A carry, no carry, a cancellation, a renormalisation by 23 places; `d = 23` and `d = 24`. -/
theorem witness_MfAddAlignsAndTruncates :
    (mfMag 0x3F800000 ≤ mfMag 0x3F800000 ∧ mfSign 0x3F800000 = mfSign 0x3F800000
        ∧ 2 ^ 24 ≤ mfMant 0x3F800000 + mfMant 0x3F800000 / 2 ^ 0)
      ∧ (mfMag 0x34000000 ≤ mfMag 0x3F800000 ∧ mfExp 0x3F800000 - mfExp 0x34000000 = 23
        ∧ mfMant 0x3F800000 + mfMant 0x34000000 / 2 ^ 23 < 2 ^ 24)
      ∧ mfExp 0x3F800000 - mfExp 0x33800000 = 24
      ∧ (mfSign 0x3F800000 ≠ mfSign 0xBF800000 ∧ mfMant 0x3F800000 = mfMant 0xBF800000 / 2 ^ 0)
      ∧ (mfSign 0x3F800001 ≠ mfSign 0xBF800000 ∧ 2 ^ 23 ≤ (mfMant 0x3F800001 - mfMant 0xBF800000) * 2 ^ 23
        ∧ (mfMant 0x3F800001 - mfMant 0xBF800000) * 2 ^ 23 < 2 ^ 24)
      ∧ (mfMag 0x3F800000 < mfMag 0xC0A00000) := by decide

theorem mfValue_seven : mfValue 0x40E00000 = 7 := by
  rw [mfValue, if_neg (by decide), if_neg (by decide), show mfMant 0x40E00000 = 14680064 by decide,
    show mfExp 0x40E00000 = 129 by decide]; norm_num
theorem mfValue_two : mfValue 0x40000000 = 2 := by
  rw [mfValue, if_neg (by decide), if_neg (by decide), show mfMant 0x40000000 = 8388608 by decide,
    show mfExp 0x40000000 = 128 by decide]; norm_num
theorem mfValue_one : mfValue 0x3F800000 = 1 := by
  rw [mfValue, if_neg (by decide), if_neg (by decide), show mfMant 0x3F800000 = 8388608 by decide,
    show mfExp 0x3F800000 = 127 by decide]; norm_num
theorem mfValue_two_pow_31 : mfValue 0x4F000000 = 2 ^ 31 := by
  rw [mfValue, if_neg (by decide), if_neg (by decide), show mfMant 0x4F000000 = 8388608 by decide,
    show mfExp 0x4F000000 = 158 by decide]; norm_num

/-- 7 / 2, and the first quotient outside the domain, 2^31 / 1. -/
theorem witness_MfDivTruncatesTheRealQuotient :
    (mfWellFormed 0x40E00000 = true ∧ mfWellFormed 0x40000000 = true ∧ (0x40000000 : Word) ≠ 0
        ∧ |mfValue 0x40E00000 / mfValue 0x40000000| < 2 ^ 31)
      ∧ (mfWellFormed 0x4F000000 = true ∧ mfWellFormed 0x3F800000 = true ∧ (0x3F800000 : Word) ≠ 0
        ∧ 2 ^ 31 ≤ |mfValue 0x4F000000 / mfValue 0x3F800000|) := by
  rw [mfValue_seven, mfValue_two, mfValue_one, mfValue_two_pow_31]
  refine ⟨⟨by decide, by decide, by decide, ?_⟩, by decide, by decide, by decide, ?_⟩ <;> norm_num

theorem witness_MfMulErrorIsBounded :
    mfWellFormed 0x3FC00001 = true
      ∧ exec (.mfMul 0x3FC00001 0x3FC00001) State.reset = .next (State.reset.answer (.word 0x40100001)) := ⟨by decide, rfl⟩

theorem witness_MfAddErrorIsBounded :
    mfWellFormed 0x3F800000 = true ∧ mfWellFormed 0xBF7FFFFF = true
      ∧ exec (.mfAdd 0x3F800000 0xBF7FFFFF) State.reset = .next (State.reset.answer (.word 0x34000000))
      ∧ |mfValue 0x3F800000| ≤ |mfValue 0x40000000| ∧ |mfValue 0x40000000| ≤ |mfValue 0x40E00000| := by
  refine ⟨by decide, by decide, rfl, ?_⟩
  rw [mfValue_one, mfValue_two, mfValue_seven]
  norm_num

theorem witness_LutBuildFillsTheTable :
    State.reset.depth.enabled = false ∧ Lut.wf State.reset.dc.lut ∧ ready.depth.enabled = true := by decide

theorem witness_LutEntriesPassTheRangeCheck :
    Cfg.default.maxDepth ≤ 65536 ∧ lutFormula Cfg.default 1054 cal25 = some 9757
      ∧ lutFormula Cfg.default 1055 cal25 = some 0 := by decide

theorem witness_OnlyLutBuildWritesTheTable : Instr.clLit ≠ .lutBuild ∧ ∃ t, exec .clLit held = .next t := ⟨by decide, _, rfl⟩

/-- A write that fits exactly, and one that is clipped. -/
theorem witness_BufWriteClipsAtTheImageSize :
    (heldEp 8 1).active = some { buf := { bufA with id := 1 }, mem := [] }
      ∧ { heldEp 8 1 with cursor := 8 }.cursor ≤ { heldEp 8 1 with cursor := 8 }.imageSize
      ∧ (heldEp 8 1).imageSize < 6 + [(0 : Byte), 0, 0, 0].length := by decide

theorem witness_DcStartWritesTheStartPadding :
    ready.depth.active = none ∧ held.depth.active = some { buf := { bufA with id := 3 }, mem := [] } := by decide

theorem witness_DcUnpackWritesEightSamples :
    ready.depth.active = none ∧ held.depth.active = some { buf := { bufA with id := 3 }, mem := [] }
      ∧ held.depth.cursor ≤ held.depth.imageSize := by decide

theorem witness_DcDataConsumesWholeUnits :
    ready.depth.active = none ∧ held.depth.active = some { buf := { bufA with id := 3 }, mem := [] } ∧ held.dc.carryLen ≤ 10
      ∧ held.depth.cursor ≤ held.depth.imageSize := by decide

theorem witness_DcEndCompletesTheFrame :
    ready.depth.active = none ∧ held.depth.active = some { buf := { bufA with id := 3 }, mem := [] }
      ∧ held.depth.cursor ≤ held.depth.imageSize := by decide

theorem witness_ClStartResetsAndClEndCompletes :
    ready.color.active = none ∧ held.color.active = some { buf := { bufA with id := 1 }, mem := [] } := by decide

theorem witness_ClDataRunsTheNibblesInOrder :
    ready.color.active = none ∧ held.color.active = some { buf := { bufA with id := 1 }, mem := [] } := by decide

theorem witness_ClSkipLitAndLithi : (13 : Nib) = 13 ∨ (13 : Nib) = 14 := by decide

/-- DC.START, DC.UNPACK and DC.END at the image's end. -/
theorem witness_DcStart_DcUnpack_DcEnd_boundary :
    let ep := { heldEp 20 3 with cursor := 18, padStart := 11, padEnd := 2 }
    ep.active ≠ none ∧ ep.cursor ≤ ep.imageSize ∧ ep.imageSize < 2 * ep.padStart.toNat
      ∧ ep.imageSize < ep.cursor + 2 * ep.padEnd.toNat ∧ ep.cursor + 2 * 0 + 1 < ep.imageSize
      ∧ ep.imageSize < ep.cursor + 2 * 1 + 2 := by decide

theorem witness_DcDataUnpacksACompletedUnit :
    held.depth.active ≠ none ∧ { held.dc with carryLen := 10 }.carryLen + [(7 : Byte)].length = 11 ∧ [(7 : Byte)] ≠ [] := by
  decide

theorem witness_DepthFrameIsDelivered :
    ready.depth.enabled = true ∧ ready.depth.rstate = .seek1 ∧ ready.depth.hdrFill = 0 ∧ ready.depth.active = none
      ∧ ready.depth.avail = { bufA with id := 3 } :: [{ bufB with id := 4 }]
      ∧ ready.depth.nowAnswers = 1001 :: [1002] ∧ ready.cfg.endDepth ≠ ready.cfg.startDepth
      ∧ fitsPacket [0x64, 0x0C] = true ∧ fitsPacket [] = true
      ∧ (∀ p ∈ [((0x7200 : Half), [(1 : Byte), 2])],
          fitsPacket p.2 = true ∧ p.1 ≠ ready.cfg.startDepth ∧ p.1 ≠ ready.cfg.endDepth) := by decide

theorem witness_ClNibDispatches :
    (withCl { held.cl with lit := .wantHi }).cl.lit = .wantHi ∧ (withCl { held.cl with lit := .wantLo }).cl.lit = .wantLo
      ∧ held.cl.lit = .none ∧ (12 : Nib).toNat ≤ 12 ∧ held.color.active ≠ none := by decide

/-- The line's last sample and one before it; the image full and not. -/
theorem witness_ClEmitWritesOneSample :
    let s := withCl { held.cl with lineCnt := 7, pos := 3 }
    s.color.active ≠ none ∧ s.color.cursor ≤ s.color.imageSize ∧ s.cl.lineCnt + 1 = 2 * s.color.imageWidth
      ∧ held.cl.lineCnt + 1 ≠ 2 * held.color.imageWidth
      ∧ { held.color with cursor := 16 }.cursor = { held.color with cursor := 16 }.imageSize := by decide

theorem witness_ClDeltaAndClLitloEmitTheirSample :
    held.color.active ≠ none ∧ (12 : Nib).toNat ≤ 12 ∧ held.cl.pos = 0
      ∧ (6 : Byte).toNat = ((held.cl.last[0]).toNat + (12 : Nib).toNat + 250) % 256
      ∧ (0x02 : Byte).toNat = 16 * held.cl.litHi.toNat + (2 : Nib).toNat := by decide

theorem witness_ColourRoundTrip :
    let target : List Byte := [0x80, 0x10, 0x80, 0x12]
    held.color.active ≠ none ∧ target.length ≤ held.color.imageSize
      ∧ after .clStart held (fun s1 => encodeColour held.color.imageWidth s1.cl target)
        = some ([[0xF8], [], [0x0F, 0x10, 0xF8, 0x08]] : List (List Byte)).flatten := by decide

theorem witness_RaChunkRunsItsBytesInOrder :
    (ready.ep .depth).enabled = true ∧ (State.reset.ep .color).enabled = false := by decide

theorem witness_RaByteCountsAndDispatches :
    (ready.ep .depth).rstate = .seek1 ∧ ({ ready.depth with rstate := .seek2 } : Ep).rstate = .seek2
      ∧ ({ ready.depth with rstate := .hdr } : Ep).rstate = .hdr ∧ ({ ready.depth with rstate := .payload } : Ep).rstate = .payload := by
  decide

theorem witness_SeekFindsTheMarker :
    (0x52 : Byte) = loByte ready.cfg.devSync ∧ (0x42 : Byte) = hiByte ready.cfg.devSync
      ∧ (0x52 : Byte) ≠ hiByte ready.cfg.devSync ∧ (0 : Byte) ≠ hiByte ready.cfg.devSync ∧ (0 : Byte) ≠ loByte ready.cfg.devSync := by
  decide

theorem witness_RaHdrCollectsTwelveBytes :
    ({ ready.depth with hdrFill := 10 } : Ep).hdrFill < 11 ∧ ({ ready.depth with hdrFill := 11 } : Ep).hdrFill = 11
      ∧ ({ ready.depth with hdrFill := 11 } : Ep).hdrFill < 12 := by decide

/-- The header of R207's example; its declared size is 12. -/
theorem witness_RaHdrdoneReadsTheHeader :
    (0x7100 : Half).toNat = (hdr207[2]).toNat + 256 * (hdr207[3]).toNat
      ∧ (0 : Half).toNat = (hdr207[4]).toNat + 256 * (hdr207[5]).toNat
      ∧ (0 : Half).toNat = 256 * (hdr207[6]).toNat + (hdr207[7]).toNat - 12 := by decide

theorem witness_RaStartBeginsAFrame :
    ready.depth.nowAnswers = 1001 :: [1002] ∧ (State.reset.ep .depth).nowAnswers = [] ∧ (0 : Half).toNat = (hdr207[4]).toNat + 256 * (hdr207[5]).toNat
      ∧ (3 : Half).toNat = (hdr207[8]).toNat + 256 * (hdr207[9]).toNat
      ∧ (2 : Half).toNat = (hdr207[10]).toNat + 256 * (hdr207[11]).toNat
      ∧ (held.ep .depth).active ≠ none ∧ (ready.ep .depth).active = none
      ∧ (ready.ep .depth).avail = { bufA with id := 3 } :: [{ bufB with id := 4 }]
      ∧ (State.reset.ep .depth).avail = [] := by decide

/-- In order across the wrap, and one step beyond. -/
theorem witness_RaContChecksTheSequence :
    (0 : Half).toNat = ((0xFFFF : Half).toNat + 1) % 65536 ∧ (1 : Half).toNat ≠ ((0xFFFF : Half).toNat + 1) % 65536 := by decide

theorem witness_RaPayForwardsAndCounts :
    ({ held.depth with remaining := 1 } : Ep).remaining ≠ 0 ∧ ({ held.depth with remaining := 2, corrupt := true } : Ep).remaining ≠ 0 := by
  decide

theorem witness_RaPktdoneEndsThePacket :
    ({ held.depth with ptype := 0x7500 } : Ep).ptype = held.cfg.endType .depth ∧ (held.ep .depth).corrupt = false
      ∧ (held.ep .depth).ptype ≠ held.cfg.endType .depth := by decide

theorem witness_RaEnableResetsTheEndpoint :
    let s := { ready with depth := { ready.depth with enabled := false } }
    (s.ep .depth).enabled = false ∧ (s.ep .depth).fmtSet = true ∧ s.dc.lutValid = true ∧ (ready.ep .color).enabled = true
      ∧ (State.reset.ep .color).fmtSet = false ∧ State.reset.dc.lutValid = false := by decide

/-- Capacity exactly the image size and one less; an id held and one not held. -/
theorem witness_BqEnqueueAppends :
    (held.ep .depth).imageSize ≤ ({ id := 9, cap := 64 } : Buf).cap ∧ 9 ∉ held.heldIds
      ∧ ({ id := 9, cap := 63 } : Buf).cap < (held.ep .depth).imageSize ∧ 1 ∈ held.heldIds := by decide

theorem witness_FmtSetWritesTheFormat :
    (State.reset.ep .color).enabled = false ∧ (Endpoint.color = .color → 1 ≠ 0) ∧ (ready.ep .color).enabled = true := by decide

theorem witness_SequenceGapIsContained :
    (held.ep .depth).enabled = true ∧ (held.ep .depth).rstate = .seek1 ∧ (held.ep .depth).hdrFill = 0
      ∧ (held.ep .depth).active = some { buf := { bufA with id := 3 }, mem := [] } ∧ (held.ep .depth).nowAnswers = 1001 :: [1002]
      ∧ held.cfg.endType .depth ≠ held.cfg.startType .depth ∧ (0x7200 : Half) ≠ held.cfg.startType .depth
      ∧ (3 : Half) ≠ (held.ep .depth).lastSeq + 1 ∧ fitsPacket [1, 2] = true ∧ fitsPacket [] = true
      ∧ (∀ p ∈ [((0x7200 : Half), [(1 : Byte)])], fitsPacket p.2 = true ∧ p.1 ≠ held.cfg.startType .depth) := by decide

/-- Nine stale replies, then the matching one, cut at the shortest reply length. -/
theorem witness_XferReturnsTheMatchingReply :
    let s := device 7 (List.replicate 9 rpl6 ++ [rpl7])
    s.cc.lock = false ∧ reqShape req210 = true ∧ 10 ≤ 10 ∧ 10 ≤ s.cfg.maxReply
      ∧ s.env.writeAnswers = true :: List.replicate 8 true
      ∧ s.env.readAnswers = (List.replicate 9 rpl6).map some ++ some rpl7 :: [] ∧ (List.replicate 9 rpl6).length ≤ 9
      ∧ (∀ x ∈ List.replicate 9 rpl6, staleReply s.cfg s.cc.reqId (x.take 10) = true)
      ∧ matchingReply s.cfg s.cc.reqId (rpl7.take 10) = true := by decide

/-- A failed write; a failed read, a short reply and a wrong marker after nine stale replies; ten stale replies. -/
theorem witness_XferErrorsAndSilentExchange :
    let s := device 7 (List.replicate 10 rpl6)
    s.cc.lock = false ∧ reqShape req210 = true ∧ 512 ≤ s.cfg.maxReply
      ∧ (∀ x ∈ List.replicate 10 rpl6, staleReply s.cfg s.cc.reqId (x.take 512) = true)
      ∧ { s.env with writeAnswers := [false] }.writeAnswers = false :: []
      ∧ s.env.writeAnswers = true :: List.replicate 8 true
      ∧ s.env.readAnswers = (List.replicate 10 rpl6).map some ++ [] ∧ (List.replicate 10 rpl6).length = 10
      ∧ { s.env with readAnswers := [none] }.readAnswers = ([] : List (List Byte)).map some ++ none :: []
      ∧ (rpl7.take 9).length < 10 ∧ 10 ≤ (rpl7.set 0 0x47).length ∧ le16 (rpl7.set 0 0x47) 0 ≠ s.cfg.devSync := by decide

theorem witness_XferIsExactlyOnceVisible :
    State.reset.cc.lock = false ∧ reqShape req210 = true ∧ 10 ≤ 512 ∧ 512 ≤ State.reset.cfg.maxReply := by decide

/-- A version of exactly VERSION_LEN bytes, with a decimal build number from major 5 on and one below; one that is two
bytes short. -/
theorem witness_GetVersionRecordsTheVersion :
    let s := device 0 [replyBytes Cfg.default Cfg.default.opGetVersion 0 0 version586]
    s.cc.lock = false ∧ 4 ≤ s.cfg.versionLen ∧ s.cfg.versionLen ≤ version586.length ∧ fitsReply s.cfg version586 = true
      ∧ s.env.writeAnswers = true :: List.replicate 8 true
      ∧ s.env.readAnswers = some (replyBytes s.cfg s.cfg.opGetVersion s.cc.reqId 0 version586) :: []
      ∧ 5 ≤ (byteAt version586 0).toNat ∧ allDecimal (le16 version586 2) = true ∧ (4 : Byte).toNat < 5
      ∧ fitsReply s.cfg (version586.take 10) = true ∧ (version586.take 10).length < s.cfg.versionLen := by decide

theorem witness_SerialParamAndResetSucceed :
    let s := device 5 [replyBytes Cfg.default 37 5 0 [0x31, 0x32]]
    s.cc.lock = false ∧ fitsReply s.cfg [0x31, 0x32] = true ∧ s.env.writeAnswers = true :: List.replicate 8 true
      ∧ s.env.readAnswers = some (replyBytes s.cfg 37 s.cc.reqId 0 [0x31, 0x32]) :: [] := by decide

/-- Status 2; a size of 0; a size that promises one word too many. -/
theorem witness_DeviceErrorsSurface :
    let r := [0x52, 0x42, 1, 0, 3, 0, 7, 0, 2, 0]
    let s := device 7 [r]
    oneExchange s.cfg (.ccSetParam 5 1) = some (s.cfg.opSetParam, [5, 0, 1, 0]) ∧ s.cc.lock = false
      ∧ s.env.writeAnswers = true :: List.replicate 8 true ∧ s.env.readAnswers = some r :: [] ∧ r.length ≤ s.cfg.maxReply
      ∧ matchingReply s.cfg s.cc.reqId r = true ∧ le16 r 2 ≠ 0 ∧ 8 + 2 * (le16 r 2).toNat ≤ r.length ∧ le16 r 8 ≠ 0
      ∧ le16 (r.set 2 0) 2 = 0 ∧ (r.set 2 2).length < 8 + 2 * (le16 (r.set 2 2) 2).toNat
      ∧ matchingReply s.cfg s.cc.reqId (r.set 2 2) = true := by decide

/-- Section 2.11: pages of 4, 4 and 0 bytes for a target of 12. -/
theorem witness_PagedReadsCollectThePages :
    let pages : List (List Byte) := [[0x11, 0x22, 0x33, 0x44], [0x55, 0x66, 0x77, 0x88], []]
    let s := device 2
      [[0x52, 0x42, 3, 0, 4, 0, 2, 0, 0, 0, 0x11, 0x22, 0x33, 0x44], [0x52, 0x42, 3, 0, 4, 0, 3, 0, 0, 0, 0x55, 0x66, 0x77, 0x88],
        [0x52, 0x42, 1, 0, 4, 0, 4, 0, 0, 0]]
    pagedOp s.cfg .ccGetFixed = some (s.cfg.opGetFixed, [], 12)
      ∧ pagedOp s.cfg (.ccGetAlgo selP3) = some (s.cfg.opGetAlgo, selP3, 2)
      ∧ s.cc.lock = false ∧ (∀ p ∈ pages, fitsReply s.cfg p = true) ∧ pagesEnd 12 0 pages = true
      ∧ s.env.writeAnswers = List.replicate pages.length true ++ List.replicate 6 true
      ∧ s.env.readAnswers = pageReplies s.cfg s.cfg.opGetFixed s.cc.reqId pages ++ []
      ∧ pagesEnd 2 0 [[0xA0, 0xA1]] = true := by decide

/-- A page of 4 bytes of 12, then a write that fails. -/
theorem witness_PagedReadsCollectThePages_error :
    let pages : List (List Byte) := [[0x11, 0x22, 0x33, 0x44]]
    let t := { device 3 [] with env := { (device 3 []).env with writeAnswers := [false] } }
    pagesOpen 12 0 pages = true ∧ pagesOpen 12 0 [] = true
      ∧ (exchange t.cfg.opGetFixed (putHalf (BitVec.ofNat 16 (pages.flatten.length / 2))) t).1 = .error .transport := by decide

/-- A round resumed between two other operations, its write failing. -/
theorem witness_PagedReadsCollectThePages_roundError :
    let pre : List Call := [.init selP3 0 .serial]
    let s := { device 3 [] with
      env := { (device 3 []).env with writeAnswers := [false] }
      calls := pre ++ pagedCall .ccGetFixed [7, 7] 1 :: [.getAlgo selP3 [] 0], stim := .resume 1 :: [] }
    pagedOp s.cfg .ccGetFixed = some (s.cfg.opGetFixed, [], 12) ∧ s.cc.lock = false ∧ s.stim = .resume pre.length :: []
      ∧ ([7, 7] : List Byte).length < 12
      ∧ (exchange s.cfg.opGetFixed ([] ++ putHalf 1) { s with stim := [] }).1 = .error .transport := by decide

/-- A read one byte short of its target, and one that has reached it, resumed between two others. -/
theorem witness_PagedReadsCollectThePages_rounds :
    let data : List Byte := List.replicate 11 7
    let pre : List Call := [.init selP3 0 .serial]
    let s := { device 3 [[0x52, 0x42, 2, 0, 4, 0, 3, 0, 0, 0, 8, 9]] with
      calls := pre ++ pagedCall .ccGetFixed data 6 :: [.getAlgo selP3 [] 0], stim := .resume 1 :: [] }
    s.stim = .resume pre.length :: [] ∧ data.length < 12 ∧ 12 ≤ (7 :: data).length ∧ fitsReply s.cfg [8, 9] = true
      ∧ s.env.writeAnswers = true :: List.replicate 8 true
      ∧ s.env.readAnswers = some (replyBytes s.cfg s.cfg.opGetFixed s.cc.reqId 0 [8, 9]) :: [] := by decide

/-- Three attempts: a version request whose write fails, a CC.RESET answered with status 2, and the bring-up of P3. -/
def bringUp : State :=
  let c := { Cfg.default with initRetries := 3 }
  let s := device 0
    [replyBytes c c.opGetVersion 1 0 version586, replyBytes c c.opSetMode 2 2 [],
      replyBytes c c.opGetVersion 3 0 version586, replyBytes c c.opSetMode 4 0 [],
      replyBytes c c.opGetFixed 5 0 [0x11, 0x22], replyBytes c c.opGetFixed 6 0 [], replyBytes c c.opGetSerial 7 0 [0x31, 0x32],
      replyBytes c c.opGetAlgo 8 0 [0xA0, 0xA1]]
  { s with cfg := c, env := { s.env with writeAnswers := false :: List.replicate 9 true } }

theorem witness_InitRunsTheBringUpSequence :
    let s := bringUp
    let v : Version := { major := 5, minor := 8, build := 642, rest := [1, 2, 3, 4, 5, 6, 7, 8] }
    let fixed : List (List Byte) := [[0x11, 0x22], []]
    let algo : List (List Byte) := [[0xA0, 0xA1]]
    let failures : List (Option Half) := [none, some 2]
    let id : Half := 3
    let id' : Half := 7
    s.cc.lock = false ∧ selShape s.cfg selP3 = true ∧ 4 ≤ s.cfg.versionLen ∧ plainVersion s.cfg version586 = true
      ∧ v.major = byteAt version586 0 ∧ v.minor = byteAt version586 1 ∧ v.rest = (version586.take s.cfg.versionLen).drop 4
      ∧ 5 ≤ v.major.toNat ∧ v.build.toNat = decimalDigits (le16 version586 2) ∧ belowFloor s.cfg v = false
      ∧ (2 : Half) ≠ 0 ∧ id = failId s.cc.reqId failures ∧ failures.length < s.cfg.initRetries
      ∧ fitsReply s.cfg [0x31, 0x32] = true ∧ (∀ p ∈ fixed, fitsReply s.cfg p = true)
      ∧ (∀ p ∈ algo, fitsReply s.cfg p = true) ∧ pagesEnd s.cfg.fixedSize 0 fixed = true
      ∧ pagesEnd s.cfg.algoSize 0 algo = true ∧ id' = id + 2 + BitVec.ofNat 16 fixed.length
      ∧ s.env.writeAnswers = failWrites failures ++ List.replicate (3 + fixed.length + algo.length) true ++ [true]
      ∧ s.env.readAnswers = failReplies s.cfg version586 s.cc.reqId failures
          ++ [some (replyBytes s.cfg s.cfg.opGetVersion id 0 version586), some (replyBytes s.cfg s.cfg.opSetMode (id + 1) 0 [])]
          ++ pageReplies s.cfg s.cfg.opGetFixed (id + 2) fixed
          ++ [some (replyBytes s.cfg s.cfg.opGetSerial id' 0 [0x31, 0x32])]
          ++ pageReplies s.cfg s.cfg.opGetAlgo (id' + 1) algo ++ [] := by decide

/-- A firmware below the floor, major 4, after no failed attempt; and one failed attempt of one. -/
theorem witness_InitRunsTheBringUpSequence_failures :
    let old : List Byte := [4, 2, 0x23, 1, 0, 0, 0, 0, 0, 0, 0, 0]
    let w : Version := { major := 4, minor := 2, build := 291, rest := [0, 0, 0, 0, 0, 0, 0, 0] }
    let s := device 0 [replyBytes Cfg.default Cfg.default.opGetVersion 0 0 old]
    plainVersion s.cfg old = true ∧ w.major = byteAt old 0 ∧ w.minor = byteAt old 1
      ∧ w.rest = (old.take s.cfg.versionLen).drop 4 ∧ w.major.toNat < 5 ∧ w.build = le16 old 2
      ∧ belowFloor s.cfg w = true ∧ ([] : List (Option Half)).length < s.cfg.initRetries
      ∧ s.env.writeAnswers = failWrites [] ++ true :: List.replicate 8 true
      ∧ s.env.readAnswers = failReplies s.cfg version586 s.cc.reqId []
          ++ some (replyBytes s.cfg s.cfg.opGetVersion (failId s.cc.reqId []) 0 old) :: []
      ∧ [(none : Option Half)].getLast? = some none ∧ [(none : Option Half)].length = s.cfg.initRetries
      ∧ { s.env with writeAnswers := [false] }.writeAnswers = failWrites [none] ++ []
      ∧ s.env.readAnswers = failReplies s.cfg version586 s.cc.reqId [none] ++ s.env.readAnswers := by decide

/-- The bring-up invoked, and one resumed between two other operations before its CC.RESET and in its last round. -/
theorem witness_InitRunsTheBringUpSequence_rounds :
    let pre : List Call := [.getFixed [] 0]
    let post : List Call := [.getAlgo selP3 [] 0]
    let s := { bringUp with stim := .resume 1 :: [], calls := pre ++ Call.init selP3 0 .reset :: post }
    let t := { s with calls := pre ++ Call.init selP3 2 (.algo [0xA0, 0xA1] 1) :: post }
    decode bringUp.cfg (11 :: selP3) = .ok (.ccInit selP3) ∧ selShape bringUp.cfg selP3 = true ∧ s.cc.lock = false
      ∧ s.stim = .resume pre.length :: [] ∧ s.calls = pre ++ Call.init selP3 0 .reset :: post
      ∧ t.calls = pre ++ Call.init selP3 2 (.algo [0xA0, 0xA1] 1) :: post := by decide

/-- Each kind of malformed call, at the boundary. -/
theorem witness_MalformedControlCallsAreRefused :
    reqShape req210.dropLast = false ∧ 9 < 10 ∧ State.reset.cfg.maxReply < 513 ∧ [(1 : Byte)].length ≠ 2 * State.reset.cfg.algoSelWords := by
  decide

theorem witness_ControlAndStreamShareNoRegister :
    (isControl .ccGetSerial = true ∧ ∃ t, exec .ccGetSerial (device 0 [rpl6]) = .next t)
      ∧ isControl .clLit = false ∧ ∃ t, exec .clLit held = .next t := ⟨⟨by decide, _, rfl⟩, by decide, _, rfl⟩

/-- A bring-up resumed, a bring-up invoked. -/
theorem witness_ControlAndStreamShareNoRegister_rounds :
    (∃ t, step { bringUp with stim := [.resume 0], calls := [.init selP3 0 .reset] } = .next t)
      ∧ (decode bringUp.cfg (11 :: selP3) = .ok (.ccInit selP3) ∧ isControl (.ccInit selP3) = true)
      ∧ ∃ t, step { bringUp with stim := [.invoke (11 :: selP3)] } = .next t := ⟨⟨_, rfl⟩, by decide, _, rfl⟩

theorem witness_EndpointsShareNoRegister :
    (endpointOf .dcEnd = some .depth ∧ ∃ t, exec .dcEnd held = .next t)
      ∧ (endpointOf .clEnd = some .color ∧ ∃ t, exec .clEnd held = .next t)
      ∧ endpointOf (.mfMul 0 0) = none ∧ ∃ t, exec (.mfMul 0 0) held = .next t :=
  ⟨⟨by decide, _, rfl⟩, ⟨by decide, _, rfl⟩, by decide, _, rfl⟩

/-- Chunks that start a frame on each endpoint. -/
theorem witness_EndpointsShareNoRegister_commute :
    (after (.raChunk .color [0x52, 0x42, 0x00, 0x81, 0, 0, 0, 0x0C, 0, 0, 0, 0]) ready fun t => t.color.ts) = some 1001
      ∧ (after (.raChunk .depth [0x52, 0x42, 0x00, 0x71, 0, 0, 0, 0x0C, 0, 0, 0, 0]) ready fun t => t.depth.ts) = some 1001 := by
  decide

/-- RA.ENABLE on an endpoint that holds no active buffer, BQ.ENQUEUE, and an operation that is neither. -/
theorem witness_BuffersAreNeverDropped :
    (∃ t, exec (.raEnable .depth) { ready with depth := { ready.depth with enabled := false } } = .next t)
      ∧ (ready.ep .depth).active = none
      ∧ (∃ t, exec (.bqEnqueue .depth { id := 9, cap := 64 }) held = .next t)
      ∧ (∃ t, exec (.raDisable .depth) held = .next t) ∧ ∀ d, Instr.raDisable .depth ≠ .raEnable d := by
  refine ⟨⟨_, rfl⟩, by decide, ⟨_, rfl⟩, ⟨_, rfl⟩, ?_⟩
  intro d; simp

end Sys2Proof.Tests
end

section
/-! PROOFS. The reassembler's header bytes, payload bytes and packet end (42_reassembler.md, R205, R210, R211). -/

namespace Sys2Proof.Proofs.Reassembler

open Sys2Proof.Machine Sys2Proof.Safety

/-! ### The operations and hooks as state functions -/

theorem exec_raHdr (e : Endpoint) (b : Byte) (s : State) : exec (.raHdr e b) s = .next (raHdr e b s) := rfl

theorem exec_raHdrdone (e : Endpoint) (s : State) : exec (.raHdrdone e) s = .next (raHdrdone e s) := rfl

theorem exec_raPay (e : Endpoint) (b : Byte) (s : State) : exec (.raPay e b) s = .next (raPay e b s) := rfl

theorem exec_raPktdone (e : Endpoint) (s : State) : exec (.raPktdone e) s = .next (raPktdone e s) := rfl

theorem exec_dataHook (e : Endpoint) (bytes : List Byte) (s : State) :
    exec (dataHook e bytes) s = .next (codecData e bytes s) := by cases e <;> rfl

theorem exec_endHook (e : Endpoint) (s : State) : exec (endHook e) s = .next (codecEnd e s) := by cases e <;> rfl

/-! ### Packet end (R211) -/

theorem endsFrame_iff (c : Cfg) (e : Endpoint) (ep : Ep) :
    ep.endsFrame c e = true ↔ ep.ptype = c.endType e ∧ ep.corrupt = false := by
  simp [Ep.endsFrame]

theorem raPktdone_of_endsFrame {e : Endpoint} {s : State} (h : (s.ep e).endsFrame s.cfg e = true) :
    raPktdone e s = (codecEnd e s).modEp e fun ep => { ep with rstate := .seek1, hdrFill := 0 } := by
  rw [raPktdone, if_pos h]

theorem raPktdone_of_not_endsFrame {e : Endpoint} {s : State} (h : ¬ (s.ep e).endsFrame s.cfg e = true) :
    raPktdone e s = s.modEp e fun ep => { ep with rstate := .seek1, hdrFill := 0 } := by
  rw [raPktdone, if_neg h]

/-- Settles O43: the test of R211 is exactly the two conditions, and its two outcomes are the two clauses. -/
theorem raPktdoneEndsThePacket : Obligations.RaPktdoneEndsThePacket := by
  intro s e
  refine ⟨fun hend hsound => ⟨codecEnd e s, exec_endHook e s, ?_⟩, fun hskip => ?_⟩
  · have hends : (s.ep e).endsFrame s.cfg e = true := (endsFrame_iff ..).2 ⟨hend, hsound⟩
    rw [exec_raPktdone, raPktdone_of_endsFrame hends, State.modEp]
  · have hends : ¬ (s.ep e).endsFrame s.cfg e = true := by
      rw [endsFrame_iff, not_and_or, Bool.not_eq_false]
      exact hskip
    rw [exec_raPktdone, raPktdone_of_not_endsFrame hends, State.modEp]

/-! ### Header bytes (R205) -/

theorem vector_setIfInBounds_of_lt {α : Type} {n i : Nat} (xs : Vector α n) (x : α) (h : i < n) :
    xs.setIfInBounds i x = xs.set i x := by
  apply Vector.ext
  simp [Vector.getElem_setIfInBounds, Vector.getElem_set]

/-- Below twelve bytes the header has room, so the bounded store is a plain one. -/
theorem pushHdr_of_lt {ep : Ep} (b : Byte) (h : ep.hdrFill < 12) :
    ep.pushHdr b = { ep with hdr := ep.hdr.set ep.hdrFill b, hdrFill := ep.hdrFill + 1 } := by
  rw [Ep.pushHdr, vector_setIfInBounds_of_lt _ _ h]

theorem raHdr_of_twelfth {e : Endpoint} {s : State} (b : Byte) (h : (s.ep e).hdrFill = 11) :
    raHdr e b s = raHdrdone e (s.modEp e fun ep => ep.pushHdr b) := by
  have hfull : ((s.modEp e fun ep => ep.pushHdr b).ep e).hdrFill = Config.pktHdrLen := by
    simp [Ep.pushHdr, Config.pktHdrLen, h]
  rw [raHdr, if_pos hfull]

theorem raHdr_of_not_twelfth {e : Endpoint} {s : State} (b : Byte) (h : (s.ep e).hdrFill ≠ 11) :
    raHdr e b s = s.modEp e fun ep => ep.pushHdr b := by
  have hopen : ((s.modEp e fun ep => ep.pushHdr b).ep e).hdrFill ≠ Config.pktHdrLen := by
    simp [Ep.pushHdr, Config.pktHdrLen, h]
  rw [raHdr, if_neg hopen]

/-- Settles O38: the stored byte gives `u`, and the fill count reaches twelve only from eleven. -/
theorem raHdrCollectsTwelveBytes : Obligations.RaHdrCollectsTwelveBytes := by
  intro s u e b hroom hu
  have hstored : (s.modEp e fun ep => ep.pushHdr b) = u := by
    rw [hu, State.modEp, pushHdr_of_lt b hroom]
  refine ⟨fun hfew => ?_, fun heleven => ?_, raHdr e b s, exec_raHdr e b s⟩
  · rw [exec_raHdr, raHdr_of_not_twelfth b hfew.ne, hstored]
  · rw [exec_raHdr, raHdr_of_twelfth b heleven, hstored, exec_raHdrdone]

/-! ### The data hook leaves the payload count alone -/

theorem dcByte_remaining (s : State) (b : Byte) : (dcByte s b).depth.remaining = s.depth.remaining := by
  simp only [dcByte]
  split
  · obtain ⟨act, cur, evs, hunpack, -⟩ := dcUnpack_cases
      (unitOfBytes (s.dc.carry.setIfInBounds s.dc.carryLen b).toList)
      { s with dc := { s.dc with carry := s.dc.carry.setIfInBounds s.dc.carryLen b, carryLen := 0 } }
    rw [hunpack]
  · rfl

theorem clEmit_remaining (v : Byte) (s : State) : (clEmit v s).color.remaining = s.color.remaining :=
  bufWrite_remaining ..

theorem clNib_remaining (s : State) (n : Nib) : (clNib s n).color.remaining = s.color.remaining := by
  unfold clNib
  split
  · rfl
  · exact clEmit_remaining ..
  · split
    · exact clEmit_remaining ..
    · split <;> rfl

theorem clByte_remaining (s : State) (b : Byte) : (clByte s b).color.remaining = s.color.remaining :=
  (clNib_remaining ..).trans (clNib_remaining ..)

/-- A quantity that no byte changes is the same after a byte string. -/
theorem foldl_keeps {α β : Type} {f : State → α → State} {g : State → β} (h : ∀ s a, g (f s a) = g s)
    (s : State) (as : List α) : g (as.foldl f s) = g s :=
  List.foldlRecOn as f (motive := fun t => g t = g s) rfl fun t ht a _ => (h t a).trans ht

theorem codecData_remaining (e : Endpoint) (bytes : List Byte) (s : State) :
    ((codecData e bytes s).ep e).remaining = (s.ep e).remaining := by
  cases e with
  | depth =>
    show (dcData bytes s).depth.remaining = s.depth.remaining
    unfold dcData
    split
    · exact foldl_keeps (g := fun t => t.depth.remaining) dcByte_remaining s bytes
    · rfl
  | color =>
    show (clData bytes s).color.remaining = s.color.remaining
    unfold clData
    split
    · exact foldl_keeps (g := fun t => t.color.remaining) clByte_remaining s bytes
    · rfl

/-! ### Payload bytes (R210) -/

/-- RA.PAY up to the count: the byte to the codec, unless the frame is corrupt. -/
def forwarded (e : Endpoint) (b : Byte) (s : State) : State :=
  if (s.ep e).corrupt then s else codecData e [b] s

theorem forwarded_remaining (e : Endpoint) (b : Byte) (s : State) :
    ((forwarded e b s).ep e).remaining = (s.ep e).remaining := by
  unfold forwarded
  split
  · rfl
  · exact codecData_remaining e [b] s

theorem exec_forwarded (e : Endpoint) (b : Byte) (s : State) :
    (if (s.ep e).corrupt then .next s else exec (dataHook e [b]) s) = .next (forwarded e b s) := by
  rw [exec_dataHook, forwarded, apply_ite Host.Outcome.next]

theorem raPay_eq_forwarded (e : Endpoint) (b : Byte) (s : State) :
    raPay e b s =
      if (((forwarded e b s).modEp e Ep.countPayload).ep e).remaining = 0
      then raPktdone e ((forwarded e b s).modEp e Ep.countPayload)
      else (forwarded e b s).modEp e Ep.countPayload := rfl

theorem countPayload_of_ne_zero {ep : Ep} (h : ep.remaining ≠ 0) :
    ep.countPayload = { ep with remaining := ep.remaining - 1 } := by
  rw [Ep.countPayload, if_neg h]

/-- Settles O42: the hook keeps the count, so the byte is the last exactly when the count was one. -/
theorem raPayForwardsAndCounts : Obligations.RaPayForwardsAndCounts := by
  intro s e b hrem
  have hkeep := forwarded_remaining e b s
  have hcount : (forwarded e b s).modEp e Ep.countPayload =
      (forwarded e b s).withEp e { (forwarded e b s).ep e with remaining := (s.ep e).remaining - 1 } := by
    rw [State.modEp, countPayload_of_ne_zero (hkeep ▸ hrem), hkeep]
  refine ⟨forwarded e b s, _, exec_forwarded e b s, rfl, ?_, raPay e b s, exec_raPay e b s⟩
  rw [exec_raPay, raPay_eq_forwarded, hcount, withEp_ep, exec_raPktdone, apply_ite Host.Outcome.next]
  simp only [sub_eq_zero]

end Sys2Proof.Proofs.Reassembler
end


section
/-! PROOFS. The colour codec's payload bytes as nibbles (44_color_codec.md, R272, R116, R284). -/

namespace Sys2Proof.Proofs.Colour

open Sys2Proof.Machine Sys2Proof.Safety

/-! ### The operations as state functions -/

theorem exec_clData (bytes : List Byte) (s : State) : exec (.clData bytes) s = .next (clData bytes s) := rfl

/-- With a buffer held CL.NIB never refuses. -/
theorem exec_clNib_of_holdsBuffer {s : State} (h : s.color.holdsBuffer = true) (n : Nib) :
    exec (.clNib n) s = .next (clNib s n) := by
  show execClNib n s = _
  simp [execClNib, h]

theorem clData_of_holdsBuffer {s : State} (h : s.color.holdsBuffer = true) (bytes : List Byte) :
    clData bytes s = bytes.foldl clByte s := if_pos h

theorem runOps_cons_of_next {i : Instr} {s t : State} (h : exec i s = .next t) (is : List Instr) :
    runOps (i :: is) s = runOps is t := by
  rw [runOps, h]

/-! ### The held buffer stays the same one -/

/-- Everything CL.NIB can do: change the codec's registers, then emit at most one sample. -/
theorem clNib_cases (s : State) (n : Nib) :
    (∃ cl, clNib s n = { s with cl := cl }) ∨ ∃ v cl, clNib s n = clEmit v { s with cl := cl } := by
  unfold clNib
  split
  · exact .inl ⟨_, rfl⟩
  · exact .inr ⟨_, _, rfl⟩
  · split
    · exact .inr ⟨_, s.cl, rfl⟩
    · split
      · exact .inl ⟨_, rfl⟩
      · exact .inl ⟨s.cl, rfl⟩

theorem bufWrite_buf (ep : Ep) (bytes : List Byte) :
    (ep.bufWrite bytes).active.map (·.buf) = ep.active.map (·.buf) := by
  rcases bufWrite_cases ep bytes with ⟨_, hwrite⟩ | ⟨ab, hheld, hwrite⟩
  · rw [hwrite]
  · rw [hwrite, hheld]; rfl

theorem clNib_buf (s : State) (n : Nib) :
    (clNib s n).color.active.map (·.buf) = s.color.active.map (·.buf) := by
  rcases clNib_cases s n with ⟨cl, hnib⟩ | ⟨v, cl, hnib⟩
  · rw [hnib]
  · rw [hnib]; exact bufWrite_buf s.color [v]

theorem clByte_buf (s : State) (b : Byte) :
    (clByte s b).color.active.map (·.buf) = s.color.active.map (·.buf) :=
  (clNib_buf ..).trans (clNib_buf ..)

theorem clByte_holdsBuffer (s : State) (b : Byte) : (clByte s b).color.holdsBuffer = s.color.holdsBuffer :=
  (clNib_holdsBuffer ..).trans (clNib_holdsBuffer ..)

/-! ### Bytes as nibbles (R116, R272) -/

theorem nibbleOps_cons (b : Byte) (bytes : List Byte) :
    nibbleOps (b :: bytes) = .clNib (hiNib b) :: .clNib (loNib b) :: nibbleOps bytes := rfl

/-- A byte keeps the buffer held, so no nibble of the sequence is refused and every one goes on from the one before. -/
theorem runOps_nibbleOps (bytes : List Byte) {s : State} (h : s.color.holdsBuffer = true) :
    runOps (nibbleOps bytes) s = .next (bytes.foldl clByte s) := by
  induction bytes generalizing s with
  | nil => rfl
  | cons b bytes ih =>
    have hmid : (clNib s (hiNib b)).color.holdsBuffer = true := (clNib_holdsBuffer ..).trans h
    calc runOps (nibbleOps (b :: bytes)) s
        = runOps (.clNib (loNib b) :: nibbleOps bytes) (clNib s (hiNib b)) := by
          rw [nibbleOps_cons, runOps_cons_of_next (exec_clNib_of_holdsBuffer h _)]
      _ = runOps (nibbleOps bytes) (clByte s b) := runOps_cons_of_next (exec_clNib_of_holdsBuffer hmid _) _
      _ = .next ((b :: bytes).foldl clByte s) := ih ((clByte_holdsBuffer s b).trans h)

/-- Settles O28: without a buffer the data hook is idle (`codec_noop`); with one it is the fold of the nibbles, which
the sequence of operations computes too, and no byte exchanges the buffer. -/
theorem clDataRunsTheNibblesInOrder : Obligations.ClDataRunsTheNibblesInOrder := by
  intro s bytes
  constructor
  · intro hnone
    have hfree : (s.ep .color).holdsBuffer = false := by simp [State.ep, Ep.holdsBuffer, hnone]
    obtain ⟨-, hidle, -⟩ := codec_noop hfree bytes
    exact congrArg Host.Outcome.next hidle
  · intro ab hheld
    have hbuf : s.color.holdsBuffer = true := by simp [Ep.holdsBuffer, hheld]
    refine ⟨bytes.foldl clByte s, ?_, runOps_nibbleOps bytes hbuf, ?_⟩
    · rw [exec_clData, clData_of_holdsBuffer hbuf]
    · calc (bytes.foldl clByte s).color.active.map (·.buf)
          = s.color.active.map (·.buf) :=
            Reassembler.foldl_keeps (g := fun t => t.color.active.map (·.buf)) clByte_buf s bytes
        _ = some ab.buf := by rw [hheld]; rfl

end Sys2Proof.Proofs.Colour
end


section
/-! PROOFS. The stimulus layout read back (30_encoding.md, R102 to R108, R114, R116; notes/assumptions/2.md). -/

namespace Sys2Proof.Proofs.Encoding

open Sys2Proof.Machine Sys2Proof.Safety

/-! ### Fields as numbers -/

theorem half_toNat (lo hi : Byte) : (half lo hi).toNat = lo.toNat + 256 * hi.toNat := by
  rw [half, BitVec.toNat_append, ← Nat.shiftLeft_add_eq_or_of_lt lo.isLt, Nat.shiftLeft_eq]
  omega

theorem loByte_toNat (v : Half) : (loByte v).toNat = v.toNat % 256 := by
  simp [loByte]

theorem hiByte_toNat (v : Half) : (hiByte v).toNat = v.toNat / 256 := by
  have := v.isLt
  simp only [hiByte, BitVec.extractLsb'_toNat, Nat.shiftRight_eq_div_pow]
  omega

theorem word4_toNat (b0 b1 b2 b3 : Byte) :
    (word4 b0 b1 b2 b3).toNat = (half b0 b1).toNat + 65536 * (half b2 b3).toNat := by
  rw [word4, BitVec.toNat_append, ← Nat.shiftLeft_add_eq_or_of_lt (half b0 b1).isLt, Nat.shiftLeft_eq]
  omega

/-! ### Fields read back from their bytes (R70, R71) -/

@[simp] theorem half_loByte_hiByte (v : Half) : half (loByte v) (hiByte v) = v := by
  apply BitVec.eq_of_toNat_eq
  rw [half_toNat, loByte_toNat, hiByte_toNat]
  omega

/-- The four bytes of a word, read back. -/
@[simp] theorem word4_putWord (v : Word) :
    word4 (loByte (v.extractLsb' 0 16)) (hiByte (v.extractLsb' 0 16)) (loByte (v.extractLsb' 16 16))
      (hiByte (v.extractLsb' 16 16)) = v := by
  apply BitVec.eq_of_toNat_eq
  have := v.isLt
  simp only [word4_toNat, half_loByte_hiByte, BitVec.extractLsb'_toNat, Nat.shiftRight_eq_div_pow]
  omega

theorem putWord_eq (v : Word) :
    putWord v = [loByte (v.extractLsb' 0 16), hiByte (v.extractLsb' 0 16), loByte (v.extractLsb' 16 16),
      hiByte (v.extractLsb' 16 16)] := rfl

theorem word4_ofNat {n : Nat} (h : fits32 n = true) :
    (word4 (loByte ((BitVec.ofNat 32 n).extractLsb' 0 16)) (hiByte ((BitVec.ofNat 32 n).extractLsb' 0 16))
      (loByte ((BitVec.ofNat 32 n).extractLsb' 16 16)) (hiByte ((BitVec.ofNat 32 n).extractLsb' 16 16))).toNat = n := by
  rw [word4_putWord]
  exact Nat.mod_eq_of_lt (of_decide_eq_true h)

@[simp] theorem endpointOfByte_endpointByte (e : Endpoint) : endpointOfByte (endpointByte e) = some e := by
  cases e <;> rfl

theorem nibble_toNat_lt (n : Nib) : (n.setWidth 8).toNat < 16 := by
  have := n.isLt
  simp only [BitVec.toNat_setWidth]
  omega

@[simp] theorem nibble_readBack (n : Nib) : (n.setWidth 8).setWidth 4 = n := by
  apply BitVec.eq_of_toNat_eq
  have := n.isLt
  simp only [BitVec.toNat_setWidth]
  omega

/-- One more byte of a unit, as arithmetic. -/
theorem shiftIn_toNat {u : DepthUnit} {b : Byte} (h : u.toNat < 2 ^ 80) :
    ((u <<< (8 : Nat)) ||| b.setWidth 88).toNat = u.toNat * 256 + b.toNat := by
  have hb := b.isLt
  rw [BitVec.toNat_or, BitVec.toNat_shiftLeft, BitVec.toNat_setWidth, Nat.mod_eq_of_lt (a := b.toNat) (by omega),
    Nat.shiftLeft_eq, Nat.mod_eq_of_lt (by omega), ← Nat.shiftLeft_eq, ← Nat.shiftLeft_add_eq_or_of_lt hb,
    Nat.shiftLeft_eq]

/-- The number of a byte string below eleven bytes stays below the unit's width, so no byte is shifted out (R114). -/
theorem foldl_shiftIn_toNat (bytes : List Byte) (u : DepthUnit) (k : Nat) (hu : u.toNat < 256 ^ k)
    (hk : k + bytes.length ≤ 11) :
    (bytes.foldl (fun (u : DepthUnit) b => (u <<< (8 : Nat)) ||| b.setWidth 88) u).toNat
      = bytes.foldl (fun n b => n * 256 + b.toNat) u.toNat := by
  induction bytes generalizing u k with
  | nil => rfl
  | cons b r ih =>
    have hlen : k + 1 + r.length ≤ 11 := by simp only [List.length_cons] at hk; omega
    have hlt : u.toNat < 2 ^ 80 :=
      lt_of_lt_of_le hu (by rw [show (2 : Nat) ^ 80 = 256 ^ 10 by norm_num]; exact Nat.pow_le_pow_right (by decide) (by omega))
    have hstep := shiftIn_toNat (b := b) hlt
    have hb := b.isLt
    rw [List.foldl_cons, List.foldl_cons, ← hstep]
    exact ih _ (k + 1) (by rw [hstep, pow_succ]; omega) hlen

/-- The number of a unit, byte by byte from the most significant. -/
theorem unitOfBytes_toNat (bytes : List Byte) (h : bytes.length ≤ 11) :
    (unitOfBytes bytes).toNat = bytes.foldl (fun n b => n * 256 + b.toNat) 0 :=
  foldl_shiftIn_toNat bytes 0 0 (by simp) (by omega)

/-- The byte at bit `k` joined to all that lies above it. -/
theorem div_pow_step (n k : Nat) : n / 2 ^ (k + 8) * 256 + n / 2 ^ k % 2 ^ 8 = n / 2 ^ k := by
  rw [pow_add, ← Nat.div_div_eq_div_mul]
  omega

/-- A unit is the number its eleven bytes make (R114). -/
theorem unitOfBytes_bytesOfUnit (u : DepthUnit) : unitOfBytes (bytesOfUnit u) = u := by
  apply BitVec.eq_of_toNat_eq
  have htop : 0 * 256 + u.toNat / 2 ^ 80 % 2 ^ 8 = u.toNat / 2 ^ 80 := by have := u.isLt; omega
  have hstep := div_pow_step u.toNat
  rw [unitOfBytes_toNat _ (by simp [bytesOfUnit])]
  simp only [bytesOfUnit, List.foldl_cons, List.foldl_nil, BitVec.extractLsb'_toNat, Nat.shiftRight_eq_div_pow]
  rw [htop, hstep 72, hstep 64, hstep 56, hstep 48, hstep 40, hstep 32, hstep 24, hstep 16, hstep 8, hstep 0]
  simp

/-! ### Requests (R102 to R104, R169) -/

/-- The header of a built request, and its body. -/
theorem reqBytes_eq (c : Cfg) (opcode : Half) (body : List Byte) :
    reqBytes c opcode body =
      loByte c.hostSync :: hiByte c.hostSync :: loByte (BitVec.ofNat 16 (body.length / 2))
        :: hiByte (BitVec.ofNat 16 (body.length / 2)) :: loByte opcode :: hiByte opcode :: 0 :: 0 :: body := rfl

/-- A body of whole words that the size field can count is read back from its request. -/
theorem requestBody_reqBytes (c : Cfg) (row : Nat) (opcode : Half) {body : List Byte} {n : Nat}
    (hlen : body.length = 2 * n) (hn : n < 65536) : requestBody c row opcode (reqBytes c opcode body) = .ok body := by
  have hsize : (BitVec.ofNat 16 (body.length / 2)).toNat = n := by
    rw [hlen, BitVec.toNat_ofNat]
    omega
  simp only [requestBody, reqBytes_eq, le16, byteAt, List.getD_cons_zero, List.getD_cons_succ,
    half_loByte_hiByte, hsize, List.length_cons]
  rw [if_neg (by omega), if_neg (by simp), if_neg (by simp), if_neg (by omega)]
  rfl

/-! ### Operands read back, shape by shape -/

theorem decode_of_row {c : Cfg} {i : Instr} {sel : Byte} {operands : List Byte} (hw : wellFormed c i = true)
    (h : decodeRow c sel.toNat operands = .ok i) : decode c (sel :: operands) = .ok i := by
  simp [decode, h, hw]

theorem operandsWW_putWord (row : Nat) (f : Word → Word → Instr) (a b : Word) :
    operandsWW row f (putWord a ++ putWord b) = .ok (f a b) := by
  simp only [putWord_eq, List.cons_append, List.nil_append, operandsWW, word4_putWord]

theorem operandsE_endpointByte (row : Nat) (f : Endpoint → Instr) (e : Endpoint) :
    operandsE row f [endpointByte e] = .ok (f e) := by
  simp only [operandsE, endpointOfByte_endpointByte]

theorem operandsEB_endpointByte (row : Nat) (f : Endpoint → Byte → Instr) (e : Endpoint) (b : Byte) :
    operandsEB row f [endpointByte e, b] = .ok (f e b) := by
  simp only [operandsEB, endpointOfByte_endpointByte]

theorem operandsN_setWidth (row : Nat) (f : Nib → Instr) (n : Nib) : operandsN row f [n.setWidth 8] = .ok (f n) := by
  simp only [operandsN, if_pos (nibble_toNat_lt n), nibble_readBack]

theorem operandsXfer_encode (req : List Byte) (want : Bool) {n : Nat} (h : fits32 n = true) :
    operandsXfer ((if want then 1 else 0) :: (putWord (BitVec.ofNat 32 n) ++ req)) = .ok (.ccXfer req want n) := by
  have hn : n < 4294967296 := of_decide_eq_true h
  cases want <;> simp [operandsXfer, putWord_eq, hn]

theorem operandsEnqueue_encode (e : Endpoint) {buf : Buf} (hid : fits32 buf.id = true) (hcap : fits32 buf.cap = true) :
    operandsEnqueue (endpointByte e :: (putWord (BitVec.ofNat 32 buf.id) ++ putWord (BitVec.ofNat 32 buf.cap)))
      = .ok (.bqEnqueue e buf) := by
  simp only [putWord_eq, List.cons_append, List.nil_append, operandsEnqueue, endpointOfByte_endpointByte,
    word4_ofNat hid, word4_ofNat hcap]

theorem operandsFmt_encode (e : Endpoint) {w h l n : Nat} (hw : fits32 w = true) (hh : fits32 h = true)
    (hl : fits32 l = true) (hn : fits32 n = true) :
    operandsFmt (endpointByte e :: (putWord (BitVec.ofNat 32 w) ++ putWord (BitVec.ofNat 32 h)
      ++ putWord (BitVec.ofNat 32 l) ++ putWord (BitVec.ofNat 32 n))) = .ok (.fmtSet e w h l n) := by
  simp only [putWord_eq, List.cons_append, List.nil_append, operandsFmt, endpointOfByte_endpointByte,
    word4_ofNat hw, word4_ofNat hh, word4_ofNat hl, word4_ofNat hn]

theorem operandsChunk_encode (e : Endpoint) (s : List Byte) :
    operandsChunk (endpointByte e :: s) = .ok (.raChunk e s) := by
  simp only [operandsChunk, endpointOfByte_endpointByte]

theorem operandsCont_encode (e : Endpoint) (seq : Half) :
    operandsCont (endpointByte e :: putHalf seq) = .ok (.raCont e seq) := by
  simp only [putHalf, operandsCont, endpointOfByte_endpointByte, half_loByte_hiByte]

theorem operandsAlgo_encode (c : Cfg) {sel : List Byte} (hsel : selShape c sel = true) (hwords : c.algoSelWords + 1 < 65536) :
    operandsAlgo c (reqBytes c c.opGetAlgo (sel ++ putHalf 0)) = .ok (.ccGetAlgo sel) := by
  have hlen : sel.length = 2 * c.algoSelWords := by simpa [selShape] using hsel
  have hbody : (sel ++ putHalf 0).length = 2 * (c.algoSelWords + 1) := by simp [putHalf, hlen]; omega
  have hoff : le16 (sel ++ putHalf 0) (2 * c.algoSelWords) = 0 := by
    simp [le16, byteAt, ← hlen, putHalf]
  have htake : (sel ++ putHalf 0).take (2 * c.algoSelWords) = sel := by rw [← hlen, List.take_left]
  rw [operandsAlgo, requestBody_reqBytes c 7 c.opGetAlgo hbody hwords]
  simp only [hbody, hoff, htake, Nat.mul_add, Nat.mul_one, ne_eq, not_true, if_false, if_true]

/-- Settles O1: by cases on the operation, each row's operand shape read back by its own lemma. -/
theorem decodeOfEncodeIsTheOperation : Obligations.DecodeOfEncodeIsTheOperation := by
  intro c i hok hw
  have hwords : c.algoSelWords + 1 < 65536 := by
    simp only [Cfg.ok, Bool.and_eq_true, decide_eq_true_eq] at hok
    exact hok.2
  have hempty (row : Nat) (opcode : Half) : requestBody c row opcode (reqBytes c opcode []) = .ok [] :=
    requestBody_reqBytes c row opcode (n := 0) rfl (by decide)
  cases i with
  | mfU2f n =>
    refine decode_of_row hw ?_
    show (.ok (.mfU2f (word4 _ _ _ _)) : Except DecodeError Instr) = _
    rw [word4_putWord]
  | mfMul a b => exact decode_of_row hw (operandsWW_putWord 1 .mfMul a b)
  | mfAdd a b => exact decode_of_row hw (operandsWW_putWord 2 .mfAdd a b)
  | mfDiv a b => exact decode_of_row hw (operandsWW_putWord 3 .mfDiv a b)
  | ccXfer req want maxReply =>
    have hfits : fits32 maxReply = true := by
      simp only [wellFormed, replyShape, Bool.and_eq_true] at hw
      obtain ⟨-, hlt, -⟩ := hw
      exact hlt
    exact decode_of_row hw (operandsXfer_encode req want hfits)
  | ccGetVersion =>
    refine decode_of_row hw ?_
    show operandsEmptyBody c 5 c.opGetVersion .ccGetVersion _ = _
    rw [operandsEmptyBody, hempty]
  | ccGetFixed =>
    refine decode_of_row hw ?_
    show operandsFixed c _ = _
    rw [operandsFixed, requestBody_reqBytes c 6 c.opGetFixed (n := 1) rfl (by decide)]
    rfl
  | ccGetAlgo sel => exact decode_of_row hw (operandsAlgo_encode c hw hwords)
  | ccGetSerial =>
    refine decode_of_row hw ?_
    show operandsEmptyBody c 8 c.opGetSerial .ccGetSerial _ = _
    rw [operandsEmptyBody, hempty]
  | ccSetParam param value =>
    refine decode_of_row hw ?_
    show operandsParam c _ = _
    rw [operandsParam, requestBody_reqBytes c 9 c.opSetParam (n := 2) rfl (by decide)]
    simp [putHalf]
  | ccReset =>
    refine decode_of_row hw ?_
    show operandsReset c _ = _
    rw [operandsReset, requestBody_reqBytes c 10 c.opSetMode (n := 1) rfl (by decide)]
    simp [putHalf]
  | ccInit sel => exact decode_of_row hw rfl
  | raEnable e => exact decode_of_row hw (operandsE_endpointByte 12 .raEnable e)
  | raDisable e => exact decode_of_row hw (operandsE_endpointByte 13 .raDisable e)
  | bqEnqueue e buf =>
    simp only [wellFormed, Bool.and_eq_true] at hw
    obtain ⟨hid, hcap⟩ := hw
    exact decode_of_row (by simp [wellFormed, hid, hcap]) (operandsEnqueue_encode e hid hcap)
  | fmtSet e w h l n =>
    simp only [wellFormed, Bool.and_eq_true] at hw
    obtain ⟨⟨⟨hwidth, hheight⟩, hline⟩, hsize⟩ := hw
    exact decode_of_row (by simp [wellFormed, hwidth, hheight, hline, hsize])
      (operandsFmt_encode e hwidth hheight hline hsize)
  | raChunk e s => exact decode_of_row hw (operandsChunk_encode e s)
  | raByte e b => exact decode_of_row hw (operandsEB_endpointByte 17 .raByte e b)
  | raSeek1 e b => exact decode_of_row hw (operandsEB_endpointByte 18 .raSeek1 e b)
  | raSeek2 e b => exact decode_of_row hw (operandsEB_endpointByte 19 .raSeek2 e b)
  | raHdr e b => exact decode_of_row hw (operandsEB_endpointByte 20 .raHdr e b)
  | raHdrdone e => exact decode_of_row hw (operandsE_endpointByte 21 .raHdrdone e)
  | raStart e => exact decode_of_row hw (operandsE_endpointByte 22 .raStart e)
  | raCont e seq => exact decode_of_row hw (operandsCont_encode e seq)
  | raPay e b => exact decode_of_row hw (operandsEB_endpointByte 24 .raPay e b)
  | raPktdone e => exact decode_of_row hw (operandsE_endpointByte 25 .raPktdone e)
  | lutBuild => exact decode_of_row hw rfl
  | dcStart => exact decode_of_row hw rfl
  | dcData s => exact decode_of_row hw rfl
  | dcUnpack u =>
    refine decode_of_row hw ?_
    show (.ok (.dcUnpack (unitOfBytes (bytesOfUnit u))) : Except DecodeError Instr) = _
    rw [unitOfBytes_bytesOfUnit]
  | dcEnd => exact decode_of_row hw rfl
  | clStart => exact decode_of_row hw rfl
  | clData s => exact decode_of_row hw rfl
  | clNib n => exact decode_of_row hw (operandsN_setWidth 33 .clNib n)
  | clDelta n => exact decode_of_row hw (operandsN_setWidth 34 .clDelta n)
  | clSkip n => exact decode_of_row hw (operandsN_setWidth 35 .clSkip n)
  | clLit => exact decode_of_row hw rfl
  | clLithi n => exact decode_of_row hw (operandsN_setWidth 37 .clLithi n)
  | clLitlo n => exact decode_of_row hw (operandsN_setWidth 38 .clLitlo n)
  | clEmit v => exact decode_of_row hw rfl
  | clEnd => exact decode_of_row hw rfl

/-- Settles O2: the decoder runs on the five written-out stimuli. -/
theorem writtenOutStimuliDecode : Obligations.WrittenOutStimuliDecode := by
  refine ⟨?_, ?_, ?_, ?_, ?_⟩
  · decide
  · decide
  · decide
  · decide
  · decide

end Sys2Proof.Proofs.Encoding
end


section
/-! PROOFS. The two sides of the streaming machine: a callback's operations read and write their own endpoint and codec
(R61, R85), and beside them read only the configuration and the table. -/

namespace Sys2Proof.Proofs.Sides

open Sys2Proof.Machine Sys2Proof.Safety

/-! ### One side of the machine -/

/-- The machine `u` with endpoint `e`'s registers and its codec's as they are in `s`; the table is not the callback's
to write (R38) and stays. -/
def takeSide (u : State) (e : Endpoint) (s : State) : State :=
  match e with
  | .color => { u with color := s.color, cl := s.cl }
  | .depth => { u with depth := s.depth, dc := { u.dc with carry := s.dc.carry, carryLen := s.dc.carryLen } }

/-- What a callback reads beside its own side is the same in both machines: the configuration and the table. -/
def SameReads (u s : State) : Prop := u.cfg = s.cfg ∧ u.dc.lut = s.dc.lut

/-- A state function that works on endpoint `e`'s side alone: inside any machine with the same configuration and table it
does to that side what it does here, and nothing else. -/
def Local (e : Endpoint) (f : State → State) : Prop :=
  ∀ u s, SameReads u s → f (takeSide u e s) = takeSide u e (f s)

@[simp] theorem takeSide_self (s : State) (e : Endpoint) : takeSide s e s = s := by cases e <;> rfl

@[simp] theorem takeSide_ep (u s : State) (e : Endpoint) : (takeSide u e s).ep e = s.ep e := by cases e <;> rfl

@[simp] theorem takeSide_cfg (u s : State) (e : Endpoint) : (takeSide u e s).cfg = u.cfg := by cases e <;> rfl

@[simp] theorem takeSide_lut (u s : State) (e : Endpoint) : (takeSide u e s).dc.lut = u.dc.lut := by cases e <;> rfl

@[simp] theorem takeSide_withEp (u s : State) (e : Endpoint) (ep : Ep) :
    (takeSide u e s).withEp e ep = takeSide u e (s.withEp e ep) := by cases e <;> rfl

/-- Nothing but the side changes. -/
theorem Local.frame {e : Endpoint} {f : State → State} (h : Local e f) (s : State) : f s = takeSide s e (f s) := by
  simpa using h s s ⟨rfl, rfl⟩

theorem Local.cfg {e : Endpoint} {f : State → State} (h : Local e f) (s : State) : (f s).cfg = s.cfg := by
  rw [h.frame s, takeSide_cfg]

theorem Local.sameReads {e : Endpoint} {f : State → State} (h : Local e f) {u s : State} (hr : SameReads u s) :
    SameReads u (f s) := by
  rw [SameReads, h.frame s, takeSide_cfg, takeSide_lut]
  exact hr

/-! ### How local functions are put together -/

theorem Local.id (e : Endpoint) : Local e fun s => s := fun _ _ _ => rfl

theorem Local.comp {e : Endpoint} {f g : State → State} (hf : Local e f) (hg : Local e g) : Local e fun s => f (g s) := by
  intro u s hr
  show f (g (takeSide u e s)) = takeSide u e (f (g s))
  rw [hg u s hr, hf u (g s) (hg.sameReads hr)]

theorem Local.foldl {α : Type} {e : Endpoint} {f : State → α → State} (hf : ∀ a, Local e fun s => f s a) (as : List α) :
    Local e fun s => as.foldl f s := by
  induction as with
  | nil => exact Local.id e
  | cons a as ih => exact ih.comp (hf a)

/-- A choice that both machines make the same way. -/
theorem Local.ite {e : Endpoint} {f g : State → State} {c : State → Prop} [DecidablePred c]
    (hc : ∀ u s, SameReads u s → (c (takeSide u e s) ↔ c s)) (hf : Local e f) (hg : Local e g) :
    Local e fun s => if c s then f s else g s := by
  intro u s hr
  show (if c (takeSide u e s) then _ else _) = takeSide u e (if c s then _ else _)
  by_cases h : c s
  · rw [if_pos ((hc u s hr).2 h), if_pos h, hf u s hr]
  · rw [if_neg (mt (hc u s hr).1 h), if_neg h, hg u s hr]

/-- A choice on the endpoint's registers and the configuration. -/
theorem Local.iteEp {e : Endpoint} {f g : State → State} (c : Cfg → Ep → Prop) [∀ k ep, Decidable (c k ep)]
    (hf : Local e f) (hg : Local e g) : Local e fun s => if c s.cfg (s.ep e) then f s else g s :=
  Local.ite (c := fun s => c s.cfg (s.ep e))
    (fun u s hr => by simp only [takeSide_cfg, takeSide_ep, hr.1]) hf hg

theorem Local.modEp (e : Endpoint) (f : Cfg → Ep → Ep) : Local e fun s => s.modEp e (f s.cfg) := by
  intro u s hr
  simp only [State.modEp, takeSide_ep, takeSide_cfg, takeSide_withEp, hr.1]

/-! ### The depth codec's operations -/

theorem dcStart_local : Local .depth dcStart := by
  intro u s _
  show (if s.depth.holdsBuffer = true then _ else _) = takeSide u .depth (if s.depth.holdsBuffer = true then _ else _)
  split <;> rfl

theorem dcUnpack_local (w : DepthUnit) : Local .depth (dcUnpack w) := by
  intro u s hr
  simp only [dcUnpack, takeSide_lut, hr.2]
  rfl

theorem dcByte_local (b : Byte) : Local .depth fun s => dcByte s b := by
  intro u s hr
  show (if s.dc.carryLen + 1 = Config.unitLen then _ else _)
    = takeSide u .depth (if s.dc.carryLen + 1 = Config.unitLen then _ else _)
  split
  · exact dcUnpack_local _ u { s with dc := { s.dc with carry := s.dc.carry.setIfInBounds s.dc.carryLen b, carryLen := 0 } } hr
  · rfl

theorem dcData_local (bytes : List Byte) : Local .depth (dcData bytes) :=
  Local.ite (c := fun s => s.depth.holdsBuffer = true) (fun _ _ _ => Iff.rfl) (Local.foldl dcByte_local bytes) (Local.id _)

theorem dcEnd_local : Local .depth dcEnd := by
  intro u s _
  show (if s.depth.holdsBuffer = true then _ else _) = takeSide u .depth (if s.depth.holdsBuffer = true then _ else _)
  split <;> rfl

/-! ### The colour codec's operations -/

theorem clStart_local : Local .color clStart := by
  intro u s _
  show (if s.color.holdsBuffer = true then _ else _) = takeSide u .color (if s.color.holdsBuffer = true then _ else _)
  split <;> rfl

theorem clEmit_local (v : Byte) : Local .color (clEmit v) := fun _ _ _ => rfl

theorem clDelta_local (n : Nib) : Local .color (clDelta n) := fun _ _ _ => rfl

theorem clSkip_local (n : Nib) : Local .color (clSkip n) := fun _ _ _ => rfl

theorem clLit_local : Local .color clLit := fun _ _ _ => rfl

theorem clLithi_local (n : Nib) : Local .color (clLithi n) := fun _ _ _ => rfl

theorem clLitlo_local (n : Nib) : Local .color (clLitlo n) := fun _ _ _ => rfl

theorem clNib_local (n : Nib) : Local .color fun s => clNib s n := by
  intro u s _
  have hlit : (takeSide u .color s).cl.lit = s.cl.lit := rfl
  show clNib (takeSide u .color s) n = takeSide u .color (clNib s n)
  unfold clNib
  rw [hlit]
  cases s.cl.lit with
  | wantHi => rfl
  | wantLo => rfl
  | none =>
    simp only []
    split
    · rfl
    · split <;> rfl

theorem clByte_local (b : Byte) : Local .color fun s => clByte s b := (clNib_local _).comp (clNib_local _)

theorem clData_local (bytes : List Byte) : Local .color (clData bytes) :=
  Local.ite (c := fun s => s.color.holdsBuffer = true) (fun _ _ _ => Iff.rfl) (Local.foldl clByte_local bytes) (Local.id _)

theorem clEnd_local : Local .color clEnd := fun _ _ _ => rfl

/-! ### The hooks and the reassembler's operations -/

theorem codecStart_local (e : Endpoint) : Local e (codecStart e) := by
  cases e with
  | color => exact clStart_local
  | depth => exact dcStart_local

theorem codecData_local (e : Endpoint) (bytes : List Byte) : Local e (codecData e bytes) := by
  cases e with
  | color => exact clData_local bytes
  | depth => exact dcData_local bytes

theorem codecEnd_local (e : Endpoint) : Local e (codecEnd e) := by
  cases e with
  | color => exact clEnd_local
  | depth => exact dcEnd_local

theorem codecEnable_local (e : Endpoint) : Local e (codecEnable e) := by cases e <;> exact fun _ _ _ => rfl

theorem raSeek1_local (e : Endpoint) (b : Byte) : Local e (raSeek1 e b) := Local.modEp e fun c ep => ep.seek1 c b

theorem raSeek2_local (e : Endpoint) (b : Byte) : Local e (raSeek2 e b) := Local.modEp e fun c ep => ep.seek2 c b

theorem raPktdone_local (e : Endpoint) : Local e (raPktdone e) :=
  (Local.modEp e fun _ ep => { ep with rstate := .seek1, hdrFill := 0 }).comp
    (Local.iteEp (fun c ep => ep.endsFrame c e = true) (codecEnd_local e) (Local.id e))

theorem raStart_local (e : Endpoint) : Local e (raStart e) :=
  (codecStart_local e).comp (Local.modEp e fun _ => Ep.openFrame e)

theorem raCont_local (e : Endpoint) (seq : Half) : Local e (raCont e seq) :=
  Local.modEp e fun _ ep => ep.continuation seq

/-- The packet class's operation, chosen by the latched type (R113, R206). -/
def openPacket (e : Endpoint) (s : State) : State :=
  if (s.ep e).ptype = s.cfg.startType e then raStart e s else raCont e (hdrSeq (s.ep e).hdr) s

theorem openPacket_local (e : Endpoint) : Local e (openPacket e) := by
  refine Local.iteEp (fun c ep => ep.ptype = c.startType e) (raStart_local e) ?_
  exact Local.modEp e fun _ ep => ep.continuation (hdrSeq ep.hdr)

/-- RA.HDRDONE up to the end of an empty packet. -/
def enterPayload (e : Endpoint) (s : State) : State :=
  (openPacket e (s.modEp e Ep.latchHeader)).modEp e fun ep => { ep with rstate := .payload }

theorem enterPayload_local (e : Endpoint) : Local e (enterPayload e) :=
  (Local.modEp e fun _ ep => { ep with rstate := .payload }).comp
    ((openPacket_local e).comp (Local.modEp e fun _ => Ep.latchHeader))

theorem raHdrdone_eq (e : Endpoint) (s : State) :
    raHdrdone e s =
      if ((enterPayload e s).ep e).remaining = 0 then raPktdone e (enterPayload e s) else enterPayload e s := rfl

/-- A packet that has no payload left ends. -/
theorem endIfSpent_local (e : Endpoint) : Local e fun s => if (s.ep e).remaining = 0 then raPktdone e s else s :=
  Local.iteEp (fun _ ep => ep.remaining = 0) (raPktdone_local e) (Local.id e)

theorem raHdrdone_local (e : Endpoint) : Local e (raHdrdone e) := (endIfSpent_local e).comp (enterPayload_local e)

theorem raHdr_local (e : Endpoint) (b : Byte) : Local e (raHdr e b) :=
  (Local.iteEp (fun _ ep => ep.hdrFill = Config.pktHdrLen) (raHdrdone_local e) (Local.id e)).comp
    (Local.modEp e fun _ ep => ep.pushHdr b)

theorem forwarded_local (e : Endpoint) (b : Byte) : Local e (Reassembler.forwarded e b) :=
  Local.iteEp (fun _ ep => ep.corrupt = true) (Local.id e) (codecData_local e [b])

theorem raPay_local (e : Endpoint) (b : Byte) : Local e (raPay e b) :=
  (endIfSpent_local e).comp ((Local.modEp e fun _ => Ep.countPayload).comp (forwarded_local e b))

/-- What RA.BYTE runs once the byte is counted: the reassembly state chooses (R202). -/
def dispatchByte (e : Endpoint) (b : Byte) (s : State) : State :=
  match (s.ep e).rstate with
  | .seek1 => raSeek1 e b s
  | .seek2 => raSeek2 e b s
  | .hdr => raHdr e b s
  | .payload => raPay e b s

/-- The byte counted (R32). -/
def countByte (e : Endpoint) (s : State) : State := s.modEp e fun ep => { ep with byteCount := ep.byteCount + 1 }

theorem raByte_eq (e : Endpoint) (s : State) (b : Byte) : raByte e s b = dispatchByte e b (countByte e s) := rfl

theorem dispatchByte_local (e : Endpoint) (b : Byte) : Local e (dispatchByte e b) := by
  intro u s hr
  unfold dispatchByte
  rw [takeSide_ep]
  cases (s.ep e).rstate with
  | seek1 => exact raSeek1_local e b u s hr
  | seek2 => exact raSeek2_local e b u s hr
  | hdr => exact raHdr_local e b u s hr
  | payload => exact raPay_local e b u s hr

theorem countByte_local (e : Endpoint) : Local e (countByte e) :=
  Local.modEp e fun _ ep => { ep with byteCount := ep.byteCount + 1 }

theorem raByte_local (e : Endpoint) (b : Byte) : Local e fun s => raByte e s b :=
  (dispatchByte_local e b).comp (countByte_local e)

theorem raChunk_local (e : Endpoint) (bytes : List Byte) : Local e (raChunk e bytes) :=
  Local.iteEp (fun _ ep => ep.enabled = true) (Local.foldl (raByte_local e) bytes) (Local.id e)

theorem raEnable_local (e : Endpoint) : Local e (raEnable e) :=
  (codecEnable_local e).comp (Local.modEp e fun _ => Ep.enable)

end Sys2Proof.Proofs.Sides
end


section
/-! PROOFS. What the streaming operations do to an endpoint's buffers, said once as a short list of moves: every operation
of a callback is a sequence of them, so what each move keeps, every operation keeps (R61, R62, R89). -/

namespace Sys2Proof.Proofs.Buffers

open Sys2Proof.Machine Sys2Proof.Safety Sys2Proof.Proofs.Sides

/-! ### The moves -/

/-- What a codec's hooks do to their endpoint: write, rewind, hand back. -/
inductive BufMove : Ep → Ep → Prop where
  | write (ep : Ep) (bytes : List Byte) : BufMove ep (ep.bufWrite bytes)
  | rewind (ep : Ep) : BufMove ep { ep with cursor := 0 }
  | complete (ep : Ep) (st : Status) : BufMove ep (ep.complete st)

/-- The buffers, the cursor, the format and whether the endpoint is enabled are the same on both. -/
structure SameBuffers (a b : Ep) : Prop where
  active : b.active = a.active
  cursor : b.cursor = a.cursor
  avail : b.avail = a.avail
  completed : b.completed = a.completed
  enabled : b.enabled = a.enabled
  imageSize : b.imageSize = a.imageSize
  imageWidth : b.imageWidth = a.imageWidth
  fmtSet : b.fmtSet = a.fmtSet

/-- What a callback does to its endpoint: a codec's move, a change of other registers, or a buffer taken from the queue
with the cursor at its start. -/
inductive Move : Ep → Ep → Prop where
  | buf {a b : Ep} (h : BufMove a b) : Move a b
  | regs {a b : Ep} (h : SameBuffers a b) : Move a b
  | acquire {a : Ep} {buf : Buf} {queue : List Buf} (hfree : a.active = none) (hqueue : a.avail = buf :: queue) :
      Move a { a with active := some { buf := buf, mem := [] }, avail := queue, cursor := 0 }

abbrev BufMoves : Ep → Ep → Prop := Relation.ReflTransGen BufMove

abbrev Moves : Ep → Ep → Prop := Relation.ReflTransGen Move

theorem BufMoves.moves {a b : Ep} (h : BufMoves a b) : Moves a b := h.lift (fun ep => ep) fun _ _ => .buf

theorem Moves.of_regs {a b : Ep} (h : SameBuffers a b) : Moves a b := .single (.regs h)

/-- What every move keeps, a sequence of moves keeps. -/
theorem keeps_of_moves {r : Ep → Ep → Prop} {P : Ep → Prop} (hstep : ∀ a b, r a b → P a → P b) {a b : Ep}
    (h : Relation.ReflTransGen r a b) (ha : P a) : P b := by
  induction h with
  | refl => exact ha
  | tail _ hmove ih => exact hstep _ _ hmove ih

/-- A fold each of whose steps is a sequence of moves is one. -/
theorem moves_foldl {r : Ep → Ep → Prop} {α β : Type} {g : β → Ep} {f : β → α → β}
    (h : ∀ s a, Relation.ReflTransGen r (g s) (g (f s a))) (as : List α) (s : β) :
    Relation.ReflTransGen r (g s) (g (as.foldl f s)) := by
  induction as generalizing s with
  | nil => exact .refl
  | cons a as ih => exact (h s a).trans (ih (f s a))

/-! ### The hooks are sequences of buffer moves -/

theorem dcStart_moves (s : State) : BufMoves s.depth (dcStart s).depth := by
  unfold dcStart
  split
  · exact .tail (.single (.rewind _)) (.write { s.depth with cursor := 0 } _)
  · exact .refl

theorem dcUnpack_moves (u : DepthUnit) (s : State) : BufMoves s.depth (dcUnpack u s).depth :=
  moves_foldl (g := fun ep => ep) (fun ep j => .single (.write ep (unitSample s.dc.lut u j))) _ s.depth

theorem dcByte_moves (s : State) (b : Byte) : BufMoves s.depth (dcByte s b).depth := by
  unfold dcByte
  simp only []
  split
  · exact dcUnpack_moves _ { s with dc := { s.dc with carry := _, carryLen := 0 } }
  · exact .refl

theorem dcData_moves (bytes : List Byte) (s : State) : BufMoves s.depth (dcData bytes s).depth := by
  unfold dcData
  split
  · exact moves_foldl (g := fun s => s.depth) dcByte_moves bytes s
  · exact .refl

theorem dcEnd_moves (s : State) : BufMoves s.depth (dcEnd s).depth := by
  unfold dcEnd
  split
  · exact .tail (.single (.write _ _)) (.complete _ .ok)
  · exact .refl

theorem clStart_moves (s : State) : BufMoves s.color (clStart s).color := by
  unfold clStart
  split
  · exact .single (.rewind _)
  · exact .refl

theorem clEmit_moves (v : Byte) (s : State) : BufMoves s.color (clEmit v s).color := .single (.write _ _)

theorem clNib_moves (s : State) (n : Nib) : BufMoves s.color (clNib s n).color := by
  rcases Colour.clNib_cases s n with ⟨cl, h⟩ | ⟨v, cl, h⟩
  · rw [h]
  · rw [h]; exact clEmit_moves v { s with cl := cl }

theorem clByte_moves (s : State) (b : Byte) : BufMoves s.color (clByte s b).color :=
  (clNib_moves s _).trans (clNib_moves _ _)

theorem clData_moves (bytes : List Byte) (s : State) : BufMoves s.color (clData bytes s).color := by
  unfold clData
  split
  · exact moves_foldl (g := fun s => s.color) clByte_moves bytes s
  · exact .refl

theorem clEnd_moves (s : State) : BufMoves s.color (clEnd s).color := .single (.complete _ .ok)

theorem codecStart_moves (e : Endpoint) (s : State) : BufMoves (s.ep e) ((codecStart e s).ep e) := by
  cases e with
  | color => exact clStart_moves s
  | depth => exact dcStart_moves s

theorem codecData_moves (e : Endpoint) (bytes : List Byte) (s : State) :
    BufMoves (s.ep e) ((codecData e bytes s).ep e) := by
  cases e with
  | color => exact clData_moves bytes s
  | depth => exact dcData_moves bytes s

theorem codecEnd_moves (e : Endpoint) (s : State) : BufMoves (s.ep e) ((codecEnd e s).ep e) := by
  cases e with
  | color => exact clEnd_moves s
  | depth => exact dcEnd_moves s

/-! ### The start of a frame (R207, R208) -/

/-- The endpoint's registers at the start of a frame, before a buffer is looked for. -/
def stamped (e : Endpoint) (ep : Ep) : Ep :=
  { ep with
    nowAnswers := (ep.now e).2.nowAnswers, nowDraws := (ep.now e).2.nowDraws
    lastSeq := hdrSeq ep.hdr, corrupt := false, padStart := hdrPadStart ep.hdr, padEnd := hdrPadEnd ep.hdr
    ts := (ep.now e).1, frameCount := ep.frameCount + 1 }

theorem openFrame_eq (e : Endpoint) (ep : Ep) :
    ep.openFrame e =
      if (stamped e ep).holdsBuffer then stamped e ep
      else if (stamped e ep).acquire.holdsBuffer then (stamped e ep).acquire
      else (stamped e ep).acquire.logEvent .noBuffer := by
  obtain ⟨t, w, d, hnow⟩ := now_cases e ep
  unfold Ep.openFrame stamped
  rw [hnow]
  rfl

theorem openFrame_of_held {e : Endpoint} {ep : Ep} (h : ep.active ≠ none) : ep.openFrame e = stamped e ep := by
  have hheld : (stamped e ep).holdsBuffer = true := Option.isSome_iff_ne_none.2 h
  rw [openFrame_eq, if_pos hheld]

theorem openFrame_of_queued {e : Endpoint} {ep : Ep} {buf : Buf} {queue : List Buf} (hfree : ep.active = none)
    (hqueue : ep.avail = buf :: queue) :
    ep.openFrame e = { stamped e ep with active := some { buf := buf, mem := [] }, avail := queue } := by
  have hnot : ¬ (stamped e ep).holdsBuffer = true := by simp [stamped, Ep.holdsBuffer, hfree]
  have hacq : (stamped e ep).acquire = { stamped e ep with active := some { buf := buf, mem := [] }, avail := queue } := by
    rw [Ep.acquire, show (stamped e ep).avail = buf :: queue from hqueue]
  rw [openFrame_eq, if_neg hnot, hacq]
  exact if_pos rfl

theorem openFrame_of_none {e : Endpoint} {ep : Ep} (hfree : ep.active = none) (hempty : ep.avail = []) :
    ep.openFrame e = (stamped e ep).logEvent .noBuffer := by
  have hnot : ¬ (stamped e ep).holdsBuffer = true := by simp [stamped, Ep.holdsBuffer, hfree]
  have hacq : (stamped e ep).acquire = stamped e ep := by
    rw [Ep.acquire, show (stamped e ep).avail = [] from hempty]
  rw [openFrame_eq, if_neg hnot, hacq, if_neg hnot]

/-- Opening a frame stamps the registers and changes beside them only the buffers held and the event trace. -/
theorem openFrame_frame (e : Endpoint) (ep : Ep) :
    ep.openFrame e =
      { stamped e ep with
        active := (ep.openFrame e).active, avail := (ep.openFrame e).avail, events := (ep.openFrame e).events } := by
  cases hact : ep.active with
  | some ab => rw [openFrame_of_held (by simp [hact])]
  | none =>
    cases havail : ep.avail with
    | nil => rw [openFrame_of_none hact havail]; rfl
    | cons buf queue => rw [openFrame_of_queued hact havail]

theorem stamped_sameBuffers (e : Endpoint) (ep : Ep) : SameBuffers ep (stamped e ep) :=
  ⟨rfl, rfl, rfl, rfl, rfl, rfl, rfl, rfl⟩

/-- The start hook rewinds the cursor of a held buffer, so it does not read it. -/
theorem codecStart_rewinds {e : Endpoint} {ep : Ep} (s : State) (h : ep.holdsBuffer = true) :
    codecStart e (s.withEp e ep) = codecStart e (s.withEp e { ep with cursor := 0 }) := by
  have hzero : ({ ep with cursor := 0 } : Ep).holdsBuffer = true := h
  cases e with
  | color =>
    show clStart { s with color := ep } = clStart { s with color := { ep with cursor := 0 } }
    simp only [clStart, h, hzero, if_true]
  | depth =>
    show dcStart { s with depth := ep } = dcStart { s with depth := { ep with cursor := 0 } }
    simp only [dcStart, h, hzero, if_true]

theorem raStart_moves (e : Endpoint) (s : State) : Moves (s.ep e) ((raStart e s).ep e) := by
  have hook (ep : Ep) : BufMoves ep ((codecStart e (s.withEp e ep)).ep e) := by
    simpa using codecStart_moves e (s.withEp e ep)
  have hstamp := stamped_sameBuffers e (s.ep e)
  unfold raStart State.modEp
  cases hact : (s.ep e).active with
  | some ab =>
    rw [openFrame_of_held (by simp [hact])]
    exact (Moves.of_regs hstamp).trans (hook _).moves
  | none =>
    cases havail : (s.ep e).avail with
    | nil =>
      rw [openFrame_of_none hact havail]
      have hlog : SameBuffers (s.ep e) ((stamped e (s.ep e)).logEvent .noBuffer) := ⟨rfl, rfl, rfl, rfl, rfl, rfl, rfl, rfl⟩
      exact (Moves.of_regs hlog).trans (hook _).moves
    | cons buf queue =>
      rw [openFrame_of_queued hact havail, codecStart_rewinds s rfl]
      have hacq : Move (stamped e (s.ep e)) _ :=
        .acquire (hstamp.active.trans hact) (hstamp.avail.trans havail)
      exact ((Moves.of_regs hstamp).tail hacq).trans (hook _).moves

/-! ### The reassembler's operations are sequences of moves -/

theorem modEp_moves {e : Endpoint} {s : State} {f : Ep → Ep} (h : SameBuffers (s.ep e) (f (s.ep e))) :
    Moves (s.ep e) ((s.modEp e f).ep e) := by
  rw [modEp_ep]
  exact .of_regs h

theorem seek1_sameBuffers (c : Cfg) (ep : Ep) (b : Byte) : SameBuffers ep (ep.seek1 c b) := by
  unfold Ep.seek1
  split <;> exact ⟨rfl, rfl, rfl, rfl, rfl, rfl, rfl, rfl⟩

theorem seek2_sameBuffers (c : Cfg) (ep : Ep) (b : Byte) : SameBuffers ep (ep.seek2 c b) := by
  unfold Ep.seek2 Ep.seek1
  split
  · exact ⟨rfl, rfl, rfl, rfl, rfl, rfl, rfl, rfl⟩
  · split <;> exact ⟨rfl, rfl, rfl, rfl, rfl, rfl, rfl, rfl⟩

theorem continuation_sameBuffers (ep : Ep) (seq : Half) : SameBuffers ep (ep.continuation seq) := by
  rcases continuation_cases ep seq with ⟨_, h⟩ | ⟨_, h⟩ <;> rw [h] <;> exact ⟨rfl, rfl, rfl, rfl, rfl, rfl, rfl, rfl⟩

theorem raSeek1_moves (e : Endpoint) (b : Byte) (s : State) : Moves (s.ep e) ((raSeek1 e b s).ep e) :=
  modEp_moves (seek1_sameBuffers _ _ _)

theorem raSeek2_moves (e : Endpoint) (b : Byte) (s : State) : Moves (s.ep e) ((raSeek2 e b s).ep e) :=
  modEp_moves (seek2_sameBuffers _ _ _)

theorem raCont_moves (e : Endpoint) (seq : Half) (s : State) : Moves (s.ep e) ((raCont e seq s).ep e) :=
  modEp_moves (continuation_sameBuffers _ _)

theorem forwarded_moves (e : Endpoint) (b : Byte) (s : State) : BufMoves (s.ep e) ((Reassembler.forwarded e b s).ep e) := by
  unfold Reassembler.forwarded
  split
  · exact .refl
  · exact codecData_moves e [b] s

/-- A relation between the machine before and after that the reassembler's building blocks keep, and so all of its
operations: changes of other registers, the start of a frame, and the hooks. -/
structure Closed (e : Endpoint) (R : State → State → Prop) : Prop where
  refl : ∀ s, R s s
  trans : ∀ {s t u}, R s t → R t u → R s u
  regs : ∀ s (f : Ep → Ep), SameBuffers (s.ep e) (f (s.ep e)) → R s (s.modEp e f)
  start : ∀ s, R s (raStart e s)
  data : ∀ s bytes, R s (codecData e bytes s)
  finish : ∀ s, R s (codecEnd e s)

section Closed

variable {e : Endpoint} {R : State → State → Prop}

theorem Closed.raPktdone (h : Closed e R) (s : State) : R s (raPktdone e s) := by
  have hreset (t : State) : R t (t.modEp e fun ep => { ep with rstate := .seek1, hdrFill := 0 }) :=
    h.regs t _ ⟨rfl, rfl, rfl, rfl, rfl, rfl, rfl, rfl⟩
  unfold Machine.raPktdone
  simp only []
  split
  · exact h.trans (h.finish s) (hreset _)
  · exact hreset s

theorem Closed.endIfSpent (h : Closed e R) (s : State) :
    R s (if (s.ep e).remaining = 0 then Machine.raPktdone e s else s) := by
  split
  · exact h.raPktdone s
  · exact h.refl s

theorem Closed.openPacket (h : Closed e R) (s : State) : R s (openPacket e s) := by
  unfold Sides.openPacket
  split
  · exact h.start s
  · exact h.regs s _ (continuation_sameBuffers _ _)

theorem Closed.enterPayload (h : Closed e R) (s : State) : R s (enterPayload e s) :=
  h.trans (h.regs s Ep.latchHeader ⟨rfl, rfl, rfl, rfl, rfl, rfl, rfl, rfl⟩)
    (h.trans (h.openPacket _) (h.regs _ _ ⟨rfl, rfl, rfl, rfl, rfl, rfl, rfl, rfl⟩))

theorem Closed.raHdrdone (h : Closed e R) (s : State) : R s (raHdrdone e s) :=
  h.trans (h.enterPayload s) (h.endIfSpent _)

theorem Closed.raHdr (h : Closed e R) (b : Byte) (s : State) : R s (raHdr e b s) := by
  have hpush : R s (s.modEp e fun ep => ep.pushHdr b) := h.regs s _ ⟨rfl, rfl, rfl, rfl, rfl, rfl, rfl, rfl⟩
  unfold Machine.raHdr
  simp only []
  split
  · exact h.trans hpush (h.raHdrdone _)
  · exact hpush

theorem Closed.forwarded (h : Closed e R) (b : Byte) (s : State) : R s (Reassembler.forwarded e b s) := by
  unfold Reassembler.forwarded
  split
  · exact h.refl s
  · exact h.data s [b]

theorem Closed.raPay (h : Closed e R) (b : Byte) (s : State) : R s (raPay e b s) :=
  h.trans (h.forwarded b s)
    (h.trans (h.regs _ Ep.countPayload ⟨rfl, rfl, rfl, rfl, rfl, rfl, rfl, rfl⟩) (h.endIfSpent _))

theorem Closed.raByte (h : Closed e R) (s : State) (b : Byte) : R s (raByte e s b) := by
  have hcount : R s (countByte e s) := h.regs s _ ⟨rfl, rfl, rfl, rfl, rfl, rfl, rfl, rfl⟩
  refine h.trans hcount ?_
  rw [raByte_eq, dispatchByte]
  split
  · exact h.regs _ _ (seek1_sameBuffers _ _ _)
  · exact h.regs _ _ (seek2_sameBuffers _ _ _)
  · exact h.raHdr b _
  · exact h.raPay b _

theorem Closed.foldl_raByte (h : Closed e R) (bytes : List Byte) (s : State) : R s (bytes.foldl (Machine.raByte e) s) := by
  induction bytes generalizing s with
  | nil => exact h.refl s
  | cons b bytes ih => exact h.trans (h.raByte s b) (ih _)

theorem Closed.raChunk (h : Closed e R) (bytes : List Byte) (s : State) : R s (raChunk e bytes s) := by
  unfold Machine.raChunk
  split
  · exact h.foldl_raByte bytes s
  · exact h.refl s

end Closed

/-- The reassembler works on its endpoint's buffers by moves. -/
theorem moves_closed (e : Endpoint) : Closed e fun s t => Moves (s.ep e) (t.ep e) where
  refl _ := .refl
  trans h k := h.trans k
  regs _ _ h := modEp_moves h
  start := raStart_moves e
  data s bytes := (codecData_moves e bytes s).moves
  finish s := (codecEnd_moves e s).moves

/-! ### What the moves keep -/

/-- A codec's moves change the buffer held, the cursor, the event trace and the completions only. -/
def BufFrame (a b : Ep) : Prop :=
  b = { a with active := b.active, cursor := b.cursor, events := b.events, completed := b.completed }

theorem BufMove.frame {a b : Ep} (h : BufMove a b) : BufFrame a b := by
  cases h with
  | write bytes => rw [BufFrame]; rcases bufWrite_cases a bytes with ⟨_, h⟩ | ⟨ab, _, h⟩ <;> rw [h]
  | rewind => rfl
  | complete st => rw [BufFrame]; rcases complete_cases a st with ⟨_, h⟩ | ⟨ab, _, h⟩ <;> rw [h]

theorem BufMoves.frame {a b : Ep} (h : BufMoves a b) : BufFrame a b := by
  induction h with
  | refl => rfl
  | @tail b c _ hmove ih =>
    have hc : c = { b with active := c.active, cursor := c.cursor, events := c.events, completed := c.completed } :=
      hmove.frame
    rw [BufFrame, hc, show b = _ from ih]

/-- The ids an endpoint holds or has handed back (R89). -/
def owned (ep : Ep) : List Nat := ep.heldIds ++ completedIds ep

/-- Handing a buffer back moves its id from what is held to what is completed. -/
theorem complete_owned (ep : Ep) (st : Status) : (owned (ep.complete st)).Perm (owned ep) := by
  rcases complete_cases ep st with ⟨_, h⟩ | ⟨ab, hact, h⟩
  · rw [h]
  · rw [h]
    simp only [owned, Ep.heldIds, completedIds, hact, Option.toList_some, Option.toList_none, List.map_append,
      List.map_cons, List.map_nil, List.nil_append, List.singleton_append, ← List.append_assoc]
    exact List.perm_append_singleton ab.buf.id _

theorem bufWrite_heldIds (ep : Ep) (bytes : List Byte) : (ep.bufWrite bytes).heldIds = ep.heldIds := by
  rcases bufWrite_cases ep bytes with ⟨_, h⟩ | ⟨ab, hact, h⟩
  · rw [h]
  · rw [h]; simp [Ep.heldIds, hact]

theorem acquired_heldIds {a : Ep} {buf : Buf} {queue : List Buf} (hfree : a.active = none)
    (hqueue : a.avail = buf :: queue) :
    ({ a with active := some { buf := buf, mem := [] }, avail := queue, cursor := 0 } : Ep).heldIds = a.heldIds := by
  simp [Ep.heldIds, hfree, hqueue]

theorem SameBuffers.heldIds {a b : Ep} (h : SameBuffers a b) : b.heldIds = a.heldIds := by
  rw [Ep.heldIds, Ep.heldIds, h.active, h.avail]

theorem SameBuffers.owned_eq {a b : Ep} (h : SameBuffers a b) : owned b = owned a := by
  rw [owned, owned, h.heldIds, completedIds, completedIds, h.completed]

/-- No move drops a buffer or makes one up (R89). -/
theorem Move.owned_perm {a b : Ep} (h : Move a b) : (owned b).Perm (owned a) := by
  cases h with
  | buf h =>
    cases h with
    | write bytes => rw [owned, owned, bufWrite_heldIds, completedIds, completedIds, bufWrite_completed]
    | rewind => exact .refl _
    | complete st => exact complete_owned a st
  | regs h => rw [h.owned_eq]
  | acquire hfree hqueue => rw [owned, acquired_heldIds hfree hqueue]; exact .refl _

theorem Moves.owned_perm {a b : Ep} (h : Moves a b) : (owned b).Perm (owned a) :=
  keeps_of_moves (P := fun ep => (owned ep).Perm (owned a)) (fun _ _ hm hp => hm.owned_perm.trans hp) h (.refl _)

/-- What a move leaves held was held before. -/
theorem Move.heldIds_sublist {a b : Ep} (h : Move a b) : b.heldIds.Sublist a.heldIds := by
  cases h with
  | buf h =>
    cases h with
    | write bytes => rw [bufWrite_heldIds]
    | rewind => exact .refl _
    | complete st =>
      rcases complete_cases a st with ⟨_, h⟩ | ⟨ab, hact, h⟩
      · rw [h]
      · rw [h]; simp [Ep.heldIds]
  | regs h => rw [h.heldIds]
  | acquire hfree hqueue => rw [acquired_heldIds hfree hqueue]

theorem Moves.heldIds_sublist {a b : Ep} (h : Moves a b) : b.heldIds.Sublist a.heldIds :=
  keeps_of_moves (P := fun ep => ep.heldIds.Sublist a.heldIds) (fun _ _ hm hp => hm.heldIds_sublist.trans hp) h (.refl _)

/-- The format and whether the endpoint is enabled are the same on both. -/
structure SameFormat (a b : Ep) : Prop where
  enabled : b.enabled = a.enabled
  imageSize : b.imageSize = a.imageSize
  imageWidth : b.imageWidth = a.imageWidth
  fmtSet : b.fmtSet = a.fmtSet

theorem BufFrame.sameFormat {a b : Ep} (h : BufFrame a b) : SameFormat a b := by
  rw [h]
  exact ⟨rfl, rfl, rfl, rfl⟩

theorem Move.sameFormat {a b : Ep} (h : Move a b) : SameFormat a b := by
  cases h with
  | buf h => exact h.frame.sameFormat
  | regs h => exact ⟨h.enabled, h.imageSize, h.imageWidth, h.fmtSet⟩
  | acquire hfree hqueue => exact ⟨rfl, rfl, rfl, rfl⟩

theorem Moves.sameFormat {a b : Ep} (h : Moves a b) : SameFormat a b :=
  keeps_of_moves (P := SameFormat a)
    (fun _ _ hm hp => ⟨hm.sameFormat.enabled.trans hp.enabled, hm.sameFormat.imageSize.trans hp.imageSize,
      hm.sameFormat.imageWidth.trans hp.imageWidth, hm.sameFormat.fmtSet.trans hp.fmtSet⟩) h ⟨rfl, rfl, rfl, rfl⟩

/-- Every buffer that an endpoint holds or has handed back is in canonical form. -/
def EpWf (ep : Ep) : Prop := (∀ ab ∈ ep.active, Memory.wf ab.mem) ∧ ∀ c ∈ ep.completed, Memory.wf c.mem

theorem complete_wf {ep : Ep} (st : Status) (h : EpWf ep) : EpWf (ep.complete st) := by
  obtain ⟨hact, hcomp⟩ := h
  rcases complete_cases ep st with ⟨_, e⟩ | ⟨ab, hab, e⟩
  · rw [e]; exact ⟨hact, hcomp⟩
  · rw [e]
    refine ⟨fun _ h => by simp at h, fun c hc => ?_⟩
    rcases List.mem_append.1 hc with hc | hc
    · exact hcomp c hc
    · rw [List.mem_singleton.1 hc]; exact hact ab hab

theorem Move.wf {a b : Ep} (h : Move a b) (ha : EpWf a) : EpWf b := by
  cases h with
  | buf h =>
    cases h with
    | write bytes => exact ⟨bufWrite_mem_wf ha.1, by rw [bufWrite_completed]; exact ha.2⟩
    | rewind => exact ha
    | complete st => exact complete_wf st ha
  | regs h => rw [EpWf, h.active, h.completed]; exact ha
  | acquire hfree hqueue =>
    refine ⟨fun ab hab => ?_, ha.2⟩
    rw [← Option.some.inj hab]
    exact List.Pairwise.nil

theorem Moves.wf {a b : Ep} (h : Moves a b) (ha : EpWf a) : EpWf b := keeps_of_moves (fun _ _ hm => hm.wf) h ha

end Sys2Proof.Proofs.Buffers
end


section
/-! PROOFS. What an operation and what a step can do, said once (R84, R86, R100): an operation of an endpoint, a control
operation or a minifloat operation; and what a stimulus makes of it. -/

namespace Sys2Proof.Proofs.Steps

open Sys2Proof.Machine Sys2Proof.Safety Sys2Proof.Proofs.Sides Sys2Proof.Proofs.Buffers

/-! ### Guards -/

theorem next_of_guard {c : Prop} [Decidable c] {a t : State} {r : Refusal}
    (h : (if c then .next a else .refused r : Host.Outcome State Fault Refusal) = .next t) : c ∧ t = a := by
  split at h
  · exact ⟨‹c›, (Host.Outcome.next.inj h).symm⟩
  · cases h

theorem next_of_precondition {c : Prop} [Decidable c] {o : Host.Outcome State Fault Refusal} {t : State} {r : Refusal}
    (h : (if c then .refused r else o) = .next t) : ¬ c ∧ o = .next t := by
  split at h
  · cases h
  · exact ⟨‹¬ c›, h⟩

/-! ### The operations of an endpoint -/

/-- The operations of a callback: RA.CHUNK and what it is made of (R84, R100). -/
def isCallback : Instr → Bool
  | .raChunk _ _ => true
  | i => !isAgentOp i

/-- A callback's operation that an agent performs as a step is RA.CHUNK. -/
theorem isCallback_cases {i : Instr} (h : isCallback i = true) :
    isAgentOp i = false ∨ ∃ e bytes, i = .raChunk e bytes := by
  unfold isCallback at h
  split at h
  · exact .inr ⟨_, _, rfl⟩
  · exact .inl (by simpa using h)

/-- A state function of endpoint `e`'s callback: it works on its side alone, and on its buffers by moves. -/
structure Callback (e : Endpoint) (f : State → State) : Prop where
  isLocal : Local e f
  moves : ∀ s, Moves (s.ep e) ((f s).ep e)

/-- A callback's function that leaves the codec alone or works on registers the reassembler does not name. -/
theorem Callback.of_bufMoves {e : Endpoint} {f : State → State} (hf : Local e f)
    (h : ∀ s, BufMoves (s.ep e) ((f s).ep e)) : Callback e f := ⟨hf, fun s => (h s).moves⟩

/-- The machine with this table built (R241). -/
def withTable (s : State) (l : Lut) : State := { s with dc := { s.dc with lut := l, lutValid := true } }

@[simp] theorem withTable_ep (s : State) (l : Lut) (e : Endpoint) : (withTable s l).ep e = s.ep e := by cases e <;> rfl

theorem withTable_session (s : State) (l : Lut) :
    (withTable s l).cfg = s.cfg ∧ (withTable s l).stim = s.stim ∧ (withTable s l).calls = s.calls
      ∧ (withTable s l).cc = s.cc ∧ (withTable s l).dh = s.dh ∧ (withTable s l).env = s.env :=
  ⟨rfl, rfl, rfl, rfl, rfl, rfl⟩

theorem withTable_color (s : State) (l : Lut) : (withTable s l).color = s.color ∧ (withTable s l).cl = s.cl := ⟨rfl, rfl⟩

@[simp] theorem withTable_lut (s : State) (l : Lut) : (withTable s l).dc.lut = l := rfl

/-- Everything an operation of endpoint `e` can do when it goes on. -/
inductive EndpointStep (s : State) : Instr → Endpoint → State → Prop where
  | callback {i : Instr} {e : Endpoint} {f : State → State} (hi : isCallback i = true) (hf : Callback e f) :
      EndpointStep s i e (f s)
  | enable {e : Endpoint} (hoff : (s.ep e).enabled = false) (hfmt : (s.ep e).fmtSet = true)
      (hlut : e = .depth → s.dc.lutValid = true) : EndpointStep s (.raEnable e) e (raEnable e s)
  | disable {e : Endpoint} : EndpointStep s (.raDisable e) e (s.modEp e Ep.disable)
  | enqueue {e : Endpoint} {buf : Buf} (hnew : buf.id ∉ s.heldIds) :
      EndpointStep s (.bqEnqueue e buf) e (s.modEp e fun ep => { ep with avail := ep.avail ++ [buf] })
  | format {e : Endpoint} {w h l n : Nat} (hoff : (s.ep e).enabled = false) (hw : e = .color → w ≠ 0) :
      EndpointStep s (.fmtSet e w h l n) e
        (s.modEp e fun ep => { ep with imageWidth := w, bytesPerLine := l, imageSize := n, fmtSet := true })
  | table (hoff : s.depth.enabled = false) :
      EndpointStep s .lutBuild .depth
        (withTable s (lutFill s.cfg s.dh.cal s.dc.lut))

/-- A callback's operation that goes on. -/
theorem EndpointStep.of_eq {s t : State} {i : Instr} {e : Endpoint} {f : State → State} (hi : isCallback i = true)
    (hf : Callback e f) (h : t = f s) : EndpointStep s i e t := h ▸ .callback hi hf

theorem execRaEnable_next {e : Endpoint} {s t : State} (h : execRaEnable e s = .next t) :
    EndpointStep s (.raEnable e) e t := by
  obtain ⟨hoff, h⟩ := next_of_precondition h
  obtain ⟨hfmt, h⟩ := next_of_precondition h
  obtain ⟨hlut, h⟩ := next_of_precondition h
  cases h
  exact .enable (by simpa using hoff) (by simpa using hfmt) fun he => by simpa [he] using hlut

theorem execFmtSet_next {e : Endpoint} {w h l n : Nat} {s t : State} (hx : execFmtSet e w h l n s = .next t) :
    EndpointStep s (.fmtSet e w h l n) e t := by
  obtain ⟨hoff, hx⟩ := next_of_precondition hx
  obtain ⟨hw, hx⟩ := next_of_precondition hx
  cases hx
  exact .format (by simpa using hoff) fun he hzero => hw ⟨he, hzero⟩

/-- What an operation of an endpoint can do, for all of them. -/
theorem exec_endpoint {i : Instr} {e : Endpoint} {s t : State} (hi : endpointOf i = some e) (hx : exec i s = .next t) :
    EndpointStep s i e t := by
  cases i with
  | mfU2f | mfMul | mfAdd | mfDiv | ccXfer | ccGetVersion | ccGetFixed | ccGetAlgo | ccGetSerial | ccSetParam | ccReset
  | ccInit => cases hi
  | raEnable d => cases hi; exact execRaEnable_next hx
  | raDisable d => cases hi; cases hx; exact .disable
  | bqEnqueue d buf =>
    cases hi
    obtain ⟨-, hx⟩ := next_of_precondition (show execBqEnqueue _ buf s = _ from hx)
    obtain ⟨hnew, hx⟩ := next_of_precondition hx
    cases hx
    exact .enqueue hnew
  | fmtSet d w h l n => cases hi; exact execFmtSet_next hx
  | raChunk d bytes => cases hi; cases hx; exact .callback rfl ⟨raChunk_local _ bytes, (moves_closed _).raChunk bytes⟩
  | raByte d b => cases hi; cases hx; exact .of_eq rfl ⟨raByte_local _ b, fun s => (moves_closed _).raByte s b⟩ rfl
  | raSeek1 d b => cases hi; cases hx; exact .callback rfl ⟨raSeek1_local _ b, raSeek1_moves _ b⟩
  | raSeek2 d b => cases hi; cases hx; exact .callback rfl ⟨raSeek2_local _ b, raSeek2_moves _ b⟩
  | raHdr d b => cases hi; cases hx; exact .callback rfl ⟨raHdr_local _ b, (moves_closed _).raHdr b⟩
  | raHdrdone d => cases hi; cases hx; exact .callback rfl ⟨raHdrdone_local _, (moves_closed _).raHdrdone⟩
  | raStart d => cases hi; cases hx; exact .callback rfl ⟨raStart_local _, raStart_moves _⟩
  | raCont d seq => cases hi; cases hx; exact .callback rfl ⟨raCont_local _ seq, raCont_moves _ seq⟩
  | raPay d b => cases hi; cases hx; exact .callback rfl ⟨raPay_local _ b, (moves_closed _).raPay b⟩
  | raPktdone d => cases hi; cases hx; exact .callback rfl ⟨raPktdone_local _, (moves_closed _).raPktdone⟩
  | lutBuild =>
    cases hi
    obtain ⟨hoff, hx⟩ := next_of_precondition (show execLutBuild s = _ from hx)
    cases hx
    exact .table (by simpa using hoff)
  | dcStart => cases hi; cases hx; exact .callback rfl (.of_bufMoves dcStart_local dcStart_moves)
  | dcData bytes => cases hi; cases hx; exact .callback rfl (.of_bufMoves (dcData_local bytes) (dcData_moves bytes))
  | dcUnpack u =>
    cases hi
    exact .of_eq rfl (.of_bufMoves (dcUnpack_local u) (dcUnpack_moves u)) (next_of_guard hx).2
  | dcEnd => cases hi; cases hx; exact .callback rfl (.of_bufMoves dcEnd_local dcEnd_moves)
  | clStart => cases hi; cases hx; exact .callback rfl (.of_bufMoves clStart_local clStart_moves)
  | clData bytes => cases hi; cases hx; exact .callback rfl (.of_bufMoves (clData_local bytes) (clData_moves bytes))
  | clNib n =>
    cases hi
    obtain ⟨-, hx⟩ := next_of_precondition (show execClNib n s = _ from hx)
    cases hx
    exact .of_eq rfl (.of_bufMoves (clNib_local n) fun s => clNib_moves s n) rfl
  | clDelta n =>
    cases hi
    obtain ⟨-, hx⟩ := next_of_precondition (show execClDelta n s = _ from hx)
    exact .of_eq rfl (.of_bufMoves (clDelta_local n) fun s => clEmit_moves _ s) (next_of_guard hx).2
  | clSkip n =>
    cases hi
    exact .of_eq rfl (.of_bufMoves (clSkip_local n) fun _ => .refl) (next_of_guard (show execClSkip n s = _ from hx)).2
  | clLit => cases hi; cases hx; exact .callback rfl (.of_bufMoves clLit_local fun _ => .refl)
  | clLithi n => cases hi; cases hx; exact .callback rfl (.of_bufMoves (clLithi_local n) fun _ => .refl)
  | clLitlo n =>
    cases hi
    exact .of_eq rfl (.of_bufMoves (clLitlo_local n) fun s => clEmit_moves (s.cl.litHi ++ n) _) (next_of_guard hx).2
  | clEmit v =>
    cases hi
    exact .of_eq rfl (.of_bufMoves (clEmit_local v) (clEmit_moves v)) (next_of_guard hx).2
  | clEnd => cases hi; cases hx; exact .callback rfl (.of_bufMoves clEnd_local clEnd_moves)

/-- But for the table's build, an operation of an endpoint changes its own side alone. -/
theorem EndpointStep.frame {s t : State} {i : Instr} {e : Endpoint} (h : EndpointStep s i e t) (hi : i ≠ .lutBuild) :
    t = takeSide s e t := by
  cases h with
  | callback _ hf => exact hf.isLocal.frame s
  | enable => exact (raEnable_local e).frame s
  | disable => exact (Local.modEp e fun _ => Ep.disable).frame s
  | @enqueue _ buf => exact (Local.modEp e fun _ ep => { ep with avail := ep.avail ++ [buf] }).frame s
  | @format _ w _ l n =>
    exact (Local.modEp e fun _ ep => { ep with imageWidth := w, bytesPerLine := l, imageSize := n, fmtSet := true }).frame s
  | table => exact absurd rfl hi

/-! ### The control operations -/

/-- What a control operation leaves: the state of its body, with at most one result more (R311, R358). -/
def ControlStep (s t : State) : Prop := ∃ u, CtrlFrame s u ∧ (t = u ∨ ∃ r, t = u.answer r)

theorem xferReply_frame (req : List Byte) (m : Nat) (s : State) : CtrlFrame s (xferReply req m s).2 := by
  obtain ⟨res, evs, env, h, -⟩ := xferReply_cases req m s
  rw [h]
  exact ⟨_, _, s.dh, rfl, rfl, fun _ => rfl⟩

theorem xferSilent_frame (req : List Byte) (s : State) : CtrlFrame s (xferSilent req s).2 := by
  obtain ⟨res, w, d, h, -⟩ := xferSilent_cases req s
  rw [h]
  exact ⟨_, _, s.dh, rfl, rfl, fun _ => rfl⟩

/-- CC.SET_PARAM ends in the state its exchange ends in. -/
theorem setParam_state (param value : Half) (s : State) :
    (setParam param value s).2 = (exchange s.cfg.opSetParam (putHalf param ++ putHalf value) s).2 := by
  unfold setParam
  rcases exchange s.cfg.opSetParam (putHalf param ++ putHalf value) s with ⟨_ | _, u⟩ <;> rfl

theorem setParam_frame (param value : Half) (s : State) : CtrlFrame s (setParam param value s).2 := by
  rw [setParam_state]
  exact exchange_frame _ _ s

/-- A relation that an operation keeps is kept along the rest of the sequence. -/
theorem initThen_keeps {R : State → Prop} {r : Except CtrlError Unit × State} {k : State → InitOutcome × State}
    (hr : R r.2) (hk : ∀ u, R u → R (k u).2) : R (initThen r k).2 := by
  rcases r with ⟨_ | _, u⟩
  · exact hr
  · exact hk u hr

theorem initAttempt_keeps {R : State → Prop} {sel : List Byte} {s : State}
    (hversion : ∀ u, R u → R (getVersion u).2) (hreset : ∀ u, R u → R (resetDevice u).2)
    (hfixed : ∀ u, R u → R (getFixed u).2) (hserial : ∀ u, R u → R (getSerial u).2)
    (halgo : ∀ u, R u → R (getAlgo sel u).2) (hs : R s) : R (initAttempt sel s).2 := by
  have hv := hversion s hs
  unfold initAttempt
  revert hv
  rcases getVersion s with ⟨_ | v, u⟩ <;> intro hv
  · exact hv
  · simp only []
    split
    · exact hv
    · exact initThen_keeps (hreset u hv) fun u hu => initThen_keeps (hfixed u hu) fun u hu =>
        initThen_keeps (hserial u hu) fun u hu => initThen_keeps (halgo u hu) fun _ h => h

/-- What each attempt of the bring-up keeps, the loop keeps (R178). -/
theorem initLoop_keeps {R : State → Prop} {sel : List Byte} (h : ∀ u, R u → R (initAttempt sel u).2) (n : Nat)
    (last : InitCause) {s : State} (hs : R s) : R (initLoop sel n last s).2 := by
  induction n generalizing last s with
  | zero => exact hs
  | succ n ih =>
    have ha := h s hs
    rw [initLoop_succ]
    revert ha
    rcases initAttempt sel s with ⟨_ | _ | e, u⟩ <;> intro ha
    · exact ha
    · exact ha
    · exact ih (.error e) ha

theorem initLoop_frame (sel : List Byte) (n : Nat) (last : InitCause) (s : State) :
    CtrlFrame s (initLoop sel n last s).2 :=
  initLoop_keeps (R := CtrlFrame s)
    (fun _ => initAttempt_keeps (fun u h => h.trans (getVersion_frame u)) (fun u h => h.trans (resetDevice_frame u))
      (fun u h => h.trans (getFixed_frame u)) (fun u h => h.trans (getSerial_frame u))
      fun u h => h.trans (getAlgo_frame sel u)) n last (CtrlFrame.refl s)

/-- Everything a control operation can do: wait, or run its body and answer. -/
theorem runControl_cases {α : Type} {i : Instr} {f : α → OpResult} {body : State → Except CtrlError α × State}
    {s t : State} (h : runControl i f body s = .next t) :
    t = s ∨ t = (body s).2.answer (ctrlResult f (body s).1) := by
  unfold runControl at h
  split at h
  · cases h; exact .inl rfl
  · cases h; exact .inr rfl

/-- A control operation's state is the one before, or its body's with the result; `R` is what the bodies keep. -/
theorem exec_control_keeps {R : State → Prop} {i : Instr} {s t : State} (hi : isControl i = true)
    (hx : exec i s = .next t) (hs : R s)
    (hxfer : ∀ req m, R (xferReply req m s).2) (hsilent : ∀ req, R (xferSilent req s).2)
    (hparam : ∀ p v, R (setParam p v s).2)
    (hversion : ∀ u, R u → R (getVersion u).2) (hreset : ∀ u, R u → R (resetDevice u).2)
    (hfixed : ∀ u, R u → R (getFixed u).2) (hserial : ∀ u, R u → R (getSerial u).2)
    (halgo : ∀ sel u, R u → R (getAlgo sel u).2) : ∃ u, R u ∧ (t = u ∨ ∃ r, t = u.answer r) := by
  have hrun {α : Type} {f : α → OpResult} {body : State → Except CtrlError α × State}
      (hb : R (body s).2) (h : runControl i f body s = .next t) : ∃ u, R u ∧ (t = u ∨ ∃ r, t = u.answer r) := by
    rcases runControl_cases h with h | h
    · exact ⟨s, hs, .inl h⟩
    · exact ⟨_, hb, .inr ⟨_, h⟩⟩
  cases i with
  | mfU2f | mfMul | mfAdd | mfDiv | raEnable | raDisable | bqEnqueue | fmtSet | raChunk | raByte | raSeek1 | raSeek2
  | raHdr | raHdrdone | raStart | raCont | raPay | raPktdone | lutBuild | dcStart | dcData | dcUnpack | dcEnd | clStart
  | clData | clNib | clDelta | clSkip | clLit | clLithi | clLitlo | clEmit | clEnd => cases hi
  | ccXfer req want m =>
    obtain ⟨-, hx⟩ := next_of_precondition (show execCcXfer req want m s = _ from hx)
    split at hx
    · exact hrun (hxfer req m) hx
    · exact hrun (hsilent req) hx
  | ccGetVersion => exact hrun (hversion s hs) hx
  | ccGetFixed => exact hrun (hfixed s hs) hx
  | ccGetAlgo sel =>
    obtain ⟨-, hx⟩ := next_of_precondition (show execCcGetAlgo sel s = _ from hx)
    exact hrun (halgo sel s hs) hx
  | ccGetSerial => exact hrun (hserial s hs) hx
  | ccSetParam p v => exact hrun (hparam p v) hx
  | ccReset => exact hrun (hreset s hs) hx
  | ccInit sel =>
    obtain ⟨-, hx⟩ := next_of_precondition (show execCcInit sel s = _ from hx)
    split at hx
    · cases hx; exact ⟨s, hs, .inl rfl⟩
    · cases hx
      have hloop := initLoop_keeps (R := R)
        (fun _ => initAttempt_keeps hversion hreset hfixed hserial (halgo sel)) s.cfg.initRetries .noAttempt hs
      exact ⟨_, hloop, .inr ⟨_, rfl⟩⟩

/-- A control operation works on the session's registers and the environment's record alone (R61). -/
theorem exec_control {i : Instr} {s t : State} (hi : isControl i = true) (hx : exec i s = .next t) : ControlStep s t :=
  exec_control_keeps (R := CtrlFrame s) hi hx (CtrlFrame.refl s) (fun req m => xferReply_frame req m s)
    (fun req => xferSilent_frame req s) (fun p v => setParam_frame p v s) (fun u h => h.trans (getVersion_frame u))
    (fun u h => h.trans (resetDevice_frame u)) (fun u h => h.trans (getFixed_frame u))
    (fun u h => h.trans (getSerial_frame u)) fun sel u h => h.trans (getAlgo_frame sel u)

/-! ### Every operation -/

theorem mfAnswer_next {f : Word → OpResult} {r : Option Word} {s t : State} (h : mfAnswer f r s = .next t) :
    ∃ w, r = some w ∧ t = s.answer (f w) := by
  cases r with
  | none => cases h
  | some w => cases h; exact ⟨w, rfl, rfl⟩

theorem isControl_of_endpointOf {i : Instr} {e : Endpoint} (h : endpointOf i = some e) : isControl i = false := by
  cases i with
  | ccXfer | ccGetVersion | ccGetFixed | ccGetAlgo | ccGetSerial | ccSetParam | ccReset | ccInit => cases h
  | _ => rfl

/-- Everything an operation that goes on can do: a control operation's work, an endpoint's, or a minifloat result
(R61, R150). -/
theorem exec_cases {i : Instr} {s t : State} (hx : exec i s = .next t) :
    (isControl i = true ∧ endpointOf i = none ∧ ControlStep s t)
      ∨ (∃ e, isControl i = false ∧ endpointOf i = some e ∧ EndpointStep s i e t)
      ∨ (isControl i = false ∧ endpointOf i = none ∧ ∃ r, t = s.answer r) := by
  cases he : endpointOf i with
  | some e =>
    have hc : isControl i = false := isControl_of_endpointOf he
    exact .inr (.inl ⟨e, hc, rfl, exec_endpoint he hx⟩)
  | none =>
    cases hc : isControl i with
    | true => exact .inl ⟨rfl, rfl, exec_control hc hx⟩
    | false =>
      refine .inr (.inr ⟨rfl, rfl, ?_⟩)
      cases i with
      | mfU2f n => obtain ⟨w, -, h⟩ := mfAnswer_next (show mfAnswer _ _ s = _ from hx); exact ⟨_, h⟩
      | mfMul a b => obtain ⟨w, -, h⟩ := mfAnswer_next (show mfAnswer _ _ s = _ from hx); exact ⟨_, h⟩
      | mfAdd a b => obtain ⟨w, -, h⟩ := mfAnswer_next (show mfAnswer _ _ s = _ from hx); exact ⟨_, h⟩
      | mfDiv a b => obtain ⟨w, -, h⟩ := mfAnswer_next (show mfAnswer _ _ s = _ from hx); exact ⟨_, h⟩
      | ccXfer | ccGetVersion | ccGetFixed | ccGetAlgo | ccGetSerial | ccSetParam | ccReset | ccInit => cases hc
      | _ => cases he

/-! ### What an operation of each kind leaves alone -/

theorem ControlStep.frame {s t : State} (h : ControlStep s t) :
    t.cfg = s.cfg ∧ t.stim = s.stim ∧ t.calls = s.calls ∧ t.color = s.color ∧ t.depth = s.depth ∧ t.dc = s.dc
      ∧ t.cl = s.cl ∧ t.dh.cal = s.dh.cal := by
  obtain ⟨_, ⟨cc, env, dh, rfl, hcal, -⟩, rfl | ⟨r, rfl⟩⟩ := h <;> exact ⟨rfl, rfl, rfl, rfl, rfl, rfl, rfl, hcal⟩

/-- The session's registers and the environment's record are not an endpoint's to change. -/
theorem takeSide_session (u s : State) (e : Endpoint) :
    (takeSide u e s).cfg = u.cfg ∧ (takeSide u e s).stim = u.stim ∧ (takeSide u e s).calls = u.calls
      ∧ (takeSide u e s).cc = u.cc ∧ (takeSide u e s).dh = u.dh ∧ (takeSide u e s).env = u.env := by
  cases e <;> exact ⟨rfl, rfl, rfl, rfl, rfl, rfl⟩

theorem EndpointStep.session {s t : State} {i : Instr} {e : Endpoint} (h : EndpointStep s i e t) :
    t.cfg = s.cfg ∧ t.stim = s.stim ∧ t.calls = s.calls ∧ t.cc = s.cc ∧ t.dh = s.dh ∧ t.env = s.env := by
  by_cases hi : i = .lutBuild
  · subst hi
    cases h with
    | callback hi => cases hi
    | table => exact withTable_session s _
  · rw [h.frame hi]
    exact takeSide_session s t e

/-- Nor is the other endpoint's side. -/
theorem EndpointStep.otherSide {s t : State} {i : Instr} {e : Endpoint} (h : EndpointStep s i e t) :
    (e = .depth → t.color = s.color ∧ t.cl = s.cl) ∧ (e = .color → t.depth = s.depth ∧ t.dc = s.dc) := by
  by_cases hi : i = .lutBuild
  · subst hi
    cases h with
    | callback hi => cases hi
    | table => exact ⟨fun _ => withTable_color s _, fun h => by cases h⟩
  · rw [h.frame hi]
    constructor <;> rintro rfl <;> exact ⟨rfl, rfl⟩

theorem EndpointStep.otherEp {s t : State} {i : Instr} {d e : Endpoint} (h : EndpointStep s i d t) (hne : e ≠ d) :
    t.ep e = s.ep e := by
  obtain ⟨hcolor, hdepth⟩ := h.otherSide
  cases e with
  | color => cases d with
    | color => exact absurd rfl hne
    | depth => exact (hcolor rfl).1
  | depth => cases d with
    | color => exact (hdepth rfl).1
    | depth => exact absurd rfl hne

/-! ### A step -/

/-- Everything a step that goes on can do. -/
inductive StepCase (s : State) : State → Prop where
  /-- no stimulus, or a caller that waits for the lock -/
  | stays : StepCase s s
  | cal {cal : Cal} {rest : List Stimulus} (hstim : s.stim = .calWrite cal :: rest) : StepCase s (s.taken.writeCal cal)
  | runs {x : Stimulus} {bytes : List Byte} {i : Instr} {rest : List Stimulus} {t : State} (hstim : s.stim = x :: rest)
      (hx : x = .op bytes ∨ x = .invoke bytes) (hdec : decode s.cfg bytes = .ok i) (hexec : exec i s.taken = .next t) :
      StepCase s t
  | invokes {bytes : List Byte} {i : Instr} {c : Call} {rest : List Stimulus} (hstim : s.stim = .invoke bytes :: rest)
      (hdec : decode s.cfg bytes = .ok i) (hcall : callOf s.cfg i = some c) : StepCase s (s.taken.addCall c)
  | resumes {k : Nat} {rest : List Stimulus} (hstim : s.stim = .resume k :: rest) (hlock : s.cc.lock = false) :
      StepCase s (s.taken.resume k)

theorem runOp_cases {i : Instr} {s t : State} (h : runOp i s = .next t) : t = s ∨ exec i s.taken = .next t := by
  unfold runOp at h
  split at h
  · cases h; exact .inl rfl
  · exact .inr h

theorem runStimulus_next {f : Instr → State → Host.Outcome State Fault Refusal} {bytes : List Byte} {s t : State}
    (h : runStimulus f bytes s = .next t) : ∃ i, decode s.cfg bytes = .ok i ∧ f i s = .next t := by
  unfold runStimulus at h
  split at h
  · cases h
  · exact ⟨_, ‹_›, h⟩

theorem step_cases {s t : State} (h : step s = .next t) : StepCase s t := by
  unfold step at h
  split at h
  next => cases h; exact .stays
  next cal rest hstim => cases h; exact .cal hstim
  next bytes rest hstim =>
    obtain ⟨i, hdec, h⟩ := runStimulus_next h
    rcases runOp_cases h with rfl | hx
    · exact .stays
    · exact .runs hstim (.inl rfl) hdec hx
  next bytes rest hstim =>
    obtain ⟨i, hdec, h⟩ := runStimulus_next h
    unfold invoke at h
    split at h
    · rcases runOp_cases h with rfl | hx
      · exact .stays
      · exact .runs hstim (.inr rfl) hdec hx
    · cases h; exact .invokes hstim hdec ‹_›
  next k rest hstim =>
    unfold resumeCall at h
    split at h
    · cases h; exact .stays
    · cases h; exact .resumes hstim (by simpa using ‹¬ s.cc.lock = true›)

/-- Everything a resumption can do: nothing, or a step of the `k`-th operation, whose place in the list it updates. -/
theorem resume_cases (s : State) (k : Nat) :
    (s.calls.length ≤ k ∧ s.resume k = s) ∨
    ∃ c, s.calls[k]? = some c ∧
      ((∃ c' u, callStep c s = (.goesOn c', u) ∧ s.resume k = { u with calls := u.calls.set k c' })
        ∨ ∃ r u, callStep c s = (.ends r, u) ∧ s.resume k = State.answer { u with calls := u.calls.eraseIdx k } r) := by
  unfold State.resume
  cases hk : s.calls[k]? with
  | none => exact .inl ⟨List.getElem?_eq_none_iff.1 hk, rfl⟩
  | some c =>
    refine .inr ⟨c, rfl, ?_⟩
    dsimp only
    rcases callStep c s with ⟨c' | r, u⟩
    · exact .inl ⟨c', u, rfl, rfl⟩
    · exact .inr ⟨r, u, rfl, rfl⟩

/-- A resumption changes no endpoint or codec register, and of the Device Handle not `cal`. -/
theorem resume_frame (s : State) (k : Nat) :
    ∃ u, CtrlFrame s u ∧ ∃ cs rs, s.resume k = { u with calls := cs, results := rs } := by
  rcases resume_cases s k with ⟨-, h⟩ | ⟨c, -, ⟨c', u, hstep, h⟩ | ⟨r, u, hstep, h⟩⟩
  · exact ⟨s, CtrlFrame.refl s, s.calls, s.results, h⟩
  all_goals
    have hframe := callStep_frame c s
    rw [hstep] at hframe
    exact ⟨u, hframe, _, _, h⟩

end Sys2Proof.Proofs.Steps
end


section
/-! PROOFS. The whole machine: which operation shares which register (R61, R85, R182), that buffers are moved and never
dropped (R89), and the storage's canonical form along every step. -/

namespace Sys2Proof.Proofs.Whole

open Sys2Proof.Machine Sys2Proof.Safety Sys2Proof.Proofs.Sides Sys2Proof.Proofs.Buffers Sys2Proof.Proofs.Steps

/-! ### Which register is whose (R61, R85, R182) -/

/-- Settles O18: an endpoint's operation works on its side, to which the table does not belong; any other operation
leaves the depth codec alone. -/
theorem onlyLutBuildWritesTheTable : Obligations.OnlyLutBuildWritesTheTable := by
  intro i s t hi hx
  rcases exec_cases hx with ⟨-, -, h⟩ | ⟨e, -, -, h⟩ | ⟨-, -, r, rfl⟩
  · obtain ⟨-, -, -, -, -, hdc, -⟩ := h.frame
    rw [hdc]
    exact ⟨rfl, rfl⟩
  · rw [h.frame hi]
    cases e <;> exact ⟨rfl, rfl⟩
  · exact ⟨rfl, rfl⟩

/-- Settles O58: by the kind of the operation; a resumption is a step of a control operation, and an invocation runs one
or only lists it. -/
theorem controlAndStreamShareNoRegister : Obligations.ControlAndStreamShareNoRegister := by
  refine ⟨fun i s t hx => ?_, fun s t rest hstep hstim => ?_⟩
  · rcases exec_cases hx with ⟨hc, -, h⟩ | ⟨e, hc, -, h⟩ | ⟨hc, -, r, rfl⟩
    · obtain ⟨hcfg, hstim, hcalls, hrest⟩ := h.frame
      exact ⟨hcfg, hstim, hcalls, fun _ => hrest, fun h => Bool.noConfusion (hc.symm.trans h)⟩
    · obtain ⟨hcfg, hstim, hcalls, hrest⟩ := h.session
      exact ⟨hcfg, hstim, hcalls, fun h => Bool.noConfusion (hc.symm.trans h), fun _ => hrest⟩
    · exact ⟨rfl, rfl, rfl, fun h => Bool.noConfusion (hc.symm.trans h), fun _ => ⟨rfl, rfl, rfl⟩⟩
  · cases step_cases hstep with
    | stays => exact ⟨rfl, rfl, rfl, rfl, rfl, rfl⟩
    | cal h => rcases hstim with ⟨k, hs⟩ | ⟨b, i, hs, -⟩ <;> rw [h] at hs <;> cases hs
    | @runs _ _ j _ _ h hx hdec hexec =>
      have hc : isControl j = true := by
        rcases hstim with ⟨k, hs⟩ | ⟨b, i, hs, hdec', hc⟩
        · rw [h] at hs; cases hs; rcases hx with hx | hx <;> cases hx
        · rw [h] at hs
          cases hs
          rcases hx with hx | hx <;> cases hx
          rw [hdec] at hdec'
          cases hdec'
          exact hc
      obtain ⟨hcfg, -, -, hside⟩ := (exec_control hc hexec).frame
      exact ⟨hcfg, hside⟩
    | invokes => exact ⟨rfl, rfl, rfl, rfl, rfl, rfl⟩
    | @resumes k =>
      obtain ⟨u, ⟨_, _, _, rfl, hcal, -⟩, cs, rs, h⟩ := resume_frame s.taken k
      rw [h]
      exact ⟨rfl, rfl, rfl, rfl, rfl, hcal⟩

/-! ### The endpoints beside each other (R85) -/

/-- Two functions that each work on one side commute: both orders put the two new sides into the same machine. -/
theorem local_commute {f g : State → State} (hf : Local .color f) (hg : Local .depth g) (s : State) :
    f (g s) = g (f s) := by
  have hg' : takeSide (g s) .color s = g s := by rw [hg.frame s]; rfl
  have hf' : takeSide (f s) .depth s = f s := by rw [hf.frame s]; rfl
  have hglut : (g s).dc.lut = s.dc.lut := by rw [hg.frame s, takeSide_lut]
  have hflut : (f s).dc.lut = s.dc.lut := by rw [hf.frame s, takeSide_lut]
  calc f (g s) = f (takeSide (g s) .color s) := by rw [hg']
    _ = takeSide (g s) .color (f s) := hf _ _ ⟨hg.cfg s, hglut⟩
    _ = takeSide (takeSide s .depth (g s)) .color (f s) := by rw [← hg.frame s]
    _ = takeSide (takeSide s .color (f s)) .depth (g s) := rfl
    _ = takeSide (f s) .depth (g s) := by rw [← hf.frame s]
    _ = g (takeSide (f s) .depth s) := (hg _ _ ⟨hf.cfg s, hflut⟩).symm
    _ = g (f s) := by rw [hf']

/-- Settles O59: an endpoint's operation works on its side, and chunks of the two endpoints are local functions. -/
theorem endpointsShareNoRegister : Obligations.EndpointsShareNoRegister := by
  refine ⟨fun i s t hx => ?_, fun s x y => ?_⟩
  · rcases exec_cases hx with ⟨-, he, h⟩ | ⟨e, -, he, h⟩ | ⟨-, he, r, rfl⟩
    · obtain ⟨-, -, -, hcolor, hdepth, hdc, hcl, -⟩ := h.frame
      exact ⟨fun _ => ⟨hcolor, hcl⟩, fun _ => ⟨hdepth, hdc⟩, fun _ => ⟨hcolor, hcl, hdepth, hdc⟩⟩
    · obtain ⟨hcolor, hdepth⟩ := h.otherSide
      rw [he]
      exact ⟨fun h => hcolor (Option.some.inj h), fun h => hdepth (Option.some.inj h), fun h => by cases h⟩
    · exact ⟨fun _ => ⟨rfl, rfl⟩, fun _ => ⟨rfl, rfl⟩, fun _ => ⟨rfl, rfl, rfl, rfl⟩⟩
  · refine ⟨raChunk .depth y (raChunk .color x s), rfl, ?_⟩
    show Host.Outcome.next (raChunk .color x (raChunk .depth y s)) = _
    rw [local_commute (raChunk_local .color x) (raChunk_local .depth y)]

/-! ### Buffers (R89) -/

theorem complete_disabled_owned (ep : Ep) : (owned ep.disable).Perm (owned ep) := by
  have hdrain (a : Ep) : (owned a.drain).Perm (owned a) := by
    have hids : (a.avail.map cancelled).map (fun c => c.buf.id) = a.avail.map (·.id) := by
      rw [List.map_map]; rfl
    simp only [owned, Ep.heldIds, completedIds, drain_active, drain_avail, drain_completed, List.map_append, hids,
      List.map_nil, List.append_nil, List.append_assoc]
    exact (List.perm_append_comm).append_left _
  exact (hdrain _).trans ((complete_owned _ .cancelled).trans (.refl _))

/-- RA.ENABLE forgets no buffer where none is active. -/
theorem enable_owned {ep : Ep} (h : ep.active = none) : owned ep.enable = owned ep := by
  simp [owned, Ep.enable, Ep.heldIds, completedIds, h]

theorem raEnable_ep (e : Endpoint) (s : State) : (raEnable e s).ep e = (s.ep e).enable := by cases e <;> rfl

theorem enqueuedIds_of_callback {i : Instr} (h : isCallback i = true) (e : Endpoint) : enqueuedIds i e = [] := by
  cases i
  case bqEnqueue => cases h
  all_goals rfl

theorem enqueue_owned (ep : Ep) (buf : Buf) :
    (owned { ep with avail := ep.avail ++ [buf] }).Perm ([buf.id] ++ owned ep) := by
  simp only [owned, Ep.heldIds, completedIds, List.map_append, List.map_cons, List.map_nil, List.append_assoc]
  exact List.perm_iff_count.2 fun a => by simp only [List.count_append]; omega

/-- What an endpoint owns after one of its operations. -/
theorem endpointStep_owned_perm {s t : State} {i : Instr} {e : Endpoint} (h : EndpointStep s i e t)
    (hfree : ∀ d, i = .raEnable d → (s.ep d).active = none) :
    (owned (t.ep e)).Perm (enqueuedIds i e ++ owned (s.ep e)) := by
  cases h with
  | callback hi hf => rw [enqueuedIds_of_callback hi]; exact (hf.moves s).owned_perm
  | enable => rw [raEnable_ep, enable_owned (hfree _ rfl)]; exact .refl _
  | disable => rw [modEp_ep]; exact complete_disabled_owned _
  | @enqueue _ buf =>
    have hids : enqueuedIds (.bqEnqueue e buf) e = [buf.id] := if_pos rfl
    rw [modEp_ep, hids]
    exact enqueue_owned _ buf
  | format => rw [modEp_ep]; exact List.Perm.refl (owned (s.ep e))
  | table => rw [withTable_ep]; exact List.Perm.refl (owned (s.ep .depth))

theorem enqueuedIds_of_other {i : Instr} {e : Endpoint} (h : endpointOf i ≠ some e) : enqueuedIds i e = [] := by
  cases i with
  | bqEnqueue d buf => exact if_neg fun hd => h (congrArg some hd)
  | _ => rfl

/-- Settles O60: an operation of another endpoint, or of none, leaves this one's buffers where they are. -/
theorem buffersAreNeverDropped : Obligations.BuffersAreNeverDropped := by
  intro i s t e hx hfree
  show (owned (t.ep e)).Perm (enqueuedIds i e ++ (s.ep e).heldIds ++ completedIds (s.ep e))
  rw [List.append_assoc]
  have hsame (hi : endpointOf i ≠ some e) (he : t.ep e = s.ep e) :
      (owned (t.ep e)).Perm (enqueuedIds i e ++ owned (s.ep e)) := by
    rw [enqueuedIds_of_other hi, he]
    exact .refl _
  rcases exec_cases hx with ⟨-, hi, h⟩ | ⟨d, -, hi, h⟩ | ⟨-, hi, r, rfl⟩
  · obtain ⟨-, -, -, hcolor, hdepth, -⟩ := h.frame
    exact hsame (by simp [hi]) (by cases e; exacts [hcolor, hdepth])
  · by_cases hd : e = d
    · subst hd; exact endpointStep_owned_perm h hfree
    · exact hsame (by rw [hi]; simpa using Ne.symm hd) (h.otherEp hd)
  · exact hsame (by simp [hi]) (by cases e <;> rfl)

/-! ### The storage's canonical form -/

/-- The storage invariant is about the table and each endpoint's buffers. -/
theorem storageInv_iff (s : State) : StorageInv s ↔ Lut.wf s.dc.lut ∧ ∀ e, EpWf (s.ep e) :=
  ⟨fun ⟨hlut, hact, hcomp⟩ => ⟨hlut, fun e => ⟨hact e, hcomp e⟩⟩,
    fun ⟨hlut, h⟩ => ⟨hlut, fun e => (h e).1, fun e => (h e).2⟩⟩

theorem storageInv_congr {s t : State} (hlut : t.dc.lut = s.dc.lut) (hcolor : t.color = s.color)
    (hdepth : t.depth = s.depth) (h : StorageInv s) : StorageInv t := by
  rw [storageInv_iff] at h ⊢
  refine ⟨hlut ▸ h.1, fun e => ?_⟩
  cases e with
  | color => rw [ep_color, hcolor]; exact h.2 .color
  | depth => rw [ep_depth, hdepth]; exact h.2 .depth

theorem disable_wf {ep : Ep} (h : EpWf ep) : EpWf ep.disable := by
  obtain ⟨hact, hcomp⟩ := complete_wf (ep := { ep with enabled := false }) .cancelled h
  refine ⟨hact, fun c hc => ?_⟩
  rcases List.mem_append.1 hc with hc | hc
  · exact hcomp c hc
  · obtain ⟨b, -, rfl⟩ := List.mem_map.1 hc
    exact List.Pairwise.nil

theorem enable_wf {ep : Ep} (h : EpWf ep) : EpWf ep.enable := by
  obtain ⟨-, hcomp⟩ := h
  exact ⟨fun _ hab => (nomatch hab), hcomp⟩

theorem endpointStep_storageInv {s t : State} {i : Instr} {e : Endpoint} (h : EndpointStep s i e t) (hs : StorageInv s) :
    StorageInv t := by
  rw [storageInv_iff] at hs ⊢
  have hside : EpWf (t.ep e) := by
    have hep := hs.2 e
    cases h with
    | callback hi hf => exact (hf.moves s).wf hep
    | enable => rw [raEnable_ep]; exact enable_wf hep
    | disable => rw [modEp_ep]; exact disable_wf hep
    | enqueue => rw [modEp_ep]; exact hep
    | format => rw [modEp_ep]; exact hep
    | table => rw [withTable_ep]; exact hep
  refine ⟨?_, fun d => ?_⟩
  · by_cases hi : i = .lutBuild
    · subst hi
      cases h with
      | callback hi => cases hi
      | table => rw [withTable_lut]; exact lutFill_wf hs.1
    · rw [h.frame hi, takeSide_lut]
      exact hs.1
  · by_cases hd : d = e
    · exact hd ▸ hside
    · rw [h.otherEp hd]
      exact hs.2 d

/-- Settles O9: the stimulus list and the session's registers hold no memory, so only an endpoint's operation counts. -/
theorem everyStepKeepsTheStorageInvariant : Obligations.EveryStepKeepsTheStorageInvariant := by
  intro s t hs hstep
  have htaken : StorageInv s.taken := storageInv_congr rfl rfl rfl hs
  cases step_cases hstep with
  | stays => exact hs
  | cal => exact storageInv_congr rfl rfl rfl htaken
  | runs _ _ _ hexec =>
    rcases exec_cases hexec with ⟨-, -, h⟩ | ⟨e, -, -, h⟩ | ⟨-, -, r, rfl⟩
    · obtain ⟨-, -, -, hcolor, hdepth, hdc, -⟩ := h.frame
      exact storageInv_congr (congrArg Dc.lut hdc) hcolor hdepth htaken
    · exact endpointStep_storageInv h htaken
    · exact storageInv_congr rfl rfl rfl htaken
  | invokes => exact storageInv_congr rfl rfl rfl htaken
  | @resumes k =>
    obtain ⟨u, ⟨_, _, _, rfl, -⟩, cs, rs, h⟩ := resume_frame s.taken k
    rw [h]
    exact storageInv_congr rfl rfl rfl htaken

end Sys2Proof.Proofs.Whole
end


section
/-! PROOFS. The session invariant along every step: a free lock, and records and gathered pages within their sizes
(R21, R24, R25, R172). -/

namespace Sys2Proof.Proofs.Session

open Sys2Proof.Machine Sys2Proof.Safety Sys2Proof.Proofs.Steps

/-! ### The records within their sizes (R24) -/

/-- The Device Handle's records are within their sizes (R24). -/
structure RecordsOk (c : Cfg) (dh : Dh) : Prop where
  fixed : dh.fixed.length ≤ c.fixedSize
  fixedLen : dh.fixedLen = dh.fixed.length
  algo : dh.algo.length ≤ c.algoSize
  algoLen : dh.algoLen = dh.algo.length
  serial : dh.serial.length ≤ c.serialMax + 1

/-- The machine's records are within its configuration's sizes. -/
def HoldsRecords (s : State) : Prop := RecordsOk s.cfg s.dh

theorem sessionInv_iff (s : State) :
    SessionInv s ↔ s.cfg.ok = true ∧ s.cc.lock = false ∧ HoldsRecords s ∧ ∀ c ∈ s.calls, callOk s.cfg c = true :=
  ⟨fun ⟨hok, hlock, h1, h2, h3, h4, h5, hcalls⟩ => ⟨hok, hlock, ⟨h1, h2, h3, h4, h5⟩, hcalls⟩,
    fun ⟨hok, hlock, ⟨h1, h2, h3, h4, h5⟩, hcalls⟩ => ⟨hok, hlock, h1, h2, h3, h4, h5, hcalls⟩⟩

theorem HoldsRecords.congr {s t : State} (hcfg : t.cfg = s.cfg) (hdh : t.dh = s.dh) (h : HoldsRecords s) :
    HoldsRecords t := by
  rw [HoldsRecords, hcfg, hdh]
  exact h

theorem HoldsRecords.setVersion {s : State} (h : HoldsRecords s) (v : Version) : HoldsRecords (s.setVersion v) :=
  ⟨h.fixed, h.fixedLen, h.algo, h.algoLen, h.serial⟩

theorem HoldsRecords.setFixed {s : State} (h : HoldsRecords s) {d : List Byte} (hd : d.length ≤ s.cfg.fixedSize) :
    HoldsRecords (s.setFixed d) := ⟨hd, rfl, h.algo, h.algoLen, h.serial⟩

theorem HoldsRecords.setAlgo {s : State} (h : HoldsRecords s) {d : List Byte} (hd : d.length ≤ s.cfg.algoSize) :
    HoldsRecords (s.setAlgo d) := ⟨h.fixed, h.fixedLen, hd, rfl, h.serial⟩

/-! ### The bodies of the control operations keep the records within their sizes -/

/-- No configuration value and no record changes. -/
def SameRecords (s t : State) : Prop := t.cfg = s.cfg ∧ t.dh = s.dh

theorem SameRecords.holds {s t : State} (h : SameRecords s t) (hs : HoldsRecords s) : HoldsRecords t :=
  hs.congr h.1 h.2

theorem xferReply_records (req : List Byte) (m : Nat) (s : State) : SameRecords s (xferReply req m s).2 := by
  obtain ⟨res, evs, env, h, -⟩ := xferReply_cases req m s
  rw [h]
  exact ⟨rfl, rfl⟩

theorem xferSilent_records (req : List Byte) (s : State) : SameRecords s (xferSilent req s).2 := by
  obtain ⟨res, w, d, h, -⟩ := xferSilent_cases req s
  rw [h]
  exact ⟨rfl, rfl⟩

theorem exchange_records (opcode : Half) (body : List Byte) (s : State) : SameRecords s (exchange opcode body s).2 := by
  obtain ⟨res, evs, env, h, -⟩ := exchange_cases opcode body s
  rw [h]
  exact ⟨rfl, rfl⟩

theorem setParam_holds {s : State} (param value : Half) (hs : HoldsRecords s) : HoldsRecords (setParam param value s).2 := by
  rw [setParam_state]
  exact (exchange_records _ _ s).holds hs

theorem resetDevice_holds {s : State} (hs : HoldsRecords s) : HoldsRecords (resetDevice s).2 := by
  have h := (exchange_records s.cfg.opSetMode (putHalf s.cfg.modeKnown) s).holds hs
  unfold resetDevice
  revert h
  rcases exchange s.cfg.opSetMode (putHalf s.cfg.modeKnown) s with ⟨_ | p, u⟩ <;> exact id

theorem getVersion_holds {s : State} (hs : HoldsRecords s) : HoldsRecords (getVersion s).2 := by
  have h := (exchange_records s.cfg.opGetVersion [] s).holds hs
  unfold getVersion
  revert h
  rcases exchange s.cfg.opGetVersion [] s with ⟨_ | p, u⟩ <;> intro h
  · exact h
  · simp only []
    split
    · exact h.congr rfl rfl
    · obtain ⟨b, d, e⟩ := fixBuild_cases (byteAt p 0) (le16 p 2) u
      rw [e]
      exact HoldsRecords.setVersion (h.congr rfl rfl) _

theorem getSerial_holds {s : State} (hs : HoldsRecords s) : HoldsRecords (getSerial s).2 := by
  have h := (exchange_records s.cfg.opGetSerial [] s).holds hs
  unfold getSerial
  revert h
  rcases exchange s.cfg.opGetSerial [] s with ⟨_ | p, u⟩ <;> intro h
  · exact h
  · refine ⟨h.fixed, h.fixedLen, h.algo, h.algoLen, ?_⟩
    simp only [List.length_append, List.length_take, List.length_singleton]
    omega

theorem getFixed_holds {s : State} (hs : HoldsRecords s) : HoldsRecords (getFixed s).2 := by
  obtain ⟨res, cc, env, h, -, hlen⟩ :=
    pagedRounds_cases s.cfg.opGetFixed [] s.cfg.fixedSize (s.cfg.fixedSize + 1) [] 0 s
  unfold getFixed pagedRead
  rw [h]
  cases res with
  | error e => exact hs.congr rfl rfl
  | ok d => exact HoldsRecords.setFixed (s := { s with cc := cc, env := env }) hs (hlen (Nat.zero_le _) d rfl)

theorem getAlgo_holds (sel : List Byte) {s : State} (hs : HoldsRecords s) : HoldsRecords (getAlgo sel s).2 := by
  obtain ⟨res, cc, env, h, -, hlen⟩ :=
    pagedRounds_cases s.cfg.opGetAlgo sel s.cfg.algoSize (s.cfg.algoSize + 1) [] 0 s
  unfold getAlgo pagedRead
  rw [h]
  cases res with
  | error e => exact hs.congr rfl rfl
  | ok d => exact HoldsRecords.setAlgo (s := { s with cc := cc, env := env }) hs (hlen (Nat.zero_le _) d rfl)

theorem exec_control_holds {i : Instr} {s t : State} (hi : isControl i = true) (hx : exec i s = .next t)
    (hs : HoldsRecords s) : HoldsRecords t := by
  obtain ⟨u, hu, rfl | ⟨r, rfl⟩⟩ := exec_control_keeps (R := HoldsRecords) hi hx hs
    (fun req m => (xferReply_records req m s).holds hs) (fun req => (xferSilent_records req s).holds hs)
    (fun p v => setParam_holds p v hs) (fun _ => getVersion_holds) (fun _ => resetDevice_holds)
    (fun _ => getFixed_holds) (fun _ => getSerial_holds) (fun sel _ => getAlgo_holds sel)
  · exact hu
  · exact hu.congr rfl rfl

/-! ### Operations in progress (R86, R172) -/

/-- What a round of a paged read that holds at most its target gathers: at most its target. -/
def GathersAtMost (target : Nat) : Except CtrlError Page → Prop
  | .ok (.whole d) => d.length ≤ target
  | .ok (.more d _) => d.length ≤ target
  | .error _ => True

theorem pageRound_records (opcode : Half) (header : List Byte) (target : Nat) (data : List Byte) (off : Half) (s : State) :
    SameRecords s (pageRound opcode header target data off s).2 := by
  rcases pageRound_cases opcode header target data off s with
    ⟨-, h⟩ | ⟨-, evs, env, u, rfl, ⟨e, h⟩ | h | ⟨p, -, -, h⟩⟩ <;> rw [h] <;> exact ⟨rfl, rfl⟩

theorem pageRound_gathers {opcode : Half} {header : List Byte} {target : Nat} {data : List Byte} {off : Half} {s : State}
    (hlen : data.length ≤ target) : GathersAtMost target (pageRound opcode header target data off s).1 := by
  rcases pageRound_cases opcode header target data off s with
    ⟨-, h⟩ | ⟨-, evs, env, u, rfl, ⟨e, h⟩ | h | ⟨p, -, -, h⟩⟩
  · rw [h]; exact hlen
  · rw [h]; trivial
  · rw [h]; exact hlen
  · obtain ⟨-, hmore, -⟩ := pageRound_more h
    rw [h]
    exact hmore

/-- An operation that goes on keeps its bounds. -/
def ProgressOk (c : Cfg) : Progress → Prop
  | .goesOn call => callOk c call = true
  | .ends _ => True

theorem callRound_ok {call : List Byte → Half → Call} {store : State → List Byte → State} {target : Nat} {s : State}
    {r : Except CtrlError Page × State} (hr : SameRecords s r.2) (hs : HoldsRecords s) (hg : GathersAtMost target r.1)
    (hstore : ∀ u d, u.cfg = s.cfg → HoldsRecords u → d.length ≤ target → HoldsRecords (store u d))
    (hcall : ∀ d o, d.length ≤ target → callOk s.cfg (call d o) = true) :
    HoldsRecords (callRound call store r).2 ∧ ProgressOk s.cfg (callRound call store r).1 := by
  rcases r with ⟨e | ⟨d, o⟩ | d, u⟩
  · exact ⟨hr.holds hs, trivial⟩
  · exact ⟨hr.holds hs, hcall _ _ hg⟩
  · exact ⟨hstore u _ hr.1 (hr.holds hs) hg, trivial⟩

/-- A bring-up that goes on keeps the bounds of its phase. -/
def NextOk (c : Cfg) (sel : List Byte) : InitNext → Prop
  | .phase p => ∀ left, callOk c (.init sel left p) = true
  | .over _ => True

theorem phaseThen_ok {c : Cfg} {sel : List Byte} {next : InitNext} {r : Except CtrlError Unit × State}
    (hr : HoldsRecords r.2) (hnext : NextOk c sel next) :
    HoldsRecords (phaseThen next r).2 ∧ NextOk c sel (phaseThen next r).1 := by
  rcases r with ⟨_ | _, u⟩
  · exact ⟨hr, trivial⟩
  · exact ⟨hr, hnext⟩

theorem phasePage_ok {more : List Byte → Half → InitPhase} {next : InitNext} {store : State → List Byte → State}
    {target : Nat} {sel : List Byte} {s : State} {r : Except CtrlError Page × State}
    (hr : SameRecords s r.2) (hs : HoldsRecords s) (hg : GathersAtMost target r.1)
    (hstore : ∀ u d, u.cfg = s.cfg → HoldsRecords u → d.length ≤ target → HoldsRecords (store u d))
    (hmore : ∀ d o, d.length ≤ target → NextOk s.cfg sel (.phase (more d o))) (hnext : NextOk s.cfg sel next) :
    HoldsRecords (phasePage more next store r).2 ∧ NextOk s.cfg sel (phasePage more next store r).1 := by
  rcases r with ⟨e | ⟨d, o⟩ | d, u⟩
  · exact ⟨hr.holds hs, trivial⟩
  · exact ⟨hr.holds hs, hmore _ _ hg⟩
  · exact ⟨hstore u _ hr.1 (hr.holds hs) hg, hnext⟩

theorem setFixed_bound {s : State} :
    ∀ u d, u.cfg = s.cfg → HoldsRecords u → d.length ≤ s.cfg.fixedSize → HoldsRecords (u.setFixed d) :=
  fun _ _ hcfg hu hd => hu.setFixed (hcfg ▸ hd)

theorem setAlgo_bound {s : State} :
    ∀ u d, u.cfg = s.cfg → HoldsRecords u → d.length ≤ s.cfg.algoSize → HoldsRecords (u.setAlgo d) :=
  fun _ _ hcfg hu hd => hu.setAlgo (hcfg ▸ hd)

/-- Every phase of a bring-up carries a selector of the right length. -/
theorem callOk_init_sel {c : Cfg} {sel : List Byte} {left : Nat} {p : InitPhase}
    (h : callOk c (.init sel left p) = true) : selShape c sel = true := by
  cases p with
  | version | reset | serial => exact h
  | fixed data off => exact (Bool.and_eq_true _ _ ▸ h).1
  | algo data off => exact (Bool.and_eq_true _ _ ▸ h).1

theorem initStep_ok {sel : List Byte} {left : Nat} {s : State} {p : InitPhase} (hs : HoldsRecords s)
    (hp : callOk s.cfg (.init sel left p) = true) :
    HoldsRecords (initStep sel s p).2 ∧ NextOk s.cfg sel (initStep sel s p).1 := by
  have hsel := callOk_init_sel hp
  cases p with
  | version =>
    have hv := getVersion_holds hs
    unfold initStep
    revert hv
    rcases getVersion s with ⟨_ | v, u⟩ <;> intro hv
    · exact ⟨hv, trivial⟩
    · simp only []
      split
      · exact ⟨hv, trivial⟩
      · exact ⟨hv, fun _ => hsel⟩
  | reset =>
    exact phaseThen_ok (resetDevice_holds hs) fun _ => by simp [callOk, hsel]
  | serial =>
    exact phaseThen_ok (getSerial_holds hs) fun _ => by simp [callOk, hsel]
  | fixed data off =>
    have hlen : data.length ≤ s.cfg.fixedSize := by simpa [callOk, hsel] using hp
    exact phasePage_ok (pageRound_records ..) hs (pageRound_gathers hlen) setFixed_bound
      (fun d o hd _ => by simp [callOk, hsel, hd]) fun _ => hsel
  | algo data off =>
    have hlen : data.length ≤ s.cfg.algoSize := by simpa [callOk, hsel] using hp
    exact phasePage_ok (pageRound_records ..) hs (pageRound_gathers hlen) setAlgo_bound
      (fun d o hd _ => by simp [callOk, hsel, hd]) trivial

theorem initProgress_ok {c : Cfg} {sel : List Byte} (left : Nat) {r : InitNext × State} (hsel : selShape c sel = true)
    (hr : NextOk c sel r.1) : ProgressOk c (initProgress sel left r).1 := by
  rcases r with ⟨p | _ | _ | e, u⟩
  · exact hr left
  · trivial
  · trivial
  · cases left with
    | zero => trivial
    | succ n => exact hsel

/-- A step of an operation in progress keeps the records within their sizes, and so what it has gathered. -/
theorem callStep_ok {c : Call} {s : State} (hs : HoldsRecords s) (hc : callOk s.cfg c = true) :
    HoldsRecords (callStep c s).2 ∧ ProgressOk s.cfg (callStep c s).1 := by
  cases c with
  | getFixed data off =>
    have hlen : data.length ≤ s.cfg.fixedSize := by simpa [callOk] using hc
    exact callRound_ok (pageRound_records ..) hs (pageRound_gathers hlen) setFixed_bound fun d o hd => by simp [callOk, hd]
  | getAlgo sel data off =>
    obtain ⟨hsel, hlen⟩ : selShape s.cfg sel = true ∧ data.length ≤ s.cfg.algoSize := by simpa [callOk] using hc
    exact callRound_ok (pageRound_records ..) hs (pageRound_gathers hlen) setAlgo_bound
      fun d o hd => by simp [callOk, hsel, hd]
  | init sel left p =>
    obtain ⟨hrec, hnext⟩ := initStep_ok hs hc
    refine ⟨?_, initProgress_ok left (callOk_init_sel hc) hnext⟩
    rw [callStep, initProgress_state]
    exact hrec

/-- An operation that is invoked has gathered nothing yet. -/
theorem callOf_ok {c : Cfg} {i : Instr} {call : Call} (h : callOf c i = some call) : callOk c call = true := by
  unfold callOf at h
  split at h
  · cases h; rfl
  · split at h
    · cases h; simpa [callOk] using ‹_›
    · cases h
  · split at h
    · cases h
    · split at h
      · cases h; simpa [callOk] using ‹_›
      · cases h
  · cases h

/-! ### Every step -/

theorem sessionInv_congr {s t : State} (hcfg : t.cfg = s.cfg) (hlock : t.cc.lock = s.cc.lock) (hdh : t.dh = s.dh)
    (hcalls : t.calls = s.calls) (h : SessionInv s) : SessionInv t := by
  rw [sessionInv_iff] at h ⊢
  rw [HoldsRecords, hcfg, hlock, hdh, hcalls]
  exact h

theorem ctrlFrame_session {s t : State} (h : CtrlFrame s t) :
    t.cfg = s.cfg ∧ t.calls = s.calls ∧ (s.cc.lock = false → t.cc.lock = false) := by
  obtain ⟨cc, env, dh, rfl, -, hlock⟩ := h
  exact ⟨rfl, rfl, hlock⟩

theorem exec_control_sessionInv {i : Instr} {s t : State} (hi : isControl i = true) (hx : exec i s = .next t)
    (hs : SessionInv s) : SessionInv t := by
  rw [sessionInv_iff] at hs ⊢
  obtain ⟨hok, hlock, hrec, hcalls⟩ := hs
  obtain ⟨hcfg, -, hsame, -⟩ := (exec_control hi hx).frame
  have hfree : t.cc.lock = false := by
    obtain ⟨u, hu, rfl | ⟨r, rfl⟩⟩ := exec_control hi hx <;> exact (ctrlFrame_session hu).2.2 hlock
  rw [hcfg, hsame]
  exact ⟨hok, hfree, exec_control_holds hi hx hrec, hcalls⟩

theorem resume_sessionInv {s : State} (k : Nat) (hs : SessionInv s) : SessionInv (s.resume k) := by
  rcases resume_cases s k with ⟨-, h⟩ | ⟨c, hk, hcase⟩
  · rw [h]; exact hs
  · rw [sessionInv_iff] at hs ⊢
    obtain ⟨hok, hlock, hrec, hcalls⟩ := hs
    have hframe := callStep_frame c s
    obtain ⟨hrec', hprog⟩ := callStep_ok hrec (hcalls c (List.mem_of_getElem? hk))
    rcases hcase with ⟨c', u, hstep, h⟩ | ⟨r, u, hstep, h⟩ <;> rw [hstep] at hframe hrec' hprog <;>
      obtain ⟨hcfg, hsame, hfree⟩ := ctrlFrame_session hframe <;> dsimp only at hcfg hsame hfree hrec' <;> rw [h]
    · refine ⟨hcfg ▸ hok, hfree hlock, hrec', fun d hd => ?_⟩
      show callOk u.cfg d = true
      rw [hcfg]
      rcases List.mem_or_eq_of_mem_set hd with hd | rfl
      · exact hcalls d (hsame ▸ hd)
      · exact hprog
    · refine ⟨hcfg ▸ hok, hfree hlock, hrec', fun d hd => ?_⟩
      show callOk u.cfg d = true
      rw [hcfg]
      exact hcalls d (hsame ▸ List.mem_of_mem_eraseIdx hd)

/-- Settles O8: an endpoint's operation leaves the session alone; a control operation, in one go or round by round, leaves
the lock free and stores at most what fits. -/
theorem everyStepKeepsTheSessionInvariant : Obligations.EveryStepKeepsTheSessionInvariant := by
  intro s t hs hstep
  have htaken : SessionInv s.taken := sessionInv_congr rfl rfl rfl rfl hs
  cases step_cases hstep with
  | stays => exact hs
  | cal => exact hs
  | runs _ _ _ hexec =>
    rcases exec_cases hexec with ⟨hi, -, -⟩ | ⟨e, -, -, h⟩ | ⟨-, -, r, rfl⟩
    · exact exec_control_sessionInv hi hexec htaken
    · obtain ⟨hcfg, -, hcalls, hcc, hdh, -⟩ := h.session
      exact sessionInv_congr hcfg (congrArg Cc.lock hcc) hdh hcalls htaken
    · exact sessionInv_congr rfl rfl rfl rfl htaken
  | @invokes _ i c _ _ _ hcall =>
    rw [sessionInv_iff] at htaken ⊢
    obtain ⟨hok, hlock, hrec, hcalls⟩ := htaken
    refine ⟨hok, hlock, hrec, fun d hd => ?_⟩
    rcases List.mem_append.1 hd with hd | hd
    · exact hcalls d hd
    · rw [List.mem_singleton.1 hd]
      exact callOf_ok hcall
  | resumes => exact resume_sessionInv _ htaken

end Sys2Proof.Proofs.Session
end


section
/-! PROOFS. The streaming invariant of R62 along every step. -/

namespace Sys2Proof.Proofs.Stream

open Sys2Proof.Machine Sys2Proof.Safety Sys2Proof.Proofs.Sides Sys2Proof.Proofs.Buffers Sys2Proof.Proofs.Steps

/-! ### Bytes written (R78, R34) -/

theorem writtenUpTo_iff (m : Memory) (n : Nat) : writtenUpTo m n = true ↔ ∀ a, a < n → (m.read a).isSome = true := by
  simp [writtenUpTo]

theorem mem_writeBytes {m : Memory} {a : Nat} {bytes : List Byte} {x : Nat × Byte} (h : x ∈ m.writeBytes a bytes) :
    x ∈ m ∨ (a ≤ x.1 ∧ x.1 < a + bytes.length) := by
  induction bytes generalizing m a with
  | nil => exact .inl h
  | cons b r ih =>
    rcases ih h with hm | ⟨hlo, hhi⟩
    · rcases mem_insertCell hm with rfl | hm
      · exact .inr ⟨Nat.le_refl a, by simp⟩
      · exact .inl hm
    · exact .inr ⟨by omega, by simp only [List.length_cons]; omega⟩

/-- A held buffer and the cursor in it: bytes below the image size, those below the cursor all written. -/
def Filled (ep : Ep) (ab : ActiveBuf) : Prop :=
  (∀ x ∈ ab.mem, x.1 < ep.imageSize) ∧ ∀ a, a < ep.cursor → (ab.mem.read a).isSome = true

theorem activeOk_iff (ep : Ep) : activeOk ep = true ↔ ∀ ab, ep.active = some ab → Filled ep ab := by
  unfold activeOk
  cases ep.active with
  | none => simp
  | some ab =>
    simp only [Bool.and_eq_true, List.all_eq_true, decide_eq_true_eq, writtenUpTo_iff, Option.some.injEq]
    exact ⟨fun h _ heq => heq ▸ h, fun h => h ab rfl⟩

/-- What an enabled endpoint's buffers satisfy (R62 (b)): the held one, the cursor, and those handed back. -/
structure BufInv (ep : Ep) : Prop where
  active : ∀ ab, ep.active = some ab → Filled ep ab
  cursor : ep.cursor ≤ ep.imageSize
  completed : ∀ c ∈ ep.completed, writtenUpTo c.mem c.bytes = true

theorem BufInv.bufWrite {ep : Ep} (h : BufInv ep) (bytes : List Byte) : BufInv (ep.bufWrite bytes) := by
  refine ⟨?_, by rw [bufWrite_imageSize]; exact bufWrite_cursor_le h.cursor, by rw [bufWrite_completed]; exact h.completed⟩
  rcases bufWrite_cases ep bytes with ⟨_, e⟩ | ⟨ab, hab, e⟩
  · rw [e]; exact h.active
  · obtain ⟨hbound, hwritten⟩ := h.active ab hab
    have hcur := h.cursor
    rw [e]
    rintro _ ⟨⟩
    generalize hk : min bytes.length (ep.imageSize - ep.cursor) = k
    have hlen : (bytes.take k).length = k := by rw [List.length_take]; omega
    refine ⟨fun x hx => ?_, fun a ha => ?_⟩
    · show x.1 < ep.imageSize
      rcases mem_writeBytes hx with hx | ⟨_, hx⟩
      · exact hbound x hx
      · omega
    · have ha' : a < ep.cursor + k := ha
      rw [Memory.read_writeBytes]
      split
      · rw [List.getElem?_eq_getElem (by omega)]; rfl
      · exact hwritten a (by omega)

/-- Handing the buffer back reports bytes that were written. -/
theorem BufInv.complete {ep : Ep} (h : BufInv ep) (st : Status) : BufInv (ep.complete st) := by
  rcases complete_cases ep st with ⟨_, e⟩ | ⟨ab, hab, e⟩
  · rw [e]; exact h
  · rw [e]
    refine ⟨fun _ hnone => (nomatch hnone), h.cursor, fun c hc => ?_⟩
    rcases List.mem_append.1 hc with hc | hc
    · exact h.completed c hc
    · rw [List.mem_singleton.1 hc, writtenUpTo_iff]
      exact (h.active ab hab).2

theorem Move.bufInv {a b : Ep} (h : Move a b) (ha : BufInv a) : BufInv b := by
  cases h with
  | buf h =>
    cases h with
    | write bytes => exact ha.bufWrite bytes
    | rewind =>
      exact ⟨fun ab hab => ⟨(ha.active ab hab).1, fun _ hlt => absurd hlt (Nat.not_lt_zero _)⟩, Nat.zero_le _, ha.completed⟩
    | complete st => exact ha.complete st
  | regs h =>
    refine ⟨fun ab hab => ?_, by rw [h.cursor, h.imageSize]; exact ha.cursor, h.completed ▸ ha.completed⟩
    rw [Filled, h.cursor, h.imageSize]
    exact ha.active ab (h.active ▸ hab)
  | acquire hfree hqueue =>
    refine ⟨?_, Nat.zero_le _, ha.completed⟩
    rintro _ ⟨⟩
    exact ⟨fun _ hx => (nomatch hx), fun _ hlt => absurd hlt (Nat.not_lt_zero _)⟩

theorem Moves.bufInv {a b : Ep} (h : Moves a b) (ha : BufInv a) : BufInv b :=
  keeps_of_moves (r := Move) (P := BufInv) (fun _ _ => Move.bufInv) h ha

/-! ### The reassembly state's counts (R62 (d), (e)) -/

theorem hook_frame {e : Endpoint} {s t : State} (h : BufMoves (s.ep e) (t.ep e)) :
    (t.ep e).rstate = (s.ep e).rstate ∧ (t.ep e).hdrFill = (s.ep e).hdrFill := by
  rw [h.frame]
  exact ⟨rfl, rfl⟩

theorem raPktdone_rstateOk (e : Endpoint) (s : State) : rstateOk ((raPktdone e s).ep e) = true := by
  rw [raPktdone, modEp_ep]
  rfl

/-- The packet class's operation leaves the counts of the header and the payload, and the packet's type. -/
theorem openPacket_counts (e : Endpoint) (s : State) :
    ((openPacket e s).ep e).hdrFill = (s.ep e).hdrFill ∧ ((openPacket e s).ep e).remaining = (s.ep e).remaining
      ∧ ((openPacket e s).ep e).ptype = (s.ep e).ptype := by
  unfold openPacket
  split
  · rw [raStart, (codecStart_moves e _).frame, modEp_ep, openFrame_frame]
    exact ⟨rfl, rfl, rfl⟩
  · rw [raCont, modEp_ep]
    rcases continuation_cases (s.ep e) (hdrSeq (s.ep e).hdr) with ⟨_, h⟩ | ⟨_, h⟩ <;> rw [h] <;> exact ⟨rfl, rfl, rfl⟩

theorem enterPayload_ep (e : Endpoint) (s : State) :
    (enterPayload e s).ep e = { (openPacket e (s.modEp e Ep.latchHeader)).ep e with rstate := .payload } := by
  rw [enterPayload, modEp_ep]

theorem raHdrdone_rstateOk {e : Endpoint} {s : State} (h : (s.ep e).hdrFill = 12) :
    rstateOk ((raHdrdone e s).ep e) = true := by
  have hfill : ((enterPayload e s).ep e).hdrFill = 12 := by
    rw [enterPayload_ep]
    exact (openPacket_counts e _).1.trans (by rw [modEp_ep]; exact h)
  have hstate : ((enterPayload e s).ep e).rstate = .payload := by rw [enterPayload_ep]
  rw [raHdrdone_eq]
  split
  · exact raPktdone_rstateOk e _
  · rename_i hrem
    simp only [rstateOk, hstate, hfill]
    simpa using hrem

theorem raHdr_rstateOk {e : Endpoint} {b : Byte} {s : State} (hst : (s.ep e).rstate = .hdr)
    (h : rstateOk (s.ep e) = true) : rstateOk ((raHdr e b s).ep e) = true := by
  obtain ⟨hlo, hhi⟩ : 2 ≤ (s.ep e).hdrFill ∧ (s.ep e).hdrFill ≤ 11 := by simpa [rstateOk, hst] using h
  by_cases h11 : (s.ep e).hdrFill = 11
  · rw [Reassembler.raHdr_of_twelfth b h11]
    exact raHdrdone_rstateOk (by rw [modEp_ep]; simp [Ep.pushHdr, h11])
  · rw [Reassembler.raHdr_of_not_twelfth b h11, modEp_ep]
    have hpush : (((s.ep e).pushHdr b).rstate = .hdr) ∧ ((s.ep e).pushHdr b).hdrFill = (s.ep e).hdrFill + 1 := ⟨hst, rfl⟩
    simp only [rstateOk, hpush, Bool.and_eq_true, decide_eq_true_eq]
    omega

theorem raPay_rstateOk {e : Endpoint} {b : Byte} {s : State} (hst : (s.ep e).rstate = .payload)
    (h : rstateOk (s.ep e) = true) : rstateOk ((raPay e b s).ep e) = true := by
  have hfill : (s.ep e).hdrFill = 12 := by
    simp only [rstateOk, hst, Bool.and_eq_true, beq_iff_eq] at h
    exact h.1
  obtain ⟨hst', hfill'⟩ := hook_frame (forwarded_moves e b s)
  rw [Reassembler.raPay_eq_forwarded]
  split
  · exact raPktdone_rstateOk e _
  · rename_i hrem
    rw [modEp_ep] at hrem ⊢
    have hkeep : ((Reassembler.forwarded e b s).ep e).countPayload.rstate = .payload
        ∧ ((Reassembler.forwarded e b s).ep e).countPayload.hdrFill = 12 := ⟨hst'.trans hst, hfill'.trans hfill⟩
    simp only [rstateOk, hkeep]
    simpa using hrem

theorem seek1_rstateOk {c : Cfg} {ep : Ep} {b : Byte} (hst : ep.rstate = .seek1) (h : ep.hdrFill = 0) :
    rstateOk (ep.seek1 c b) = true := by
  unfold Ep.seek1
  split <;> simp [rstateOk, hst, h]

theorem seek2_rstateOk {c : Cfg} {ep : Ep} {b : Byte} (h : ep.hdrFill = 0) : rstateOk (ep.seek2 c b) = true := by
  unfold Ep.seek2
  split
  · rfl
  · exact seek1_rstateOk rfl h

/-- Every byte leaves the counts as the reassembly state says (R62 (d), (e)). -/
theorem raByte_rstateOk {e : Endpoint} {s : State} (b : Byte) (h : rstateOk (s.ep e) = true) :
    rstateOk ((raByte e s b).ep e) = true := by
  have hcount : (countByte e s).ep e = { s.ep e with byteCount := (s.ep e).byteCount + 1 } := modEp_ep ..
  have hok : rstateOk ((countByte e s).ep e) = true := by rw [hcount]; exact h
  rw [raByte_eq, dispatchByte]
  cases hst : ((countByte e s).ep e).rstate with
  | seek1 =>
    show rstateOk ((raSeek1 e b (countByte e s)).ep e) = true
    rw [raSeek1, modEp_ep]
    exact seek1_rstateOk hst (by simpa [rstateOk, hst] using hok)
  | seek2 =>
    show rstateOk ((raSeek2 e b (countByte e s)).ep e) = true
    rw [raSeek2, modEp_ep]
    exact seek2_rstateOk (by simpa [rstateOk, hst] using hok)
  | hdr => exact raHdr_rstateOk hst hok
  | payload => exact raPay_rstateOk hst hok

/-! ### The codecs' counts (R39, R43) -/

/-- The carry holds less than a unit; the line counter is inside the line. -/
def CountOk (e : Endpoint) (s : State) : Prop :=
  match e with
  | .color => s.cl.lineCnt < 2 * s.color.imageWidth
  | .depth => s.dc.carryLen ≤ 10

theorem modEp_countOk {e : Endpoint} {s : State} {f : Ep → Ep} (hw : (f (s.ep e)).imageWidth = (s.ep e).imageWidth)
    (h : CountOk e s) : CountOk e (s.modEp e f) := by
  cases e with
  | color => exact (congrArg (s.cl.lineCnt < 2 * ·) hw).mpr h
  | depth => exact h

theorem openFrame_imageWidth (e : Endpoint) (ep : Ep) : (ep.openFrame e).imageWidth = ep.imageWidth := by
  rw [openFrame_frame]
  rfl

theorem foldl_countOk {α : Type} {e : Endpoint} {f : State → α → State} (hf : ∀ s a, CountOk e s → CountOk e (f s a))
    (as : List α) {s : State} (h : CountOk e s) : CountOk e (as.foldl f s) := by
  induction as generalizing s with
  | nil => exact h
  | cons a as ih => exact ih (hf s a h)

theorem advance_lineCnt {cl : Cl} {w : Nat} (v : Byte) (h : cl.lineCnt < 2 * w) : (cl.advance w v).lineCnt < 2 * w := by
  by_cases hend : cl.lineCnt + 1 = 2 * w
  · rw [advance_of_eq hend]; show 0 < 2 * w; omega
  · rw [advance_of_ne hend]; show cl.lineCnt + 1 < 2 * w; omega

theorem clEmit_countOk (v : Byte) {s : State} (h : CountOk .color s) : CountOk .color (clEmit v s) := by
  show (s.cl.advance s.color.imageWidth v).lineCnt < 2 * (s.color.bufWrite [v]).imageWidth
  rw [((BufMove.write s.color [v]).frame.sameFormat).imageWidth]
  exact advance_lineCnt v h

theorem clNib_countOk (s : State) (n : Nib) (h : CountOk .color s) : CountOk .color (clNib s n) := by
  unfold clNib
  split
  · exact h
  · exact clEmit_countOk _ (s := { s with cl := { s.cl with lit := .none } }) h
  · split
    · exact clEmit_countOk _ h
    · split <;> exact h

theorem codecData_countOk (e : Endpoint) (bytes : List Byte) {s : State} (h : CountOk e s) :
    CountOk e (codecData e bytes s) := by
  cases e with
  | color =>
    show CountOk .color (clData bytes s)
    unfold clData
    split
    · exact foldl_countOk (fun s b h => clNib_countOk _ _ (clNib_countOk _ _ h)) bytes h
    · exact h
  | depth =>
    show CountOk .depth (dcData bytes s)
    unfold dcData
    split
    · exact foldl_countOk (e := .depth) (fun s b h => dcByte_carryLen h) bytes h
    · exact h

theorem codecStart_countOk (e : Endpoint) {s : State} (h : CountOk e s) : CountOk e (codecStart e s) := by
  cases e with
  | color =>
    show CountOk .color (clStart s)
    unfold clStart
    split
    · exact lt_of_le_of_lt (Nat.zero_le _) h
    · exact h
  | depth =>
    show CountOk .depth (dcStart s)
    unfold dcStart
    split
    · exact Nat.zero_le _
    · exact h

theorem codecEnd_countOk (e : Endpoint) {s : State} (h : CountOk e s) : CountOk e (codecEnd e s) := by
  cases e with
  | color =>
    show s.cl.lineCnt < 2 * (s.color.complete .ok).imageWidth
    rw [((BufMove.complete s.color .ok).frame.sameFormat).imageWidth]
    exact h
  | depth =>
    show CountOk .depth (dcEnd s)
    unfold dcEnd
    split
    · exact Nat.zero_le _
    · exact h

theorem countOk_closed (e : Endpoint) : Closed e fun s t => CountOk e s → CountOk e t where
  refl _ := id
  trans h k := fun x => k (h x)
  regs _ _ h := modEp_countOk h.imageWidth
  start _ h := codecStart_countOk e (modEp_countOk (openFrame_imageWidth e _) h)
  data _ bytes := codecData_countOk e bytes
  finish _ := codecEnd_countOk e

/-! ### One side's part of the invariant -/

/-- What the invariant says of one endpoint's codec: of the colour codec once the endpoint has a format and is enabled. -/
def CodecInv (e : Endpoint) (s : State) : Prop :=
  match e with
  | .color => (s.color.enabled = true → CountOk .color s) ∧ (s.color.fmtSet = true → s.color.imageWidth ≠ 0)
  | .depth => CountOk .depth s ∧ (s.depth.enabled = true → s.dc.lutValid = true)

/-- What the invariant says of one side. -/
def SideInv (e : Endpoint) (s : State) : Prop := epOk (s.ep e) = true ∧ CodecInv e s

theorem streamInv_iff (s : State) :
    StreamInv s ↔ (∀ e, SideInv e s) ∧ s.heldIds.Nodup ∧ ∀ x ∈ s.stim, isAgentStimulus s.cfg x = true := by
  constructor
  · rintro ⟨hcolor, hdepth, hcarry, hline, hwidth, hlut, hnodup, hstim⟩
    refine ⟨fun e => ?_, hnodup, hstim⟩
    cases e with
    | color => exact ⟨hcolor, hline, hwidth⟩
    | depth => exact ⟨hdepth, hcarry, hlut⟩
  · rintro ⟨hside, hnodup, hstim⟩
    obtain ⟨hcolor, hline, hwidth⟩ := hside .color
    obtain ⟨hdepth, hcarry, hlut⟩ := hside .depth
    exact ⟨hcolor, hdepth, hcarry, hline, hwidth, hlut, hnodup, hstim⟩

/-- The invariant of one endpoint, clause by clause. -/
theorem epOk_iff (ep : Ep) :
    epOk ep = true ↔ rstateOk ep = true ∧ (∀ ab, ep.active = some ab → Filled ep ab)
      ∧ (ep.enabled = false → ep.active = none)
      ∧ (ep.enabled = true → ep.fmtSet = true ∧ ep.cursor ≤ ep.imageSize)
      ∧ ∀ c ∈ ep.completed, writtenUpTo c.mem c.bytes = true := by
  rw [← activeOk_iff]
  simp only [epOk, Bool.and_eq_true, Bool.or_eq_true, List.all_eq_true, Option.isNone_iff_eq_none, and_assoc]
  cases ep.enabled <;> simp

/-- An enabled endpoint's part, in the terms that the moves keep. -/
theorem epOk_of_enabled {ep : Ep} (hon : ep.enabled = true) :
    epOk ep = true ↔ rstateOk ep = true ∧ ep.fmtSet = true ∧ BufInv ep := by
  rw [epOk_iff]
  constructor
  · rintro ⟨hst, hact, -, hfmt, hcomp⟩
    exact ⟨hst, (hfmt hon).1, hact, (hfmt hon).2, hcomp⟩
  · rintro ⟨hst, hfmt, hact, hcur, hcomp⟩
    exact ⟨hst, hact, fun hoff => Bool.noConfusion (hoff.symm.trans hon), fun _ => ⟨hfmt, hcur⟩, hcomp⟩

/-- A disabled endpoint's part. -/
theorem epOk_of_disabled {ep : Ep} (hoff : ep.enabled = false) :
    epOk ep = true ↔ rstateOk ep = true ∧ ep.active = none ∧ ∀ c ∈ ep.completed, writtenUpTo c.mem c.bytes = true := by
  rw [epOk_iff]
  constructor
  · rintro ⟨hst, -, hnone, -, hcomp⟩
    exact ⟨hst, hnone hoff, hcomp⟩
  · rintro ⟨hst, hnone, hcomp⟩
    exact ⟨hst, fun ab hab => (nomatch hnone ▸ hab), fun _ => hnone, fun hon => Bool.noConfusion (hoff.symm.trans hon), hcomp⟩

/-- One side's part is about its registers and the validity of the table. -/
theorem takeSide_sideInv {s t : State} {d e : Endpoint} (hne : d ≠ e) (h : SideInv d s) : SideInv d (takeSide s e t) := by
  cases d with
  | color => cases e with
    | color => exact absurd rfl hne
    | depth => exact h
  | depth => cases e with
    | color => exact h
    | depth => exact absurd rfl hne

/-! ### A chunk (R201, R62) -/

theorem foldl_raByte_rstateOk {e : Endpoint} (bytes : List Byte) {s : State} (h : rstateOk (s.ep e) = true) :
    rstateOk ((bytes.foldl (raByte e) s).ep e) = true :=
  List.foldlRecOn bytes (raByte e) (motive := fun t => rstateOk (t.ep e) = true) h fun _ ht b _ => raByte_rstateOk b ht

theorem raChunk_epOk {e : Endpoint} (bytes : List Byte) {s : State} (h : epOk (s.ep e) = true) :
    epOk ((raChunk e bytes s).ep e) = true := by
  unfold raChunk
  split
  · rename_i hon
    have hmoves := (moves_closed e).foldl_raByte bytes s
    obtain ⟨hst, hfmt, hbuf⟩ := (epOk_of_enabled hon).1 h
    refine (epOk_of_enabled (hmoves.sameFormat.enabled.trans hon)).2 ⟨foldl_raByte_rstateOk bytes hst, ?_, Moves.bufInv hmoves hbuf⟩
    rw [hmoves.sameFormat.fmtSet]
    exact hfmt
  · exact h

theorem raChunk_codecInv {e : Endpoint} (bytes : List Byte) {s : State} (h : CodecInv e s) :
    CodecInv e (raChunk e bytes s) := by
  have hfmt := ((moves_closed e).raChunk bytes s).sameFormat
  have hcount := (countOk_closed e).raChunk bytes s
  cases e with
  | color =>
    obtain ⟨hline, hwidth⟩ := h
    refine ⟨fun hon => hcount (hline (hfmt.enabled ▸ hon)), fun hset => ?_⟩
    rw [show (raChunk .color bytes s).color.imageWidth = s.color.imageWidth from hfmt.imageWidth]
    exact hwidth (hfmt.fmtSet ▸ hset)
  | depth =>
    obtain ⟨hcarry, hlut⟩ := h
    refine ⟨hcount hcarry, fun hon => ?_⟩
    rw [(raChunk_local .depth bytes).frame s]
    exact hlut (hfmt.enabled ▸ hon)

/-! ### The commands (R215 to R218, R241) -/

theorem enable_epOk {ep : Ep} (hfmt : ep.fmtSet = true) (h : epOk ep = true) : epOk ep.enable = true := by
  rw [epOk_iff] at h
  obtain ⟨-, -, -, -, hcomp⟩ := h
  exact (epOk_of_enabled rfl).2 ⟨rfl, hfmt, fun _ hab => (nomatch hab), Nat.zero_le _, hcomp⟩

theorem enable_codecInv {e : Endpoint} {s : State} (hfmt : (s.ep e).fmtSet = true)
    (hlut : e = .depth → s.dc.lutValid = true) (h : CodecInv e s) : CodecInv e (raEnable e s) := by
  cases e with
  | color =>
    obtain ⟨-, hwidth⟩ := h
    have hpos : 0 < 2 * s.color.imageWidth := Nat.mul_pos (by decide) (Nat.pos_of_ne_zero (hwidth hfmt))
    exact ⟨fun _ => hpos, hwidth⟩
  | depth => exact ⟨Nat.zero_le _, fun _ => hlut rfl⟩

/-- RA.DISABLE reports only bytes that were written: the active buffer's up to the cursor, of the others none. -/
theorem disable_epOk {ep : Ep} (h : epOk ep = true) : epOk ep.disable = true := by
  rw [epOk_iff] at h
  obtain ⟨hst, hact, -, -, hcomp⟩ := h
  have hdrain (c : Completion) (hc : c ∈ ep.avail.map cancelled) : writtenUpTo c.mem c.bytes = true := by
    obtain ⟨b, -, rfl⟩ := List.mem_map.1 hc
    rfl
  unfold Ep.disable
  rcases complete_cases { ep with enabled := false } .cancelled with ⟨hnone, heq⟩ | ⟨ab, hab, heq⟩ <;> rw [heq]
  · refine (epOk_of_disabled rfl).2 ⟨hst, hnone, fun c hc => ?_⟩
    rcases List.mem_append.1 hc with hc | hc
    · exact hcomp c hc
    · exact hdrain c hc
  · refine (epOk_of_disabled rfl).2 ⟨hst, rfl, fun c hc => ?_⟩
    rcases List.mem_append.1 hc with hc | hc
    · rcases List.mem_append.1 hc with hc | hc
      · exact hcomp c hc
      · rw [List.mem_singleton.1 hc, writtenUpTo_iff]
        exact (hact ab hab).2
    · exact hdrain c hc

theorem disable_codecInv {e : Endpoint} {s : State} (h : CodecInv e s) : CodecInv e (s.modEp e Ep.disable) := by
  have hoff (ep : Ep) : ep.disable.enabled = false := by
    unfold Ep.disable
    rcases complete_cases { ep with enabled := false } .cancelled with ⟨_, heq⟩ | ⟨ab, _, heq⟩ <;> rw [heq] <;> rfl
  have hfmt (ep : Ep) : ep.disable.fmtSet = ep.fmtSet ∧ ep.disable.imageWidth = ep.imageWidth := by
    unfold Ep.disable
    rcases complete_cases { ep with enabled := false } .cancelled with ⟨_, heq⟩ | ⟨ab, _, heq⟩ <;> rw [heq] <;>
      exact ⟨rfl, rfl⟩
  cases e with
  | color =>
    refine ⟨fun hon => Bool.noConfusion ((hoff s.color).symm.trans hon), fun hset => ?_⟩
    show s.color.disable.imageWidth ≠ 0
    rw [(hfmt s.color).2]
    exact h.2 ((hfmt s.color).1 ▸ hset)
  | depth => exact ⟨h.1, fun hon => Bool.noConfusion ((hoff s.depth).symm.trans hon)⟩

theorem format_sideInv {e : Endpoint} {s : State} {w l n : Nat} (hoff : (s.ep e).enabled = false)
    (hw : e = .color → w ≠ 0) (h : SideInv e s) :
    SideInv e (s.modEp e fun ep => { ep with imageWidth := w, bytesPerLine := l, imageSize := n, fmtSet := true }) := by
  obtain ⟨hep, hcodec⟩ := h
  refine ⟨?_, ?_⟩
  · rw [modEp_ep]
    exact (epOk_of_disabled (ep := { s.ep e with imageWidth := w, bytesPerLine := l, imageSize := n, fmtSet := true }) hoff).2
      ((epOk_of_disabled hoff).1 hep)
  · cases e with
    | color => exact ⟨fun hon => Bool.noConfusion (hoff.symm.trans hon), fun _ => hw rfl⟩
    | depth => exact hcodec

/-! ### Who holds which buffer (R62 (f)) -/

theorem heldIds_sublist {s t : State} {e : Endpoint} (hother : ∀ d, d ≠ e → t.ep d = s.ep d)
    (h : (t.ep e).heldIds.Sublist (s.ep e).heldIds) : t.heldIds.Sublist s.heldIds := by
  cases e with
  | color =>
    have hd : t.depth = s.depth := hother .depth (by decide)
    rw [State.heldIds, State.heldIds, hd]
    exact h.append_right _
  | depth =>
    have hc : t.color = s.color := hother .color (by decide)
    rw [State.heldIds, State.heldIds, hc]
    exact h.append_left _

/-- A buffer that nobody holds joins one queue. -/
theorem enqueue_nodup {s : State} {e : Endpoint} {buf : Buf} (hnew : buf.id ∉ s.heldIds) (h : s.heldIds.Nodup) :
    (s.modEp e fun ep => { ep with avail := ep.avail ++ [buf] }).heldIds.Nodup := by
  have hperm : (s.modEp e fun ep => { ep with avail := ep.avail ++ [buf] }).heldIds.Perm (buf.id :: s.heldIds) := by
    refine List.perm_iff_count.2 fun a => ?_
    cases e with
    | color =>
      show List.count a (Ep.heldIds { s.color with avail := s.color.avail ++ [buf] } ++ s.depth.heldIds) = _
      simp only [State.heldIds, Ep.heldIds, List.map_append, List.count_append, List.count_cons, List.map_cons, List.map_nil,
        List.count_nil]
      omega
    | depth =>
      show List.count a (s.color.heldIds ++ Ep.heldIds { s.depth with avail := s.depth.avail ++ [buf] }) = _
      simp only [State.heldIds, Ep.heldIds, List.map_append, List.count_append, List.count_cons, List.map_cons, List.map_nil,
        List.count_nil]
      omega
  exact hperm.nodup_iff.2 (List.nodup_cons.2 ⟨hnew, h⟩)

/-! ### Every operation of an agent -/

theorem withTable_codecInv {s : State} (l : Lut) (h : CodecInv .depth s) : CodecInv .depth (withTable s l) :=
  ⟨h.1, fun _ => rfl⟩

theorem exec_sideInv {i : Instr} {e : Endpoint} {s t : State} (hagent : isAgentOp i = true)
    (he : endpointOf i = some e) (hx : exec i s = .next t) (hs : SideInv e s) : SideInv e t := by
  obtain ⟨hep, hcodec⟩ := hs
  cases exec_endpoint he hx with
  | callback hi hf =>
    obtain hnot | ⟨d, bytes, rfl⟩ := isCallback_cases hi
    · exact Bool.noConfusion (hnot.symm.trans hagent)
    cases he
    have hchunk := Host.Outcome.next.inj hx
    rw [← hchunk]
    exact ⟨raChunk_epOk bytes hep, raChunk_codecInv bytes hcodec⟩
  | enable hoff hfmt hlut => exact ⟨by rw [Whole.raEnable_ep]; exact enable_epOk hfmt hep, enable_codecInv hfmt hlut hcodec⟩
  | disable => exact ⟨by rw [modEp_ep]; exact disable_epOk hep, disable_codecInv hcodec⟩
  | enqueue hnew =>
    refine ⟨by rw [modEp_ep]; exact hep, ?_⟩
    cases e <;> exact hcodec
  | format hoff hw => exact format_sideInv hoff hw ⟨hep, hcodec⟩
  | table hoff => exact ⟨by rw [withTable_ep]; exact hep, withTable_codecInv _ hcodec⟩

theorem exec_nodup {i : Instr} {e : Endpoint} {s t : State} (he : endpointOf i = some e) (hx : exec i s = .next t)
    (hs : SideInv e s) (hnodup : s.heldIds.Nodup) : t.heldIds.Nodup := by
  have hstep := exec_endpoint he hx
  have hshrinks (h : (t.ep e).heldIds.Sublist (s.ep e).heldIds) : t.heldIds.Nodup :=
    hnodup.sublist (heldIds_sublist (fun d hd => hstep.otherEp hd) h)
  cases hstep with
  | callback hi hf => exact hshrinks (hf.moves s).heldIds_sublist
  | enable hoff =>
    obtain ⟨-, hnone, -⟩ := (epOk_of_disabled hoff).1 hs.1
    refine hshrinks ?_
    rw [Whole.raEnable_ep]
    show ([] ++ _ : List Nat).Sublist _
    rw [Ep.heldIds, hnone]
    exact .refl _
  | disable =>
    refine hshrinks ?_
    rw [modEp_ep, disable_heldIds]
    exact List.nil_sublist _
  | enqueue hnew => exact enqueue_nodup hnew hnodup
  | format => exact hshrinks (by rw [modEp_ep]; exact .refl (s.ep e).heldIds)
  | table => exact hshrinks (by rw [withTable_ep])

theorem exec_otherSideInv {i : Instr} {d e : Endpoint} {s t : State} (he : endpointOf i = some e)
    (hx : exec i s = .next t) (hne : d ≠ e) (hs : SideInv d s) : SideInv d t := by
  have hstep := exec_endpoint he hx
  by_cases hi : i = .lutBuild
  · subst hi
    cases he
    obtain ⟨hcolor, hcl⟩ := hstep.otherSide.1 rfl
    cases d with
    | color => rw [SideInv, CodecInv, CountOk, ep_color, hcolor, hcl]; exact hs
    | depth => exact absurd rfl hne
  · rw [hstep.frame hi]
    exact takeSide_sideInv hne hs

/-! ### Every step -/

theorem streamInv_congr {s t : State} (hcfg : t.cfg = s.cfg) (hcolor : t.color = s.color) (hdepth : t.depth = s.depth)
    (hdc : t.dc = s.dc) (hcl : t.cl = s.cl) (hstim : ∀ x ∈ t.stim, x ∈ s.stim) (h : StreamInv s) : StreamInv t := by
  obtain ⟨h1, h2, h3, h4, h5, h6, h7, hagents⟩ := h
  rw [StreamInv, State.heldIds, hcfg, hcolor, hdepth, hdc, hcl]
  exact ⟨h1, h2, h3, h4, h5, h6, h7, fun x hx => hagents x (hstim x hx)⟩

/-- An operation that an agent's stimulus names is an agent's. -/
theorem isAgentOp_of_stimulus {c : Cfg} {x : Stimulus} {bytes : List Byte} {i : Instr}
    (hx : x = .op bytes ∨ x = .invoke bytes) (hagent : isAgentStimulus c x = true) (hdec : decode c bytes = .ok i) :
    isAgentOp i = true := by
  rcases hx with rfl | rfl <;> simpa [isAgentStimulus, namesAgentOp, hdec] using hagent

theorem exec_streamInv {i : Instr} {s t : State} (hagent : isAgentOp i = true) (hx : exec i s = .next t)
    (hs : StreamInv s) : StreamInv t := by
  rcases exec_cases hx with ⟨-, -, h⟩ | ⟨e, -, he, h⟩ | ⟨-, -, r, rfl⟩
  · obtain ⟨hcfg, hstim, -, hcolor, hdepth, hdc, hcl, -⟩ := h.frame
    exact streamInv_congr hcfg hcolor hdepth hdc hcl (fun x hx => hstim ▸ hx) hs
  · rw [streamInv_iff] at hs ⊢
    obtain ⟨hside, hnodup, hstims⟩ := hs
    obtain ⟨hcfg, hstim, -⟩ := h.session
    rw [hcfg, hstim]
    refine ⟨fun d => ?_, exec_nodup he hx (hside e) hnodup, hstims⟩
    by_cases hd : d = e
    · exact hd ▸ exec_sideInv hagent he hx (hside e)
    · exact exec_otherSideInv he hx hd (hside d)
  · exact streamInv_congr rfl rfl rfl rfl rfl (fun _ hx => hx) hs

/-- Settles O7: the stimuli to come are agents', so a step runs a chunk, a command or an operation that leaves both
endpoints alone. -/
theorem everyStepKeepsTheStreamInvariant : Obligations.EveryStepKeepsTheStreamInvariant := by
  intro s t hs hstep
  have htaken : StreamInv s.taken := streamInv_congr (s := s) rfl rfl rfl rfl rfl (fun _ => List.mem_of_mem_tail) hs
  cases step_cases hstep with
  | stays => exact hs
  | cal => exact streamInv_congr rfl rfl rfl rfl rfl (fun _ hx => hx) htaken
  | @runs x _ _ rest _ hstim hx hdec hexec =>
    obtain ⟨-, -, hagents⟩ := (streamInv_iff s).1 hs
    have hx' : isAgentStimulus s.cfg x = true := hagents x (by rw [hstim]; exact List.mem_cons_self)
    exact exec_streamInv (isAgentOp_of_stimulus hx hx' hdec) hexec htaken
  | invokes => exact streamInv_congr rfl rfl rfl rfl rfl (fun _ hx => hx) htaken
  | @resumes k =>
    obtain ⟨u, ⟨_, _, _, rfl, -⟩, cs, rs, h⟩ := resume_frame s.taken k
    rw [h]
    exact streamInv_congr rfl rfl rfl rfl rfl (fun _ hx => hx) htaken

end Sys2Proof.Proofs.Stream
end


section
/-! PROOFS. Stepping and session creation: what each kind of stimulus does (R84, R86, R160), and the state that reset
leaves (R60, R341). -/

namespace Sys2Proof.Proofs.Stepping

open Sys2Proof.Machine Sys2Proof.Safety Sys2Proof.Proofs.Steps

/-! ### One equation per stimulus kind -/

section Stimuli

variable {s : State} {rest : List Stimulus} {bytes : List Byte} {i : Instr}

theorem taken_of_stim {x : Stimulus} (h : s.stim = x :: rest) : s.taken = { s with stim := rest } := by
  rw [State.taken, h, List.tail_cons]

theorem step_nil (h : s.stim = []) : step s = .next s := by rw [step, h]

theorem step_calWrite {cal : Cal} (h : s.stim = .calWrite cal :: rest) : step s = .next (s.taken.writeCal cal) := by
  rw [step, h]

theorem step_op (h : s.stim = .op bytes :: rest) : step s = runStimulus runOp bytes s := by rw [step, h]

theorem step_invoke (h : s.stim = .invoke bytes :: rest) : step s = runStimulus invoke bytes s := by rw [step, h]

theorem step_resume {k : Nat} (h : s.stim = .resume k :: rest) : step s = resumeCall k s := by rw [step, h]

theorem runStimulus_of_ok {f : Instr → State → Host.Outcome State Fault Refusal} (h : decode s.cfg bytes = .ok i) :
    runStimulus f bytes s = f i s := by rw [runStimulus, h]

theorem runStimulus_of_error {f : Instr → State → Host.Outcome State Fault Refusal} {err : DecodeError}
    (h : decode s.cfg bytes = .error err) : runStimulus f bytes s = .refused (.undecodable err) := by rw [runStimulus, h]

theorem runOp_of_free (h : waits s i = false) : runOp i s = exec i s.taken := by simp [runOp, h]

theorem runOp_of_waits (h : waits s i = true) : runOp i s = .next s := by simp [runOp, h]

theorem invoke_of_none (h : callOf s.cfg i = none) : invoke i s = runOp i s := by rw [invoke, h]

theorem invoke_of_some {c : Call} (h : callOf s.cfg i = some c) : invoke i s = .next (s.taken.addCall c) := by
  rw [invoke, h]

theorem resume_of_length_le {k : Nat} (h : s.calls.length ≤ k) : s.resume k = s := by
  rw [State.resume, List.getElem?_eq_none h]

end Stimuli

/-- Settles O3: the equation of the stimulus' kind, clause by clause. -/
theorem stepRunsTheDecodedOperation : Obligations.StepRunsTheDecodedOperation := by
  intro s rest
  refine ⟨fun bytes i hs hdec hfree => ?_, fun bytes err hs herr => ?_, fun cal hs => ?_, step_nil,
    fun bytes i hs hdec hcall hfree => ?_, fun bytes i c hs hdec hcall => ?_, fun k hs hlen hlock => ?_⟩
  · rw [step_op hs, runStimulus_of_ok hdec, runOp_of_free hfree, taken_of_stim hs]
  · rcases hs with hs | hs
    · rw [step_op hs, runStimulus_of_error herr]
    · rw [step_invoke hs, runStimulus_of_error herr]
  · rw [step_calWrite hs, taken_of_stim hs]
    rfl
  · rw [step_invoke hs, runStimulus_of_ok hdec, invoke_of_none hcall, runOp_of_free hfree, taken_of_stim hs]
  · rw [step_invoke hs, runStimulus_of_ok hdec, invoke_of_some hcall, taken_of_stim hs]
    rfl
  · have hnot : ¬ s.cc.lock = true := by simp [hlock]
    rw [step_resume hs, resumeCall, if_neg hnot, resume_of_length_le (s := s.taken) hlen, taken_of_stim hs]

/-- While the lock is held every control operation that makes an exchange waits (R160). -/
theorem waits_of_lock {s : State} {i : Instr} (hlock : s.cc.lock = true) (hi : isControl i = true)
    (hfixed : s.cfg.fixedSize ≠ 0) (halgo : s.cfg.algoSize ≠ 0) (hinit : s.cfg.initRetries ≠ 0) : waits s i = true := by
  unfold waits
  unfold isControl at hi
  cases hop : ctrlOp i with
  | none => rw [hop] at hi; cases hi
  | some op => cases op <;> simp [hlock, hfixed, halgo, hinit]

/-- Settles O4: the operation waits whichever stimulus names it, and so does a resumption. -/
theorem heldLockMakesTheCallerWait : Obligations.HeldLockMakesTheCallerWait := by
  intro s rest hlock
  refine ⟨fun bytes i hs hdec hi hfixed halgo hinit => ?_, fun k hs => ?_⟩
  · have hwaits := waits_of_lock hlock hi hfixed halgo hinit
    rcases hs with hs | ⟨hs, hcall⟩
    · rw [step_op hs, runStimulus_of_ok hdec, runOp_of_waits hwaits]
    · rw [step_invoke hs, runStimulus_of_ok hdec, invoke_of_none hcall, runOp_of_waits hwaits]
  · rw [step_resume hs, resumeCall, if_pos hlock]

/-! ### Session creation -/

/-- Settles O5: both endpoints start from the same register values, and the table is empty. -/
theorem sessionCreationSetsTheRegisters : Obligations.SessionCreationSetsTheRegisters := by
  have hep (e : Endpoint) : State.reset.ep e = Ep.reset := by cases e <;> rfl
  refine ⟨rfl, rfl, rfl, fun e => ?_, fun c _ => rfl, rfl, rfl, by decide, rfl, rfl, rfl⟩
  rw [hep]
  exact ⟨rfl, rfl, rfl, rfl, rfl, rfl, rfl, rfl, rfl, rfl, rfl, rfl, rfl, rfl, rfl, rfl, rfl⟩

/-- Settles O6: at reset nothing is held, gathered, written or to come. -/
theorem resetMeetsTheInvariants : Obligations.ResetMeetsTheInvariants := by
  refine ⟨?_, ?_, reset_lut_wf, ?_, ?_⟩
  · rw [Stream.streamInv_iff]
    refine ⟨fun e => ?_, List.nodup_nil, fun x hx => absurd hx List.not_mem_nil⟩
    cases e with
    | color => exact ⟨rfl, fun h => Bool.noConfusion h, fun h => Bool.noConfusion h⟩
    | depth => exact ⟨rfl, Nat.zero_le _, fun h => Bool.noConfusion h⟩
  · rw [Session.sessionInv_iff]
    exact ⟨by decide, rfl, ⟨Nat.zero_le _, rfl, Nat.zero_le _, rfl, Nat.zero_le _⟩, fun c hc => absurd hc List.not_mem_nil⟩
  · intro e ab hab
    cases e <;> cases hab
  · intro e c hc
    cases e <;> cases hc

end Sys2Proof.Proofs.Stepping
end


section
/-! PROOFS. The reassembler's operations one by one (42_reassembler.md): bytes and chunks, the marker, the header, the
start of a frame, and the commands. -/

namespace Sys2Proof.Proofs.Packets

open Sys2Proof.Machine Sys2Proof.Safety Sys2Proof.Proofs.Sides Sys2Proof.Proofs.Buffers Sys2Proof.Proofs.Steps
  Sys2Proof.Proofs.Encoding

/-! ### The operations as state functions -/

theorem exec_raChunk (e : Endpoint) (bytes : List Byte) (s : State) :
    exec (.raChunk e bytes) s = .next (raChunk e bytes s) := rfl

theorem exec_raByte (e : Endpoint) (b : Byte) (s : State) : exec (.raByte e b) s = .next (raByte e s b) := rfl

theorem exec_raSeek1 (e : Endpoint) (b : Byte) (s : State) : exec (.raSeek1 e b) s = .next (raSeek1 e b s) := rfl

theorem exec_raSeek2 (e : Endpoint) (b : Byte) (s : State) : exec (.raSeek2 e b) s = .next (raSeek2 e b s) := rfl

theorem exec_raStart (e : Endpoint) (s : State) : exec (.raStart e) s = .next (raStart e s) := rfl

theorem exec_raCont (e : Endpoint) (seq : Half) (s : State) : exec (.raCont e seq) s = .next (raCont e seq s) := rfl

theorem exec_startHook (e : Endpoint) (s : State) : exec (startHook e) s = .next (codecStart e s) := by cases e <;> rfl

theorem exec_dcData (bytes : List Byte) (s : State) : exec (.dcData bytes) s = .next (dcData bytes s) := rfl

/-! ### Chunks (R200, R201, R219) -/

theorem raChunk_of_enabled {e : Endpoint} {s : State} (h : (s.ep e).enabled = true) (bytes : List Byte) :
    raChunk e bytes s = bytes.foldl (raByte e) s := if_pos h

theorem raChunk_of_disabled {e : Endpoint} {s : State} (h : (s.ep e).enabled = false) (bytes : List Byte) :
    raChunk e bytes s = s := if_neg (by simp [h])

theorem runOps_raByte (e : Endpoint) (bytes : List Byte) (s : State) :
    runOps (bytes.map (.raByte e)) s = .next (bytes.foldl (raByte e) s) := by
  induction bytes generalizing s with
  | nil => rfl
  | cons b bytes ih => rw [List.map_cons, Colour.runOps_cons_of_next (exec_raByte e b s), ih, List.foldl_cons]

/-- Settles O34: on an enabled endpoint the chunk is the fold of its bytes, as the sequence of operations is. -/
theorem raChunkRunsItsBytesInOrder : Obligations.RaChunkRunsItsBytesInOrder := by
  intro s e bytes
  refine ⟨fun hon => ⟨bytes.foldl (raByte e) s, ?_, runOps_raByte e bytes s⟩, fun hoff => ?_⟩
  · rw [exec_raChunk, raChunk_of_enabled hon]
  · rw [exec_raChunk, raChunk_of_disabled hoff]

/-- Two operations that always go on. -/
theorem runOps_two {i j : Instr} {f g : State → State} {s : State} (hi : ∀ s, exec i s = .next (f s))
    (hj : ∀ s, exec j s = .next (g s)) : runOps [i, j] s = .next (g (f s)) := by
  rw [Colour.runOps_cons_of_next (hi s), Colour.runOps_cons_of_next (hj _), runOps]

/-- A delivery that a condition admits is the fold of its bytes; the bytes keep the condition, so two deliveries are one
of the two strings joined. -/
theorem deliver_append {α : Type} {f : State → α → State} {P : State → Bool} (hP : ∀ s a, P (f s a) = P s) (s : State)
    (xs ys : List α) {deliver : List α → State → State}
    (hd : ∀ as s, deliver as s = if P s then as.foldl f s else s) :
    deliver ys (deliver xs s) = deliver (xs ++ ys) s := by
  rw [hd xs s, hd (xs ++ ys) s]
  split
  · rename_i h
    rw [hd, Reassembler.foldl_keeps (g := P) hP, if_pos h, List.foldl_append]
  · rename_i h
    rw [hd, if_neg h]

theorem dcUnpack_buf (u : DepthUnit) (s : State) :
    (dcUnpack u s).depth.active.map (·.buf) = s.depth.active.map (·.buf) := by
  obtain ⟨act, cur, evs, h, hbuf, -⟩ := dcUnpack_cases u s
  rw [h]
  exact hbuf

theorem dcByte_buf (s : State) (b : Byte) : (dcByte s b).depth.active.map (·.buf) = s.depth.active.map (·.buf) := by
  unfold dcByte
  simp only []
  split
  · exact dcUnpack_buf _ { s with dc := { s.dc with carry := _, carryLen := 0 } }
  · rfl

/-- Whether a buffer is held is told by which one is. -/
theorem holdsBuffer_of_buf {a b : Ep} (h : a.active.map (·.buf) = b.active.map (·.buf)) : a.holdsBuffer = b.holdsBuffer := by
  simpa [Ep.holdsBuffer] using congrArg Option.isSome h

theorem dcByte_holdsBuffer (s : State) (b : Byte) : (dcByte s b).depth.holdsBuffer = s.depth.holdsBuffer :=
  holdsBuffer_of_buf (dcByte_buf s b)

/-- Settles O35: no byte changes the condition under which a delivery is taken. -/
theorem deliveriesMayBeSplitAnywhere : Obligations.DeliveriesMayBeSplitAnywhere := by
  intro s e x y
  refine ⟨?_, ?_, ?_⟩
  · have hkeep (s : State) (b : Byte) : ((raByte e s b).ep e).enabled = (s.ep e).enabled :=
      ((moves_closed e).raByte s b).sameFormat.enabled
    rw [runOps_two (exec_raChunk e x) (exec_raChunk e y), exec_raChunk,
      deliver_append (deliver := raChunk e) (P := fun s => (s.ep e).enabled) hkeep s x y fun _ _ => rfl]
  · rw [runOps_two (exec_dcData x) (exec_dcData y), exec_dcData,
      deliver_append (deliver := dcData) (P := fun s => s.depth.holdsBuffer) dcByte_holdsBuffer s x y fun _ _ => rfl]
  · rw [runOps_two (Colour.exec_clData x) (Colour.exec_clData y), Colour.exec_clData,
      deliver_append (deliver := clData) (P := fun s => s.color.holdsBuffer) Colour.clByte_holdsBuffer s x y fun _ _ => rfl]

/-! ### Bytes and the marker (R202 to R204) -/

theorem dispatchByte_seek1 {e : Endpoint} {b : Byte} {s : State} (h : (s.ep e).rstate = .seek1) :
    dispatchByte e b s = raSeek1 e b s := by rw [dispatchByte, h]

theorem dispatchByte_seek2 {e : Endpoint} {b : Byte} {s : State} (h : (s.ep e).rstate = .seek2) :
    dispatchByte e b s = raSeek2 e b s := by rw [dispatchByte, h]

theorem dispatchByte_hdr {e : Endpoint} {b : Byte} {s : State} (h : (s.ep e).rstate = .hdr) :
    dispatchByte e b s = raHdr e b s := by rw [dispatchByte, h]

theorem dispatchByte_payload {e : Endpoint} {b : Byte} {s : State} (h : (s.ep e).rstate = .payload) :
    dispatchByte e b s = raPay e b s := by rw [dispatchByte, h]

/-- Settles O36: counting the byte leaves the reassembly state that the dispatch reads. -/
theorem raByteCountsAndDispatches : Obligations.RaByteCountsAndDispatches := by
  intro s u e b hu
  have hcount : countByte e s = u := hu.symm
  have hst : (u.ep e).rstate = (s.ep e).rstate := by rw [hu, withEp_ep]
  have hrun : exec (.raByte e b) s = .next (dispatchByte e b u) := by rw [exec_raByte, raByte_eq, hcount]
  refine ⟨fun h => ?_, fun h => ?_, fun h => ?_, fun h => ?_, _, hrun⟩ <;> rw [hrun]
  · rw [dispatchByte_seek1 (hst.trans h), exec_raSeek1]
  · rw [dispatchByte_seek2 (hst.trans h), exec_raSeek2]
  · rw [dispatchByte_hdr (hst.trans h), Reassembler.exec_raHdr]
  · rw [dispatchByte_payload (hst.trans h), Reassembler.exec_raPay]

theorem withEp_self (s : State) (e : Endpoint) : s.withEp e (s.ep e) = s := by cases e <;> rfl

theorem raSeek1_of_sync {e : Endpoint} {b : Byte} {s : State} (h : b = loByte s.cfg.devSync) :
    raSeek1 e b s = s.withEp e { s.ep e with rstate := .seek2 } := by
  have hsync : b = sync0 s.cfg := h
  rw [raSeek1, State.modEp, Ep.seek1, if_pos hsync]

theorem raSeek1_of_other {e : Endpoint} {b : Byte} {s : State} (h : b ≠ loByte s.cfg.devSync) : raSeek1 e b s = s := by
  have hsync : ¬ b = sync0 s.cfg := h
  rw [raSeek1, State.modEp, Ep.seek1, if_neg hsync, withEp_self]

theorem raSeek2_of_sync {e : Endpoint} {b : Byte} {s : State} (h : b = hiByte s.cfg.devSync) :
    raSeek2 e b s = s.withEp e { s.ep e with
      hdr := ((s.ep e).hdr.set 0 (loByte s.cfg.devSync)).set 1 (hiByte s.cfg.devSync), hdrFill := 2, rstate := .hdr } := by
  have hsync : b = sync1 s.cfg := h
  rw [raSeek2, State.modEp, Ep.seek2, if_pos hsync]
  rfl

/-- A mismatch on the second byte is RA.SEEK1 from the start (R204). -/
theorem raSeek2_of_other {e : Endpoint} {b : Byte} {s : State} (h : b ≠ hiByte s.cfg.devSync) :
    raSeek2 e b s = s.withEp e (Ep.seek1 s.cfg { s.ep e with rstate := .seek1 } b) := by
  have hsync : ¬ b = sync1 s.cfg := h
  rw [raSeek2, State.modEp, Ep.seek2, if_neg hsync]

/-- Settles O37: the two bytes of the marker, and the byte that is examined again. -/
theorem seekFindsTheMarker : Obligations.SeekFindsTheMarker := by
  intro s e b
  refine ⟨fun h => ?_, fun h => ?_, fun h => ?_, fun h hfirst => ?_, fun h hfirst => ?_⟩
  · rw [exec_raSeek1, raSeek1_of_sync h]
  · rw [exec_raSeek1, raSeek1_of_other h]
  · rw [exec_raSeek2, raSeek2_of_sync h]
  · have hsync : b = sync0 s.cfg := hfirst
    rw [exec_raSeek2, raSeek2_of_other h, Ep.seek1, if_pos hsync]
  · have hsync : ¬ b = sync0 s.cfg := hfirst
    rw [exec_raSeek2, raSeek2_of_other h, Ep.seek1, if_neg hsync]

/-! ### Continuation packets (R209) -/

theorem seq_eq_succ_iff (seq last : Half) : seq = last + 1 ↔ seq.toNat = (last.toNat + 1) % 65536 := by
  rw [← BitVec.toNat_inj, BitVec.toNat_add]
  rfl

/-- Settles O41: the gap test is arithmetic modulo 2^16. -/
theorem raContChecksTheSequence : Obligations.RaContChecksTheSequence := by
  intro s e seq
  refine ⟨fun h => ?_, fun h => ?_⟩
  · have hseq := (seq_eq_succ_iff _ _).2 h
    rcases continuation_cases (s.ep e) seq with ⟨_, hcont⟩ | ⟨hne, _⟩
    · rw [exec_raCont, raCont, State.modEp, hcont]
    · exact absurd hseq hne
  · have hseq := mt (seq_eq_succ_iff _ _).1 h
    rcases continuation_cases (s.ep e) seq with ⟨heq, _⟩ | ⟨_, hcont⟩
    · exact absurd heq hseq
    · rw [exec_raCont, raCont, State.modEp, hcont]

/-! ### Header fields and the header's end (R206, R110 to R113) -/

/-- A field that is a number of two bytes is their 16-bit value. -/
theorem eq_half {v : Half} {lo hi : Byte} (h : v.toNat = lo.toNat + 256 * hi.toNat) : v = half lo hi :=
  BitVec.eq_of_toNat_eq (h.trans (half_toNat lo hi).symm)

theorem eq_payloadLen {len declared : Half} (h : len.toNat = declared.toNat - 12) : len = payloadLen declared := by
  apply BitVec.eq_of_toNat_eq
  rw [h, payloadLen]
  have := declared.isLt
  split
  · rename_i hle
    rw [BitVec.toNat_sub_of_le (by simpa [BitVec.le_def] using hle)]
    rfl
  · rename_i hlt
    show declared.toNat - 12 = 0
    omega

theorem exec_openPacket (e : Endpoint) (u : State) :
    exec (if (u.ep e).ptype = u.cfg.startType e then .raStart e else .raCont e (hdrSeq (u.ep e).hdr)) u
      = .next (openPacket e u) := by
  unfold openPacket
  split <;> rfl

/-- Settles O39: the latched fields are the header's numbers, and the packet class keeps the payload count. -/
theorem raHdrdoneReadsTheHeader : Obligations.RaHdrdoneReadsTheHeader := by
  intro s u e type seq len htype hseq hlen hu
  have htype' : type = hdrType (s.ep e).hdr := eq_half htype
  have hseq' : seq = hdrSeq (s.ep e).hdr := eq_half hseq
  have hlen' : len = payloadLen (hdrDeclared (s.ep e).hdr) :=
    eq_payloadLen (by rw [hdrDeclared, half_toNat]; omega)
  have hlatch : s.modEp e Ep.latchHeader = u := by rw [hu, State.modEp, Ep.latchHeader, htype', hlen']
  have hfields : (u.ep e).ptype = type ∧ hdrSeq (u.ep e).hdr = seq ∧ (u.ep e).remaining = len ∧ u.cfg = s.cfg := by
    rw [hu, withEp_ep, withEp_cfg]
    exact ⟨rfl, hseq'.symm, rfl, rfl⟩
  obtain ⟨hptype, hnumber, hrem, hcfg⟩ := hfields
  have henter : enterPayload e s = (openPacket e u).withEp e { (openPacket e u).ep e with rstate := .payload } := by
    rw [enterPayload, hlatch, State.modEp]
  have hleft : ((enterPayload e s).ep e).remaining = len := by
    rw [henter, withEp_ep]
    exact (Stream.openPacket_counts e u).2.1.trans hrem
  refine ⟨openPacket e u, enterPayload e s, ?_, henter, ?_, _, Reassembler.exec_raHdrdone e s⟩
  · have h := exec_openPacket e u
    rwa [hptype, hnumber, hcfg] at h
  · rw [Reassembler.exec_raHdrdone, raHdrdone_eq, hleft, Reassembler.exec_raPktdone, apply_ite Host.Outcome.next]

/-! ### The start of a frame (R207, R208) -/

theorem now_of_cons {e : Endpoint} {ep : Ep} {a : Stamp} {r : List Stamp} (h : ep.nowAnswers = a :: r) :
    ep.now e = (a, { ep with nowAnswers := r }) := by rw [Ep.now, h]

theorem now_of_nil {e : Endpoint} {ep : Ep} (h : ep.nowAnswers = []) :
    ep.now e = (Config.freeNow e ep.nowDraws, { ep with nowDraws := ep.nowDraws + 1 }) := by rw [Ep.now, h]

theorem raStart_eq (e : Endpoint) (s : State) : raStart e s = codecStart e (s.withEp e ((s.ep e).openFrame e)) := rfl

/-- Settles O40: the three outcomes of looking for a buffer, each with the start hook; without a buffer the hook is
idle. -/
theorem raStartBeginsAFrame : Obligations.RaStartBeginsAFrame := by
  intro s e seq ps pe hseq hpe hps
  refine ⟨((s.ep e).now e).1, ((s.ep e).now e).2.nowAnswers, ((s.ep e).now e).2.nowDraws, fun a r h => ?_, fun h => ?_,
    fun u hu => ?_⟩
  · rw [now_of_cons h]
    exact ⟨rfl, rfl, rfl⟩
  · rw [now_of_nil h]
    exact h
  have hstamp : u = s.withEp e (stamped e (s.ep e)) := by
    have hseq' : seq = hdrSeq (s.ep e).hdr := eq_half hseq
    have hpe' : pe = hdrPadEnd (s.ep e).hdr := eq_half hpe
    have hps' : ps = hdrPadStart (s.ep e).hdr := eq_half hps
    rw [hu, stamped, hseq', hpe', hps']
  have huep : u.ep e = stamped e (s.ep e) := by rw [hstamp, withEp_ep]
  have huwith (ep : Ep) : u.withEp e ep = s.withEp e ep := by rw [hstamp]; cases e <;> rfl
  refine ⟨fun hheld => ?_, fun b r hfree hqueue => ?_, fun hfree hempty => ?_, _, exec_raStart e s⟩
  · rw [exec_raStart, exec_startHook, raStart_eq, openFrame_of_held hheld, hstamp]
  · rw [exec_raStart, exec_startHook, raStart_eq, openFrame_of_queued hfree hqueue, huwith, huep]
  · have hlog : u.withEp e { u.ep e with events := (s.ep e).events ++ [.noBuffer] }
        = s.withEp e ((stamped e (s.ep e)).logEvent .noBuffer) := by rw [huwith, huep]; rfl
    have hnone : ((s.withEp e ((stamped e (s.ep e)).logEvent .noBuffer)).ep e).holdsBuffer = false := by
      rw [withEp_ep]
      simp [Ep.holdsBuffer, stamped, hfree]
    obtain ⟨hidle, -, -⟩ := codec_noop hnone []
    rw [exec_raStart, raStart_eq, openFrame_of_none hfree hempty, hidle, hlog]

/-! ### The commands (R215 to R218) -/

/-- Settles O44: the precondition's three tests in order, then the registers of the RA.ENABLE column. -/
theorem raEnableResetsTheEndpoint : Obligations.RaEnableResetsTheEndpoint := by
  intro s e ep
  have hrun (d : Endpoint) : exec (.raEnable d) s = execRaEnable d s := rfl
  refine ⟨fun hep hoff hfmt hlut => ?_, fun hon => ?_, fun hoff hfmt => ?_, fun hoff hfmt hlut => ?_⟩
  · have hnext : exec (.raEnable e) s = .next (raEnable e s) := by
      have hbuilt : ¬ (e = .depth ∧ (!s.dc.lutValid) = true) := fun ⟨he, h⟩ => by simp [hlut he] at h
      rw [hrun, execRaEnable, if_neg (by simp [hoff]), if_neg (by simp [hfmt]), if_neg hbuilt]
    refine ⟨?_, ?_⟩ <;> rintro rfl <;> rw [hnext, hep] <;> rfl
  · rw [hrun, execRaEnable, if_pos hon]
  · rw [hrun, execRaEnable, if_neg (by simp [hoff]), if_pos (by simp [hfmt])]
  · rw [hrun, execRaEnable, if_neg (by simp [hoff]), if_neg (by simp [hfmt]), if_pos (by simp [hlut])]

/-- Settles O45: the active buffer's completion, if there is one, then the drain. -/
theorem raDisableReleasesEveryBuffer : Obligations.RaDisableReleasesEveryBuffer := by
  intro s e
  have hrun : exec (.raDisable e) s = .next (s.withEp e (s.ep e).disable) := rfl
  rw [hrun, Ep.disable]
  rcases complete_cases { s.ep e with enabled := false } .cancelled with ⟨hnone, h⟩ | ⟨ab, hheld, h⟩
  · have hact : (s.ep e).active = none := hnone
    rw [h, hact, List.append_nil, ← hact]
    rfl
  · have hact : (s.ep e).active = some ab := hheld
    rw [h, hact]
    rfl

/-- Settles O46: the two tests of the precondition in order. -/
theorem bqEnqueueAppends : Obligations.BqEnqueueAppends := by
  intro s e buf
  have hrun : exec (.bqEnqueue e buf) s = execBqEnqueue e buf s := rfl
  refine ⟨fun hcap hnew => ?_, fun hcap => ?_, fun hcap hheld => ?_⟩
  · rw [hrun, execBqEnqueue, if_neg (Nat.not_lt.2 hcap), if_neg hnew, State.modEp]
  · rw [hrun, execBqEnqueue, if_pos hcap]
  · rw [hrun, execBqEnqueue, if_neg (Nat.not_lt.2 hcap), if_pos hheld]

/-- Settles O47: the two refusals, then the format registers. -/
theorem fmtSetWritesTheFormat : Obligations.FmtSetWritesTheFormat := by
  intro s e w h l n
  have hrun (d : Endpoint) (w : Nat) : exec (.fmtSet d w h l n) s = execFmtSet d w h l n s := rfl
  refine ⟨fun hoff hw => ?_, fun hon => ?_, fun hoff => ?_⟩
  · rw [hrun, execFmtSet, if_neg (by simp [hoff]), if_neg fun ⟨he, hzero⟩ => hw he hzero, State.modEp]
  · rw [hrun, execFmtSet, if_pos hon]
  · rw [hrun, execFmtSet, if_neg (by simp [hoff]), if_pos ⟨rfl, rfl⟩]

end Sys2Proof.Proofs.Packets
end


section
/-! PROOFS. The colour codec's operations one by one (44_color_codec.md), and BufWrite (R78). -/

namespace Sys2Proof.Proofs.Samples

open Sys2Proof.Machine Sys2Proof.Safety Sys2Proof.Proofs.Colour Sys2Proof.Proofs.Encoding

/-! ### BufWrite (R78) -/

/-- Settles O20: the clipped write's reads are the string's bytes at the offsets that fit. -/
theorem bufWriteClipsAtTheImageSize : Obligations.BufWriteClipsAtTheImageSize := by
  intro ep ab bytes hact hcur
  rcases bufWrite_cases ep bytes with ⟨hnone, _⟩ | ⟨ab', hact', hwrite⟩
  · rw [hact] at hnone; cases hnone
  · rw [hact] at hact'
    cases hact'
    generalize hk : min bytes.length (ep.imageSize - ep.cursor) = k at hwrite
    have hcursor : ep.cursor + k = min (ep.cursor + bytes.length) ep.imageSize := by omega
    have hover : (ep.imageSize - ep.cursor < bytes.length) = (ep.imageSize < ep.cursor + bytes.length) := by
      rw [eq_iff_iff]; omega
    have hdrop : bytes.length - (ep.imageSize - ep.cursor) = ep.cursor + bytes.length - ep.imageSize := by omega
    refine ⟨ab.mem.writeBytes ep.cursor (bytes.take k), ?_, fun a => ?_⟩
    · rw [hwrite]
      simp only [hcursor, hover, hdrop]
    · have hlen : (bytes.take k).length = k := by rw [List.length_take]; omega
      rw [Memory.read_writeBytes, hlen, ← hcursor]
      split
      · rw [List.getElem?_take_of_lt (by omega)]
      · rfl

/-! ### The operations as state functions -/

theorem holdsBuffer_of_active {ep : Ep} {ab : ActiveBuf} (h : ep.active = some ab) : ep.holdsBuffer = true := by
  rw [Ep.holdsBuffer, h]
  rfl

theorem holdsBuffer_of_none {ep : Ep} (h : ep.active = none) : ep.holdsBuffer = false := by
  rw [Ep.holdsBuffer, h]
  rfl

theorem holdsBuffer_of_ne {ep : Ep} (h : ep.active ≠ none) : ep.holdsBuffer = true := Option.isSome_iff_ne_none.2 h

theorem exec_clStart (s : State) : exec .clStart s = .next (clStart s) := rfl

theorem exec_clEnd (s : State) : exec .clEnd s = .next (clEnd s) := rfl

theorem exec_clLit (s : State) : exec .clLit s = .next (clLit s) := rfl

theorem exec_clLithi (n : Nib) (s : State) : exec (.clLithi n) s = .next (clLithi n s) := rfl

theorem exec_clNib (n : Nib) (s : State) : exec (.clNib n) s = execClNib n s := rfl

theorem exec_clSkip {n : Nib} (h : n = 13 ∨ n = 14) (s : State) : exec (.clSkip n) s = .next s := if_pos h

theorem exec_clDelta {n : Nib} (h : n.toNat ≤ 12) (s : State) :
    exec (.clDelta n) s = if s.color.holdsBuffer then .next (clDelta n s) else .refused .noActiveBuffer :=
  if_neg (Nat.not_lt.2 h)

theorem exec_clEmit {v : Byte} {s : State} (h : s.color.holdsBuffer = true) : exec (.clEmit v) s = .next (clEmit v s) :=
  if_pos h

theorem exec_clLitlo {n : Nib} {s : State} (h : s.color.holdsBuffer = true) :
    exec (.clLitlo n) s = .next (clLitlo n s) := if_pos h

/-! ### Start and end of a frame (R271, R281) -/

theorem clStart_of_holdsBuffer {s : State} (h : s.color.holdsBuffer = true) :
    clStart s = { s with
      color := { s.color with cursor := 0 }
      cl := { s.cl with last := clearedPredictors, pos := 0, lit := .none, lineCnt := 0 } } := if_pos h

/-- Settles O27: with a buffer the two hooks' own equations, without one both are idle (R284). -/
theorem clStartResetsAndClEndCompletes : Obligations.ClStartResetsAndClEndCompletes := by
  intro s ab
  refine ⟨fun hheld => ?_, fun hheld => ?_, fun hnone => ?_⟩
  · rw [exec_clStart, clStart_of_holdsBuffer (holdsBuffer_of_active hheld)]
    rfl
  · rcases complete_cases s.color .ok with ⟨hnone, _⟩ | ⟨ab', hact, hcomplete⟩
    · rw [hheld] at hnone; cases hnone
    · rw [hheld] at hact
      cases hact
      rw [exec_clEnd, clEnd, hcomplete]
  · have hfree : (s.ep .color).holdsBuffer = false := holdsBuffer_of_none hnone
    obtain ⟨hstart, -, hend⟩ := codec_noop hfree []
    exact ⟨congrArg Host.Outcome.next hstart, congrArg Host.Outcome.next hend⟩

/-! ### Nibbles (R273, R275 to R277) -/

/-- Settles O29: CL.NIB emits in the same cases in which the operation it selects asks for a buffer. -/
theorem clNibDispatches : Obligations.ClNibDispatches := by
  intro s n
  refine ⟨fun hlit => ?_, fun hlit => ?_, fun hlit hn => ?_, fun hlit hn => ?_, fun hlit hn => ?_, fun hheld => ?_⟩
  · simp [exec_clNib, execClNib, Cl.emits, hlit, exec_clLithi, clNib]
  · cases hbuf : s.color.holdsBuffer <;>
      simp [execClNib, Cl.emits, hlit, clNib, hbuf, exec, execClLitlo]
  · rw [exec_clDelta hn]
    cases hbuf : s.color.holdsBuffer <;> simp [exec_clNib, execClNib, Cl.emits, hlit, clNib, hbuf, hn]
  · rw [exec_clSkip hn]
    rcases hn with rfl | rfl <;> simp [exec_clNib, execClNib, Cl.emits, hlit, clNib, clSkip]
  · subst hn
    simp [exec_clNib, execClNib, Cl.emits, hlit, clNib, exec_clLit]
  · exact ⟨_, exec_clNib_of_holdsBuffer (holdsBuffer_of_ne hheld) n⟩

/-- Settles O32: each of the three operations by its own equation. -/
theorem clSkipLitAndLithi : Obligations.ClSkipLitAndLithi :=
  fun s n => ⟨fun hn => exec_clSkip hn s, exec_clLit s, exec_clLithi n s⟩

/-! ### One sample (R279, R280, R283) -/

/-- The channel of each of the four positions (R279). -/
theorem channel_cases (cl : Cl) :
    (cl.pos = 0 ∧ cl.channel = 0) ∨ (cl.pos = 2 ∧ cl.channel = 2) ∨ ((cl.pos = 1 ∨ cl.pos = 3) ∧ cl.channel = 1) :=
  chCycle_cases cl.pos

/-- The predictors after a sample: the channel's is the sample (R41, R279). -/
theorem set_channel_getElem (cl : Cl) (v : Byte) :
    (cl.last.set cl.channel v)[0] = (if cl.pos = 0 then v else cl.last[0])
      ∧ (cl.last.set cl.channel v)[1] = (if cl.pos = 1 ∨ cl.pos = 3 then v else cl.last[1])
      ∧ (cl.last.set cl.channel v)[2] = (if cl.pos = 2 then v else cl.last[2]) := by
  rcases channel_cases cl with ⟨hpos, hch⟩ | ⟨hpos, hch⟩ | ⟨hpos, hch⟩
  · simp [hch, hpos]
  · simp [hch, hpos]
  · rcases hpos with hpos | hpos <;> simp [hch, hpos]

theorem advance_frame (cl : Cl) (w : Nat) (v : Byte) :
    cl.advance w v =
      { cl with last := (cl.advance w v).last, pos := cl.pos + 1, lineCnt := (cl.advance w v).lineCnt } := by
  by_cases h : cl.lineCnt + 1 = 2 * w
  · rw [advance_of_eq h]
  · rw [advance_of_ne h]

/-- A held buffer's bytes after a write of one byte. -/
theorem bufByte_of_active {s : State} {e : Endpoint} {ab : ActiveBuf} (h : (s.ep e).active = some ab) (a : Nat) :
    bufByte s e a = ab.mem.read a := by
  rw [bufByte, h]
  rfl

/-- Settles O30: the write is BufWrite of one byte, the registers are the codec's advance. -/
theorem clEmitWritesOneSample : Obligations.ClEmitWritesOneSample := by
  intro s ab v hheld hcur
  obtain ⟨m, hwrite, hread⟩ := bufWriteClipsAtTheImageSize s.color ab [v] hheld hcur
  have hrun := exec_clEmit (v := v) (holdsBuffer_of_active hheld)
  refine ⟨clEmit v s, hrun, ?_, ?_, ?_, ?_, fun a => ?_, fun hend => ?_, fun hend => ?_⟩
  · have hcl := advance_frame s.cl s.color.imageWidth v
    have hcolor := bufWrite_frame s.color [v]
    unfold clEmit
    dsimp only
    rw [← hcl, ← hcolor]
  · exact (bufWrite_buf s.color [v]).trans (by rw [hheld]; rfl)
  · show (s.color.bufWrite [v]).cursor = _
    rw [hwrite]
    rfl
  · show (s.color.bufWrite [v]).events = _
    have hfull : (s.color.imageSize < s.color.cursor + 1) = (s.color.cursor = s.color.imageSize) := by
      rw [eq_iff_iff]; omega
    rw [hwrite]
    simp only [List.length_singleton, hfull]
    split
    · rename_i h; rw [h, Nat.add_sub_cancel_left]
    · rfl
  · have hnew : ((clEmit v s).ep .color).active = some { ab with mem := m } := by
      show (s.color.bufWrite [v]).active = _
      rw [hwrite]
    rw [bufByte_of_active hnew, bufByte_of_active (s := s) (e := .color) hheld, hread a]
    simp only [List.length_singleton]
    by_cases ha : a = s.color.cursor ∧ s.color.cursor < s.color.imageSize
    · rw [if_pos ha, if_pos (by omega), ha.1, Nat.sub_self]
      rfl
    · rw [if_neg ha, if_neg (by omega)]
  · show (s.cl.advance s.color.imageWidth v).last = _ ∧ (s.cl.advance s.color.imageWidth v).lineCnt = 0
    rw [advance_of_eq hend]
    exact ⟨rfl, rfl⟩
  · show (s.cl.advance s.color.imageWidth v).lineCnt = _ ∧ (s.cl.advance s.color.imageWidth v).last[0] = _
      ∧ (s.cl.advance s.color.imageWidth v).last[1] = _ ∧ (s.cl.advance s.color.imageWidth v).last[2] = _
    rw [advance_of_ne hend]
    exact ⟨rfl, set_channel_getElem s.cl v⟩

/-! ### The two ways a sample is coded (R274, R278) -/

theorem predictor_eq (cl : Cl) :
    cl.predictor = if cl.pos = 0 then cl.last[0] else if cl.pos = 2 then cl.last[2] else cl.last[1] := by
  rcases channel_cases cl with ⟨hpos, hch⟩ | ⟨hpos, hch⟩ | ⟨hpos, hch⟩
  · simp [Cl.predictor, hch, hpos]
  · simp [Cl.predictor, hch, hpos]
  · rcases hpos with hpos | hpos <;> simp [Cl.predictor, hch, hpos]

theorem deltaSample_toNat (cl : Cl) (n : Nib) :
    (cl.deltaSample n).toNat = (cl.predictor.toNat + n.toNat + 250) % 256 := by
  have hn := n.isLt
  have hp := cl.predictor.isLt
  have hbias : Config.deltaBias.toNat = 6 := rfl
  simp only [Cl.deltaSample, BitVec.toNat_sub, BitVec.toNat_add, BitVec.toNat_setWidth, hbias]
  omega

theorem literal_toNat (hi lo : Nib) : (hi ++ lo).toNat = 16 * hi.toNat + lo.toNat := by
  rw [BitVec.toNat_append, ← Nat.shiftLeft_add_eq_or_of_lt lo.isLt, Nat.shiftLeft_eq]
  omega

/-- Settles O31: the sample is the delta's or the literal's number. -/
theorem clDeltaAndClLitloEmitTheirSample : Obligations.ClDeltaAndClLitloEmitTheirSample := by
  intro s n hheld
  have hbuf := holdsBuffer_of_ne hheld
  refine ⟨fun hn v p hp hv => ⟨clDelta n s, ?_, ?_⟩, fun v hv => ⟨clLitlo n s, exec_clLitlo hbuf, ?_⟩⟩
  · rw [exec_clDelta hn, if_pos hbuf]
  · have hsample : v = s.cl.deltaSample n :=
      BitVec.eq_of_toNat_eq (by rw [hv, deltaSample_toNat, predictor_eq, hp])
    rw [hsample]
    exact exec_clEmit hbuf
  · have hsample : v = s.cl.litHi ++ n := BitVec.eq_of_toNat_eq (by rw [hv, literal_toNat])
    rw [hsample]
    exact exec_clEmit (s := { s with cl := { s.cl with lit := .none } }) hbuf

end Sys2Proof.Proofs.Samples
end


section
/-! PROOFS. The exchange of the control channel (41_control_channel.md, R160 to R169) and the operations of one exchange
(R170, R175 to R177). -/

namespace Sys2Proof.Proofs.Exchanges

open Sys2Proof.Machine Sys2Proof.Safety Sys2Proof.Proofs.Encoding Sys2Proof.Proofs.Steps

/-! ### The reads of an exchange (R165 to R167) -/

/-- The state after `k` reads that leave the environment the answers `rs`. -/
def afterReads (s : State) (rs : List (Option (List Byte))) (k : Nat) : State :=
  { s with env := { s.env with readAnswers := rs, reads := s.env.reads + k } }

section Reads

variable {m n : Nat} {id : Half} {s : State} {rest : List (Option (List Byte))} {r : List Byte}

theorem ctrlRead_of_cons {a : Option (List Byte)} (h : s.env.readAnswers = a :: rest) :
    s.ctrlRead m = (a.map (List.take m), afterReads s rest 1) := by
  rw [State.ctrlRead, h]
  rfl

theorem readLoop_of_none (h : s.env.readAnswers = none :: rest) :
    readLoop m id (n + 1) s = (.error .transport, afterReads s rest 1) := by
  rw [readLoop, ctrlRead_of_cons h]
  rfl

/-- A reply, by the three checks of R166 in their order. -/
theorem readLoop_of_some (h : s.env.readAnswers = some r :: rest) :
    readLoop m id (n + 1) s =
      if (r.take m).length < 10 then (.error (.protocol .short), (afterReads s rest 1).logProtocol .short)
      else if le16 (r.take m) 0 ≠ s.cfg.devSync then (.error (.protocol .sync), (afterReads s rest 1).logProtocol .sync)
      else if le16 (r.take m) 6 = id then (.ok (r.take m), afterReads s rest 1)
      else readLoop m id n (afterReads s rest 1) := by
  rw [readLoop, ctrlRead_of_cons h]
  rfl

theorem staleReply_iff {c : Cfg} : staleReply c id r = true ↔ 10 ≤ r.length ∧ le16 r 0 = c.devSync ∧ le16 r 6 ≠ id := by
  simp [staleReply, and_assoc]

theorem matchingReply_iff {c : Cfg} :
    matchingReply c id r = true ↔ 10 ≤ r.length ∧ le16 r 0 = c.devSync ∧ le16 r 6 = id := by
  simp [matchingReply, and_assoc]

/-- Stale replies are consumed, one read each (R166 (3)). -/
theorem readLoop_of_stale {stale : List (List Byte)} (hstale : ∀ x ∈ stale, staleReply s.cfg id (x.take m) = true)
    (h : s.env.readAnswers = stale.map some ++ rest) :
    readLoop m id (stale.length + n) s = readLoop m id n (afterReads s rest stale.length) := by
  induction stale generalizing s with
  | nil => rw [List.length_nil, Nat.zero_add, afterReads, ← (show s.env.readAnswers = rest from h), Nat.add_zero]
  | cons x xs ih =>
    obtain ⟨hlen, hsync, hid⟩ := staleReply_iff.1 (hstale x List.mem_cons_self)
    have hnext := ih (s := afterReads s (xs.map some ++ rest) 1)
      (fun y hy => hstale y (List.mem_cons_of_mem x hy)) rfl
    have hhead : s.env.readAnswers = some x :: (xs.map some ++ rest) := h
    have hcount : s.env.reads + 1 + xs.length = s.env.reads + (x :: xs).length := by rw [List.length_cons]; omega
    rw [List.length_cons, Nat.add_right_comm, readLoop_of_some hhead, if_neg (Nat.not_lt.2 hlen), if_neg (not_not.2 hsync),
      if_neg hid, hnext, afterReads, afterReads, afterReads]
    simp only [hcount, List.length_cons]

end Reads

/-! ### One exchange (R160 to R164) -/

section Exchange

variable {req : List Byte} {m : Nat} {s : State} {ws : List Bool}

/-- The state in which the reads of an exchange begin: the request is out and the lock held. -/
def afterWrite (s : State) (req : List Byte) (ws : List Bool) : State :=
  { s with
    cc := { s.cc with lock := true, reqId := s.cc.reqId + 1 }
    env := { s.env with writeAnswers := ws, sent := s.env.sent ++ [putLe16 req 6 s.cc.reqId] } }

theorem sendRequest_of_cons {a : Bool} (h : s.env.writeAnswers = a :: ws) : sendRequest req s = (a, afterWrite s req ws) := by
  rw [sendRequest, State.ctrlWrite]
  dsimp only
  rw [h]
  rfl

/-- The exchange has ended: the lock, free before it, is free again (R160). -/
theorem afterReads_released (hlock : s.cc.lock = false) (rest : List (Option (List Byte))) (k : Nat) :
    (afterReads (afterWrite s req ws) rest k).setLock false = exchanged s req ws rest k := by
  rw [exchanged, State.setLock, afterReads, afterWrite, ← hlock]

theorem afterWrite_released (hlock : s.cc.lock = false) :
    (afterWrite s req ws).setLock false = exchanged s req ws s.env.readAnswers 0 := by
  rw [exchanged, State.setLock, afterWrite, ← hlock, Nat.add_zero]

theorem xferReply_of_write_failed (hlock : s.cc.lock = false) (hw : s.env.writeAnswers = false :: ws) :
    xferReply req m s = (.error .transport, exchanged s req ws s.env.readAnswers 0) := by
  rw [xferReply, sendRequest_of_cons hw, ← afterWrite_released hlock]
  rfl

theorem xferSilent_of_write_failed (hlock : s.cc.lock = false) (hw : s.env.writeAnswers = false :: ws) :
    xferSilent req s = (.error .transport, exchanged s req ws s.env.readAnswers 0) := by
  rw [xferSilent, sendRequest_of_cons hw, ← afterWrite_released hlock]
  rfl

theorem xferSilent_of_write (hlock : s.cc.lock = false) (hw : s.env.writeAnswers = true :: ws) :
    xferSilent req s = (.ok (), exchanged s req ws s.env.readAnswers 0) := by
  rw [xferSilent, sendRequest_of_cons hw, ← afterWrite_released hlock]

variable {stale : List (List Byte)} {rest : List (Option (List Byte))}

/-- After the stale replies an exchange goes on with the reads left. -/
theorem xferReply_of_stale (hw : s.env.writeAnswers = true :: ws) (hlen : stale.length ≤ 10)
    (hstale : ∀ x ∈ stale, staleReply s.cfg s.cc.reqId (x.take m) = true)
    (hr : s.env.readAnswers = stale.map some ++ rest) :
    xferReply req m s =
      Prod.map id (State.setLock · false)
        (readLoop m s.cc.reqId (10 - stale.length) (afterReads (afterWrite s req ws) rest stale.length)) := by
  have hloop := readLoop_of_stale (n := 10 - stale.length) (s := afterWrite s req ws) (id := s.cc.reqId) hstale hr
  rw [Nat.add_sub_cancel' hlen] at hloop
  rw [xferReply, sendRequest_of_cons hw]
  dsimp only [Config.maxReadAttempts]
  rw [hloop]
  rfl

theorem afterReads_afterReads (k n : Nat) (rs : List (Option (List Byte))) :
    afterReads (afterReads s rs k) rest n = afterReads s rest (k + n) := by
  simp only [afterReads, Nat.add_assoc]

theorem afterReads_readAnswers (k : Nat) : (afterReads s rest k).env.readAnswers = rest := rfl

theorem xferReply_of_read_failed (hlock : s.cc.lock = false) (hw : s.env.writeAnswers = true :: ws) (hlen : stale.length ≤ 9)
    (hstale : ∀ x ∈ stale, staleReply s.cfg s.cc.reqId (x.take m) = true)
    (hr : s.env.readAnswers = stale.map some ++ none :: rest) :
    xferReply req m s = (.error .transport, exchanged s req ws rest (stale.length + 1)) := by
  have hn : 10 - stale.length = 9 - stale.length + 1 := by omega
  rw [xferReply_of_stale hw (by omega) hstale hr, hn, readLoop_of_none (afterReads_readAnswers _),
    afterReads_afterReads, ← afterReads_released hlock]
  rfl

/-- An exchange after its stale replies, by the checks of the next one (R166). -/
theorem xferReply_of_some {r : List Byte} (hlock : s.cc.lock = false) (hw : s.env.writeAnswers = true :: ws)
    (hlen : stale.length ≤ 9) (hstale : ∀ x ∈ stale, staleReply s.cfg s.cc.reqId (x.take m) = true)
    (hr : s.env.readAnswers = stale.map some ++ some r :: rest) :
    ((r.take m).length < 10 → xferReply req m s =
      (.error (.protocol .short), (exchanged s req ws rest (stale.length + 1)).logProtocol .short))
    ∧ (10 ≤ (r.take m).length → le16 (r.take m) 0 ≠ s.cfg.devSync → xferReply req m s =
      (.error (.protocol .sync), (exchanged s req ws rest (stale.length + 1)).logProtocol .sync))
    ∧ (matchingReply s.cfg s.cc.reqId (r.take m) = true → xferReply req m s =
      (.ok (r.take m), exchanged s req ws rest (stale.length + 1))) := by
  have hn : 10 - stale.length = 9 - stale.length + 1 := by omega
  rw [xferReply_of_stale hw (by omega) hstale hr, hn, readLoop_of_some (afterReads_readAnswers _),
    afterReads_afterReads, ← afterReads_released hlock,
    show (afterReads (afterWrite s req ws) (some r :: rest) stale.length).cfg = s.cfg from rfl]
  refine ⟨fun hshort => ?_, fun hlong hsync => ?_, fun hmatch => ?_⟩
  · rw [if_pos hshort]
    rfl
  · rw [if_neg (Nat.not_lt.2 hlong), if_pos hsync]
    rfl
  · obtain ⟨hlong, hsync, hid⟩ := matchingReply_iff.1 hmatch
    rw [if_neg (Nat.not_lt.2 hlong), if_neg (not_not.2 hsync), if_pos hid]
    rfl

theorem xferReply_of_all_stale (hlock : s.cc.lock = false) (hw : s.env.writeAnswers = true :: ws) (hlen : stale.length = 10)
    (hstale : ∀ x ∈ stale, staleReply s.cfg s.cc.reqId (x.take m) = true)
    (hr : s.env.readAnswers = stale.map some ++ rest) :
    xferReply req m s = (.error .timeout, exchanged s req ws rest 10) := by
  rw [xferReply_of_stale hw (by omega) hstale hr, hlen, ← afterReads_released hlock]
  rfl

end Exchange

/-! ### CC.XFER (R161) -/

section Xfer

variable {α : Type} {i : Instr} {f : α → OpResult} {body : State → Except CtrlError α × State} {s u : State}

theorem waits_of_free (h : s.cc.lock = false) : waits s i = false := by
  unfold waits
  split <;> simp [h]

/-- A control operation that need not wait runs its body. -/
theorem runControl_of_free {r : Except CtrlError α} (hlock : s.cc.lock = false) (h : body s = (r, u)) :
    runControl i f body s = .next (u.answer (ctrlResult f r)) := by
  rw [runControl, waits_of_free hlock, h]
  rfl

variable {req : List Byte} {m : Nat}

theorem exec_ccXfer_reply (hshape : reqShape req = true) (hlo : 10 ≤ m) (hhi : m ≤ s.cfg.maxReply) :
    exec (.ccXfer req true m) s = runControl (.ccXfer req true m) .reply (xferReply req m) s := by
  show execCcXfer req true m s = _
  simp [execCcXfer, xferAdmits, hshape, hlo, hhi]

theorem exec_ccXfer_silent (hshape : reqShape req = true) :
    exec (.ccXfer req false m) s = runControl (.ccXfer req false m) (fun _ => .noReply) (xferSilent req) s := by
  show execCcXfer req false m s = _
  simp [execCcXfer, xferAdmits, hshape]

end Xfer

/-- Settles O49: the reads consume the stale replies, then the reply passes the three checks. -/
theorem xferReturnsTheMatchingReply : Obligations.XferReturnsTheMatchingReply := by
  intro s req m ws stale r rest hlock hshape hlo hhi hw hr hlen hstale hmatch
  rw [exec_ccXfer_reply hshape hlo hhi]
  exact runControl_of_free hlock ((xferReply_of_some hlock hw hlen hstale hr).2.2 hmatch)

/-- Settles O50: each error by its own equation of the exchange. -/
theorem xferErrorsAndSilentExchange : Obligations.XferErrorsAndSilentExchange := by
  intro s req m ws stale rest hlock hshape hlo hhi hstale
  rw [exec_ccXfer_reply hshape hlo hhi, exec_ccXfer_silent hshape]
  refine ⟨fun hw => ⟨?_, ?_⟩, fun hw => ⟨?_, fun hr hlen => ?_, fun r hr hlen hshort => ?_,
    fun r hr hlen hlong hsync => ?_, fun hr hlen => ?_⟩⟩
  · exact runControl_of_free hlock (xferReply_of_write_failed hlock hw)
  · exact runControl_of_free hlock (xferSilent_of_write_failed hlock hw)
  · exact runControl_of_free hlock (xferSilent_of_write hlock hw)
  · exact runControl_of_free hlock (xferReply_of_read_failed hlock hw hlen hstale hr)
  · have hcut : (r.take m).length < 10 := by rw [List.length_take]; omega
    exact runControl_of_free hlock ((xferReply_of_some hlock hw hlen hstale hr).1 hcut)
  · have hcut : 10 ≤ (r.take m).length := by rw [List.length_take]; omega
    have hhead : le16 (r.take m) 0 = le16 r 0 := by
      simp only [le16, byteAt, List.getD_eq_getElem?_getD]
      rw [List.getElem?_take_of_lt (by omega), List.getElem?_take_of_lt (by omega)]
    exact runControl_of_free hlock ((xferReply_of_some hlock hw hlen hstale hr).2.1 hcut (by rwa [hhead]))
  · exact runControl_of_free hlock (xferReply_of_all_stale hlock hw hlen hstale hr)

/-- Settles O51: with a reply wanted by what an exchange can do, without one by its single write. -/
theorem xferIsExactlyOnceVisible : Obligations.XferIsExactlyOnceVisible := by
  intro s req want m hlock hshape hlo hhi
  cases want with
  | true =>
    obtain ⟨res, evs, env, hx, hres, hsent, hreads, hmax⟩ := xferReply_cases req m s
    rw [exec_ccXfer_reply hshape hlo hhi]
    refine ⟨_, ctrlResult .reply res, runControl_of_free hlock hx, rfl, hsent, hreads, hmax, fun h => (nomatch h), rfl, rfl,
      ?_, rfl, rfl, rfl, rfl, rfl, rfl⟩
    cases res with
    | ok r =>
      obtain ⟨hlen, hsync, hid⟩ := hres
      exact .inl ⟨r, rfl, rfl, hlen, hsync, hid⟩
    | error e =>
      rcases hres with rfl | rfl | rfl | rfl
      · exact .inr (.inr (.inl rfl))
      · exact .inr (.inr (.inr ⟨rfl, .inl rfl⟩))
      · exact .inr (.inr (.inr ⟨rfl, .inr (.inl rfl)⟩))
      · exact .inr (.inr (.inr ⟨rfl, .inr (.inr rfl)⟩))
  | false =>
    obtain ⟨res, w, d, hx, hres⟩ := xferSilent_cases req s
    rw [exec_ccXfer_silent hshape]
    refine ⟨_, ctrlResult (fun _ => .noReply) res, runControl_of_free hlock hx, rfl, rfl, Nat.le_refl _,
      Nat.le_add_right _ _, fun _ => rfl, rfl, rfl, ?_, rfl, rfl, rfl, rfl, rfl, rfl⟩
    rcases hres with rfl | rfl
    · exact .inr (.inl ⟨rfl, rfl⟩)
    · exact .inr (.inr (.inl rfl))

/-- Settles O57: the operands' tests come before everything else. -/
theorem malformedControlCallsAreRefused : Obligations.MalformedControlCallsAreRefused := by
  intro s req sel want m
  refine ⟨fun hshape => ?_, fun hm => ?_, fun hsel => ?_⟩
  · show execCcXfer req want m s = _
    simp [execCcXfer, xferAdmits, hshape]
  · have hno : xferAdmits s.cfg req true m = false := by
      rcases hm with hm | hm <;> simp [xferAdmits, hm]
    show execCcXfer req true m s = _
    rw [execCcXfer, hno]
    rfl
  · have hno : selShape s.cfg sel = false := by simpa [selShape] using hsel
    refine ⟨?_, ?_⟩
    · show execCcGetAlgo sel s = _
      rw [execCcGetAlgo, hno]
      rfl
    · show execCcInit sel s = _
      rw [execCcInit, hno]
      rfl

/-! ### Replies (R103, R105, R168) -/

section Replies

variable {c : Cfg} {payload : List Byte} {op id status : Half}

theorem replyBytes_eq (c : Cfg) (op id status : Half) (payload : List Byte) :
    replyBytes c op id status payload =
      loByte c.devSync :: hiByte c.devSync :: loByte (BitVec.ofNat 16 (1 + payload.length / 2))
        :: hiByte (BitVec.ofNat 16 (1 + payload.length / 2)) :: loByte op :: hiByte op :: loByte id :: hiByte id
        :: loByte status :: hiByte status :: payload := rfl

theorem fitsReply_iff : fitsReply c payload = true ↔
    payload.length % 2 = 0 ∧ 1 + payload.length / 2 < 65536 ∧ 10 + payload.length ≤ c.maxReply := by
  simp [fitsReply, and_assoc]

/-- The four header fields of a reply. -/
theorem replyBytes_fields (c : Cfg) (op id status : Half) (payload : List Byte) :
    le16 (replyBytes c op id status payload) 0 = c.devSync
      ∧ le16 (replyBytes c op id status payload) 2 = BitVec.ofNat 16 (1 + payload.length / 2)
      ∧ le16 (replyBytes c op id status payload) 6 = id
      ∧ le16 (replyBytes c op id status payload) 8 = status := by
  simp [replyBytes_eq, le16, byteAt]

theorem replyBytes_length : (replyBytes c op id status payload).length = 10 + payload.length := by
  simp only [replyBytes_eq, List.length_cons]
  omega

theorem matchingReply_replyBytes : matchingReply c id (replyBytes c op id status payload) = true := by
  obtain ⟨hsync, -, hid, -⟩ := replyBytes_fields c op id status payload
  exact matchingReply_iff.2 ⟨by rw [replyBytes_length]; omega, hsync, hid⟩

theorem replySize_replyBytes (h : fitsReply c payload = true) :
    replySize (replyBytes c op id status payload) = 1 + payload.length / 2 := by
  obtain ⟨-, hsize, -⟩ := fitsReply_iff.1 h
  obtain ⟨-, hfield, -, -⟩ := replyBytes_fields c op id status payload
  rw [replySize, hfield, BitVec.toNat_ofNat, Nat.mod_eq_of_lt hsize]

theorem replyShort_replyBytes (h : fitsReply c payload = true) :
    replyShort (replyBytes c op id status payload) = false := by
  have heven := (fitsReply_iff.1 h).1
  simp only [replyShort, replySize_replyBytes h, replyBytes_length, Bool.or_eq_false_iff, beq_eq_false_iff_ne,
    decide_eq_false_iff_not]
  omega

theorem replyPayload_replyBytes (h : fitsReply c payload = true) :
    replyPayload (replyBytes c op id status payload) = payload := by
  have heven := (fitsReply_iff.1 h).1
  rw [replyPayload, replySize_replyBytes h]
  exact List.take_of_length_le (by rw [replyBytes_eq]; simp only [List.drop_succ_cons, List.drop_zero]; omega)

end Replies

/-! ### Exchange(opcode, body) (R169) -/

section Accepted

variable {s : State} {ws : List Bool} {rest : List (Option (List Byte))} {opcode : Half} {body : List Byte}

theorem exchange_of_write_failed (hlock : s.cc.lock = false) (hw : s.env.writeAnswers = false :: ws) :
    exchange opcode body s = (.error .transport, exchanged s (reqBytes s.cfg opcode body) ws s.env.readAnswers 0) := by
  rw [exchange, xferReply_of_write_failed hlock hw]

/-- An accepted reply is parsed, then its status is looked at (R168, R169). -/
theorem exchange_of_matching {r : List Byte} (hlock : s.cc.lock = false) (hw : s.env.writeAnswers = true :: ws)
    (hr : s.env.readAnswers = some r :: rest) (hlen : r.length ≤ s.cfg.maxReply)
    (hmatch : matchingReply s.cfg s.cc.reqId r = true) :
    exchange opcode body s =
      if replyShort r then
        (.error (.protocol .short), (exchanged s (reqBytes s.cfg opcode body) ws rest 1).logProtocol .short)
      else if replyStatus r ≠ 0 then
        (.error (.protocol (.status (replyStatus r))),
          (exchanged s (reqBytes s.cfg opcode body) ws rest 1).logProtocol (.status (replyStatus r)))
      else (.ok (replyPayload r), exchanged s (reqBytes s.cfg opcode body) ws rest 1) := by
  have hcut : r.take s.cfg.maxReply = r := List.take_of_length_le hlen
  obtain ⟨-, -, hok⟩ := xferReply_of_some (m := s.cfg.maxReply) (req := reqBytes s.cfg opcode body) (stale := []) hlock hw
    (Nat.zero_le 9) (fun x hx => absurd hx List.not_mem_nil) hr
  rw [hcut] at hok
  rw [exchange, hok hmatch]
  dsimp only
  rcases parseReply_cases r (exchanged s (reqBytes s.cfg opcode body) ws rest ([].length (α := List Byte) + 1)) with
    ⟨hshort, hparse⟩ | ⟨hshort, hparse⟩
  · rw [hparse, if_pos hshort]
    rfl
  · rw [hparse, hshort]
    rfl

/-- A well-formed reply, by its status. -/
theorem exchange_of_replyBytes {op status : Half} {payload : List Byte} (hlock : s.cc.lock = false)
    (hfits : fitsReply s.cfg payload = true) (hw : s.env.writeAnswers = true :: ws)
    (hr : s.env.readAnswers = some (replyBytes s.cfg op s.cc.reqId status payload) :: rest) :
    exchange opcode body s =
      if status ≠ 0 then
        (.error (.protocol (.status status)),
          (exchanged s (reqBytes s.cfg opcode body) ws rest 1).logProtocol (.status status))
      else (.ok payload, exchanged s (reqBytes s.cfg opcode body) ws rest 1) := by
  obtain ⟨-, -, hmax⟩ := fitsReply_iff.1 hfits
  have hstatus : replyStatus (replyBytes s.cfg op s.cc.reqId status payload) = status :=
    (replyBytes_fields s.cfg op s.cc.reqId status payload).2.2.2
  rw [exchange_of_matching hlock hw hr (by rw [replyBytes_length]; exact hmax) matchingReply_replyBytes,
    replyShort_replyBytes hfits, hstatus, replyPayload_replyBytes hfits]
  rfl

theorem exchange_of_accepted {op : Half} {payload : List Byte} (hlock : s.cc.lock = false)
    (hfits : fitsReply s.cfg payload = true) (hw : s.env.writeAnswers = true :: ws)
    (hr : s.env.readAnswers = some (replyBytes s.cfg op s.cc.reqId 0 payload) :: rest) :
    exchange opcode body s = (.ok payload, exchanged s (reqBytes s.cfg opcode body) ws rest 1) := by
  rw [exchange_of_replyBytes hlock hfits hw hr]
  exact if_neg (not_not.2 rfl)

end Accepted

/-! ### The operations of one exchange -/

section OneExchange

variable {s u : State} {e : CtrlError} {p : List Byte}

theorem getVersion_of_error (h : exchange s.cfg.opGetVersion [] s = (.error e, u)) : getVersion s = (.error e, u) := by
  rw [getVersion, h]

theorem getSerial_of_error (h : exchange s.cfg.opGetSerial [] s = (.error e, u)) : getSerial s = (.error e, u) := by
  rw [getSerial, h]

theorem getSerial_of_ok (h : exchange s.cfg.opGetSerial [] s = (.ok p, u)) :
    getSerial s = (.ok (), { u with dh := { u.dh with serial := p.take u.cfg.serialMax ++ [0] } }) := by
  rw [getSerial, h]

theorem setParam_of_error {param value : Half}
    (h : exchange s.cfg.opSetParam (putHalf param ++ putHalf value) s = (.error e, u)) :
    setParam param value s = (.error e, u) := by
  rw [setParam, h]

theorem setParam_of_ok {param value : Half}
    (h : exchange s.cfg.opSetParam (putHalf param ++ putHalf value) s = (.ok p, u)) :
    setParam param value s = (.ok (), u) := by
  rw [setParam, h]

theorem resetDevice_of_error (h : exchange s.cfg.opSetMode (putHalf s.cfg.modeKnown) s = (.error e, u)) :
    resetDevice s = (.error e, u) := by
  rw [resetDevice, h]

theorem resetDevice_of_ok (h : exchange s.cfg.opSetMode (putHalf s.cfg.modeKnown) s = (.ok p, u)) :
    resetDevice s = (.ok (), u) := by
  rw [resetDevice, h]

theorem exec_ccGetVersion (s : State) : exec .ccGetVersion s = runControl .ccGetVersion .version getVersion s := rfl

theorem exec_ccGetSerial (s : State) : exec .ccGetSerial s = runControl .ccGetSerial (fun _ => .ok) getSerial s := rfl

theorem exec_ccSetParam (param value : Half) (s : State) :
    exec (.ccSetParam param value) s = runControl (.ccSetParam param value) (fun _ => .ok) (setParam param value) s := rfl

theorem exec_ccReset (s : State) : exec .ccReset s = runControl .ccReset (fun _ => .ok) resetDevice s := rfl

theorem oneExchange_cases {c : Cfg} {i : Instr} {opcode : Half} {body : List Byte}
    (h : oneExchange c i = some (opcode, body)) :
    (i = .ccGetVersion ∧ opcode = c.opGetVersion ∧ body = [])
      ∨ (i = .ccGetSerial ∧ opcode = c.opGetSerial ∧ body = [])
      ∨ (∃ param value, i = .ccSetParam param value ∧ opcode = c.opSetParam ∧ body = putHalf param ++ putHalf value)
      ∨ (i = .ccReset ∧ opcode = c.opSetMode ∧ body = putHalf c.modeKnown) := by
  cases i <;> simp only [oneExchange, ctrlOp, Option.some.injEq, Prod.mk.injEq, reduceCtorEq] at h <;>
    obtain ⟨rfl, rfl⟩ := h
  case ccGetVersion => exact .inl ⟨rfl, rfl, rfl⟩
  case ccGetSerial => exact .inr (.inl ⟨rfl, rfl, rfl⟩)
  case ccSetParam param value => exact .inr (.inr (.inl ⟨param, value, rfl, rfl, rfl⟩))
  case ccReset => exact .inr (.inr (.inr ⟨rfl, rfl, rfl⟩))

/-- An error of the one exchange is the operation's result. -/
theorem exec_of_exchange_error {i : Instr} {opcode : Half} {body : List Byte}
    (hi : oneExchange s.cfg i = some (opcode, body)) (hlock : s.cc.lock = false)
    (h : exchange opcode body s = (.error e, u)) : exec i s = .next (u.answer (.error e)) := by
  rcases oneExchange_cases hi with ⟨rfl, rfl, rfl⟩ | ⟨rfl, rfl, rfl⟩ | ⟨param, value, rfl, rfl, rfl⟩ | ⟨rfl, rfl, rfl⟩
  · exact runControl_of_free hlock (getVersion_of_error h)
  · exact runControl_of_free hlock (getSerial_of_error h)
  · exact runControl_of_free hlock (setParam_of_error h)
  · exact runControl_of_free hlock (resetDevice_of_error h)

end OneExchange

/-- Settles O53: the accepted payload is kept by CC.GET_SERIAL alone. -/
theorem serialParamAndResetSucceed : Obligations.SerialParamAndResetSucceed := by
  intro s payload ws rest param value op hlock hfits hw hr
  refine ⟨?_, ?_, ?_⟩
  · exact runControl_of_free hlock (getSerial_of_ok (exchange_of_accepted hlock hfits hw hr))
  · exact runControl_of_free hlock (setParam_of_ok (exchange_of_accepted hlock hfits hw hr))
  · exact runControl_of_free hlock (resetDevice_of_ok (exchange_of_accepted hlock hfits hw hr))

theorem replyShort_iff {r : List Byte} :
    replyShort r = true ↔ le16 r 2 = 0 ∨ r.length < 8 + 2 * (le16 r 2).toNat := by
  have hzero : (le16 r 2).toNat = 0 ↔ le16 r 2 = 0 := BitVec.toNat_eq (y := 0) |>.symm
  rw [replyShort, Bool.or_eq_true, beq_iff_eq, decide_eq_true_eq, replySize, hzero]

/-- Settles O54: the reply is parsed before its status is looked at. -/
theorem deviceErrorsSurface : Obligations.DeviceErrorsSurface := by
  intro s i opcode body ws r rest hi hlock hw hr hlen hmatch
  have hx := exchange_of_matching (opcode := opcode) (body := body) hlock hw hr hlen hmatch
  refine ⟨fun hshort => ?_, fun hsize hlong hstatus => ?_⟩
  · rw [if_pos (replyShort_iff.2 hshort)] at hx
    exact exec_of_exchange_error hi hlock hx
  · have hno : ¬ replyShort r = true := fun h => by
      rcases replyShort_iff.1 h with h | h
      · exact hsize h
      · omega
    rw [if_neg hno, if_pos (show replyStatus r ≠ 0 from hstatus)] at hx
    exact exec_of_exchange_error hi hlock hx

/-! ### The version record (R170, R171) -/

section Version

variable {s u : State} {p : List Byte}

theorem getVersion_of_short (h : exchange s.cfg.opGetVersion [] s = (.ok p, u)) (hlen : p.length < u.cfg.versionLen) :
    getVersion s = (.error (.protocol .short), u.logProtocol .short) := by
  rw [getVersion, h]
  exact if_pos hlen

theorem getVersion_of_ok {build : Half} {d : Nat} (h : exchange s.cfg.opGetVersion [] s = (.ok p, u))
    (hlen : u.cfg.versionLen ≤ p.length)
    (hbuild : fixBuild (byteAt p 0) (le16 p 2) u = (build, { u with env := { u.env with draws := d } })) :
    getVersion s =
      (.ok { major := byteAt p 0, minor := byteAt p 1, build := build, rest := (p.take u.cfg.versionLen).drop 4 },
        State.setVersion { u with env := { u.env with draws := d } }
          { major := byteAt p 0, minor := byteAt p 1, build := build, rest := (p.take u.cfg.versionLen).drop 4 }) := by
  rw [getVersion, h]
  dsimp only
  rw [if_neg (Nat.not_lt.2 hlen), hbuild]

/-- The four digits of R171 as the numbers they are. -/
theorem hexDigits_eq (raw : Half) :
    hexDigits raw = [raw.toNat / 4096, raw.toNat / 256 % 16, raw.toNat / 16 % 16, raw.toNat % 16] := by
  have hraw := raw.isLt
  simp only [hexDigits, BitVec.extractLsb'_toNat, Nat.shiftRight_eq_div_pow, List.cons.injEq, and_true]
  refine ⟨?_, trivial, trivial, ?_⟩ <;> omega

theorem all_hexDigits (raw : Half) : (hexDigits raw).all (fun d => decide (d ≤ 9)) = allDecimal raw := by
  simp [hexDigits_eq, allDecimal, Bool.and_assoc]

theorem decimal_hexDigits (raw : Half) : (hexDigits raw).foldl (fun n d => 10 * n + d) 0 = decimalDigits raw := by
  simp only [hexDigits_eq, decimalDigits, List.foldl_cons, List.foldl_nil]
  omega

theorem decimalDigits_lt {raw : Half} (h : allDecimal raw = true) : decimalDigits raw < 65536 := by
  simp only [allDecimal, Bool.and_eq_true, decide_eq_true_eq] at h
  rw [decimalDigits]
  omega

/-- The corrected build number draws a free value only where the spec states none (R171, U6). -/
theorem fixBuild_spec (major : Byte) (raw : Half) (s : State) :
    ∃ build d, fixBuild major raw s = (build, { s with env := { s.env with draws := d } }) ∧ buildOf major raw build
      ∧ ((major.toNat < 5 ∨ allDecimal raw = true) → d = s.env.draws) := by
  unfold fixBuild
  rw [all_hexDigits, decimal_hexDigits]
  by_cases hmajor : major.toNat < 5
  · rw [if_pos hmajor]
    exact ⟨raw, s.env.draws, rfl, ⟨fun _ => rfl, fun h => absurd hmajor (Nat.not_lt.2 h)⟩, fun _ => rfl⟩
  · rw [if_neg hmajor]
    cases hdec : allDecimal raw with
    | true =>
      refine ⟨_, s.env.draws, rfl, ⟨fun h => absurd h hmajor, fun _ _ => ?_⟩, fun _ => rfl⟩
      rw [BitVec.toNat_ofNat]
      exact Nat.mod_eq_of_lt (decimalDigits_lt hdec)
    | false =>
      exact ⟨_, s.env.draws + 1, rfl, ⟨fun h => absurd h hmajor, fun _ h => by rw [hdec] at h; cases h⟩,
        fun h => by rcases h with h | h; exacts [absurd h hmajor, nomatch h]⟩

end Version

/-- Settles O52: the payload's length decides between the record and the short reply. -/
theorem getVersionRecordsTheVersion : Obligations.GetVersionRecordsTheVersion := by
  intro s u payload ws rest hlock hfits hw hr hu
  have hx := exchange_of_accepted (opcode := s.cfg.opGetVersion) (body := []) hlock hfits hw hr
  subst hu
  refine ⟨fun _ hlen => ?_, fun hlen => ⟨?_, rfl⟩⟩
  · obtain ⟨build, d, hbuild, hspec, -⟩ := fixBuild_spec (byteAt payload 0) (le16 payload 2) _
    have hget := getVersion_of_ok hx hlen hbuild
    refine ⟨_, d, ?_, runControl_of_free hlock hget⟩
    exact ⟨rfl, rfl, rfl, hspec⟩
  · exact runControl_of_free hlock (getVersion_of_short hx hlen)

end Sys2Proof.Proofs.Exchanges
end


section
/-! PROOFS. The paged reads (R172 to R174), in one go and round by round (R86). -/

namespace Sys2Proof.Proofs.PagedReads

open Sys2Proof.Machine Sys2Proof.Safety Sys2Proof.Proofs.Steps Sys2Proof.Proofs.Stepping Sys2Proof.Proofs.Exchanges

/-! ### One round (R172) -/

section Round

variable {opcode : Half} {header data p : List Byte} {target : Nat} {off : Half} {s u : State}

theorem pageRound_of_reached (h : target ≤ data.length) :
    pageRound opcode header target data off s = (.ok (.whole data), s) := by
  rw [pageRound, if_pos h]

theorem pageRound_of_error {e : CtrlError} (h : data.length < target)
    (hx : exchange opcode (header ++ putHalf off) s = (.error e, u)) :
    pageRound opcode header target data off s = (.error e, u) := by
  rw [pageRound, if_neg (Nat.not_le.2 h), hx]

theorem pageRound_of_empty (h : data.length < target)
    (hx : exchange opcode (header ++ putHalf off) s = (.ok [], u)) :
    pageRound opcode header target data off s = (.ok (.whole data), u) := by
  rw [pageRound, if_neg (Nat.not_le.2 h), hx]
  rfl

theorem pageRound_of_page (h : data.length < target) (hp : p ≠ [])
    (hx : exchange opcode (header ++ putHalf off) s = (.ok p, u)) :
    pageRound opcode header target data off s =
      (.ok (.more ((data ++ p).take target) (off + BitVec.ofNat 16 (p.length / 2))), u) := by
  have hne : ¬ p.length = 0 := fun h0 => hp (List.length_eq_zero_iff.1 h0)
  have hcut : data ++ p.take (min p.length (target - data.length)) = (data ++ p).take target := by
    rw [List.take_append, List.take_of_length_le (Nat.le_of_lt h), Nat.min_comm, ← List.take_eq_take_min]
  rw [pageRound, if_neg (Nat.not_le.2 h), hx]
  dsimp only
  rw [if_neg hne, hcut]

/-- Cutting what is gathered at the target before or after the next page is the same. -/
theorem take_take_append (raw p : List Byte) (h : raw.length < target) :
    (raw.take target ++ p).take target = (raw ++ p).take target := by
  rw [List.take_of_length_le (Nat.le_of_lt h)]

end Round

/-! ### The pages one after another -/

/-- The state after the exchanges that bring `pages` from offset `off` on. -/
def afterPages (s : State) (opcode : Half) (header : List Byte) (off : Half) (pages : List (List Byte)) (ws : List Bool)
    (rest : List (Option (List Byte))) : State :=
  { s with
    cc := { s.cc with reqId := s.cc.reqId + BitVec.ofNat 16 pages.length }
    env := { s.env with
      writeAnswers := ws, readAnswers := rest, reads := s.env.reads + pages.length
      sent := s.env.sent ++ pageRequests s.cfg opcode header s.cc.reqId off pages } }

section Pages

variable {opcode : Half} {header : List Byte} {target : Nat} {ws : List Bool} {rest : List (Option (List Byte))}

theorem afterPages_cons (s : State) (off : Half) (p : List Byte) (pages : List (List Byte)) (ws' : List Bool)
    (rest' : List (Option (List Byte))) :
    afterPages (exchanged s (reqBytes s.cfg opcode (header ++ putHalf off)) ws' rest' 1) opcode header
        (off + BitVec.ofNat 16 (p.length / 2)) pages ws rest
      = afterPages s opcode header off (p :: pages) ws rest := by
  have hid : s.cc.reqId + 1 + BitVec.ofNat 16 pages.length = s.cc.reqId + BitVec.ofNat 16 (p :: pages).length := by
    rw [List.length_cons, BitVec.ofNat_add, BitVec.add_assoc, BitVec.add_comm 1]
    rfl
  have hreads : s.env.reads + 1 + pages.length = s.env.reads + (p :: pages).length := by rw [List.length_cons]; omega
  simp only [afterPages, exchanged, pageRequests, hid, hreads, List.append_assoc, List.singleton_append]

/-- The environment's answers to the exchanges of a list of pages. -/
def Answered (s : State) (opcode : Half) (pages : List (List Byte)) (ws : List Bool) (rest : List (Option (List Byte))) : Prop :=
  (∀ p ∈ pages, fitsReply s.cfg p = true)
    ∧ s.env.writeAnswers = List.replicate pages.length true ++ ws
    ∧ s.env.readAnswers = pageReplies s.cfg opcode s.cc.reqId pages ++ rest

theorem Answered.nil {s : State} {off : Half} (h : Answered s opcode [] ws rest) :
    afterPages s opcode header off [] ws rest = s := by
  obtain ⟨-, hw, hr⟩ := h
  have hw' : s.env.writeAnswers = ws := hw
  have hr' : s.env.readAnswers = rest := hr
  rw [afterPages, ← hw', ← hr', pageRequests, List.append_nil]
  simp

/-- The first page's exchange leaves the answers to the others. -/
theorem Answered.cons {s : State} {p : List Byte} {pages : List (List Byte)} {body : List Byte} (hlock : s.cc.lock = false)
    (h : Answered s opcode (p :: pages) ws rest) :
    ∃ ws' rest', exchange opcode body s = (.ok p, exchanged s (reqBytes s.cfg opcode body) ws' rest' 1)
      ∧ Answered (exchanged s (reqBytes s.cfg opcode body) ws' rest' 1) opcode pages ws rest := by
  obtain ⟨hfits, hw, hr⟩ := h
  exact ⟨_, _, exchange_of_accepted hlock (hfits p List.mem_cons_self) hw hr,
    fun q hq => hfits q (List.mem_cons_of_mem p hq), rfl, rfl⟩

theorem pagedRounds_of_page {fuel : Nat} {data p : List Byte} {off : Half} {s u : State} (h : data.length < target)
    (hp : p ≠ []) (hx : exchange opcode (header ++ putHalf off) s = (.ok p, u)) :
    pagedRounds opcode header target (fuel + 1) data off s =
      pagedRounds opcode header target fuel ((data ++ p).take target) (off + BitVec.ofNat 16 (p.length / 2)) u := by
  rw [pagedRounds, pageRound_of_page h hp hx]

/-- Pages up to the target or an empty one: the read is the pages joined and cut at the target. -/
theorem pagedRounds_of_pagesEnd {fuel : Nat} {raw : List Byte} {pages : List (List Byte)} {off : Half} {s : State}
    (hlock : s.cc.lock = false) (hans : Answered s opcode pages ws rest) (hend : pagesEnd target raw.length pages = true)
    (hfuel : pages.length < fuel) :
    pagedRounds opcode header target fuel (raw.take target) off s =
      (.ok ((raw ++ pages.flatten).take target), afterPages s opcode header off pages ws rest) := by
  induction pages generalizing fuel raw off s with
  | nil =>
    obtain ⟨n, rfl⟩ := Nat.exists_eq_succ_of_ne_zero (Nat.ne_of_gt hfuel)
    have hge : target ≤ (raw.take target).length := by
      rw [List.length_take]
      exact Nat.le_min.2 ⟨Nat.le_refl _, of_decide_eq_true hend⟩
    rw [Nat.succ_eq_add_one, pagedRounds, pageRound_of_reached hge, hans.nil, List.flatten_nil, List.append_nil]
  | cons p pages ih =>
    obtain ⟨n, rfl⟩ := Nat.exists_eq_succ_of_ne_zero (Nat.ne_of_gt (Nat.lt_of_le_of_lt (Nat.zero_le _) hfuel))
    obtain ⟨ws', rest', hx, hans'⟩ := hans.cons (body := header ++ putHalf off) hlock
    simp only [pagesEnd, Bool.and_eq_true, decide_eq_true_eq] at hend
    obtain ⟨hlt, hend⟩ := hend
    have hdata : (raw.take target).length < target := by rw [List.length_take]; omega
    rw [Nat.succ_eq_add_one, ← afterPages_cons s off p pages ws' rest', List.flatten_cons, ← List.append_assoc]
    by_cases hp : p = []
    · subst hp
      obtain rfl := List.isEmpty_iff.1 hend
      rw [pagedRounds, pageRound_of_empty hdata hx, hans'.nil, List.flatten_nil, List.append_nil,
        List.append_nil]
    · rw [if_neg (by simpa using hp), ← List.length_append] at hend
      rw [pagedRounds_of_page hdata hp hx, take_take_append raw p hlt]
      exact ih hlock hans' hend (by rw [List.length_cons] at hfuel; omega)

theorem ofNat_half_append {raw p : List Byte} (h : p.length % 2 = 0) :
    (BitVec.ofNat 16 (raw.length / 2) + BitVec.ofNat 16 (p.length / 2) : Half)
      = BitVec.ofNat 16 ((raw ++ p).length / 2) := by
  rw [← BitVec.ofNat_add, List.length_append]
  congr 1
  omega

/-- Pages that leave the read asking: it goes on from where they end. -/
theorem pagedRounds_of_pagesOpen {fuel : Nat} {raw : List Byte} {pages : List (List Byte)} {s : State}
    (hlock : s.cc.lock = false) (hans : Answered s opcode pages ws rest) (hopen : pagesOpen target raw.length pages = true) :
    (raw ++ pages.flatten).length < target
    ∧ pagedRounds opcode header target (pages.length + fuel) (raw.take target) (BitVec.ofNat 16 (raw.length / 2)) s =
      pagedRounds opcode header target fuel (raw ++ pages.flatten) (BitVec.ofNat 16 ((raw ++ pages.flatten).length / 2))
        (afterPages s opcode header (BitVec.ofNat 16 (raw.length / 2)) pages ws rest) := by
  induction pages generalizing raw s with
  | nil =>
    have hlt : raw.length < target := of_decide_eq_true hopen
    rw [List.flatten_nil, List.append_nil, hans.nil, List.take_of_length_le (Nat.le_of_lt hlt),
      List.length_nil, Nat.zero_add]
    exact ⟨hlt, rfl⟩
  | cons p pages ih =>
    obtain ⟨ws', rest', hx, hans'⟩ :=
      hans.cons (body := header ++ putHalf (BitVec.ofNat 16 (raw.length / 2))) hlock
    simp only [pagesOpen, Bool.and_eq_true, decide_eq_true_eq] at hopen
    obtain ⟨⟨hlt, hp⟩, hopen⟩ := hopen
    have hdata : (raw.take target).length < target := by rw [List.length_take]; omega
    have heven : p.length % 2 = 0 := (fitsReply_iff.1 (hans.1 p List.mem_cons_self)).1
    rw [← List.length_append] at hopen
    rw [List.length_cons, Nat.add_right_comm, pagedRounds_of_page hdata (by simpa using hp) hx, take_take_append raw p hlt,
      ← afterPages_cons s _ p pages ws' rest', List.flatten_cons, ← List.append_assoc, ofNat_half_append heven]
    exact ih hlock hans' hopen

/-- Each page but the last adds a byte. -/
theorem length_le_of_pagesEnd {got : Nat} {pages : List (List Byte)} (h : pagesEnd target got pages = true) :
    pages.length ≤ target - got := by
  induction pages generalizing got with
  | nil => exact Nat.zero_le _
  | cons p pages ih =>
    simp only [pagesEnd, Bool.and_eq_true, decide_eq_true_eq] at h
    obtain ⟨hlt, h⟩ := h
    split at h
    · rw [List.isEmpty_iff.1 h, List.length_singleton]
      omega
    · rename_i hp
      have hpos : 0 < p.length := List.length_pos_of_ne_nil (by simpa using hp)
      have hle := ih h
      rw [List.length_cons]
      omega

theorem length_lt_of_pagesOpen {got : Nat} {pages : List (List Byte)} (h : pagesOpen target got pages = true) :
    got + pages.length < target := by
  induction pages generalizing got with
  | nil => exact of_decide_eq_true h
  | cons p pages ih =>
    simp only [pagesOpen, Bool.and_eq_true] at h
    obtain ⟨⟨-, hp⟩, h⟩ := h
    have hpos : 0 < p.length := List.length_pos_of_ne_nil (by simpa using hp)
    have hlt := ih h
    rw [List.length_cons]
    omega

theorem pagedRead_of_pagesEnd {pages : List (List Byte)} {s : State} (hlock : s.cc.lock = false)
    (hans : Answered s opcode pages ws rest) (hend : pagesEnd target 0 pages = true) :
    pagedRead opcode header target s = (.ok (pages.flatten.take target), afterPages s opcode header 0 pages ws rest) := by
  have hrounds := pagedRounds_of_pagesEnd (header := header) (raw := []) (off := 0) (fuel := target + 1) hlock hans hend
    (Nat.lt_succ_of_le (length_le_of_pagesEnd hend))
  rwa [List.take_nil, List.nil_append] at hrounds

/-- An error after the pages ends the read (R172). -/
theorem pagedRead_of_error {pages : List (List Byte)} {s u : State} {e : CtrlError} (hlock : s.cc.lock = false)
    (hans : Answered s opcode pages ws rest) (hopen : pagesOpen target 0 pages = true)
    (hx : exchange opcode (header ++ putHalf (BitVec.ofNat 16 (pages.flatten.length / 2)))
      (afterPages s opcode header 0 pages ws rest) = (.error e, u)) :
    pagedRead opcode header target s = (.error e, u) := by
  have hlen := length_lt_of_pagesOpen hopen
  obtain ⟨hlt, hrounds⟩ := pagedRounds_of_pagesOpen (header := header) (raw := []) (fuel := target - pages.length + 1)
    hlock hans hopen
  have hfuel : pages.length + (target - pages.length + 1) = target + 1 := by omega
  have hround : pageRound opcode header target pages.flatten (BitVec.ofNat 16 (pages.flatten.length / 2))
      (afterPages s opcode header (BitVec.ofNat 16 (([] : List Byte).length / 2)) pages ws rest) = (.error e, u) :=
    pageRound_of_error hlt hx
  rw [hfuel, List.take_nil, List.nil_append] at hrounds
  rw [pagedRead]
  refine hrounds.trans ?_
  rw [pagedRounds, hround]

end Pages

/-! ### The two paged reads as operations (R173, R174) -/

section Paged

variable {i : Instr} {s u : State} {opcode : Half} {header d : List Byte} {target : Nat}

/-- The record a paged read has gathered is written. -/
def storePages (i : Instr) (u : State) (d : List Byte) : State := { u with dh := pagedRecord i u.dh d }

theorem pagedOp_cases (h : pagedOp s.cfg i = some (opcode, header, target)) :
    (i = .ccGetFixed ∧ opcode = s.cfg.opGetFixed ∧ header = [] ∧ target = s.cfg.fixedSize)
      ∨ (i = .ccGetAlgo header ∧ selShape s.cfg header = true ∧ opcode = s.cfg.opGetAlgo ∧ target = s.cfg.algoSize) := by
  cases i <;> simp only [pagedOp, ctrlOp, reduceCtorEq] at h
  case ccGetFixed =>
    cases h
    exact .inl ⟨rfl, rfl, rfl, rfl⟩
  case ccGetAlgo sel =>
    split at h
    · cases h
      exact .inr ⟨rfl, ‹_›, rfl, rfl⟩
    · cases h

theorem exec_ccGetAlgo {sel : List Byte} (h : selShape s.cfg sel = true) :
    exec (.ccGetAlgo sel) s = runControl (.ccGetAlgo sel) (fun _ => .ok) (getAlgo sel) s := by
  show execCcGetAlgo sel s = _
  rw [execCcGetAlgo, h]
  rfl

theorem getFixed_of_ok (h : pagedRead s.cfg.opGetFixed [] s.cfg.fixedSize s = (.ok d, u)) :
    getFixed s = (.ok (), u.setFixed d) := by
  rw [getFixed, h]

theorem getFixed_of_error {e : CtrlError} (h : pagedRead s.cfg.opGetFixed [] s.cfg.fixedSize s = (.error e, u)) :
    getFixed s = (.error e, u) := by
  rw [getFixed, h]

theorem getAlgo_of_ok {sel : List Byte} (h : pagedRead s.cfg.opGetAlgo sel s.cfg.algoSize s = (.ok d, u)) :
    getAlgo sel s = (.ok (), u.setAlgo d) := by
  rw [getAlgo, h]

theorem getAlgo_of_error {sel : List Byte} {e : CtrlError}
    (h : pagedRead s.cfg.opGetAlgo sel s.cfg.algoSize s = (.error e, u)) : getAlgo sel s = (.error e, u) := by
  rw [getAlgo, h]

/-- A paged read in one go, by how its rounds end. -/
theorem exec_paged (h : pagedOp s.cfg i = some (opcode, header, target)) (hlock : s.cc.lock = false) :
    (∀ d u, pagedRead opcode header target s = (.ok d, u) → exec i s = .next ((storePages i u d).answer .ok))
    ∧ ∀ e u, pagedRead opcode header target s = (.error e, u) → exec i s = .next (u.answer (.error e)) := by
  rcases pagedOp_cases h with ⟨rfl, rfl, rfl, rfl⟩ | ⟨rfl, hsel, rfl, rfl⟩
  · exact ⟨fun d u hread => runControl_of_free hlock (getFixed_of_ok hread),
      fun e u hread => runControl_of_free hlock (getFixed_of_error hread)⟩
  · rw [exec_ccGetAlgo hsel]
    exact ⟨fun d u hread => runControl_of_free hlock (getAlgo_of_ok hread),
      fun e u hread => runControl_of_free hlock (getAlgo_of_error hread)⟩

/-- A paged read in progress takes one round. -/
theorem callStep_pagedCall (h : pagedOp s.cfg i = some (opcode, header, target)) (data : List Byte) (off : Half) :
    callStep (pagedCall i data off) s =
      callRound (pagedCall i) (storePages i) (pageRound opcode header target data off s) := by
  rcases pagedOp_cases h with ⟨rfl, rfl, rfl, rfl⟩ | ⟨rfl, -, rfl, rfl⟩ <;> rfl

theorem exchange_dh {body : List Byte} {r : Except CtrlError (List Byte)} (h : exchange opcode body s = (r, u)) :
    u.dh = s.dh := by
  have hrecords := (Proofs.Session.exchange_records opcode body s).2
  rwa [h] at hrecords

end Paged

/-! ### Resuming one of the operations in progress (R86) -/

section Resuming

variable {s u : State} {pre post : List Call} {c : Call} {stims : List Stimulus}

theorem step_of_resume (hlock : s.cc.lock = false) (hs : s.stim = .resume pre.length :: stims)
    (hcalls : s.calls = pre ++ c :: post) :
    step s = .next (State.afterStep pre.length (callStep c { s with stim := stims })) := by
  have hfind : (pre ++ c :: post)[pre.length]? = some c := by simp
  rw [step_resume hs, resumeCall, taken_of_stim hs, if_neg (by simp [hlock]), State.resume]
  show Host.Outcome.next (match s.calls[pre.length]? with | none => _ | some c => _) = _
  rw [hcalls, hfind]

/-- A step of an operation in progress leaves the list of them alone. -/
theorem callStep_calls {r : Progress} {t : State} (h : callStep c t = (r, u)) : u.calls = t.calls := by
  have hframe := callStep_frame c t
  rw [h] at hframe
  obtain ⟨_, _, _, rfl, -⟩ := hframe
  rfl

theorem step_of_goesOn {c' : Call} (hlock : s.cc.lock = false) (hs : s.stim = .resume pre.length :: stims)
    (hcalls : s.calls = pre ++ c :: post) (h : callStep c { s with stim := stims } = (.goesOn c', u)) :
    step s = .next { u with calls := pre ++ c' :: post } := by
  have hu : u.calls = s.calls := (callStep_calls h).trans rfl
  rw [step_of_resume hlock hs hcalls, h, State.afterStep, hu, hcalls]
  simp

theorem step_of_ends {r : OpResult} (hlock : s.cc.lock = false) (hs : s.stim = .resume pre.length :: stims)
    (hcalls : s.calls = pre ++ c :: post) (h : callStep c { s with stim := stims } = (.ends r, u)) :
    step s = .next (State.answer { u with calls := pre ++ post } r) := by
  have hu : u.calls = s.calls := (callStep_calls h).trans rfl
  rw [step_of_resume hlock hs hcalls, h, State.afterStep, hu, hcalls, List.eraseIdx_append_of_length_le (Nat.le_refl _)]
  simp

end Resuming

/-- Settles O55: the read in one go by its pages, round by round by what its round answers. -/
theorem pagedReadsCollectThePages : Obligations.PagedReadsCollectThePages := by
  intro i s opcode header target hop hlock
  obtain ⟨hwhole, herror⟩ := exec_paged hop hlock
  refine ⟨fun t pages ws rest hfits hw hr ht => ?_, fun pre post stims data off hs hcalls => ?_⟩
  · have hans : Answered s opcode pages ws rest := ⟨hfits, hw, hr⟩
    replace ht : t = afterPages s opcode header 0 pages ws rest := ht
    subst ht
    exact ⟨fun hend => hwhole _ _ (pagedRead_of_pagesEnd hlock hans hend),
      fun e u hopen hx => ⟨herror e u (pagedRead_of_error hlock hans hopen hx), (exchange_dh hx).trans rfl⟩⟩
  · have hround := callStep_pagedCall (s := { s with stim := stims }) hop data off
    refine ⟨fun hge => ?_, fun p ws rest u hlt hfits hw hr hu => ?_, fun err u hlt hx => ⟨?_, (exchange_dh hx).trans rfl⟩⟩
    · rw [pageRound_of_reached hge] at hround
      exact step_of_ends hlock hs hcalls hround
    · have hx : exchange opcode (header ++ putHalf off) { s with stim := stims } = (.ok p, u) := by
        rw [hu]
        exact exchange_of_accepted hlock hfits hw hr
      refine ⟨fun hp => ?_, fun hp => ?_⟩
      · rw [pageRound_of_page hlt hp hx] at hround
        exact step_of_goesOn hlock hs hcalls hround
      · subst hp
        rw [pageRound_of_empty hlt hx] at hround
        rw [step_of_ends hlock hs hcalls hround, storePages, exchange_dh hx]
    · rw [pageRound_of_error hlt hx] at hround
      exact step_of_ends hlock hs hcalls hround

end Sys2Proof.Proofs.PagedReads
end


section
/-! PROOFS. The bring-up (R178): how it ends, exchange by exchange (R86), and what its sequence sends and records. -/

namespace Sys2Proof.Proofs.BringUp

open Sys2Proof.Machine Sys2Proof.Safety Sys2Proof.Proofs.Steps Sys2Proof.Proofs.Stepping Sys2Proof.Proofs.Exchanges
  Sys2Proof.Proofs.PagedReads

/-! ### One result -/

theorem initLoop_result (sel : List Byte) (n : Nat) (last : InitCause) (s : State) :
    (initLoop sel n last s).1 = .ok ∨ ∃ why, (initLoop sel n last s).1 = .initFailed why := by
  induction n generalizing last s with
  | zero => exact .inr ⟨last, rfl⟩
  | succ n ih =>
    rw [initLoop_succ]
    rcases initAttempt sel s with ⟨_ | _ | e, u⟩
    · exact .inl rfl
    · exact .inr ⟨.firmwareTooOld, rfl⟩
    · exact ih (.error e) u

theorem exec_ccInit {sel : List Byte} {s : State} (hlock : s.cc.lock = false) (hsel : selShape s.cfg sel = true) :
    exec (.ccInit sel) s =
      .next ((initLoop sel s.cfg.initRetries .noAttempt s).2.answer (initLoop sel s.cfg.initRetries .noAttempt s).1) := by
  show execCcInit sel s = _
  rw [execCcInit, hsel, waits_of_free hlock]
  rfl

theorem exec_ccInit_of_loop {sel : List Byte} {s u : State} {r : OpResult} (hlock : s.cc.lock = false)
    (hsel : selShape s.cfg sel = true) (h : initLoop sel s.cfg.initRetries .noAttempt s = (r, u)) :
    exec (.ccInit sel) s = .next (u.answer r) := by
  rw [exec_ccInit hlock hsel, h]

/-! ### Exchange by exchange (R86) -/

theorem run_succ {n : Nat} {s t : State} (h : step s = .next t) : core.run (n + 1) s = core.run n t := by
  have hstep : core.step s = .next t := h
  simp only [Host.Core.run, hstep]

/-- An operation in progress that its caller alone resumes, as steps of the machine. -/
theorem run_of_runsAlone {c : Call} {s u : State} {r : OpResult} (h : RunsAlone c s r u) (hlock : s.cc.lock = false)
    (pre : List Call) :
    ∃ n, ∀ rest, core.run n (s.beside (List.replicate n (.resume pre.length) ++ rest) (pre ++ [c]))
      = .next ((u.beside rest pre).answer r) := by
  induction h with
  | @last c s r u hstep =>
    refine ⟨1, fun rest => ?_⟩
    have hbeside := callStep_beside rest (pre ++ [c]) c s
    rw [hstep] at hbeside
    have hrun := step_of_ends (s := s.beside (List.replicate 1 (.resume pre.length) ++ rest) (pre ++ [c])) (post := [])
      hlock rfl rfl hbeside
    rw [List.append_nil] at hrun
    exact run_succ hrun
  | @more c s c' t r u hstep _ ih =>
    have htlock : t.cc.lock = false := by
      obtain ⟨_, _, _, hframe, -, hfree⟩ := callStep_frame c s
      rw [hstep] at hframe
      rw [show t = _ from hframe]
      exact hfree hlock
    obtain ⟨n, hrun⟩ := ih htlock
    refine ⟨n + 1, fun rest => ?_⟩
    have hbeside := callStep_beside (List.replicate n (.resume pre.length) ++ rest) (pre ++ [c]) c s
    rw [hstep] at hbeside
    exact (run_succ (step_of_goesOn
      (s := s.beside (List.replicate (n + 1) (.resume pre.length) ++ rest) (pre ++ [c])) (post := [])
      hlock rfl rfl hbeside)).trans (hrun rest)

theorem step_invoked {s : State} {bytes : List Byte} {i : Instr} {rest : List Stimulus}
    (hs : s.stim = .invoke bytes :: rest) (hdec : decode s.cfg bytes = .ok i) :
    (∀ c, callOf s.cfg i = some c → step s = .next (State.addCall { s with stim := rest } c))
    ∧ (callOf s.cfg i = none → waits s i = false → step s = exec i { s with stim := rest }) := by
  rw [step_invoke hs, runStimulus_of_ok hdec, ← taken_of_stim hs]
  exact ⟨fun c hcall => invoke_of_some hcall, fun hcall hfree => by rw [invoke_of_none hcall, runOp_of_free hfree]⟩

/-- CC.INIT invoked and resumed with nothing in between is CC.INIT in one go. -/
theorem run_invoked_init {sel : List Byte} {s : State} (hlock : s.cc.lock = false) (hsel : selShape s.cfg sel = true) :
    ∃ n, ∀ (bytes : List Byte) (rest : List Stimulus), decode s.cfg bytes = .ok (.ccInit sel) →
      core.run (n + 1) { s with stim := .invoke bytes :: List.replicate n (.resume s.calls.length) ++ rest }
        = exec (.ccInit sel) { s with stim := rest } := by
  cases hretries : s.cfg.initRetries with
  | zero =>
    refine ⟨0, fun bytes rest hdec => ?_⟩
    have hcall : callOf s.cfg (.ccInit sel) = none := by simp [callOf, ctrlOp, hretries]
    have hstep := (step_invoked
      (s := { s with stim := .invoke bytes :: List.replicate 0 (.resume s.calls.length) ++ rest }) rfl hdec).2 hcall
        (waits_of_free hlock)
    have hexec := exec_ccInit (s := { s with stim := rest }) hlock hsel
    exact (run_succ (hstep.trans hexec)).trans hexec.symm
  | succ m =>
    have halone := init_runsAlone sel m .noAttempt s
    rw [← hretries] at halone
    obtain ⟨n, hrun⟩ := run_of_runsAlone halone hlock s.calls
    refine ⟨n, fun bytes rest hdec => ?_⟩
    have hcall : callOf s.cfg (.ccInit sel) = some (.init sel m .version) := by
      simp [callOf, ctrlOp, hretries, hsel]
    have hstep := (step_invoked
      (s := { s with stim := .invoke bytes :: List.replicate n (.resume s.calls.length) ++ rest }) rfl hdec).1 _ hcall
    have hloop := initLoop_beside rest s.calls sel s.cfg.initRetries .noAttempt s
    have hexec := exec_ccInit_of_loop (s := s.beside rest s.calls) hlock hsel hloop
    exact ((run_succ hstep).trans (hrun rest)).trans hexec.symm

/-! ### At most one request per resumption -/

/-- At most one request more has been sent. -/
def SendsAtMostOne (s t : State) : Prop := t.env.sent = s.env.sent ∨ ∃ req, t.env.sent = s.env.sent ++ [req]

theorem exchange_sends (opcode : Half) (body : List Byte) (s : State) : SendsAtMostOne s (exchange opcode body s).2 := by
  obtain ⟨res, evs, env, hx, -, hsent, -⟩ := xferReply_cases (reqBytes s.cfg opcode body) s.cfg.maxReply s
  refine .inr ⟨putLe16 (reqBytes s.cfg opcode body) 6 s.cc.reqId, ?_⟩
  rw [exchange, hx]
  cases res with
  | error e => exact hsent
  | ok r =>
    dsimp only
    rw [parseReply]
    cases replyShort r with
    | true => exact hsent
    | false =>
      simp only [Bool.false_eq_true, if_false]
      split <;> exact hsent

theorem pageRound_sends (opcode : Half) (header : List Byte) (target : Nat) (data : List Byte) (off : Half) (s : State) :
    SendsAtMostOne s (pageRound opcode header target data off s).2 := by
  have hsends := exchange_sends opcode (header ++ putHalf off) s
  unfold pageRound
  split
  · exact .inl rfl
  · revert hsends
    rcases exchange opcode (header ++ putHalf off) s with ⟨_ | p, u⟩ <;> intro hsends
    · exact hsends
    · dsimp only
      split <;> exact hsends

theorem getVersion_sends (s : State) : SendsAtMostOne s (getVersion s).2 := by
  have hsends := exchange_sends s.cfg.opGetVersion [] s
  unfold getVersion
  revert hsends
  rcases exchange s.cfg.opGetVersion [] s with ⟨_ | p, u⟩ <;> intro hsends
  · exact hsends
  · dsimp only
    split
    · exact hsends
    · obtain ⟨b, d, hbuild⟩ := fixBuild_cases (byteAt p 0) (le16 p 2) u
      rw [hbuild]
      exact hsends

theorem getSerial_sends (s : State) : SendsAtMostOne s (getSerial s).2 := by
  have hsends := exchange_sends s.cfg.opGetSerial [] s
  unfold getSerial
  revert hsends
  rcases exchange s.cfg.opGetSerial [] s with ⟨_ | p, u⟩ <;> exact id

theorem resetDevice_sends (s : State) : SendsAtMostOne s (resetDevice s).2 := by
  have hsends := exchange_sends s.cfg.opSetMode (putHalf s.cfg.modeKnown) s
  unfold resetDevice
  revert hsends
  rcases exchange s.cfg.opSetMode (putHalf s.cfg.modeKnown) s with ⟨_ | p, u⟩ <;> exact id

theorem phasePage_sends {more : List Byte → Half → InitPhase} {next : InitNext} {store : State → List Byte → State}
    {s : State} {r : Except CtrlError Page × State} (hstore : ∀ u d, (store u d).env = u.env) (h : SendsAtMostOne s r.2) :
    SendsAtMostOne s (phasePage more next store r).2 := by
  rcases r with ⟨_ | d | d, u⟩
  · exact h
  · exact h
  · rw [SendsAtMostOne, phasePage, hstore]
    exact h

theorem initStep_sends (sel : List Byte) (s : State) (p : InitPhase) : SendsAtMostOne s (initStep sel s p).2 := by
  cases p with
  | version =>
    have hsends := getVersion_sends s
    unfold initStep
    revert hsends
    rcases getVersion s with ⟨_ | v, u⟩ <;> intro hsends
    · exact hsends
    · dsimp only
      split <;> exact hsends
  | reset => rw [initStep, phaseThen_state]; exact resetDevice_sends s
  | serial => rw [initStep, phaseThen_state]; exact getSerial_sends s
  | fixed data off => rw [initStep]; exact phasePage_sends (fun _ _ => rfl) (pageRound_sends ..)
  | algo data off => rw [initStep]; exact phasePage_sends (fun _ _ => rfl) (pageRound_sends ..)

/-- A resumption of a bring-up sends at most one request and leaves the other operations where they are. -/
theorem step_resumed_init {s : State} {sel : List Byte} {pre post : List Call} {left : Nat} {phase : InitPhase}
    {rest : List Stimulus} (hlock : s.cc.lock = false) (hs : s.stim = .resume pre.length :: rest)
    (hcalls : s.calls = pre ++ .init sel left phase :: post) :
    ∃ t, step s = .next t ∧ SendsAtMostOne s t
      ∧ ((∃ c, t.calls = pre ++ c :: post ∧ t.results = s.results)
        ∨ ∃ r, t.calls = pre ++ post ∧ t.results = s.results ++ [r]) := by
  have hsends : SendsAtMostOne s (callStep (.init sel left phase) { s with stim := rest }).2 := by
    rw [callStep, initProgress_state]
    exact initStep_sends sel { s with stim := rest } phase
  have hresults : (callStep (.init sel left phase) { s with stim := rest }).2.results = s.results := by
    obtain ⟨_, _, _, hframe, -⟩ := callStep_frame (.init sel left phase) { s with stim := rest }
    rw [hframe]
  rcases hstep : callStep (.init sel left phase) { s with stim := rest } with ⟨c | r, u⟩ <;>
    rw [hstep] at hsends hresults
  · exact ⟨_, step_of_goesOn hlock hs hcalls hstep, hsends, .inl ⟨c, rfl, hresults⟩⟩
  · exact ⟨_, step_of_ends hlock hs hcalls hstep, hsends, .inr ⟨r, rfl, congrArg (· ++ [r]) hresults⟩⟩

/-! ### An attempt with every exchange answered -/

section Attempt

variable {s u : State} {sel : List Byte} {v w : Version}

theorem plainVersion_iff {c : Cfg} {p : List Byte} : plainVersion c p = true ↔
    fitsReply c p = true ∧ c.versionLen ≤ p.length ∧ ((byteAt p 0).toNat < 5 ∨ allDecimal (le16 p 2) = true) := by
  simp [plainVersion, and_assoc]

/-- Where the spec states the build number it is one number (R171). -/
theorem buildOf_unique {major : Byte} {raw b d : Half} (hstated : major.toNat < 5 ∨ allDecimal raw = true)
    (hb : buildOf major raw b) (hd : buildOf major raw d) : b = d := by
  by_cases hmajor : major.toNat < 5
  · rw [hb.1 hmajor, hd.1 hmajor]
  · have hdec := hstated.resolve_left hmajor
    exact BitVec.eq_of_toNat_eq ((hb.2 (Nat.le_of_not_lt hmajor) hdec).trans (hd.2 (Nat.le_of_not_lt hmajor) hdec).symm)

theorem getVersion_of_plain {p : List Byte} {ws : List Bool} {rest : List (Option (List Byte))}
    (hlock : s.cc.lock = false) (hplain : plainVersion s.cfg p = true) (hv : versionOf s.cfg p v)
    (hw : s.env.writeAnswers = true :: ws)
    (hr : s.env.readAnswers = some (replyBytes s.cfg s.cfg.opGetVersion s.cc.reqId 0 p) :: rest) :
    getVersion s = (.ok v, (exchanged s (reqBytes s.cfg s.cfg.opGetVersion []) ws rest 1).setVersion v) := by
  obtain ⟨hfits, hlen, hstated⟩ := plainVersion_iff.1 hplain
  obtain ⟨hmajor, hminor, hrest, hbuild⟩ := hv
  rw [hmajor] at hbuild
  obtain ⟨build, d, hfix, hspec, hdraws⟩ := fixBuild_spec (byteAt p 0) (le16 p 2)
    (exchanged s (reqBytes s.cfg s.cfg.opGetVersion []) ws rest 1)
  have hget := getVersion_of_ok (exchange_of_accepted hlock hfits hw hr) hlen hfix
  have hv : { major := byteAt p 0, minor := byteAt p 1, build := build, rest := (p.take s.cfg.versionLen).drop 4 } = v := by
    rw [buildOf_unique hstated hspec hbuild, ← hmajor, ← hminor, ← hrest]
  rw [hdraws hstated] at hget
  rw [← hv]
  exact hget

theorem initAttempt_of_error {e : CtrlError} (h : getVersion s = (.error e, u)) : initAttempt sel s = (.failed e, u) := by
  rw [initAttempt, h]

theorem initAttempt_of_tooOld (h : getVersion s = (.ok v, u)) (hfloor : belowFloor u.cfg v = true) :
    initAttempt sel s = (.tooOld, u) := by
  rw [initAttempt, h]
  exact if_pos hfloor

theorem initAttempt_of_version (h : getVersion s = (.ok v, u)) (hfloor : belowFloor u.cfg v = false) :
    initAttempt sel s = initThen (resetDevice u) fun s => initThen (getFixed s) fun s =>
      initThen (getSerial s) fun s => initThen (getAlgo sel s) fun s => (.done, s) := by
  rw [initAttempt, h]
  exact if_neg (by simp [hfloor])

theorem initAttempt_of_reset_failed {e : CtrlError} {t : State} (h : getVersion s = (.ok v, u))
    (hfloor : belowFloor u.cfg v = false) (hreset : resetDevice u = (.error e, t)) : initAttempt sel s = (.failed e, t) := by
  rw [initAttempt_of_version h hfloor, hreset]
  rfl

theorem initAttempt_of_done {t₁ t₂ t₃ t₄ : State} (h : getVersion s = (.ok v, u)) (hfloor : belowFloor u.cfg v = false)
    (hreset : resetDevice u = (.ok (), t₁)) (hfixed : getFixed t₁ = (.ok (), t₂)) (hserial : getSerial t₂ = (.ok (), t₃))
    (halgo : getAlgo sel t₃ = (.ok (), t₄)) : initAttempt sel s = (.done, t₄) := by
  rw [initAttempt_of_version h hfloor, hreset]
  dsimp only [initThen]
  rw [hfixed]
  dsimp only [initThen]
  rw [hserial]
  dsimp only [initThen]
  rw [halgo]

end Attempt

/-- The state after an attempt with every exchange answered: the sequence's requests, one ID each, and the records. -/
def broughtUp (s : State) (sel serial : List Byte) (v : Version) (fixed algo : List (List Byte)) (ws : List Bool)
    (rest : List (Option (List Byte))) (id' : Half) : State :=
  { s with
    cc := { s.cc with reqId := id' + 1 + BitVec.ofNat 16 algo.length }
    env := { s.env with
      writeAnswers := ws, readAnswers := rest, reads := s.env.reads + 3 + fixed.length + algo.length
      sent := s.env.sent
        ++ [putLe16 (reqBytes s.cfg s.cfg.opGetVersion []) 6 s.cc.reqId,
            putLe16 (reqBytes s.cfg s.cfg.opSetMode (putHalf s.cfg.modeKnown)) 6 (s.cc.reqId + 1)]
        ++ pageRequests s.cfg s.cfg.opGetFixed [] (s.cc.reqId + 2) 0 fixed
        ++ [putLe16 (reqBytes s.cfg s.cfg.opGetSerial []) 6 id']
        ++ pageRequests s.cfg s.cfg.opGetAlgo sel (id' + 1) 0 algo }
    dh := { s.dh with
      version := v
      fixed := fixed.flatten.take s.cfg.fixedSize, fixedLen := (fixed.flatten.take s.cfg.fixedSize).length
      algo := algo.flatten.take s.cfg.algoSize, algoLen := (algo.flatten.take s.cfg.algoSize).length
      serial := serial.take s.cfg.serialMax ++ [0] } }

theorem replicate_bringUp (n m : Nat) :
    List.replicate (3 + n + m) true = true :: true :: (List.replicate n true ++ true :: List.replicate m true) := by
  have hsum : 3 + n + m = (n + (m + 1)) + 1 + 1 := by omega
  rw [hsum, List.replicate_succ, List.replicate_succ, List.replicate_add, List.replicate_succ]

/-- The sequence, every exchange answered (R178). -/
theorem initAttempt_broughtUp {s : State} {sel version serial : List Byte} {v : Version} {fixed algo : List (List Byte)}
    {ws : List Bool} {rest : List (Option (List Byte))} {id' : Half} (hlock : s.cc.lock = false)
    (hplain : plainVersion s.cfg version = true) (hv : versionOf s.cfg version v) (hfloor : belowFloor s.cfg v = false)
    (hserial : fitsReply s.cfg serial = true) (hfixed : ∀ p ∈ fixed, fitsReply s.cfg p = true)
    (halgo : ∀ p ∈ algo, fitsReply s.cfg p = true) (hfixedEnd : pagesEnd s.cfg.fixedSize 0 fixed = true)
    (halgoEnd : pagesEnd s.cfg.algoSize 0 algo = true) (hid : id' = s.cc.reqId + 2 + BitVec.ofNat 16 fixed.length)
    (hw : s.env.writeAnswers = List.replicate (3 + fixed.length + algo.length) true ++ ws)
    (hr : s.env.readAnswers =
      some (replyBytes s.cfg s.cfg.opGetVersion s.cc.reqId 0 version)
        :: some (replyBytes s.cfg s.cfg.opSetMode (s.cc.reqId + 1) 0 [])
        :: (pageReplies s.cfg s.cfg.opGetFixed (s.cc.reqId + 2) fixed
          ++ some (replyBytes s.cfg s.cfg.opGetSerial id' 0 serial)
          :: (pageReplies s.cfg s.cfg.opGetAlgo (id' + 1) algo ++ rest))) :
    initAttempt sel s = (.done, broughtUp s sel serial v fixed algo ws rest id') := by
  obtain ⟨-, -, hmax⟩ := fitsReply_iff.1 (plainVersion_iff.1 hplain).1
  have hempty : fitsReply s.cfg [] = true := fitsReply_iff.2 ⟨rfl, by decide, Nat.le_trans (Nat.le_add_right 10 _) hmax⟩
  have htwo : s.cc.reqId + 2 = s.cc.reqId + 1 + 1 := (BitVec.add_assoc s.cc.reqId 1 1).symm
  rw [replicate_bringUp, List.cons_append, List.cons_append, List.append_assoc, List.cons_append] at hw
  rw [htwo] at hr hid
  subst hid
  have hrun := initAttempt_of_done (sel := sel) (getVersion_of_plain hlock hplain hv hw hr) hfloor
    (resetDevice_of_ok (exchange_of_accepted hlock hempty rfl rfl))
    (getFixed_of_ok (pagedRead_of_pagesEnd hlock ⟨hfixed, rfl, rfl⟩ hfixedEnd))
    (getSerial_of_ok (exchange_of_accepted hlock hserial rfl rfl))
    (getAlgo_of_ok (pagedRead_of_pagesEnd hlock ⟨halgo, rfl, rfl⟩ halgoEnd))
  rw [hrun]
  have hreads : s.env.reads + 1 + 1 + fixed.length + 1 + algo.length = s.env.reads + 3 + fixed.length + algo.length := by
    omega
  simp only [broughtUp, afterPages, exchanged, State.setVersion, State.setFixed, State.setAlgo, htwo, hreads,
    List.append_assoc, List.cons_append, List.nil_append]

/-! ### Failed attempts -/

/-- The state after the failed attempts. -/
def afterFailures (s : State) (v : Version) (version : List Byte) (failures : List (Option Half)) (ws : List Bool)
    (rest : List (Option (List Byte))) : State :=
  { s with
    cc := { s.cc with reqId := failId s.cc.reqId failures, events := s.cc.events ++ failEvents failures }
    env := { s.env with
      writeAnswers := ws, readAnswers := rest
      reads := s.env.reads + (failReplies s.cfg version s.cc.reqId failures).length
      sent := s.env.sent ++ failRequests s.cfg s.cc.reqId failures }
    dh := if failures.all Option.isNone then s.dh else { s.dh with version := v } }

/-- The error of the latest attempt. -/
def failCause (last : InitCause) : List (Option Half) → InitCause
  | [] => last
  | f :: r => failCause (.error (failError f)) r

theorem failCause_of_getLast? {failures : List (Option Half)} {f : Option Half} (h : failures.getLast? = some f)
    (last : InitCause) : failCause last failures = .error (failError f) := by
  induction failures generalizing last with
  | nil => cases h
  | cons g r ih =>
    cases r with
    | nil => cases h; rfl
    | cons g' r' => exact ih (by rwa [List.getLast?_cons_cons] at h) (.error (failError g))

section Failures

variable {s : State} {sel version : List Byte} {v : Version} {ws : List Bool} {rest : List (Option (List Byte))}

/-- The write of the version request fails. -/
theorem initAttempt_of_write_failed (hlock : s.cc.lock = false) (hw : s.env.writeAnswers = false :: ws) :
    initAttempt sel s =
      (.failed .transport, exchanged s (reqBytes s.cfg s.cfg.opGetVersion []) ws s.env.readAnswers 0) :=
  initAttempt_of_error (getVersion_of_error (exchange_of_write_failed hlock hw))

/-- The state after a version request that is answered. -/
def versionRead (s : State) (v : Version) (ws : List Bool) (rest : List (Option (List Byte))) : State :=
  (exchanged s (reqBytes s.cfg s.cfg.opGetVersion []) ws rest 1).setVersion v

/-- The state after a CC.RESET that the device answers with the status `st`. -/
def resetRefused (s : State) (st : Half) (ws : List Bool) (rest : List (Option (List Byte))) : State :=
  (exchanged s (reqBytes s.cfg s.cfg.opSetMode (putHalf s.cfg.modeKnown)) ws rest 1).logProtocol (.status st)

/-- The version is read, then the device answers CC.RESET with an error status. -/
theorem initAttempt_of_status {st : Half} (hlock : s.cc.lock = false) (hplain : plainVersion s.cfg version = true)
    (hv : versionOf s.cfg version v) (hfloor : belowFloor s.cfg v = false) (hst : st ≠ 0)
    (hw : s.env.writeAnswers = true :: true :: ws)
    (hr : s.env.readAnswers = some (replyBytes s.cfg s.cfg.opGetVersion s.cc.reqId 0 version)
      :: some (replyBytes s.cfg s.cfg.opSetMode (s.cc.reqId + 1) st []) :: rest) :
    initAttempt sel s =
      (.failed (.protocol (.status st)),
        resetRefused (versionRead s v (true :: ws) (some (replyBytes s.cfg s.cfg.opSetMode (s.cc.reqId + 1) st []) :: rest))
          st ws rest) := by
  obtain ⟨-, -, hmax⟩ := fitsReply_iff.1 (plainVersion_iff.1 hplain).1
  have hempty : fitsReply s.cfg [] = true := fitsReply_iff.2 ⟨rfl, by decide, Nat.le_trans (Nat.le_add_right 10 _) hmax⟩
  refine initAttempt_of_reset_failed (getVersion_of_plain hlock hplain hv hw hr) hfloor (resetDevice_of_error ?_)
  refine (exchange_of_replyBytes (op := s.cfg.opSetMode)
    (s := versionRead s v (true :: ws) (some (replyBytes s.cfg s.cfg.opSetMode (s.cc.reqId + 1) st []) :: rest))
    hlock hempty rfl rfl).trans ?_
  rw [if_pos hst]
  rfl

/-- The loop after the failed attempts (R178). -/
theorem initLoop_of_failures {failures : List (Option Half)} (n : Nat) (last : InitCause) (hlock : s.cc.lock = false)
    (hplain : plainVersion s.cfg version = true) (hv : versionOf s.cfg version v) (hfloor : belowFloor s.cfg v = false)
    (hst : ∀ st, some st ∈ failures → st ≠ 0) (hw : s.env.writeAnswers = failWrites failures ++ ws)
    (hr : s.env.readAnswers = failReplies s.cfg version s.cc.reqId failures ++ rest) :
    initLoop sel (failures.length + n) last s =
      initLoop sel n (failCause last failures) (afterFailures s v version failures ws rest) := by
  induction failures generalizing s last with
  | nil =>
    have hw' : s.env.writeAnswers = ws := hw
    have hr' : s.env.readAnswers = rest := hr
    rw [List.length_nil, Nat.zero_add, afterFailures, ← hw', ← hr']
    simp [failCause, failId, failEvents, failReplies, failRequests]
  | cons f r ih =>
    have hst' : ∀ st, some st ∈ r → st ≠ 0 := fun st h => hst st (List.mem_cons_of_mem f h)
    rw [List.length_cons, Nat.add_right_comm, initLoop_succ]
    cases f with
    | none =>
      rw [initAttempt_of_write_failed hlock hw]
      refine (ih (s := exchanged s _ (failWrites r ++ ws) _ 0) (.error .transport) hlock hplain hv hfloor hst' rfl hr).trans
        ?_
      congr 1
      simp [afterFailures, exchanged, failId, failEvents, failReplies, failRequests]
    | some st =>
      have htwo : s.cc.reqId + 2 = s.cc.reqId + 1 + 1 := (BitVec.add_assoc s.cc.reqId 1 1).symm
      rw [initAttempt_of_status hlock hplain hv hfloor (hst st List.mem_cons_self) hw hr]
      refine (ih (s := resetRefused (versionRead s v _ _) st (failWrites r ++ ws)
        (failReplies s.cfg version (s.cc.reqId + 2) r ++ rest)) (.error (.protocol (.status st))) hlock hplain hv hfloor hst'
        rfl (by rw [htwo]; rfl)).trans ?_
      congr 1
      have hsum : s.cc.reqId + 1#16 + 1#16 = s.cc.reqId + 2#16 := htwo.symm
      simp [afterFailures, resetRefused, versionRead, State.setVersion, State.logProtocol, exchanged, failId, failEvents,
        failReplies, failRequests, hsum]
      omega

/-- CC.INIT whose attempt after the failed ones is its last. -/
theorem exec_ccInit_of_attempt {failures : List (Option Half)} {o : InitOutcome} {u : State} {r : OpResult}
    (hlock : s.cc.lock = false) (hsel : selShape s.cfg sel = true) (hplain : plainVersion s.cfg version = true)
    (hv : versionOf s.cfg version v) (hfloor : belowFloor s.cfg v = false) (hst : ∀ st, some st ∈ failures → st ≠ 0)
    (hretries : failures.length < s.cfg.initRetries) (hw : s.env.writeAnswers = failWrites failures ++ ws)
    (hr : s.env.readAnswers = failReplies s.cfg version s.cc.reqId failures ++ rest)
    (hlast : initAttempt sel (afterFailures s v version failures ws rest) = (o, u))
    (hfinish : ∀ n, initFinish sel n (o, u) = (r, u)) : exec (.ccInit sel) s = .next (u.answer r) := by
  obtain ⟨n, hn⟩ := Nat.exists_eq_add_of_lt hretries
  refine exec_ccInit_of_loop hlock hsel ?_
  rw [hn, Nat.add_assoc, initLoop_of_failures (n + 1) _ hlock hplain hv hfloor hst hw hr, initLoop_succ, hlast, hfinish]

end Failures

/-- Past the version record, the failed attempts leave the Device Handle alone. -/
theorem afterFailures_dh (s : State) (v w : Version) (version : List Byte) (failures : List (Option Half)) (ws : List Bool)
    (rest : List (Option (List Byte))) :
    { (afterFailures s v version failures ws rest).dh with version := w } = { s.dh with version := w } := by
  show { (if failures.all Option.isNone then s.dh else { s.dh with version := v }) with version := w } = _
  split <;> rfl

theorem afterFailures_cal (s : State) (v : Version) (version : List Byte) (failures : List (Option Half)) (ws : List Bool)
    (rest : List (Option (List Byte))) : (afterFailures s v version failures ws rest).dh.cal = s.dh.cal := by
  show (if failures.all Option.isNone then s.dh else { s.dh with version := v }).cal = s.dh.cal
  split <;> rfl

/-- Settles O56: how the loop ends, its steps alone, one resumption, and the loop after its failed attempts. -/
theorem initRunsTheBringUpSequence : Obligations.InitRunsTheBringUpSequence := by
  intro s sel hlock hsel
  refine ⟨?_, run_invoked_init hlock hsel, fun pre post left phase rest hs hcalls => step_resumed_init hlock hs hcalls, ?_⟩
  · have hresult := initLoop_result sel s.cfg.initRetries .noAttempt s
    obtain ⟨cc, env, dh, hframe, hcal, hfree⟩ := initLoop_frame sel s.cfg.initRetries .noAttempt s
    have hexec := exec_ccInit hlock hsel
    rw [hframe] at hexec
    exact ⟨_, _, hexec, rfl, hresult, hfree hlock, rfl, rfl, rfl, rfl, hcal, rfl⟩
  intro version serial old fixed algo failures ws rest id id' v w sent hlen hplain hv hfloor hst hid hsent
  subst hid hsent
  refine ⟨fun hretries hserial hfixed halgo hfixedEnd halgoEnd hid hw hr => ?_,
    fun hretries hold hw' hbelow hw hr => ?_, fun last hlast hretries hw hr => ?_⟩
  · rw [List.append_assoc] at hw
    simp only [List.append_assoc, List.cons_append, List.nil_append] at hr
    rw [exec_ccInit_of_attempt hlock hsel hplain hv hfloor hst hretries hw hr
      (initAttempt_broughtUp hlock hplain hv hfloor hserial hfixed halgo hfixedEnd halgoEnd hid rfl rfl) (fun _ => rfl)]
    simp only [broughtUp, afterFailures_cal]
    rfl
  · rw [exec_ccInit_of_attempt hlock hsel hplain hv hfloor hst hretries hw hr
      (initAttempt_of_tooOld (getVersion_of_plain hlock hold hw' rfl rfl) hbelow) (fun _ => rfl)]
    rw [State.setVersion, exchanged, afterFailures_dh]
    rfl
  · refine exec_ccInit_of_loop hlock hsel ?_
    rw [← hretries, ← Nat.add_zero failures.length, initLoop_of_failures 0 _ hlock hplain hv hfloor hst hw hr, initLoop,
      failCause_of_getLast? hlast]
    rfl

end Sys2Proof.Proofs.BringUp
end


section
/-! PROOFS. The lookup table and the depth codec's operations (43_depth_codec.md). -/

namespace Sys2Proof.Proofs.Depth

open Sys2Proof.Machine Sys2Proof.Safety Sys2Proof.Proofs.Steps Sys2Proof.Proofs.Samples

/-! ### The table (R241 to R244) -/

section Table

variable {l : Lut} {α : Type}

theorem eraseCell_of_lookup_none {a : Nat} {m : List (Nat × α)} (h : lookupCell a m = none) : eraseCell a m = m := by
  induction m with
  | nil => rfl
  | cons x r ih =>
    obtain ⟨b, w⟩ := x
    rw [lookupCell] at h
    split at h
    · cases h
    · rw [eraseCell, if_neg ‹_›, ih h]

theorem insertCell_of_lookup {a : Nat} {v : α} {m : List (Nat × α)} (hm : Rising m) (h : lookupCell a m = some v) :
    insertCell a v m = m := by
  induction m with
  | nil => cases h
  | cons x r ih =>
    obtain ⟨b, w⟩ := x
    obtain ⟨hb, hr⟩ := List.pairwise_cons.1 hm
    rw [lookupCell] at h
    split at h
    · rename_i heq
      cases h
      rw [insertCell, if_neg (by omega), if_pos heq, heq]
    · rename_i hne
      have hlt : ¬ a < b := fun hlt => by
        rw [lookup_none_of_lt fun y hy => Nat.lt_trans hlt (hb y hy)] at h
        cases h
      rw [insertCell, if_neg hlt, if_neg hne, ih hr h]

theorem mem_of_lookup {a : Nat} {v : α} {m : List (Nat × α)} (h : lookupCell a m = some v) : (a, v) ∈ m := by
  induction m with
  | nil => cases h
  | cons x r ih =>
    obtain ⟨b, w⟩ := x
    rw [lookupCell] at h
    split at h
    · rename_i heq
      cases h
      rw [heq]
      exact List.mem_cons_self
    · exact List.mem_cons_of_mem _ (ih h)

/-- Writing the value that an entry has leaves a table in canonical form as it is. -/
theorem write_read (hl : l.wf) (c : Nat) : l.write c (l.read c) = l := by
  cases hfind : lookupCell c l with
  | none =>
    have hread : l.read c = 0 := by rw [Lut.read, hfind]; rfl
    rw [hread, Lut.write, if_pos rfl, eraseCell_of_lookup_none hfind]
  | some v =>
    have hread : l.read c = v := by rw [Lut.read, hfind]; rfl
    rw [hread, Lut.write, if_neg (hl.2 _ (mem_of_lookup hfind)).1, insertCell_of_lookup hl.1 hfind]

/-- The first `n` writes of LUT.BUILD. -/
def fillTo (c : Cfg) (cal : Cal) (l : Lut) (n : Nat) : Lut :=
  (List.range n).foldl (fun l i => Lut.write l i (lutEntry c i cal)) l

theorem lutFill_eq (c : Cfg) (cal : Cal) (l : Lut) : lutFill c cal l = fillTo c cal l Config.lutSize := rfl

variable {c : Cfg} {cal : Cal}

theorem fillTo_zero : fillTo c cal l 0 = l := rfl

theorem fillTo_succ (n : Nat) : fillTo c cal l (n + 1) = (fillTo c cal l n).write n (lutEntry c n cal) := by
  rw [fillTo, List.range_succ, List.foldl_append]
  rfl

theorem fillTo_wf (hl : l.wf) {n : Nat} (hn : n ≤ Config.lutSize) : (fillTo c cal l n).wf := by
  induction n with
  | zero => exact hl
  | succ n ih =>
    rw [fillTo_succ]
    exact Lut.write_wf (ih (Nat.le_of_succ_le hn)) hn

/-- Each entry written so far is LutEntry of its index. -/
theorem fillTo_read (hl : l.wf) {n : Nat} (hn : n ≤ Config.lutSize) {i : Nat} (hi : i < n) :
    (fillTo c cal l n).read i = lutEntry c i cal := by
  induction n with
  | zero => exact absurd hi (Nat.not_lt_zero i)
  | succ n ih =>
    rw [fillTo_succ]
    by_cases h : i = n
    · subst h
      exact Lut.read_write_same (fillTo_wf hl (Nat.le_of_succ_le hn)) i _
    · rw [Lut.read_write_other _ _ h]
      exact ih (Nat.le_of_succ_le hn) (by omega)

/-- A table whose entries are those of the build already is built by no write. -/
theorem fillTo_of_read (hl : l.wf) {n : Nat} (h : ∀ i, i < n → l.read i = lutEntry c i cal) : fillTo c cal l n = l := by
  induction n with
  | zero => rfl
  | succ n ih =>
    rw [fillTo_succ, ih fun i hi => h i (by omega), ← h n (Nat.lt_succ_self n), write_read hl]

/-- A second build changes nothing. -/
theorem lutFill_lutFill (hl : l.wf) : lutFill c cal (lutFill c cal l) = lutFill c cal l := by
  rw [lutFill_eq c cal l, lutFill_eq]
  exact fillTo_of_read (fillTo_wf hl (Nat.le_refl _)) fun i hi => fillTo_read hl (Nat.le_refl _) hi

end Table

theorem withTable_eq (s : State) (l : Lut) :
    withTable s l = { s with dc := { s.dc with lut := (withTable s l).dc.lut, lutValid := true } } := rfl

theorem withTable_withTable (s : State) (l m : Lut) : withTable (withTable s l) m = withTable s m := rfl

theorem exec_lutBuild_of_disabled {s : State} (h : s.depth.enabled = false) :
    exec .lutBuild s = .next (withTable s (lutFill s.cfg s.dh.cal s.dc.lut)) := by
  show execLutBuild s = _
  rw [execLutBuild, h]
  rfl

/-- Settles O16: the table after the writes is LutEntry at every index, which a second build writes again. -/
theorem lutBuildFillsTheTable : Obligations.LutBuildFillsTheTable := by
  intro s
  refine ⟨fun hoff hwf => ?_, fun hon => ?_⟩
  · have hoff' : (withTable s (lutFill s.cfg s.dh.cal s.dc.lut)).depth.enabled = false := by
      rw [show (withTable s (lutFill s.cfg s.dh.cal s.dc.lut)).depth = s.depth from withTable_ep s _ .depth, hoff]
    obtain ⟨hcfg, -, -, -, hdh, -⟩ := withTable_session s (lutFill s.cfg s.dh.cal s.dc.lut)
    refine ⟨_, exec_lutBuild_of_disabled hoff, withTable_eq s _, fun i hi => ?_, ?_⟩
    · rw [lutAt, withTable_lut, lutFill_eq]
      exact fillTo_read hwf (Nat.le_refl _) hi
    · rw [exec_lutBuild_of_disabled hoff', withTable_withTable, withTable_lut, hcfg, hdh, lutFill_lutFill hwf]
  · show execLutBuild s = _
    rw [execLutBuild, hon]
    rfl

/-- Settles O17: the last test of the formula. -/
theorem lutEntriesPassTheRangeCheck : Obligations.LutEntriesPassTheRangeCheck := by
  intro c i cal v hmax h
  simp only [lutFormula, Option.bind_eq_bind, Option.bind_eq_some_iff] at h
  obtain ⟨u, -, x, -, y, -, z, -, m, -, den, -, h⟩ := h
  by_cases hden : den = 0
  · rw [if_pos hden] at h
    exact .inl (Option.some.inj h).symm
  · rw [if_neg hden] at h
    simp only [Option.bind_eq_some_iff] at h
    obtain ⟨n1, -, scale, -, num, -, d, -, h⟩ := h
    by_cases hrange : d.toInt < 0 ∨ (c.maxDepth : Int) ≤ d.toInt
    · rw [if_pos hrange] at h
      exact .inl (Option.some.inj h).symm
    · rw [if_neg hrange] at h
      rw [← Option.some.inj h, BitVec.toNat_setWidth]
      rw [BitVec.toInt_eq_toNat_cond] at hrange
      right
      split at hrange <;> omega

/-! ### A unit's codes (R115) -/

/-- Bit `i` of a unit: the last byte's bits are the lowest (R114). -/
theorem unitOfBytes_getLsbD (bytes : List Byte) (i : Nat) (hi : i < 88) :
    (unitOfBytes bytes).getLsbD i = (bytes.reverse.getD (i / 8) 0).getLsbD (i % 8) := by
  induction bytes using List.reverseRecOn generalizing i with
  | nil => simp [unitOfBytes]
  | append_singleton xs b ih =>
    have hstep : unitOfBytes (xs ++ [b]) = unitOfBytes xs <<< (8 : Nat) ||| b.setWidth 88 := by simp [unitOfBytes]
    rw [hstep, BitVec.getLsbD_or, BitVec.getLsbD_shiftLeft, BitVec.getLsbD_setWidth, List.reverse_append,
      List.reverse_singleton, List.singleton_append]
    by_cases h : i < 8
    · simp [h, hi, Nat.div_eq_of_lt h, Nat.mod_eq_of_lt h]
    · obtain ⟨k, rfl⟩ := Nat.exists_eq_add_of_le' (Nat.le_of_not_lt h)
      simp [hi, ih k (by omega)]

theorem unitCode_getLsbD (u : DepthUnit) (j i : Nat) (hi : i < 11) :
    (unitCode u j).getLsbD i = u.getLsbD (77 - 11 * j + i) := by
  simp [unitCode, hi]

/-- Settles O19: the eleven bits of each code, one by one. -/
theorem unitCodesAsByteArithmetic : Obligations.UnitCodesAsByteArithmetic := by
  intro u0 u1 u2 u3 u4 u5 u6 u7 u8 u9 u10 u z
  refine ⟨?_, ?_, ?_, ?_, ?_, ?_, ?_, ?_⟩ <;> apply BitVec.eq_of_getLsbD_eq <;> intro i hi <;>
    rw [unitCode_getLsbD _ _ _ hi, unitOfBytes_getLsbD _ _ (by omega)] <;> interval_cases i <;> simp [z]

/-! ### Bytes written into the held buffer (R78) -/

/-- From `ep`, that held the buffer `ab`, to `ep'` exactly the bytes that fit have been written at the cursor. -/
def Wrote (ep : Ep) (ab : ActiveBuf) (bytes : List Byte) (ep' : Ep) : Prop :=
  ∃ m evs, ep' = { ep with
      active := some { ab with mem := m }, cursor := min (ep.cursor + bytes.length) ep.imageSize, events := evs }
    ∧ (∀ a, m.read a =
        if ep.cursor ≤ a ∧ a < min (ep.cursor + bytes.length) ep.imageSize then bytes[a - ep.cursor]? else ab.mem.read a)
    ∧ (ep.cursor + bytes.length ≤ ep.imageSize → evs = ep.events)

section Written

variable {ep ep' : Ep} {ab : ActiveBuf} {bytes : List Byte}

theorem Wrote.nil (hact : ep.active = some ab) (hcur : ep.cursor ≤ ep.imageSize) : Wrote ep ab [] ep := by
  refine ⟨ab.mem, ep.events, ?_, fun a => ?_, fun _ => rfl⟩
  · rw [List.length_nil, Nat.add_zero, Nat.min_eq_left hcur, ← hact]
  · rw [if_neg (by simp only [List.length_nil, Nat.add_zero]; omega)]

theorem bufWrite_wrote (hact : ep.active = some ab) (hcur : ep.cursor ≤ ep.imageSize) (bytes : List Byte) :
    Wrote ep ab bytes (ep.bufWrite bytes) := by
  obtain ⟨m, hwrite, hread⟩ := bufWriteClipsAtTheImageSize ep ab bytes hact hcur
  refine ⟨m, _, hwrite, hread, fun hfits => ?_⟩
  rw [if_neg (Nat.not_lt.2 hfits), List.append_nil]

/-- What has been written is in the buffer that is held still. -/
theorem Wrote.holds (h : Wrote ep ab bytes ep') :
    ∃ ab', ep'.active = some ab' ∧ ab'.buf = ab.buf ∧ ep'.cursor ≤ ep'.imageSize ∧ ep'.imageSize = ep.imageSize := by
  obtain ⟨m, evs, rfl, -, -⟩ := h
  exact ⟨_, rfl, rfl, Nat.min_le_right _ _, rfl⟩

/-- Two writes one after the other are one of the strings joined. -/
theorem Wrote.trans {ep'' : Ep} {ab' : ActiveBuf} {more : List Byte} (h : Wrote ep ab bytes ep')
    (hact : ep'.active = some ab') (k : Wrote ep' ab' more ep'') : Wrote ep ab (bytes ++ more) ep'' := by
  obtain ⟨m, evs, rfl, hread, hquiet⟩ := h
  cases hact
  obtain ⟨m', evs', rfl, hread', hquiet'⟩ := k
  dsimp only at hread' hquiet'
  have hcursor : min (min (ep.cursor + bytes.length) ep.imageSize + more.length) ep.imageSize
      = min (ep.cursor + (bytes ++ more).length) ep.imageSize := by
    rw [List.length_append]
    omega
  refine ⟨m', evs', by rw [← hcursor], fun a => ?_, fun hfits => ?_⟩
  · rw [hread' a, hread a, hcursor, List.length_append]
    by_cases hnew : min (ep.cursor + bytes.length) ep.imageSize ≤ a
        ∧ a < min (ep.cursor + (bytes.length + more.length)) ep.imageSize
    · rw [if_pos hnew, if_pos (by omega), List.getElem?_append_right (by omega)]
      congr 1
      omega
    · rw [if_neg hnew]
      by_cases hold : ep.cursor ≤ a ∧ a < min (ep.cursor + bytes.length) ep.imageSize
      · rw [if_pos hold, if_pos (by omega), List.getElem?_append_left (by omega)]
      · rw [if_neg hold, if_neg (by omega)]
  · rw [List.length_append] at hfits
    rw [hquiet' (by omega), hquiet (by omega)]

/-- Writes in order are one of their strings joined. -/
theorem foldl_bufWrite_wrote {α : Type} (hact : ep.active = some ab) (hcur : ep.cursor ≤ ep.imageSize) (f : α → List Byte)
    (js : List α) : Wrote ep ab (js.flatMap f) (js.foldl (fun ep j => ep.bufWrite (f j)) ep) := by
  induction js using List.reverseRecOn with
  | nil => exact Wrote.nil hact hcur
  | append_singleton js j ih =>
    obtain ⟨ab', hact', -, hcur', -⟩ := ih.holds
    rw [List.foldl_append, List.flatMap_append, List.flatMap_singleton]
    exact ih.trans hact' (bufWrite_wrote hact' hcur' _)

theorem padBytes_length (n : Half) : (padBytes n).length = 2 * n.toNat := List.length_replicate

theorem padBytes_getElem? {n : Half} {a : Nat} (h : a < 2 * n.toNat) : (padBytes n)[a]? = some 0 :=
  List.getElem?_replicate_of_lt h

end Written

/-! ### Padding (R245, R250) -/

theorem exec_dcStart (s : State) : exec .dcStart s = .next (dcStart s) := rfl

theorem exec_dcEnd (s : State) : exec .dcEnd s = .next (dcEnd s) := rfl

theorem dcStart_of_active {s : State} {ab : ActiveBuf} (h : s.depth.active = some ab) :
    dcStart s = { s with
      depth := Ep.bufWrite { s.depth with cursor := 0 } (padBytes s.depth.padStart), dc := { s.dc with carryLen := 0 } } :=
  if_pos (holdsBuffer_of_active h)

theorem dcEnd_of_active {s : State} {ab : ActiveBuf} (h : s.depth.active = some ab) :
    dcEnd s = { s with
      depth := Ep.complete (Ep.bufWrite s.depth (padBytes s.depth.padEnd)) .ok, dc := { s.dc with carryLen := 0 } } :=
  if_pos (holdsBuffer_of_active h)

theorem depth_hooks_of_none {s : State} (h : s.depth.active = none) (bytes : List Byte) :
    exec .dcStart s = .next s ∧ exec (.dcData bytes) s = .next s ∧ exec .dcEnd s = .next s := by
  have hfree : s.depth.holdsBuffer = false := holdsBuffer_of_none h
  refine ⟨congrArg Host.Outcome.next (if_neg ?_), congrArg Host.Outcome.next (if_neg ?_),
    congrArg Host.Outcome.next (if_neg ?_)⟩ <;> simp [hfree]

/-- Settles O21: one BufWrite of the padding from offset 0. -/
theorem dcStartWritesTheStartPadding : Obligations.DcStartWritesTheStartPadding := by
  intro s
  refine ⟨fun hnone => (depth_hooks_of_none hnone []).1, fun ab hact => ?_⟩
  obtain ⟨m, hwrite, hread⟩ := bufWriteClipsAtTheImageSize { s.depth with cursor := 0 } ab (padBytes s.depth.padStart) hact
    (Nat.zero_le _)
  rw [exec_dcStart, dcStart_of_active hact]
  refine ⟨_, rfl, ?_, ?_, ?_, ?_, fun a => ?_⟩ <;> dsimp only <;> rw [hwrite]
  · rfl
  · simp only [padBytes_length, Nat.zero_add]
  · simp only [padBytes_length, Nat.zero_add]
  · rw [bufByte_of_active (ab := { ab with mem := m }) rfl, bufByte_of_active (s := s) (e := .depth) hact, hread a]
    simp only [padBytes_length, Nat.zero_add, Nat.sub_zero, Nat.zero_le, true_and]
    split
    · exact padBytes_getElem? (by omega)
    · rfl

/-- Settles O25: one BufWrite of the padding at the cursor, then Complete. -/
theorem dcEndCompletesTheFrame : Obligations.DcEndCompletesTheFrame := by
  intro s
  refine ⟨fun hnone => (depth_hooks_of_none hnone []).2.2, fun ab hact hcur => ?_⟩
  obtain ⟨m, hwrite, hread⟩ := bufWriteClipsAtTheImageSize s.depth ab (padBytes s.depth.padEnd) hact hcur
  refine ⟨m, ?_, fun a => ?_⟩
  · rw [exec_dcEnd, dcEnd_of_active hact, hwrite]
    simp only [Ep.complete, padBytes_length]
  · rw [hread a, padBytes_length]
    split
    · exact padBytes_getElem? (by omega)
    · rfl

/-! ### A unit's eight samples (R248) -/

section Unit

variable {ep ep' : Ep} {ab : ActiveBuf} {bytes : List Byte}

theorem Wrote.frame (h : Wrote ep ab bytes ep') :
    ep' = { ep with active := ep'.active, cursor := ep'.cursor, events := ep'.events } := by
  obtain ⟨m, evs, rfl, -, -⟩ := h
  rfl

/-- Outside the bytes written every byte stays. -/
theorem Wrote.outside (h : Wrote ep ab bytes ep') (hact : ep.active = some ab) {a : Nat}
    (ha : a < ep.cursor ∨ ep'.cursor ≤ a) :
    (ep'.active.bind fun ab => ab.mem.read a) = ep.active.bind fun ab => ab.mem.read a := by
  obtain ⟨m, evs, rfl, hread, -⟩ := h
  rw [hact]
  dsimp only at ha
  show m.read a = ab.mem.read a
  rw [hread a, if_neg (by omega)]

/-- The samples of the first `n` lanes. -/
theorem lanes_length (f : Nat → Half) (n : Nat) : ((List.range n).flatMap fun j => putHalf (f j)).length = 2 * n := by
  induction n with
  | zero => rfl
  | succ n ih =>
    rw [List.range_succ, List.flatMap_append, List.length_append, ih, List.flatMap_singleton]
    rfl

theorem lanes_getElem? (f : Nat → Half) {n j : Nat} (h : j < n) :
    ((List.range n).flatMap fun j => putHalf (f j))[2 * j]? = some (loByte (f j))
      ∧ ((List.range n).flatMap fun j => putHalf (f j))[2 * j + 1]? = some (hiByte (f j)) := by
  induction n with
  | zero => exact absurd h (Nat.not_lt_zero j)
  | succ n ih =>
    rw [List.range_succ, List.flatMap_append, List.flatMap_singleton]
    by_cases hj : j = n
    · subst hj
      rw [List.getElem?_append_right (by rw [lanes_length]), List.getElem?_append_right (by rw [lanes_length]; omega),
        lanes_length, Nat.sub_self, Nat.add_sub_cancel_left]
      exact ⟨rfl, rfl⟩
    · obtain ⟨hlo, hhi⟩ := ih (by omega)
      rw [List.getElem?_append_left (by rw [lanes_length]; omega), List.getElem?_append_left (by rw [lanes_length]; omega)]
      exact ⟨hlo, hhi⟩

/-- One OVERFLOW event per clipped lane (R249). -/
theorem lanes_events (hact : ep.active = some ab) (hcur : ep.cursor ≤ ep.imageSize) (f : Nat → Half) (n : Nat) :
    ((List.range n).foldl (fun ep j => ep.bufWrite (putHalf (f j))) ep).events = ep.events ++
      (List.range n).filterMap fun j => if ep.imageSize < ep.cursor + 2 * j + 2 then
        some (.overflow (min 2 (ep.cursor + 2 * j + 2 - ep.imageSize))) else none := by
  induction n with
  | zero => exact (List.append_nil _).symm
  | succ n ih =>
    obtain ⟨m, evs, hep, -, -⟩ := foldl_bufWrite_wrote hact hcur (fun j => putHalf (f j)) (List.range n)
    rw [lanes_length] at hep
    rw [List.range_succ, List.foldl_append, List.filterMap_append, ← List.append_assoc, ← ih, List.foldl_cons, List.foldl_nil]
    generalize (List.range n).foldl (fun ep j => ep.bufWrite (putHalf (f j))) ep = mid at hep
    have hmid : mid.active = some { ab with mem := m } := by rw [hep]
    have hmidcur : mid.cursor = min (ep.cursor + 2 * n) ep.imageSize := by rw [hep]
    have hmidsize : mid.imageSize = ep.imageSize := by rw [hep]
    obtain ⟨_, hwrite, -⟩ := bufWriteClipsAtTheImageSize mid _ (putHalf (f n)) hmid (by omega)
    rw [hwrite]
    have htwo : (putHalf (f n)).length = 2 := rfl
    simp only [htwo, hmidcur, hmidsize, List.filterMap_cons, List.filterMap_nil]
    by_cases hover : ep.imageSize < ep.cursor + 2 * n + 2
    · rw [if_pos (by omega), if_pos hover]
      congr 4
      omega
    · rw [if_neg (by omega), if_neg hover]

end Unit

/-- The sixteen bytes of a unit's samples, in lane order. -/
def unitBytes (l : Lut) (u : DepthUnit) : List Byte := (List.range 8).flatMap fun j => putHalf (l.read (unitCode u j).toNat)

theorem dcUnpack_depth (u : DepthUnit) (s : State) :
    dcUnpack u s = { s with depth := (List.range 8).foldl (fun ep j => ep.bufWrite (putHalf (s.dc.lut.read (unitCode u j).toNat))) s.depth } :=
  rfl

/-- DC.UNPACK writes its unit's samples. -/
theorem dcUnpack_wrote {s : State} {ab : ActiveBuf} (hact : s.depth.active = some ab)
    (hcur : s.depth.cursor ≤ s.depth.imageSize) (u : DepthUnit) :
    dcUnpack u s = { s with depth := (dcUnpack u s).depth }
      ∧ Wrote s.depth ab (unitBytes s.dc.lut u) (dcUnpack u s).depth :=
  ⟨rfl, foldl_bufWrite_wrote hact hcur _ _⟩

theorem exec_dcUnpack {u : DepthUnit} {s : State} {ab : ActiveBuf} (h : s.depth.active = some ab) :
    exec (.dcUnpack u) s = .next (dcUnpack u s) := if_pos (holdsBuffer_of_active h)

/-- Settles O22: the eight writes are one of the samples' bytes, their events one per clipped lane. -/
theorem dcUnpackWritesEightSamples : Obligations.DcUnpackWritesEightSamples := by
  intro s u
  refine ⟨fun hnone => if_neg ?_, fun ab hact hcur => ?_⟩
  · simp [holdsBuffer_of_none hnone]
  · obtain ⟨hframe, hwrote⟩ := dcUnpack_wrote hact hcur u
    have hevents := lanes_events hact hcur (fun j => s.dc.lut.read (unitCode u j).toNat) 8
    refine ⟨dcUnpack u s, exec_dcUnpack hact, ?_, ?_, ?_, hevents, fun j hj hfits => ?_, fun j hj hfits => ?_,
      fun a ha => hwrote.outside hact ha⟩
    · rw [← hwrote.frame]
      exact hframe
    all_goals
      obtain ⟨m, evs, hep, hread, -⟩ := hwrote
      have hlen : (unitBytes s.dc.lut u).length = 16 := lanes_length _ 8
      rw [hlen] at hep hread
    · rw [hep]
      rfl
    · rw [hep]
    · have hnew : ((dcUnpack u s).ep .depth).active = some { ab with mem := m } := congrArg Ep.active hep
      rw [bufByte_of_active hnew, hread, if_pos (by omega), Nat.add_sub_cancel_left]
      exact (lanes_getElem? _ hj).1
    · have hnew : ((dcUnpack u s).ep .depth).active = some { ab with mem := m } := congrArg Ep.active hep
      rw [bufByte_of_active hnew, hread, if_pos (by omega), Nat.add_assoc, Nat.add_sub_cancel_left]
      exact (lanes_getElem? _ hj).2

end Sys2Proof.Proofs.Depth
end


section
/-! PROOFS. DC.DATA (R246, R253): its bytes cut into whole units, and what of them is carried. -/

namespace Sys2Proof.Proofs.Units

open Sys2Proof.Machine Sys2Proof.Safety Sys2Proof.Proofs.Samples Sys2Proof.Proofs.Depth

/-! ### Whole units of a byte string -/

section Whole

variable {p : List Byte} {b : Byte}

theorem wholeUnits_eq (p : List Byte) :
    wholeUnits p = (List.range (p.length / 11)).map fun k => unitOfBytes ((p.drop (11 * k)).take 11) := rfl

/-- The whole units of a string are those of the string with one byte more. -/
theorem take_drop_snoc {k : Nat} (h : k < p.length / 11) (b : Byte) :
    ((p ++ [b]).drop (11 * k)).take 11 = (p.drop (11 * k)).take 11 := by
  rw [List.drop_append_of_le_length (by omega), List.take_append_of_le_length (by rw [List.length_drop]; omega)]

theorem wholeUnits_snoc_of_lt (h : p.length % 11 < 10) : wholeUnits (p ++ [b]) = wholeUnits p := by
  have hcount : (p ++ [b]).length / 11 = p.length / 11 := by rw [List.length_append, List.length_singleton]; omega
  rw [wholeUnits_eq, wholeUnits_eq, hcount]
  exact List.map_congr_left fun k hk => by rw [take_drop_snoc (List.mem_range.1 hk)]

theorem wholeUnits_snoc_of_last (h : p.length % 11 = 10) :
    wholeUnits (p ++ [b]) = wholeUnits p ++ [unitOfBytes (p.drop (11 * (p.length / 11)) ++ [b])] := by
  have hcount : (p ++ [b]).length / 11 = p.length / 11 + 1 := by rw [List.length_append, List.length_singleton]; omega
  have hlast : ((p ++ [b]).drop (11 * (p.length / 11))).take 11 = p.drop (11 * (p.length / 11)) ++ [b] := by
    rw [List.drop_append_of_le_length (by omega)]
    exact List.take_of_length_le (by rw [List.length_append, List.length_drop, List.length_singleton]; omega)
  rw [wholeUnits_eq, wholeUnits_eq, hcount, List.range_succ, List.map_append, List.map_singleton, hlast]
  congr 1
  exact List.map_congr_left fun k hk => by rw [take_drop_snoc (List.mem_range.1 hk)]

theorem wholeUnits_of_short (h : p.length < 11) : wholeUnits p = [] := by
  rw [wholeUnits_eq, Nat.div_eq_of_lt h]
  rfl

theorem wholeUnits_length (p : List Byte) : (wholeUnits p).length = p.length / 11 := by
  rw [wholeUnits_eq, List.length_map, List.length_range]

/-- The samples of a string's whole units, in lane order. -/
def sampleBytes (l : Lut) (p : List Byte) : List Byte := (wholeUnits p).flatMap (unitBytes l)

theorem unitBytes_length (l : Lut) (u : DepthUnit) : (unitBytes l u).length = 16 := lanes_length _ 8

theorem sampleBytes_length (l : Lut) (p : List Byte) : (sampleBytes l p).length = 16 * (p.length / 11) := by
  rw [sampleBytes, List.length_flatMap, ← wholeUnits_length]
  simp only [unitBytes_length, List.map_const', List.sum_replicate, smul_eq_mul]
  omega

end Whole

/-! ### One byte (R246) -/

/-- The bytes carried. -/
def pending (dc : Dc) : List Byte := dc.carry.toList.take dc.carryLen

section Byte

variable {s : State}

theorem pending_length (h : s.dc.carryLen ≤ 11) : (pending s.dc).length = s.dc.carryLen := by
  rw [pending, List.length_take, Vector.length_toList]
  omega

/-- A byte stored right after the first `k` joins them. -/
theorem take_setIfInBounds {n k : Nat} (v : Vector Byte n) (b : Byte) (h : k < n) :
    (v.setIfInBounds k b).toList.take (k + 1) = v.toList.take k ++ [b] := by
  rw [Vector.toList_setIfInBounds, List.take_add_one, List.take_set_of_le (Nat.le_refl _), List.getElem?_set_self
    (by rw [Vector.length_toList]; exact h)]
  rfl

theorem pending_store (b : Byte) (h : s.dc.carryLen < 11) :
    (s.dc.carry.setIfInBounds s.dc.carryLen b).toList.take (s.dc.carryLen + 1) = pending s.dc ++ [b] :=
  take_setIfInBounds _ b h

theorem dcByte_of_lt {b : Byte} (h : s.dc.carryLen < 10) :
    dcByte s b = { s with dc := { s.dc with
      carry := s.dc.carry.setIfInBounds s.dc.carryLen b, carryLen := s.dc.carryLen + 1 } } :=
  if_neg (by simp only [Config.unitLen]; omega)

/-- The eleventh byte completes a unit. -/
theorem dcByte_of_last {b : Byte} (h : s.dc.carryLen = 10) :
    dcByte s b = { dcUnpack (unitOfBytes (pending s.dc ++ [b])) s with
      dc := { s.dc with carry := s.dc.carry.setIfInBounds s.dc.carryLen b, carryLen := 0 } } := by
  have hunit : (s.dc.carry.setIfInBounds s.dc.carryLen b).toList = pending s.dc ++ [b] := by
    rw [← pending_store b (by omega), h]
    exact (List.take_of_length_le (by rw [Vector.length_toList])).symm
  rw [dcByte, if_pos (by rw [h]; rfl), hunit]
  rfl

end Byte

/-! ### Byte after byte -/

/-- From `s`, that held `ab`, the bytes have gone through the carry, and every unit they completed has been written. -/
def Fed (s : State) (ab : ActiveBuf) (bytes : List Byte) (t : State) : Prop :=
  ∃ ep carry, t = { s with
      depth := ep, dc := { s.dc with carry := carry, carryLen := (s.dc.carryLen + bytes.length) % 11 } }
    ∧ Wrote s.depth ab (sampleBytes s.dc.lut (pending s.dc ++ bytes)) ep
    ∧ pending t.dc = (pending s.dc ++ bytes).drop (11 * ((s.dc.carryLen + bytes.length) / 11))

theorem foldl_dcByte_fed {s : State} {ab : ActiveBuf} (hact : s.depth.active = some ab)
    (hcur : s.depth.cursor ≤ s.depth.imageSize) (hcarry : s.dc.carryLen ≤ 10) (bytes : List Byte) :
    Fed s ab bytes (bytes.foldl dcByte s) := by
  have hpending : (pending s.dc).length = s.dc.carryLen := pending_length (by omega)
  induction bytes using List.reverseRecOn with
  | nil =>
    have hshort : (pending s.dc ++ []).length < 11 := by rw [List.append_nil]; omega
    refine ⟨s.depth, s.dc.carry, ?_, ?_, ?_⟩
    · rw [List.length_nil, Nat.add_zero, Nat.mod_eq_of_lt (by omega)]
      rfl
    · rw [sampleBytes, wholeUnits_of_short hshort]
      exact Wrote.nil hact hcur
    · rw [List.length_nil, Nat.add_zero, Nat.div_eq_of_lt (by omega), List.append_nil]
      rfl
  | append_singleton bytes b ih =>
    obtain ⟨ep, carry, hmid, hwrote, hpend⟩ := ih
    have htotal : (pending s.dc ++ bytes).length = s.dc.carryLen + bytes.length := by rw [List.length_append, hpending]
    rw [List.foldl_append, List.foldl_cons, List.foldl_nil]
    generalize bytes.foldl dcByte s = mid at hmid hpend
    have hlen : mid.dc.carryLen = (s.dc.carryLen + bytes.length) % 11 := by rw [hmid]
    have hdepth : mid.depth = ep := by rw [hmid]
    have hlut : mid.dc.lut = s.dc.lut := by rw [hmid]
    have hnext : (s.dc.carryLen + (bytes ++ [b]).length) = s.dc.carryLen + bytes.length + 1 := by
      rw [List.length_append, List.length_singleton, Nat.add_assoc]
    obtain ⟨ab', hact', -, hcur', -⟩ := hwrote.holds
    by_cases hlast : mid.dc.carryLen = 10
    · have hmod : (s.dc.carryLen + bytes.length + 1) % 11 = 0 := by omega
      obtain ⟨-, hunit⟩ := dcUnpack_wrote (s := mid) (by rw [hdepth]; exact hact') (by rw [hdepth]; exact hcur')
        (unitOfBytes (pending mid.dc ++ [b]))
      rw [hdepth, hlut] at hunit
      refine ⟨(dcUnpack (unitOfBytes (pending mid.dc ++ [b])) mid).depth, mid.dc.carry.setIfInBounds mid.dc.carryLen b, ?_, ?_, ?_⟩
      · rw [dcByte_of_last hlast, hnext, hmod, hmid]
        rfl
      · rw [← List.append_assoc, sampleBytes, wholeUnits_snoc_of_last (by rw [htotal]; omega), htotal, ← hpend,
          List.flatMap_append, List.flatMap_singleton]
        exact hwrote.trans hact' hunit
      · rw [dcByte_of_last hlast, hnext, ← List.append_assoc, List.drop_of_length_le]
        · rfl
        · rw [List.length_append, htotal, List.length_singleton]
          omega
    · have hlt : mid.dc.carryLen < 10 := by omega
      refine ⟨ep, mid.dc.carry.setIfInBounds mid.dc.carryLen b, ?_, ?_, ?_⟩
      · have hmod : (s.dc.carryLen + bytes.length + 1) % 11 = (s.dc.carryLen + bytes.length) % 11 + 1 := by omega
        rw [dcByte_of_lt hlt, hnext, hmod, hlen, hmid]
      · rw [← List.append_assoc, sampleBytes, wholeUnits_snoc_of_lt (by rw [htotal]; omega)]
        exact hwrote
      · have hdiv : (s.dc.carryLen + bytes.length + 1) / 11 = (s.dc.carryLen + bytes.length) / 11 := by omega
        rw [dcByte_of_lt hlt, hnext, hdiv, ← List.append_assoc, List.drop_append_of_le_length (by rw [htotal]; omega), ← hpend]
        exact pending_store b (by omega)

theorem exec_dcData {bytes : List Byte} {s : State} {ab : ActiveBuf} (h : s.depth.active = some ab) :
    exec (.dcData bytes) s = .next (bytes.foldl dcByte s) :=
  congrArg Host.Outcome.next (if_pos (holdsBuffer_of_active h))

/-- Settles O23: the counts are those of the bytes carried and delivered. -/
theorem dcDataConsumesWholeUnits : Obligations.DcDataConsumesWholeUnits := by
  intro s bytes
  refine ⟨fun hnone => (depth_hooks_of_none hnone bytes).2.1, fun ab hact hcarry hcur => ?_⟩
  obtain ⟨ep, carry, ht, hwrote, -⟩ := foldl_dcByte_fed hact hcur hcarry bytes
  rw [exec_dcData hact, ht]
  refine ⟨_, rfl, ?_, ?_, rfl, ?_, fun a ha => hwrote.outside hact ha⟩
  · dsimp only
    rw [← hwrote.frame]
  · obtain ⟨ab', hact', hbuf, -⟩ := hwrote.holds
    dsimp only
    rw [hact', ← hbuf]
    rfl
  · obtain ⟨m, evs, hep, -⟩ := hwrote
    dsimp only
    rw [hep, sampleBytes_length, List.length_append, pending_length (by omega)]

/-- Bytes that complete no unit only join the carry. -/
theorem foldl_dcByte_carry {s : State} {bytes : List Byte} (h : s.dc.carryLen + bytes.length ≤ 10) :
    ∃ carry, bytes.foldl dcByte s = { s with dc := { s.dc with carry := carry, carryLen := s.dc.carryLen + bytes.length } }
      ∧ pending (bytes.foldl dcByte s).dc = pending s.dc ++ bytes := by
  induction bytes using List.reverseRecOn with
  | nil => exact ⟨s.dc.carry, rfl, (List.append_nil _).symm⟩
  | append_singleton bytes b ih =>
    rw [List.length_append, List.length_singleton] at h
    obtain ⟨carry, hmid, hpend⟩ := ih (by omega)
    rw [List.foldl_append, List.foldl_cons, List.foldl_nil]
    generalize bytes.foldl dcByte s = mid at hmid hpend
    have hlen : mid.dc.carryLen = s.dc.carryLen + bytes.length := by rw [hmid]
    rw [dcByte_of_lt (by omega), ← List.append_assoc, ← hpend, List.length_append, List.length_singleton]
    refine ⟨mid.dc.carry.setIfInBounds mid.dc.carryLen b, ?_, pending_store b (by omega)⟩
    rw [hlen, hmid]
    rfl

/-- Settles O24: all bytes but the last join the carry, the last completes the unit. -/
theorem dcDataUnpacksACompletedUnit : Obligations.DcDataUnpacksACompletedUnit := by
  intro s ab bytes hact hlen hne
  obtain ⟨xs, b, rfl⟩ := (List.eq_nil_or_concat' bytes).resolve_left hne
  rw [List.length_append, List.length_singleton] at hlen
  obtain ⟨carry, hmid, hpend⟩ := foldl_dcByte_carry (s := s) (bytes := xs) (by omega)
  have hten : (xs.foldl dcByte s).dc.carryLen = 10 := by
    rw [hmid]
    show s.dc.carryLen + xs.length = 10
    omega
  refine ⟨_, (xs.foldl dcByte s).dc.carry.setIfInBounds (xs.foldl dcByte s).dc.carryLen b, exec_dcUnpack hact, ?_⟩
  rw [exec_dcData hact, List.foldl_append, List.foldl_cons, List.foldl_nil, dcByte_of_last hten, hpend, hmid,
    ← List.append_assoc]
  rfl

end Sys2Proof.Proofs.Units
end


section
/-! PROOFS. Packets on the wire (R110, R202 to R213): a packet fed byte by byte to an endpoint that looks for the marker. -/

namespace Sys2Proof.Proofs.Wire

open Sys2Proof.Machine Sys2Proof.Safety Sys2Proof.Proofs.Sides Sys2Proof.Proofs.Buffers Sys2Proof.Proofs.Packets
  Sys2Proof.Proofs.Reassembler Sys2Proof.Proofs.Encoding Sys2Proof.Proofs.Units

/-! ### Header bytes -/

section Header

variable {e : Endpoint} {s : State}

theorem withEp_withEp (s : State) (e : Endpoint) (a b : Ep) : (s.withEp e a).withEp e b = s.withEp e b := by
  cases e <;> rfl

theorem countByte_ep (e : Endpoint) (s : State) :
    (countByte e s).ep e = { s.ep e with byteCount := (s.ep e).byteCount + 1 } := modEp_ep ..

theorem countByte_withEp (e : Endpoint) (s : State) (ep : Ep) : (countByte e s).withEp e ep = s.withEp e ep := by
  cases e <;> rfl

theorem raByte_of_sync0 (h : (s.ep e).rstate = .seek1) :
    raByte e s (sync0 s.cfg) = s.withEp e { s.ep e with byteCount := (s.ep e).byteCount + 1, rstate := .seek2 } := by
  have hst : ((countByte e s).ep e).rstate = .seek1 := by rw [countByte_ep]; exact h
  have hcfg : sync0 s.cfg = loByte (countByte e s).cfg.devSync := by rw [countByte, modEp_cfg]; rfl
  rw [raByte_eq, dispatchByte_seek1 hst, raSeek1_of_sync hcfg, countByte_ep, countByte_withEp]

theorem raByte_of_sync1 (h : (s.ep e).rstate = .seek2) :
    raByte e s (sync1 s.cfg) = s.withEp e { s.ep e with
      byteCount := (s.ep e).byteCount + 1
      hdr := ((s.ep e).hdr.set 0 (sync0 s.cfg)).set 1 (sync1 s.cfg), hdrFill := 2, rstate := .hdr } := by
  have hst : ((countByte e s).ep e).rstate = .seek2 := by rw [countByte_ep]; exact h
  have hcfg : (countByte e s).cfg = s.cfg := by rw [countByte, modEp_cfg]
  rw [raByte_eq, dispatchByte_seek2 hst, raSeek2_of_sync (by rw [hcfg]; rfl), countByte_ep, countByte_withEp, hcfg]
  rfl

theorem raByte_of_hdr {b : Byte} (hst : (s.ep e).rstate = .hdr) (h : (s.ep e).hdrFill ≠ 11) :
    raByte e s b = s.withEp e (Ep.pushHdr { s.ep e with byteCount := (s.ep e).byteCount + 1 } b) := by
  have hst' : ((countByte e s).ep e).rstate = .hdr := by rw [countByte_ep]; exact hst
  have hfill : ((countByte e s).ep e).hdrFill ≠ 11 := by rw [countByte_ep]; exact h
  rw [raByte_eq, dispatchByte_hdr hst', raHdr_of_not_twelfth b hfill, State.modEp, countByte_ep, countByte_withEp]

theorem raByte_of_twelfth {b : Byte} (hst : (s.ep e).rstate = .hdr) (h : (s.ep e).hdrFill = 11) :
    raByte e s b = raHdrdone e (s.withEp e (Ep.pushHdr { s.ep e with byteCount := (s.ep e).byteCount + 1 } b)) := by
  have hst' : ((countByte e s).ep e).rstate = .hdr := by rw [countByte_ep]; exact hst
  have hfill : ((countByte e s).ep e).hdrFill = 11 := by rw [countByte_ep]; exact h
  rw [raByte_eq, dispatchByte_hdr hst', raHdr_of_twelfth b hfill, State.modEp, countByte_ep, countByte_withEp]

/-- Header bytes before the twelfth are stored one after the other. -/
theorem foldl_raByte_of_hdr {xs : List Byte} (hst : (s.ep e).rstate = .hdr) (h : (s.ep e).hdrFill + xs.length ≤ 11) :
    ∃ bc H, xs.foldl (raByte e) s =
        s.withEp e { s.ep e with byteCount := bc, hdr := H, hdrFill := (s.ep e).hdrFill + xs.length }
      ∧ H.toList.take ((s.ep e).hdrFill + xs.length) = (s.ep e).hdr.toList.take (s.ep e).hdrFill ++ xs := by
  induction xs using List.reverseRecOn with
  | nil => exact ⟨(s.ep e).byteCount, (s.ep e).hdr, (withEp_self s e).symm, (List.append_nil _).symm⟩
  | append_singleton xs b ih =>
    rw [List.length_append, List.length_singleton] at h ⊢
    obtain ⟨bc, H, hmid, hbytes⟩ := ih (by omega)
    have hep := congrArg (State.ep · e) hmid
    dsimp only at hep
    rw [withEp_ep] at hep
    have hstored := take_setIfInBounds H b (k := (s.ep e).hdrFill + xs.length) (by omega)
    rw [List.foldl_append, List.foldl_cons, List.foldl_nil, raByte_of_hdr (by rw [hep]; exact hst) (by rw [hep]; dsimp only; omega),
      hep, hmid, withEp_withEp, ← List.append_assoc, ← hbytes]
    exact ⟨_, _, rfl, hstored⟩

/-- The endpoint with a whole header latched. -/
def headerIn (ep : Ep) (H : Vector Byte 12) (bc : Word) : Ep :=
  { ep with rstate := .hdr, hdr := H, hdrFill := 12, byteCount := bc }

theorem take_two_set (v : Vector Byte 12) (a b : Byte) : ((v.set 0 a).set 1 b).toList.take 2 = [a, b] := by
  refine List.ext_getElem (by simp) fun i _ hi => ?_
  have hi' : i < 2 := hi
  interval_cases i <;> simp

/-- The two sync bytes: the marker is stored and the header's other bytes come next (R203, R204). -/
theorem raByte_of_marker (hst : (s.ep e).rstate = .seek1) :
    ∃ ep, raByte e (raByte e s (sync0 s.cfg)) (sync1 s.cfg) = s.withEp e ep
      ∧ (∃ bc H, ep = { s.ep e with rstate := .hdr, hdr := H, hdrFill := 2, byteCount := bc })
      ∧ ep.hdr.toList.take 2 = [sync0 s.cfg, sync1 s.cfg] := by
  have hseek2 : ((raByte e s (sync0 s.cfg)).ep e).rstate = .seek2 := by rw [raByte_of_sync0 hst, withEp_ep]
  have hcfg : (raByte e s (sync0 s.cfg)).cfg = s.cfg := by rw [raByte_of_sync0 hst, withEp_cfg]
  have hstep := raByte_of_sync1 hseek2
  rw [hcfg] at hstep
  rw [hstep, raByte_of_sync0 hst, withEp_withEp, withEp_ep]
  exact ⟨_, rfl, ⟨_, _, rfl⟩, take_two_set _ _ _⟩

/-- A whole header, from the marker on. -/
theorem foldl_raByte_header {H : Vector Byte 12} {xs : List Byte} {z : Byte} (hst : (s.ep e).rstate = .seek1)
    (hlen : xs.length = 9) (hH : H.toList = sync0 s.cfg :: sync1 s.cfg :: (xs ++ [z])) :
    ∃ bc, H.toList.foldl (raByte e) s = raHdrdone e (s.withEp e (headerIn (s.ep e) H bc)) := by
  obtain ⟨ep₂, hmark, ⟨bc₂, H₂, hep₂⟩, htwo⟩ := raByte_of_marker hst
  have hfill₂ : ((s.withEp e ep₂).ep e).hdrFill = 2 := by rw [withEp_ep, hep₂]
  obtain ⟨bc, H₁₁, hmid, hbytes⟩ := foldl_raByte_of_hdr (e := e) (s := s.withEp e ep₂) (xs := xs)
    (by rw [withEp_ep, hep₂]) (by omega)
  rw [hfill₂, hlen, withEp_ep, htwo] at hbytes
  rw [hfill₂, hlen, withEp_ep, withEp_withEp] at hmid
  have hwhole : H₁₁.setIfInBounds 11 z = H := by
    rw [← Vector.toList_inj, hH, ← List.take_of_length_le (Nat.le_of_eq (Vector.length_toList (xs := H₁₁.setIfInBounds 11 z))),
      take_setIfInBounds H₁₁ z (k := 11) (by omega), hbytes]
    rfl
  rw [hH, List.foldl_cons, List.foldl_cons, hmark, List.foldl_append, hmid, List.foldl_cons, List.foldl_nil,
    raByte_of_twelfth (by rw [withEp_ep, hep₂]) (by rw [withEp_ep]), withEp_withEp, withEp_ep]
  refine ⟨bc + 1, ?_⟩
  rw [Ep.pushHdr]
  dsimp only
  rw [hwhole, hep₂]
  rfl

end Header

/-! ### A packet's header (R110 to R112) -/

/-- The twelve bytes of a packet's header. -/
def headerOf (c : Cfg) (type seq : Half) (mta : Word) (n : Nat) : Vector Byte 12 :=
  #v[sync0 c, sync1 c, loByte type, hiByte type, loByte seq, hiByte seq, hiByte (BitVec.ofNat 16 (12 + n)),
    loByte (BitVec.ofNat 16 (12 + n)), loByte (mta.extractLsb' 0 16), hiByte (mta.extractLsb' 0 16),
    loByte (mta.extractLsb' 16 16), hiByte (mta.extractLsb' 16 16)]

section Fields

variable {c : Cfg} {type seq : Half} {mta : Word} {n : Nat}

theorem packet_eq (payload : List Byte) :
    packet c type seq mta payload = (headerOf c type seq mta payload.length).toList ++ payload := rfl

theorem headerOf_type : hdrType (headerOf c type seq mta n) = type := half_loByte_hiByte type

theorem headerOf_seq : hdrSeq (headerOf c type seq mta n) = seq := half_loByte_hiByte seq

theorem headerOf_declared : hdrDeclared (headerOf c type seq mta n) = BitVec.ofNat 16 (12 + n) := half_loByte_hiByte _

theorem headerOf_padStart : hdrPadStart (headerOf c type seq mta n) = mta.extractLsb' 16 16 := half_loByte_hiByte _

theorem headerOf_padEnd : hdrPadEnd (headerOf c type seq mta n) = mta.extractLsb' 0 16 := half_loByte_hiByte _

theorem payloadLen_declared (h : 12 + n < 65536) :
    payloadLen (hdrDeclared (headerOf c type seq mta n)) = BitVec.ofNat 16 n := by
  refine (eq_payloadLen (declared := hdrDeclared (headerOf c type seq mta n)) ?_).symm
  rw [headerOf_declared, BitVec.toNat_ofNat, BitVec.toNat_ofNat]
  omega

end Fields

/-! ### Payload bytes (R210) -/

section Payload

variable {e : Endpoint} {s : State}

/-- The endpoint with other counts of bytes; no hook looks at them. -/
def recount (bc : Word) (r : Half) (ep : Ep) : Ep := { ep with byteCount := bc, remaining := r }

theorem modEp_modEp (s : State) (e : Endpoint) (f g : Ep → Ep) : (s.modEp e f).modEp e g = s.modEp e fun ep => g (f ep) := by
  cases e <;> rfl

theorem withEp_modEp (s : State) (e : Endpoint) (a : Ep) (f : Ep → Ep) : (s.withEp e a).modEp e f = s.withEp e (f a) := by
  cases e <;> rfl

theorem recount_recount (s : State) (bc bc' : Word) (r r' : Half) :
    (s.modEp e (recount bc r)).modEp e (recount bc' r') = s.modEp e (recount bc' r') := modEp_modEp ..

theorem raByte_of_payload {b : Byte} (hst : (s.ep e).rstate = .payload) (hrem : (s.ep e).remaining ≠ 0) :
    raByte e s b =
      if (s.ep e).remaining = 1
      then raPktdone e ((forwarded e b (countByte e s)).modEp e fun ep => { ep with remaining := (s.ep e).remaining - 1 })
      else (forwarded e b (countByte e s)).modEp e fun ep => { ep with remaining := (s.ep e).remaining - 1 } := by
  have hst' : ((countByte e s).ep e).rstate = .payload := by rw [countByte_ep]; exact hst
  have hrem' : ((forwarded e b (countByte e s)).ep e).remaining = (s.ep e).remaining := by
    rw [forwarded_remaining, countByte_ep]
  have hcount : (forwarded e b (countByte e s)).modEp e Ep.countPayload
      = (forwarded e b (countByte e s)).modEp e fun ep => { ep with remaining := (s.ep e).remaining - 1 } := by
    rw [State.modEp, countPayload_of_ne_zero (by rw [hrem']; exact hrem), hrem', State.modEp]
  rw [raByte_eq, dispatchByte_payload hst', raPay_eq_forwarded, hcount, modEp_ep]
  simp only [sub_eq_zero]

/-- What a payload byte does to the codec where `P` holds, apart from the counts. -/
structure PayloadStep (e : Endpoint) (P : State → Prop) (step : State → Byte → State) : Prop where
  forwards : ∀ t b, P t → forwarded e b t = step t b
  keeps : ∀ t b, P t → P (step t b)
  recounts : ∀ t bc r, P t → P (t.modEp e (recount bc r))
  commutes : ∀ t b bc r, step (t.modEp e (recount bc r)) b = (step t b).modEp e (recount bc r)
  state : ∀ t b, ((step t b).ep e).rstate = (t.ep e).rstate

variable {P : State → Prop} {step : State → Byte → State}

theorem PayloadStep.foldl_commutes (h : PayloadStep e P step) (bytes : List Byte) (t : State) (bc : Word) (r : Half) :
    bytes.foldl step (t.modEp e (recount bc r)) = (bytes.foldl step t).modEp e (recount bc r) := by
  induction bytes generalizing t with
  | nil => rfl
  | cons b bytes ih => rw [List.foldl_cons, List.foldl_cons, h.commutes, ih]

theorem PayloadStep.raByte (h : PayloadStep e P step) (hP : P s) (hst : (s.ep e).rstate = .payload)
    (hrem : (s.ep e).remaining ≠ 0) (b : Byte) :
    ∃ bc, Machine.raByte e s b =
      if (s.ep e).remaining = 1 then raPktdone e ((step s b).modEp e (recount bc 0))
      else (step s b).modEp e (recount bc ((s.ep e).remaining - 1)) := by
  have hcount : countByte e s = s.modEp e (recount ((s.ep e).byteCount + 1) (s.ep e).remaining) := rfl
  have hforward : forwarded e b (countByte e s)
      = (step s b).modEp e (recount ((s.ep e).byteCount + 1) (s.ep e).remaining) := by
    rw [hcount, h.forwards _ b (h.recounts s _ _ hP), h.commutes]
  refine ⟨(s.ep e).byteCount + 1, ?_⟩
  rw [raByte_of_payload hst hrem, hforward, modEp_modEp]
  by_cases hone : (s.ep e).remaining = 1
  · rw [if_pos hone, if_pos hone, hone]
    rfl
  · rw [if_neg hone, if_neg hone]
    rfl

/-- A whole payload: every byte through the codec, then the packet's end. -/
theorem PayloadStep.foldl_raByte (h : PayloadStep e P step) {payload : List Byte} (hne : payload ≠ [])
    (hfits : payload.length < 65536) (hP : P s) (hst : (s.ep e).rstate = .payload)
    (hrem : (s.ep e).remaining = BitVec.ofNat 16 payload.length) :
    ∃ bc, payload.foldl (Machine.raByte e) s = raPktdone e ((payload.foldl step s).modEp e (recount bc 0)) := by
  induction payload generalizing s with
  | nil => exact absurd rfl hne
  | cons b r ih =>
    have hval : (s.ep e).remaining.toNat = r.length + 1 := by
      rw [hrem, BitVec.toNat_ofNat, List.length_cons]
      rw [List.length_cons] at hfits
      omega
    have hzero : (s.ep e).remaining ≠ 0 := fun h0 => by rw [h0] at hval; exact absurd hval.symm (Nat.succ_ne_zero _)
    obtain ⟨bc, hbyte⟩ := h.raByte hP hst hzero b
    rw [List.foldl_cons, List.foldl_cons, hbyte]
    by_cases hr : r = []
    · subst hr
      have hone : (s.ep e).remaining = 1 := BitVec.eq_of_toNat_eq hval
      rw [if_pos hone]
      exact ⟨bc, rfl⟩
    · have hpos := List.length_pos_of_ne_nil hr
      have hmany : (s.ep e).remaining ≠ 1 := fun h1 => by
        rw [h1] at hval
        have hval' : 1 = r.length + 1 := hval
        omega
      have hnext : (s.ep e).remaining - 1 = BitVec.ofNat 16 r.length := by
        rw [hrem, List.length_cons, BitVec.ofNat_add]
        exact BitVec.add_sub_cancel _ 1
      rw [if_neg hmany, hnext]
      obtain ⟨bc', hrest⟩ := ih (s := (step s b).modEp e (recount bc (BitVec.ofNat 16 r.length))) hr
        (by rw [List.length_cons] at hfits; omega) (h.recounts _ _ _ (h.keeps s b hP))
        (by rw [modEp_ep]; exact (h.state s b).trans hst) (by rw [modEp_ep]; rfl)
      refine ⟨bc', ?_⟩
      rw [hrest, h.foldl_commutes, recount_recount]

/-- Bytes of a corrupt frame are only counted. -/
theorem payloadStep_of_corrupt (e : Endpoint) : PayloadStep e (fun t => (t.ep e).corrupt = true) fun t _ => t where
  forwards _ _ hcorrupt := if_pos hcorrupt
  keeps _ _ hcorrupt := hcorrupt
  recounts _ _ _ hcorrupt := by rw [modEp_ep]; exact hcorrupt
  commutes _ _ _ _ := rfl
  state _ _ := rfl

end Payload

/-! ### Whole packets -/

section Packet

variable {e : Endpoint} {s : State} {type seq : Half} {mta : Word} {payload : List Byte}

theorem fitsPacket_iff : fitsPacket payload = true ↔ 12 + payload.length < 65536 := decide_eq_true_iff

/-- The state in which a packet's payload begins. -/
def opened (e : Endpoint) (s : State) (type seq : Half) (mta : Word) (n : Nat) (bc : Word) : State :=
  enterPayload e (s.withEp e (headerIn (s.ep e) (headerOf s.cfg type seq mta n) bc))

theorem foldl_raByte_headerOf (hst : (s.ep e).rstate = .seek1) (n : Nat) :
    ∃ bc, (headerOf s.cfg type seq mta n).toList.foldl (raByte e) s =
      raHdrdone e (s.withEp e (headerIn (s.ep e) (headerOf s.cfg type seq mta n) bc)) :=
  foldl_raByte_header hst (xs := [_, _, _, _, _, _, _, _, _]) rfl rfl

theorem opened_remaining (hfits : fitsPacket payload = true) (bc : Word) :
    ((opened e s type seq mta payload.length bc).ep e).remaining = BitVec.ofNat 16 payload.length := by
  rw [opened, Stream.enterPayload_ep]
  dsimp only
  rw [(Stream.openPacket_counts e _).2.1, modEp_ep, withEp_ep]
  exact payloadLen_declared (fitsPacket_iff.1 hfits)

theorem foldl_raByte_packet_eq (hst : (s.ep e).rstate = .seek1) (hfits : fitsPacket payload = true) :
    ∃ bc, (packet s.cfg type seq mta payload).foldl (raByte e) s =
      payload.foldl (raByte e) (if (BitVec.ofNat 16 payload.length : Half) = 0
        then raPktdone e (opened e s type seq mta payload.length bc) else opened e s type seq mta payload.length bc) := by
  obtain ⟨bc, hheader⟩ := foldl_raByte_headerOf (type := type) (seq := seq) (mta := mta) hst payload.length
  refine ⟨bc, ?_⟩
  rw [packet_eq, List.foldl_append, hheader, raHdrdone_eq, ← opened_remaining (e := e) (s := s) (type := type) (seq := seq)
    (mta := mta) hfits bc]
  rfl

/-- A packet with no payload ends with its header (R212). -/
theorem foldl_raByte_empty_packet (hst : (s.ep e).rstate = .seek1) :
    ∃ bc, (packet s.cfg type seq mta []).foldl (raByte e) s = raPktdone e (opened e s type seq mta 0 bc) := by
  obtain ⟨bc, hrun⟩ := foldl_raByte_packet_eq (type := type) (seq := seq) (mta := mta) (payload := []) hst rfl
  exact ⟨bc, hrun⟩

/-- A whole packet: the header, the payload where there is one, the packet's end. -/
theorem foldl_raByte_packet {P : State → Prop} {step : State → Byte → State} (h : PayloadStep e P step)
    (hst : (s.ep e).rstate = .seek1) (hfits : fitsPacket payload = true)
    (hP : ∀ bc, P (opened e s type seq mta payload.length bc)) :
    ∃ bc bc', (packet s.cfg type seq mta payload).foldl (raByte e) s =
      raPktdone e ((payload.foldl step (opened e s type seq mta payload.length bc)).modEp e (recount bc' 0)) := by
  obtain ⟨bc, hrun⟩ := foldl_raByte_packet_eq (type := type) (seq := seq) (mta := mta) hst hfits
  have hrem := opened_remaining (e := e) (s := s) (type := type) (seq := seq) (mta := mta) hfits bc
  by_cases hempty : payload = []
  · subst hempty
    refine ⟨bc, ((opened e s type seq mta 0 bc).ep e).byteCount, hrun.trans ?_⟩
    show raPktdone e (opened e s type seq mta 0 bc) = raPktdone e ((opened e s type seq mta 0 bc).modEp e _)
    rw [State.modEp, recount, ← show ((opened e s type seq mta 0 bc).ep e).remaining = 0 from hrem, withEp_self]
  · have hlen := fitsPacket_iff.1 hfits
    have hpos := List.length_pos_of_ne_nil hempty
    have hne : (BitVec.ofNat 16 payload.length : Half) ≠ 0 := fun h0 => by
      have hval := congrArg BitVec.toNat h0
      rw [BitVec.toNat_ofNat, Nat.mod_eq_of_lt (by omega)] at hval
      exact absurd hval (Nat.ne_of_gt hpos)
    have hpayload : ((opened e s type seq mta payload.length bc).ep e).rstate = .payload := by
      rw [opened, Stream.enterPayload_ep]
    obtain ⟨bc', hrest⟩ := h.foldl_raByte (s := opened e s type seq mta payload.length bc) hempty (by omega) (hP bc) hpayload hrem
    rw [if_neg hne] at hrun
    exact ⟨bc, bc', hrun.trans hrest⟩

end Packet

end Sys2Proof.Proofs.Wire
end


section
/-! PROOFS. A sequence gap and the frame after it (R209, R222). -/

namespace Sys2Proof.Proofs.Gap

open Sys2Proof.Machine Sys2Proof.Safety Sys2Proof.Proofs.Sides Sys2Proof.Proofs.Buffers Sys2Proof.Proofs.Packets
  Sys2Proof.Proofs.Reassembler Sys2Proof.Proofs.Wire

/-! ### The header latched (R206) -/

/-- The endpoint with a packet's header read and its fields latched. -/
def latched (c : Cfg) (ep : Ep) (type seq : Half) (mta : Word) (n : Nat) (bc : Word) : Ep :=
  { headerIn ep (headerOf c type seq mta n) bc with
    pktCount := ep.pktCount + 1, ptype := type, remaining := payloadLen (hdrDeclared (headerOf c type seq mta n)) }

section Latched

variable {c : Cfg} {ep : Ep} {type seq : Half} {mta : Word} {n : Nat} {bc : Word}

theorem latchHeader_headerOf : Ep.latchHeader (headerIn ep (headerOf c type seq mta n) bc) = latched c ep type seq mta n bc := by
  have htype : hdrType (headerIn ep (headerOf c type seq mta n) bc).hdr = type := headerOf_type
  rw [Ep.latchHeader, htype]
  rfl

theorem latched_ptype : (latched c ep type seq mta n bc).ptype = type := rfl

theorem latched_seq : hdrSeq (latched c ep type seq mta n bc).hdr = seq := headerOf_seq

theorem opened_eq (e : Endpoint) (s : State) :
    opened e s type seq mta n bc =
      (openPacket e (s.withEp e (latched s.cfg (s.ep e) type seq mta n bc))).modEp e fun ep => { ep with rstate := .payload } := by
  rw [opened, enterPayload, withEp_modEp, latchHeader_headerOf]

theorem opened_cfg (e : Endpoint) (s : State) : (opened e s type seq mta n bc).cfg = s.cfg :=
  ((enterPayload_local e).cfg _).trans (withEp_cfg ..)

end Latched

section Continuation

variable {e : Endpoint} {s : State} {type seq : Half} {mta : Word}

/-- A packet that is no start packet opens with the sequence check (R206, R209). -/
theorem opened_of_continuation (htype : type ≠ s.cfg.startType e) (n : Nat) (bc : Word) :
    opened e s type seq mta n bc = s.withEp e
      { (latched s.cfg (s.ep e) type seq mta n bc).continuation seq with rstate := .payload } := by
  rw [opened_eq, openPacket, withEp_ep, withEp_cfg, latched_ptype, latched_seq, if_neg htype, raCont, withEp_modEp,
    withEp_modEp]

/-- The endpoint after a packet that was only counted: its frame is corrupt. -/
def skipped (ep : Ep) (H : Vector Byte 12) (p q r : Half) (bc pc : Word) (evs : List Event) : Ep :=
  { ep with
    rstate := .seek1, hdr := H, hdrFill := 0, remaining := r, ptype := p, lastSeq := q, corrupt := true, byteCount := bc
    pktCount := pc, events := evs }

/-- The sequence check of a corrupt frame, or one that finds a gap, leaves the frame corrupt. -/
theorem continuation_of_corrupt {ep : Ep} (h : ep.corrupt = true ∨ seq ≠ ep.lastSeq + 1) :
    ep.continuation seq = { ep with
      corrupt := true, lastSeq := seq
      events := ep.events ++ if seq = ep.lastSeq + 1 then [] else [.loss (ep.lastSeq + 1) seq] } := by
  rcases continuation_cases ep seq with ⟨heq, hcont⟩ | ⟨hne, hcont⟩
  · have hcorrupt := h.resolve_right (not_not.2 heq)
    rw [hcont, if_pos heq, List.append_nil, ← hcorrupt]
  · rw [hcont, if_neg hne]

theorem foldl_raByte_of_skipped {payload : List Byte} (hst : (s.ep e).rstate = .seek1) (htype : type ≠ s.cfg.startType e)
    (hcorrupt : (s.ep e).corrupt = true ∨ seq ≠ (s.ep e).lastSeq + 1) (hfits : fitsPacket payload = true) :
    ∃ H r bc pc, (packet s.cfg type seq mta payload).foldl (raByte e) s =
      s.withEp e (skipped (s.ep e) H type seq r bc pc ((s.ep e).events ++
        if seq = (s.ep e).lastSeq + 1 then [] else [.loss ((s.ep e).lastSeq + 1) seq])) := by
  have hopened (bc : Word) := opened_of_continuation (s := s) (seq := seq) (mta := mta) htype payload.length bc
  have hP (bc : Word) : ((opened e s type seq mta payload.length bc).ep e).corrupt = true := by
    rw [hopened, withEp_ep, continuation_of_corrupt (by exact hcorrupt)]
  obtain ⟨bc, bc', hrun⟩ := foldl_raByte_packet (mta := mta) (payloadStep_of_corrupt e) hst hfits hP
  rw [hrun, List.foldl_fixed, raPktdone_of_not_endsFrame, modEp_modEp, hopened bc, continuation_of_corrupt (by exact hcorrupt)]
  · exact ⟨_, _, _, _, by rw [withEp_modEp]; rfl⟩
  · rw [modEp_ep, endsFrame_iff]
    intro h
    have hfalse : ((opened e s type seq mta payload.length bc).ep e).corrupt = false := h.2
    rw [hP bc] at hfalse
    cases hfalse

/-- Any packets of a corrupt frame that are no start packets. -/
theorem foldl_raByte_of_skipped_packets {ps : List (Half × List Byte)} (hst : (s.ep e).rstate = .seek1)
    (hfill : (s.ep e).hdrFill = 0) (hcorrupt : (s.ep e).corrupt = true) (hseq : seq = (s.ep e).lastSeq + 1)
    (hps : ∀ p ∈ ps, fitsPacket p.2 = true ∧ p.1 ≠ s.cfg.startType e) :
    ∃ H p q r bc pc, (packets s.cfg seq ps).foldl (raByte e) s =
      s.withEp e (skipped (s.ep e) H p q r bc pc (s.ep e).events) := by
  induction ps generalizing s seq with
  | nil =>
    refine ⟨(s.ep e).hdr, (s.ep e).ptype, (s.ep e).lastSeq, (s.ep e).remaining, (s.ep e).byteCount, (s.ep e).pktCount, ?_⟩
    rw [skipped, ← hst, ← hfill, ← hcorrupt]
    exact (withEp_self s e).symm
  | cons p ps ih =>
    obtain ⟨type, payload⟩ := p
    obtain ⟨hfits, htype⟩ := hps (type, payload) List.mem_cons_self
    obtain ⟨H, r, bc, pc, hfirst⟩ := foldl_raByte_of_skipped (mta := 0) hst htype (.inl hcorrupt) hfits
    rw [if_pos hseq, List.append_nil] at hfirst
    obtain ⟨H', p', q', r', bc', pc', hrest⟩ :=
      ih (s := s.withEp e (skipped (s.ep e) H type seq r bc pc (s.ep e).events)) (seq := seq + 1) (by rw [withEp_ep]; rfl)
        (by rw [withEp_ep]; rfl) (by rw [withEp_ep]; rfl) (by rw [withEp_ep]; rfl)
        (by rw [withEp_cfg]; exact fun q hq => hps q (List.mem_cons_of_mem _ hq))
    refine ⟨H', p', q', r', bc', pc', ?_⟩
    rw [withEp_cfg, withEp_ep, withEp_withEp] at hrest
    rw [packets, List.foldl_append, hfirst, hrest]
    rfl

end Continuation

/-! ### A start packet -/

section Start

variable {e : Endpoint} {s : State} {seq : Half} {mta : Word}

/-- A start packet opens with the start of a frame (R206, R207). -/
theorem opened_of_start (n : Nat) (bc : Word) :
    opened e s (s.cfg.startType e) seq mta n bc =
      (codecStart e (s.withEp e ((latched s.cfg (s.ep e) (s.cfg.startType e) seq mta n bc).openFrame e))).modEp e
        fun ep => { ep with rstate := .payload } := by
  rw [opened_eq, openPacket, withEp_ep, withEp_cfg, latched_ptype, if_pos rfl, raStart_eq, withEp_ep, withEp_withEp]

/-- The start hook changes the held buffer's bytes, the cursor and the event trace only. -/
theorem codecStart_ep (e : Endpoint) (s : State) :
    ∃ act cur evs, (codecStart e s).ep e = { s.ep e with active := act, cursor := cur, events := evs }
      ∧ act.map (·.buf) = (s.ep e).active.map (·.buf) := by
  cases e with
  | color =>
    rw [show codecStart .color s = clStart s from rfl, clStart]
    split
    · exact ⟨_, _, _, rfl, rfl⟩
    · exact ⟨_, _, _, rfl, rfl⟩
  | depth =>
    rw [show codecStart .depth s = dcStart s from rfl, dcStart]
    split
    · exact ⟨_, _, _, bufWrite_frame _ _, Colour.bufWrite_buf _ _⟩
    · exact ⟨_, _, _, rfl, rfl⟩

theorem stamped_of_now {ep : Ep} {now : Stamp} {times : List Stamp} (h : ep.nowAnswers = now :: times) :
    (stamped e ep).ts = now := by
  rw [stamped, now_of_cons h]

/-- A start packet with no payload on an endpoint that holds a buffer begins a frame in it. -/
theorem foldl_raByte_of_start {ab : ActiveBuf} (hst : (s.ep e).rstate = .seek1) (hact : (s.ep e).active = some ab)
    (hends : s.cfg.endType e ≠ s.cfg.startType e) :
    ∃ act cur evs bc, ((packet s.cfg (s.cfg.startType e) seq mta []).foldl (raByte e) s).ep e =
        { stamped e (latched s.cfg (s.ep e) (s.cfg.startType e) seq mta 0 bc) with
          rstate := .seek1, hdrFill := 0, active := act, cursor := cur, events := evs }
      ∧ act.map (·.buf) = some ab.buf := by
  obtain ⟨bc, hrun⟩ := foldl_raByte_empty_packet (type := s.cfg.startType e) (seq := seq) (mta := mta) hst
  have hlatched : (latched s.cfg (s.ep e) (s.cfg.startType e) seq mta 0 bc).active = some ab := hact
  obtain ⟨act, cur, evs, hhook, hbuf⟩ := codecStart_ep e
    (s.withEp e ((latched s.cfg (s.ep e) (s.cfg.startType e) seq mta 0 bc).openFrame e))
  rw [withEp_ep, openFrame_of_held (by rw [hlatched]; exact Option.some_ne_none ab)] at hhook hbuf
  have hopened := congrArg (State.ep · e) (opened_of_start (e := e) (s := s) (seq := seq) (mta := mta) 0 bc)
  rw [modEp_ep, openFrame_of_held (by rw [hlatched]; exact Option.some_ne_none ab), hhook] at hopened
  refine ⟨act, cur, evs, bc, ?_, hbuf.trans (congrArg (Option.map (·.buf)) hlatched)⟩
  rw [hrun, raPktdone_of_not_endsFrame, modEp_ep, hopened]
  rw [endsFrame_iff, hopened, opened_cfg]
  exact fun h => hends h.1.symm

end Start

/-- Settles O48: the first packet finds the gap, the others are only counted, the start packet clears the flag. -/
theorem sequenceGapIsContained : Obligations.SequenceGapIsContained := by
  intro s e ab type seq payload last mid now times seq' ps pe hon hst hfill hact hnow hends htype hgap hpayload hlast hmid
  obtain ⟨H, r, bc, pc, hfirst⟩ := foldl_raByte_of_skipped (mta := 0) hst htype (.inr hgap) hpayload
  rw [if_neg hgap] at hfirst
  obtain ⟨H', p', q', r', bc', pc', hrest⟩ := foldl_raByte_of_skipped_packets
    (s := s.withEp e (skipped (s.ep e) H type seq r bc pc ((s.ep e).events ++ [.loss ((s.ep e).lastSeq + 1) seq])))
    (seq := seq + 1) (ps := mid ++ [(s.cfg.endType e, last)]) (by rw [withEp_ep]; rfl) (by rw [withEp_ep]; rfl)
    (by rw [withEp_ep]; rfl) (by rw [withEp_ep]; rfl) (by
      rw [withEp_cfg]
      intro p hp
      rcases List.mem_append.1 hp with hp | hp
      · exact hmid p hp
      · rw [List.mem_singleton.1 hp]
        exact ⟨hlast, hends⟩)
  rw [withEp_cfg, withEp_ep, withEp_withEp] at hrest
  have hpads : (ps ++ pe : Word).extractLsb' 16 16 = ps ∧ (ps ++ pe : Word).extractLsb' 0 16 = pe :=
    ⟨BitVec.extractLsb'_append_eq_left, BitVec.extractLsb'_append_eq_right⟩
  generalize hsk : skipped (skipped (s.ep e) H type seq r bc pc ((s.ep e).events ++ [.loss ((s.ep e).lastSeq + 1) seq])) H' p' q' r' bc' pc' _ = ep at hrest
  have hrun : exec (.raChunk e (packets s.cfg seq ((type, payload) :: mid ++ [(s.cfg.endType e, last)]))) s
      = .next (s.withEp e ep) := by
    rw [exec_raChunk, raChunk_of_enabled hon, List.cons_append, packets, List.foldl_append, hfirst, hrest]
  obtain ⟨act, cur, evs, bc'', hstart, hbuf⟩ := foldl_raByte_of_start (s := s.withEp e ep) (e := e) (seq := seq') (mta := ps ++ pe)
    (by rw [withEp_ep, ← hsk]; rfl) (ab := ab) (by rw [withEp_ep, ← hsk]; exact hact) (by rw [withEp_cfg]; exact hends)
  rw [withEp_cfg, withEp_ep] at hstart
  have hstartrun : exec (.raChunk e (packet s.cfg (s.cfg.startType e) seq' (ps ++ pe) [])) (s.withEp e ep)
      = .next ((packet s.cfg (s.cfg.startType e) seq' (ps ++ pe) []).foldl (raByte e) (s.withEp e ep)) := by
    rw [exec_raChunk, raChunk_of_enabled]
    rw [withEp_ep, ← hsk]
    exact hon
  have hepnow : (latched s.cfg ep (s.cfg.startType e) seq' (ps ++ pe) 0 bc'').nowAnswers = now :: times := by
    rw [← hsk]
    exact hnow
  refine ⟨_, _, hrun, ?_, ?_, ?_, ?_, ?_, hstartrun, ?_⟩
  rotate_right
  · rw [hstart]
    refine ⟨rfl, hbuf, ?_, ?_, ?_, headerOf_seq, headerOf_padStart.trans hpads.1, headerOf_padEnd.trans hpads.2,
      stamped_of_now hepnow⟩ <;> rw [← hsk] <;> rfl
  all_goals rw [withEp_ep, ← hsk]
  · rfl
  · exact hact
  · rfl
  · rfl
  · rfl

end Sys2Proof.Proofs.Gap
end


section
/-! PROOFS. A whole depth frame (R80, R207, R250, R254): the packets of one frame fed to the depth endpoint. -/

namespace Sys2Proof.Proofs.DepthFrame

open Sys2Proof.Machine Sys2Proof.Safety Sys2Proof.Proofs.Sides Sys2Proof.Proofs.Buffers Sys2Proof.Proofs.Packets
  Sys2Proof.Proofs.Reassembler Sys2Proof.Proofs.Samples Sys2Proof.Proofs.Depth Sys2Proof.Proofs.Units Sys2Proof.Proofs.Wire
  Sys2Proof.Proofs.Gap

/-! ### Payload bytes reach the depth codec -/

theorem bufWrite_recount (bc : Word) (r : Half) (ep : Ep) (bytes : List Byte) :
    (recount bc r ep).bufWrite bytes = recount bc r (ep.bufWrite bytes) := by
  have hact : (recount bc r ep).active = ep.active := rfl
  unfold Ep.bufWrite
  rw [hact]
  cases ep.active with
  | none => rfl
  | some ab =>
    dsimp only
    split
    · rw [if_pos (by assumption)]
      rfl
    · rw [if_neg (by assumption)]
      rfl

theorem dcUnpack_recount (u : DepthUnit) (s : State) (bc : Word) (r : Half) :
    dcUnpack u (s.modEp .depth (recount bc r)) = (dcUnpack u s).modEp .depth (recount bc r) := by
  have hfold (js : List Nat) (f : Nat → List Byte) (ep : Ep) :
      js.foldl (fun ep j => ep.bufWrite (f j)) (recount bc r ep)
        = recount bc r (js.foldl (fun ep j => ep.bufWrite (f j)) ep) := by
    induction js generalizing ep with
    | nil => rfl
    | cons j js ih => rw [List.foldl_cons, List.foldl_cons, bufWrite_recount, ih]
  exact congrArg (fun ep => ({ s with depth := ep } : State))
    (hfold (List.range 8) (fun j => putHalf (s.dc.lut.read (unitCode u j).toNat)) s.depth)

theorem dcByte_recount (s : State) (b : Byte) (bc : Word) (r : Half) :
    dcByte (s.modEp .depth (recount bc r)) b = (dcByte s b).modEp .depth (recount bc r) := by
  show (if s.dc.carryLen + 1 = Config.unitLen then _ else _) = State.modEp (if s.dc.carryLen + 1 = Config.unitLen then _ else _) _ _
  split
  · exact dcUnpack_recount _ { s with dc := { s.dc with carry := s.dc.carry.setIfInBounds s.dc.carryLen b, carryLen := 0 } } bc r
  · rfl

theorem dcByte_frame (s : State) (b : Byte) : BufFrame s.depth (dcByte s b).depth := (dcByte_moves s b).frame

theorem payloadStep_of_sound :
    PayloadStep .depth (fun t => t.depth.corrupt = false ∧ t.depth.holdsBuffer = true) dcByte where
  forwards t b h := by
    have hsound : ¬ (t.ep .depth).corrupt = true := by rw [ep_depth, h.1]; exact Bool.false_ne_true
    rw [forwarded, if_neg hsound]
    exact if_pos h.2
  keeps t b h := by
    rw [dcByte_holdsBuffer, dcByte_frame t b]
    exact h
  recounts _ _ _ h := h
  commutes := dcByte_recount
  state t b := by
    rw [ep_depth, ep_depth, dcByte_frame t b]

/-! ### Whole units of joined strings -/

theorem wholeUnits_append {x : List Byte} (h : x.length % 11 = 0) (y : List Byte) :
    wholeUnits (x ++ y) = wholeUnits x ++ wholeUnits y := by
  induction y using List.reverseRecOn with
  | nil => rw [List.append_nil, wholeUnits_of_short (p := []) (by simp), List.append_nil]
  | append_singleton y b ih =>
    rw [← List.append_assoc]
    by_cases hlast : y.length % 11 = 10
    · have hdrop : (x ++ y).drop (11 * ((x ++ y).length / 11)) = y.drop (11 * (y.length / 11)) := by
        have hsplit : 11 * ((x ++ y).length / 11) = x.length + 11 * (y.length / 11) := by rw [List.length_append]; omega
        rw [hsplit, List.drop_length_add_append]
      rw [wholeUnits_snoc_of_last (by rw [List.length_append]; omega), wholeUnits_snoc_of_last hlast, ih, hdrop,
        List.append_assoc]
    · rw [wholeUnits_snoc_of_lt (by rw [List.length_append]; omega), wholeUnits_snoc_of_lt (by omega), ih]

/-- The samples of a string delivered in two pieces: the second with what the first leaves over. -/
theorem sampleBytes_append (l : Lut) (x y : List Byte) :
    sampleBytes l (x ++ y) = sampleBytes l x ++ sampleBytes l (x.drop (11 * (x.length / 11)) ++ y) := by
  have hwhole : (x.take (11 * (x.length / 11))).length % 11 = 0 := by rw [List.length_take]; omega
  have hx : wholeUnits x = wholeUnits (x.take (11 * (x.length / 11))) := by
    have hleft : wholeUnits (x.drop (11 * (x.length / 11))) = [] :=
      wholeUnits_of_short (by rw [List.length_drop]; omega)
    conv_lhs => rw [← List.take_append_drop (11 * (x.length / 11)) x, wholeUnits_append hwhole, hleft, List.append_nil]
  rw [sampleBytes, sampleBytes, sampleBytes, hx, ← List.flatMap_append, ← wholeUnits_append hwhole, ← List.append_assoc,
    List.take_append_drop]

/-! ### The image so far -/

/-- The buffer `buf` is held, and of the image exactly the bytes that fit have been written from offset 0. -/
def Drawn (size : Nat) (evs : List Event) (buf : Buf) (image : List Byte) (ep : Ep) : Prop :=
  ∃ m, ep.active = some { buf := buf, mem := m } ∧ ep.cursor = min image.length size ∧ ep.imageSize = size
    ∧ (∀ a, m.read a = if a < size then image[a]? else none) ∧ (image.length ≤ size → ep.events = evs)

section Drawing

variable {size : Nat} {evs : List Event} {buf : Buf} {image more : List Byte} {ep ep' : Ep}

theorem Drawn.holds (h : Drawn size evs buf image ep) : ∃ m, ep.active = some { buf := buf, mem := m } := by
  obtain ⟨m, hact, -⟩ := h
  exact ⟨m, hact⟩

theorem Drawn.cursor_le (h : Drawn size evs buf image ep) : ep.cursor ≤ ep.imageSize := by
  obtain ⟨m, -, hcur, hsize, -⟩ := h
  rw [hcur, hsize]
  exact Nat.min_le_right _ _

/-- Other registers do not matter. -/
theorem Drawn.congr (h : Drawn size evs buf image ep) (hact : ep'.active = ep.active) (hcur : ep'.cursor = ep.cursor)
    (hsize : ep'.imageSize = ep.imageSize) (hevs : ep'.events = ep.events) : Drawn size evs buf image ep' := by
  rw [Drawn, hact, hcur, hsize, hevs]
  exact h

theorem Drawn.write {ab : ActiveBuf} (h : Drawn size evs buf image ep) (hact : ep.active = some ab) (k : Wrote ep ab more ep') :
    Drawn size evs buf (image ++ more) ep' := by
  obtain ⟨m, hm, hcur, hsize, hread, hquiet⟩ := h
  rw [hm] at hact
  cases hact
  obtain ⟨m', evs', rfl, hread', hquiet'⟩ := k
  have hcursor : min (min image.length size + more.length) size = min (image ++ more).length size := by
    rw [List.length_append]
    omega
  rw [hcur, hsize] at hread' hquiet'
  refine ⟨m', rfl, by dsimp only; rw [hcur, hsize, hcursor], hsize, fun a => ?_, fun hfits => ?_⟩
  · rw [hread' a, hread a, hcursor, List.length_append]
    by_cases hnew : min image.length size ≤ a ∧ a < min (image.length + more.length) size
    · rw [if_pos hnew, if_pos (by omega), List.getElem?_append_right (by omega)]
      congr 1
      omega
    · rw [if_neg hnew]
      by_cases ha : a < size
      · rw [if_pos ha, if_pos ha]
        by_cases hold : a < image.length
        · rw [List.getElem?_append_left hold]
        · rw [List.getElem?_eq_none (by omega), List.getElem?_eq_none (by rw [List.length_append]; omega)]
      · rw [if_neg ha, if_neg ha]
  · rw [List.length_append] at hfits
    rw [← hquiet (by omega)]
    exact hquiet' (by omega)

end Drawing

/-! ### The endpoint within a frame -/

/-- Within a frame that began in state `s`: the buffer held, the image of the payload delivered so far, its last bytes
carried, and the registers that the frame's end reads. -/
structure InFrame (s : State) (buf : Buf) (queue : List Buf) (now : Stamp) (ps pe q : Half) (payload : List Byte) (t : State) :
    Prop where
  cfg : t.cfg = s.cfg
  lut : t.dc.lut = s.dc.lut
  corrupt : t.depth.corrupt = false
  lastSeq : t.depth.lastSeq = q
  avail : t.depth.avail = queue
  completed : t.depth.completed = s.depth.completed
  ts : t.depth.ts = now
  frameCount : t.depth.frameCount = s.depth.frameCount + 1
  padEnd : t.depth.padEnd = pe
  drawn : Drawn s.depth.imageSize s.depth.events buf (padBytes ps ++ sampleBytes s.dc.lut payload) t.depth
  carryLen : t.dc.carryLen = payload.length % 11
  carried : pending t.dc = payload.drop (11 * (payload.length / 11))

section Frame

variable {s t : State} {buf : Buf} {queue : List Buf} {now : Stamp} {ps pe q : Half} {payload : List Byte}

theorem InFrame.holds (h : InFrame s buf queue now ps pe q payload t) : t.depth.holdsBuffer = true := by
  obtain ⟨m, hact⟩ := h.drawn.holds
  exact holdsBuffer_of_active hact

/-- Payload bytes extend the image by the units they complete. -/
theorem InFrame.data (h : InFrame s buf queue now ps pe q payload t) (bytes : List Byte) :
    InFrame s buf queue now ps pe q (payload ++ bytes) (bytes.foldl dcByte t) := by
  obtain ⟨m, hact⟩ := h.drawn.holds
  have hlen : payload.length % 11 < 11 := Nat.mod_lt _ (by omega)
  obtain ⟨ep, carry, hfed, hwrote, hpend⟩ :=
    foldl_dcByte_fed hact h.drawn.cursor_le (by rw [h.carryLen]; omega) bytes
  have hdrawn := h.drawn.write hact hwrote
  have hframe := hwrote.frame
  rw [h.carried, h.lut, List.append_assoc, ← sampleBytes_append] at hdrawn
  rw [h.carried, h.carryLen] at hpend
  rw [hfed] at hpend ⊢
  have hcarry : (payload.length % 11 + bytes.length) % 11 = (payload ++ bytes).length % 11 := by
    rw [List.length_append]
    omega
  refine ⟨h.cfg, h.lut, ?_, ?_, ?_, ?_, ?_, ?_, ?_, hdrawn, by dsimp only; rw [h.carryLen, hcarry], ?_⟩
  rotate_right
  · have hunits : 11 * (payload.length / 11) + 11 * ((payload.length % 11 + bytes.length) / 11)
        = 11 * ((payload ++ bytes).length / 11) := by
      rw [List.length_append]
      omega
    rw [hpend, ← List.drop_append_of_le_length (by omega), List.drop_drop, hunits]
  all_goals dsimp only; rw [hframe]
  · exact h.corrupt
  · exact h.lastSeq
  · exact h.avail
  · exact h.completed
  · exact h.ts
  · exact h.frameCount
  · exact h.padEnd

/-- What a packet changes beside the codec keeps the frame. -/
theorem InFrame.regs (h : InFrame s buf queue now ps pe q payload t) (st : RState) (H : Vector Byte 12) (fill : Nat)
    (rem type q' : Half) (bc pc : Word) :
    InFrame s buf queue now ps pe q' payload (t.withEp .depth { t.depth with
      rstate := st, hdr := H, hdrFill := fill, remaining := rem, ptype := type, lastSeq := q', byteCount := bc
      pktCount := pc }) :=
  { h with lastSeq := rfl, drawn := h.drawn.congr rfl rfl rfl rfl }

/-- The payload of a sound packet of the frame, up to the packet's end. -/
theorem foldl_raByte_inFrame {type seq : Half} {mta : Word} {more : List Byte} (hst : t.depth.rstate = .seek1)
    (hfits : fitsPacket more = true)
    (h : ∀ bc, InFrame s buf queue now ps pe seq payload (opened .depth t type seq mta more.length bc)
      ∧ (opened .depth t type seq mta more.length bc).depth.ptype = type) :
    ∃ u, (packet t.cfg type seq mta more).foldl (raByte .depth) t = raPktdone .depth u
      ∧ InFrame s buf queue now ps pe seq (payload ++ more) u ∧ u.depth.ptype = type := by
  obtain ⟨bc, bc', hrun⟩ := foldl_raByte_packet payloadStep_of_sound hst hfits
    (fun bc => ⟨(h bc).1.corrupt, (h bc).1.holds⟩)
  obtain ⟨hframe, htype⟩ := h bc
  have hdata := hframe.data more
  refine ⟨_, hrun, { hdata with drawn := hdata.drawn.congr rfl rfl rfl rfl }, ?_⟩
  show (more.foldl dcByte _).depth.ptype = type
  exact (foldl_keeps (g := fun t => t.depth.ptype) (fun s b => by rw [dcByte_frame s b]) _ _).trans htype

/-- The end of a packet that does not end the frame. -/
theorem InFrame.pktdone (h : InFrame s buf queue now ps pe q payload t) (htype : t.depth.ptype ≠ s.cfg.endDepth) :
    InFrame s buf queue now ps pe q payload (raPktdone .depth t) ∧ (raPktdone .depth t).depth.rstate = .seek1 := by
  rw [raPktdone_of_not_endsFrame]
  · exact ⟨{ h with drawn := h.drawn.congr rfl rfl rfl rfl }, rfl⟩
  · rw [endsFrame_iff, h.cfg]
    exact fun hends => htype hends.1

/-- A sound continuation packet of the frame opens without a gap. -/
theorem InFrame.continued {type seq : Half} {mta : Word} (h : InFrame s buf queue now ps pe q payload t)
    (htype : type ≠ s.cfg.startDepth) (hseq : seq = q + 1) (n : Nat) (bc : Word) :
    InFrame s buf queue now ps pe seq payload (opened .depth t type seq mta n bc)
      ∧ (opened .depth t type seq mta n bc).depth.ptype = type := by
  have hnext : seq = t.depth.lastSeq + 1 := by rw [h.lastSeq, hseq]
  have hcont : (latched t.cfg t.depth type seq mta n bc).continuation seq
      = { latched t.cfg t.depth type seq mta n bc with lastSeq := seq } := by
    rcases continuation_cases (latched t.cfg t.depth type seq mta n bc) seq with ⟨-, hcont⟩ | ⟨hne, -⟩
    · exact hcont
    · exact absurd hnext hne
  have hstart : type ≠ t.cfg.startType .depth := by rw [h.cfg]; exact htype
  rw [opened_of_continuation hstart, ep_depth, hcont]
  exact ⟨{ h with lastSeq := rfl, drawn := h.drawn.congr rfl rfl rfl rfl }, rfl⟩

/-- The start hook on a buffer just taken writes the start padding and empties the carry. -/
theorem dcStart_drawn {u : State} (hact : u.depth.active = some { buf := buf, mem := [] }) :
    ∃ ep, dcStart u = { u with depth := ep, dc := { u.dc with carryLen := 0 } }
      ∧ ep = { u.depth with active := ep.active, cursor := ep.cursor, events := ep.events }
      ∧ Drawn u.depth.imageSize u.depth.events buf (padBytes u.depth.padStart) ep := by
  have hempty : Drawn u.depth.imageSize u.depth.events buf [] { u.depth with cursor := 0 } := by
    refine ⟨[], hact, (Nat.zero_min _).symm, rfl, fun a => ?_, fun _ => rfl⟩
    rw [List.getElem?_nil, ite_self]
    rfl
  have hwrote := bufWrite_wrote (ep := { u.depth with cursor := 0 }) hact (Nat.zero_le _) (padBytes u.depth.padStart)
  refine ⟨_, dcStart_of_active hact, ?_, hempty.write hact hwrote⟩
  rw [hwrote.frame]

/-- A start packet begins the frame in the head of the queue. -/
theorem inFrame_of_start {seq : Half} {times : List Stamp} (hact : s.depth.active = none) (havail : s.depth.avail = buf :: queue)
    (hnow : s.depth.nowAnswers = now :: times) (n : Nat) (bc : Word) :
    InFrame s buf queue now ps pe seq [] (opened .depth s s.cfg.startDepth seq (ps ++ pe) n bc)
      ∧ (opened .depth s s.cfg.startDepth seq (ps ++ pe) n bc).depth.ptype = s.cfg.startDepth := by
  have hopened := opened_of_start (e := .depth) (s := s) (seq := seq) (mta := ps ++ pe) n bc
  have hpads : (ps ++ pe : Word).extractLsb' 16 16 = ps ∧ (ps ++ pe : Word).extractLsb' 0 16 = pe :=
    ⟨BitVec.extractLsb'_append_eq_left, BitVec.extractLsb'_append_eq_right⟩
  generalize hlatched : latched s.cfg (s.ep .depth) (s.cfg.startType .depth) seq (ps ++ pe) n bc = lat at hopened
  have hfree : lat.active = none := by rw [← hlatched]; exact hact
  have hqueue : lat.avail = buf :: queue := by rw [← hlatched]; exact havail
  have hps : hdrPadStart lat.hdr = ps := by rw [← hlatched]; exact headerOf_padStart.trans hpads.1
  have hpe : hdrPadEnd lat.hdr = pe := by rw [← hlatched]; exact headerOf_padEnd.trans hpads.2
  have hseq : hdrSeq lat.hdr = seq := by rw [← hlatched]; exact headerOf_seq
  have hts : (stamped .depth lat).ts = now := stamped_of_now (by rw [← hlatched]; exact hnow)
  have htype : lat.ptype = s.cfg.startDepth := by rw [← hlatched]; rfl
  have hregs : lat.imageSize = s.depth.imageSize ∧ lat.events = s.depth.events ∧ lat.completed = s.depth.completed
      ∧ lat.frameCount = s.depth.frameCount := by rw [← hlatched]; exact ⟨rfl, rfl, rfl, rfl⟩
  obtain ⟨hsize, hevs, hcompleted, hcount⟩ := hregs
  rw [openFrame_of_queued hfree hqueue] at hopened
  obtain ⟨ep, hhook, hframe, hdrawn⟩ := dcStart_drawn (buf := buf)
    (u := s.withEp .depth { stamped .depth lat with active := some { buf := buf, mem := [] }, avail := queue }) rfl
  have hdrawn' : Drawn s.depth.imageSize s.depth.events buf (padBytes ps) ep := by
    rw [← hsize, ← hevs, ← hps]
    exact hdrawn
  rw [show codecStart .depth = dcStart from rfl, hhook] at hopened
  have hregs : ep.lastSeq = seq ∧ ep.corrupt = false ∧ ep.avail = queue ∧ ep.completed = s.depth.completed ∧ ep.ts = now
      ∧ ep.frameCount = s.depth.frameCount + 1 ∧ ep.padEnd = pe ∧ ep.ptype = s.cfg.startDepth := by
    rw [hframe]
    exact ⟨hseq, rfl, rfl, hcompleted, hts, congrArg (· + 1) hcount, hpe, htype⟩
  obtain ⟨hlast, hsound, havail', hdone, hstamp, hframes, hpadEnd, hptype⟩ := hregs
  rw [show s.cfg.startDepth = s.cfg.startType .depth from rfl, hopened]
  refine ⟨⟨rfl, rfl, hsound, hlast, havail', hdone, hstamp, hframes, hpadEnd, ?_, rfl, rfl⟩, hptype⟩
  rw [sampleBytes, wholeUnits_of_short (p := []) (by simp), List.flatMap_nil, List.append_nil]
  exact hdrawn'.congr rfl rfl rfl rfl

/-- The packets of the frame after its first: the others extend the image, the last ends the frame. -/
theorem InFrame.rest {seq : Half} {mid : List (Half × List Byte)} {last : List Byte}
    (h : InFrame s buf queue now ps pe q payload t) (hst : t.depth.rstate = .seek1) (hseq : seq = q + 1)
    (hends : s.cfg.endDepth ≠ s.cfg.startDepth) (hlast : fitsPacket last = true)
    (hmid : ∀ p ∈ mid, fitsPacket p.2 = true ∧ p.1 ≠ s.cfg.startDepth ∧ p.1 ≠ s.cfg.endDepth) :
    ∃ u q', (packets s.cfg seq (mid ++ [(s.cfg.endDepth, last)])).foldl (raByte .depth) t = raPktdone .depth u
      ∧ InFrame s buf queue now ps pe q' (payload ++ mid.flatMap (·.2) ++ last) u ∧ u.depth.ptype = s.cfg.endDepth := by
  induction mid generalizing t q seq payload with
  | nil =>
    obtain ⟨u, hrun, hframe, htype⟩ := foldl_raByte_inFrame (mta := 0) hst hlast fun bc => h.continued hends hseq last.length bc
    rw [h.cfg] at hrun
    refine ⟨u, seq, ?_, ?_, htype⟩
    · rw [List.nil_append, packets, packets, List.append_nil, hrun]
    · rw [List.flatMap_nil, List.append_nil]
      exact hframe
  | cons p mid ih =>
    obtain ⟨type, more⟩ := p
    obtain ⟨hfits, hstart, hend⟩ := hmid (type, more) List.mem_cons_self
    obtain ⟨u, hrun, hframe, htype⟩ := foldl_raByte_inFrame (mta := 0) hst hfits fun bc => h.continued hstart hseq more.length bc
    obtain ⟨hnext, hst'⟩ := hframe.pktdone (by rw [htype]; exact hend)
    obtain ⟨v, q', hrest, hframe', htype'⟩ := ih hnext hst' rfl fun p hp => hmid p (List.mem_cons_of_mem _ hp)
    rw [h.cfg] at hrun
    refine ⟨v, q', ?_, ?_, htype'⟩
    · rw [List.cons_append, packets, List.foldl_append, hrun, hrest]
    · rw [List.flatMap_cons, ← List.append_assoc]
      exact hframe'

/-- The frame's end completes the buffer with the whole image (R211, R250). -/
theorem InFrame.delivered {image : List Byte} (h : InFrame s buf queue now ps pe q payload t)
    (htype : t.depth.ptype = s.cfg.endDepth) (himage : image = depthImage s.dc.lut ps pe payload) :
    ∃ m ep, (raPktdone .depth t).depth = ep
      ∧ ep.completed = s.depth.completed ++
          [{ buf := buf, bytes := min image.length s.depth.imageSize, status := .ok, ts := now,
             seq := s.depth.frameCount + 1, mem := m }]
      ∧ (∀ a, m.read a = if a < s.depth.imageSize then image[a]? else none)
      ∧ ep.active = none ∧ ep.avail = queue ∧ ep.rstate = .seek1 ∧ ep.corrupt = false
      ∧ (image.length ≤ s.depth.imageSize → ep.events = s.depth.events) := by
  obtain ⟨m₀, hact⟩ := h.drawn.holds
  have hwrote := bufWrite_wrote hact h.drawn.cursor_le (padBytes t.depth.padEnd)
  have hdrawn := h.drawn.write hact hwrote
  have hframe := hwrote.frame
  rw [h.padEnd, show padBytes ps ++ sampleBytes s.dc.lut payload ++ padBytes pe = image from himage.symm] at hdrawn
  rw [h.padEnd] at hframe
  obtain ⟨m, hheld, hcur, -, hread, hquiet⟩ := hdrawn
  have hends : (t.ep .depth).endsFrame t.cfg .depth = true := by
    rw [endsFrame_iff, h.cfg]
    exact ⟨htype, h.corrupt⟩
  rw [raPktdone_of_endsFrame hends, show codecEnd .depth t = dcEnd t from rfl, dcEnd_of_active hact, h.padEnd]
  generalize t.depth.bufWrite (padBytes pe) = w at hframe hheld hcur hquiet
  have hregs : w.completed = s.depth.completed ∧ w.ts = now ∧ w.frameCount = s.depth.frameCount + 1 ∧ w.avail = queue
      ∧ w.corrupt = false := by
    rw [hframe]
    exact ⟨h.completed, h.ts, h.frameCount, h.avail, h.corrupt⟩
  obtain ⟨hdone, hts, hcount, havail, hsound⟩ := hregs
  refine ⟨m, _, rfl, ?_, hread, ?_, ?_, rfl, ?_, ?_⟩ <;>
    simp only [State.modEp, withEp_depth, ep_depth, Ep.complete, hheld, hdone, hts, hcount, havail, hsound, hcur]
  exact hquiet

end Frame

/-- Settles O26: the start packet begins the frame, the others extend its image, the end packet completes it. -/
theorem depthFrameIsDelivered : Obligations.DepthFrameIsDelivered := by
  intro s buf queue now times seq ps pe first last mid image hon hst hfill hact havail hnow hends hfirst hlast hmid himage
  obtain ⟨u, hrun, hframe, htype⟩ := foldl_raByte_inFrame (mta := ps ++ pe) hst hfirst
    fun bc => inFrame_of_start (seq := seq) hact havail hnow first.length bc
  obtain ⟨hnext, hst'⟩ := hframe.pktdone (by rw [htype]; exact hends.symm)
  obtain ⟨v, q', hrest, hframe', htype'⟩ := hnext.rest (seq := seq + 1) hst' rfl hends hlast hmid
  obtain ⟨m, ep, hdepth, hdelivered⟩ := hframe'.delivered htype' himage
  refine ⟨raPktdone .depth v, m, ?_, ?_⟩
  · rw [exec_raChunk, raChunk_of_enabled (e := .depth) hon, depthFrame, List.foldl_append, hrun, hrest]
  · rw [hdepth]
    obtain ⟨hdone, hrem⟩ := hdelivered
    exact ⟨hdone, hrem⟩

end Sys2Proof.Proofs.DepthFrame
end


section
/-! PROOFS. The colour round trip (R285): what the encoder makes of a string decodes to that string. -/

namespace Sys2Proof.Proofs.RoundTrip

open Sys2Proof.Machine Sys2Proof.Safety Sys2Proof.Proofs.Colour Sys2Proof.Proofs.Samples Sys2Proof.Proofs.Depth

/-! ### Deliveries in pieces (R282) -/

theorem foldl_clByte_holdsBuffer (bytes : List Byte) (s : State) :
    (bytes.foldl clByte s).color.holdsBuffer = s.color.holdsBuffer :=
  Reassembler.foldl_keeps (g := fun t => t.color.holdsBuffer) clByte_holdsBuffer s bytes

theorem runOps_clData {s : State} (h : s.color.holdsBuffer = true) (pieces : List (List Byte)) :
    runOps (pieces.map .clData) s = .next (pieces.flatten.foldl clByte s) := by
  induction pieces generalizing s with
  | nil => rfl
  | cons bytes pieces ih =>
    have hfirst : exec (.clData bytes) s = .next (bytes.foldl clByte s) := by
      rw [exec_clData, clData_of_holdsBuffer h]
    rw [List.map_cons, runOps_cons_of_next hfirst, ih ((foldl_clByte_holdsBuffer bytes s).trans h), List.flatten_cons,
      List.foldl_append]

/-! ### Nibbles in pairs (R116) -/

theorem hiNib_append (n m : Nib) : hiNib (n ++ m) = n := BitVec.extractLsb'_append_eq_left

theorem loNib_append (n m : Nib) : loNib (n ++ m) = m := BitVec.extractLsb'_append_eq_right

theorem hiNib_append_loNib (b : Byte) : hiNib b ++ loNib b = b := by
  apply BitVec.eq_of_toNat_eq
  rw [literal_toNat]
  have hb := b.isLt
  have hhi : (hiNib b).toNat = b.toNat / 16 % 16 := by simp [hiNib, Nat.shiftRight_eq_div_pow]
  have hlo : (loNib b).toNat = b.toNat % 16 := by simp [loNib]
  omega

theorem clByte_append (s : State) (n m : Nib) : clByte s (n ++ m) = clNib (clNib s n) m := by
  rw [clByte, hiNib_append, loNib_append]

/-- The nibble that pads an odd count is a skip. -/
theorem clNib_padding {s : State} (h : s.cl.lit = .none) : clNib s 13 = s := by
  rw [clNib, h]
  rfl

/-- A packed nibble string is decoded nibble by nibble, where it leaves no literal open. -/
theorem foldl_clByte_packNibbles {ns : List Nib} {s : State} (h : (ns.foldl clNib s).cl.lit = .none) :
    (packNibbles ns).foldl clByte s = ns.foldl clNib s := by
  induction ns using packNibbles.induct generalizing s with
  | case1 => rfl
  | case2 n =>
    rw [packNibbles, List.foldl_cons, List.foldl_nil, clByte_append]
    exact clNib_padding h
  | case3 n m r ih =>
    rw [packNibbles, List.foldl_cons, clByte_append]
    exact ih h

/-! ### One sample (R274, R276 to R279) -/

/-- A difference from −6 to +6 has a delta code, which adds it back. -/
theorem deltaCode_of_difference : ∀ k : Byte, -6 ≤ k.toInt → k.toInt ≤ 6 →
    (BitVec.ofInt 4 (k.toInt + 6)).toNat ≤ 12 ∧ (BitVec.ofInt 4 (k.toInt + 6)).setWidth 8 - Config.deltaBias = k := by
  decide

theorem clNib_of_delta {s : State} {n : Nib} (h : s.cl.lit = .none) (hn : n.toNat ≤ 12) :
    clNib s n = clEmit (s.cl.deltaSample n) s := by
  rw [clNib, h]
  exact if_pos hn

theorem clNib_of_literal {s : State} (h : s.cl.lit = .none) (hi lo : Nib) :
    [15, hi, lo].foldl clNib s = clEmit (hi ++ lo) { s with cl := { s.cl with lit := .none, litHi := hi } } := by
  have hopen : clNib s 15 = { s with cl := { s.cl with lit := .wantHi } } := by
    rw [clNib, h]
    rfl
  rw [List.foldl_cons, hopen]
  rfl

/-- The nibbles of one sample emit it; the literal's high half is the only register that the way of coding shows in. -/
theorem foldl_clNib_encodeSample {s : State} (h : s.cl.lit = .none) (v : Byte) :
    ∃ x, (encodeSample s.cl.predictor v).foldl clNib s = clEmit v { s with cl := { s.cl with litHi := x } } := by
  rw [encodeSample]
  split
  · rename_i hk
    obtain ⟨hcode, hadd⟩ := deltaCode_of_difference (v - s.cl.predictor) hk.1 hk.2
    have hsample : s.cl.deltaSample (BitVec.ofInt 4 ((v - s.cl.predictor).toInt + 6)) = v := by
      rw [Cl.deltaSample, BitVec.sub_eq_add_neg, BitVec.add_assoc, ← BitVec.sub_eq_add_neg, hadd]
      exact add_sub_cancel _ _
    refine ⟨s.cl.litHi, ?_⟩
    rw [List.foldl_cons, List.foldl_nil, clNib_of_delta h hcode, hsample]
  · refine ⟨hiNib v, ?_⟩
    rw [clNib_of_literal h, hiNib_append_loNib, ← h]

/-! ### The whole string (R285) -/

theorem advance_litHi (cl : Cl) (w : Nat) (v : Byte) (x : Nib) :
    Cl.advance { cl with litHi := x } w v = { cl.advance w v with litHi := x } := by
  by_cases h : cl.lineCnt + 1 = 2 * w
  · rw [advance_of_eq h, advance_of_eq (cl := { cl with litHi := x }) h]
  · rw [advance_of_ne h, advance_of_ne (cl := { cl with litHi := x }) h]
    rfl

/-- The encoder does not look at the literal's high half. -/
theorem encodeNibbles_litHi (w : Nat) (cl : Cl) (x : Nib) (target : List Byte) :
    encodeNibbles w { cl with litHi := x } target = encodeNibbles w cl target := by
  induction target generalizing cl with
  | nil => rfl
  | cons v target ih =>
    rw [encodeNibbles, encodeNibbles, advance_litHi, ih]
    rfl

/-- The decoder follows the encoder: every target byte is written in order, and no literal stays open. -/
theorem foldl_clNib_encodeNibbles {s : State} (h : s.cl.lit = .none) (target : List Byte) :
    let t := (encodeNibbles s.color.imageWidth s.cl target).foldl clNib s
    t.color = target.foldl (fun ep v => ep.bufWrite [v]) s.color ∧ t.cl.lit = .none := by
  induction target generalizing s with
  | nil => exact ⟨rfl, h⟩
  | cons v target ih =>
    obtain ⟨x, hfirst⟩ := foldl_clNib_encodeSample h v
    generalize hu : clEmit v { s with cl := { s.cl with litHi := x } } = u at hfirst
    have hcolor : u.color = s.color.bufWrite [v] := by rw [← hu]; rfl
    have hwidth : u.color.imageWidth = s.color.imageWidth := by rw [hcolor, bufWrite_frame]
    have hcl : u.cl = { s.cl.advance s.color.imageWidth v with litHi := x } := by
      rw [← hu, ← advance_litHi]
      rfl
    have hrest := ih (s := u) (by rw [hcl]; exact (advance_lit ..).trans h)
    rw [hwidth, hcolor, hcl, encodeNibbles_litHi] at hrest
    rw [encodeNibbles, List.foldl_append, hfirst]
    exact hrest

/-- A string that fits, written from offset 0. -/
theorem wrote_from_zero {ep ep' : Ep} {ab : ActiveBuf} {bytes : List Byte} (h : Wrote ep ab bytes ep') (hcur : ep.cursor = 0)
    (hfits : bytes.length ≤ ep.imageSize) :
    ∃ m, ep'.active = some { ab with mem := m } ∧ ep'.cursor = bytes.length ∧ (∀ a, a < bytes.length → m.read a = bytes[a]?)
      ∧ ep'.events = ep.events := by
  obtain ⟨m, evs, rfl, hread, hquiet⟩ := h
  rw [hcur, Nat.zero_add] at hread hquiet
  refine ⟨m, rfl, ?_, fun a ha => ?_, hquiet hfits⟩
  · dsimp only
    rw [hcur, Nat.zero_add, Nat.min_eq_left hfits]
  · rw [hread, if_pos ⟨Nat.zero_le a, lt_min ha (ha.trans_le hfits)⟩, Nat.sub_zero]

/-- Settles O33: the pieces are one packed nibble string, which the decoder turns into one write of the target. -/
theorem colourRoundTrip : Obligations.ColourRoundTrip := by
  intro s s1 ab target pieces hact hfits hstart hpieces
  have hs1 : s1 = clStart s := by
    rw [exec_clStart] at hstart
    exact (Host.Outcome.next.inj hstart).symm
  rw [clStart_of_holdsBuffer (holdsBuffer_of_active hact)] at hs1
  have hcolor : s1.color = { s.color with cursor := 0 } := by rw [hs1]
  have hheld : s1.color.active = some ab := by rw [hcolor]; exact hact
  have hwidth : s1.color.imageWidth = s.color.imageWidth := by rw [hcolor]
  have hlit : s1.cl.lit = .none := by rw [hs1]
  obtain ⟨hdecoded, hclosed⟩ := foldl_clNib_encodeNibbles hlit target
  have hwrote := foldl_bufWrite_wrote hheld (by rw [hcolor]; exact Nat.zero_le _) (fun v => [v]) target
  rw [hwidth] at hdecoded hclosed
  rw [← hdecoded, List.flatMap_singleton'] at hwrote
  obtain ⟨m, hheld', hcur, hread, hquiet⟩ := wrote_from_zero hwrote (by rw [hcolor]) (by rw [hcolor]; exact hfits)
  have hrun : runOps (pieces.map .clData) s1
      = .next ((encodeNibbles s.color.imageWidth s1.cl target).foldl clNib s1) := by
    rw [runOps_clData (holdsBuffer_of_active hheld), hpieces, encodeColour, foldl_clByte_packNibbles hclosed]
  refine ⟨_, hrun, hcur, fun a ha => ?_, hquiet.trans (by rw [hcolor])⟩
  rw [bufByte_of_active (e := .color) hheld']
  exact hread a ha

end Sys2Proof.Proofs.RoundTrip
end


section
/-! PROOFS. The minifloat unit (40_minifloat.md): the fields of a word, its value, and the four operations' results. -/

namespace Sys2Proof.Proofs.Minifloat

open Sys2Proof.Machine Sys2Proof.Safety

/-! ### The fields of a word (R140) -/

section Fields

variable {w a b : Word}

theorem mfSign_eq (w : Word) : mfSign w = decide (2 ^ 31 ≤ w.toNat) :=
  (BitVec.msb_eq_getLsbD_last w).symm.trans (BitVec.msb_eq_decide w)

theorem mfExp_eq (w : Word) : mfExp w = w.toNat / 2 ^ 23 % 2 ^ 8 := by
  rw [mfExp, BitVec.extractLsb'_toNat, Nat.shiftRight_eq_div_pow]

theorem mfMant_eq (w : Word) : mfMant w = 2 ^ 23 + w.toNat % 2 ^ 23 := by
  rw [mfMant, mfFrac, BitVec.extractLsb'_toNat, Nat.shiftRight_zero]

theorem mfMag_eq (w : Word) : mfMag w = w.toNat % 2 ^ 31 := by
  rw [mfMag, BitVec.extractLsb'_toNat, Nat.shiftRight_zero]

theorem le_mfMant (w : Word) : 2 ^ 23 ≤ mfMant w := by rw [mfMant_eq]; omega

theorem mfMant_lt (w : Word) : mfMant w < 2 ^ 24 := by rw [mfMant_eq]; omega

/-- The magnitude bits are the exponent, then the fraction. -/
theorem mfMag_eq_exp_mant (w : Word) : mfMag w + 2 ^ 23 = mfExp w * 2 ^ 23 + mfMant w := by
  have hw := w.isLt
  rw [mfMag_eq, mfExp_eq, mfMant_eq]
  omega

theorem eq_of_sign_mag (hsign : mfSign a = mfSign b) (hmag : mfMag a = mfMag b) : a = b := by
  rw [mfSign_eq, mfSign_eq, decide_eq_decide] at hsign
  rw [mfMag_eq, mfMag_eq] at hmag
  have ha := a.isLt
  have hb := b.isLt
  exact BitVec.eq_of_toNat_eq (by omega)

theorem exp_mant_of_mag (h : mfMag a = mfMag b) : mfExp a = mfExp b ∧ mfMant a = mfMant b := by
  have ha := mfMag_eq_exp_mant a
  have hb := mfMag_eq_exp_mant b
  have hma := mfMant_lt a
  have hmb := mfMant_lt b
  have hla := le_mfMant a
  have hlb := le_mfMant b
  omega

theorem mfWellFormed_iff : mfWellFormed w = true ↔ w = 0 ∨ 1 ≤ mfExp w ∧ mfExp w ≤ 254 := by
  simp [mfWellFormed]

theorem exp_of_wellFormed (h : mfWellFormed w = true) (hne : w ≠ 0) : 1 ≤ mfExp w ∧ mfExp w ≤ 254 :=
  (mfWellFormed_iff.1 h).resolve_left hne

theorem not_wellFormed_both (h : mfWellFormed a = false ∨ mfWellFormed b = false) :
    ¬ (mfWellFormed a && mfWellFormed b) = true := by
  rcases h with h | h <;> simp [h]

end Fields

/-! ### Pack (R140) -/

section Pack

variable {sign : Bool} {e m : Nat}

theorem mfPack_toNat (he : e < 2 ^ 8) (hm : 2 ^ 23 ≤ m) (hm' : m < 2 ^ 24) :
    (mfPack sign e m).toNat = sign.toNat * 2 ^ 31 + e * 2 ^ 23 + (m - 2 ^ 23) := by
  have hs := sign.toNat_le
  rw [mfPack, BitVec.toNat_ofNat]
  exact Nat.mod_eq_of_lt (by omega)

theorem mfPack_fields (he : e < 2 ^ 8) (hm : 2 ^ 23 ≤ m) (hm' : m < 2 ^ 24) :
    mfSign (mfPack sign e m) = sign ∧ mfExp (mfPack sign e m) = e ∧ mfMant (mfPack sign e m) = m := by
  rw [mfSign_eq, mfExp_eq, mfMant_eq, mfPack_toNat he hm hm']
  refine ⟨?_, by omega, by omega⟩
  cases sign
  · exact decide_eq_false (by rw [Bool.toNat_false]; omega)
  · exact decide_eq_true (by rw [Bool.toNat_true]; omega)

theorem mfPack_ne_zero (he : 1 ≤ e) (he' : e < 2 ^ 8) (hm : 2 ^ 23 ≤ m) (hm' : m < 2 ^ 24) : mfPack sign e m ≠ 0 := by
  intro h
  have hzero := congrArg BitVec.toNat h
  rw [mfPack_toNat he' hm hm', show (0 : Word).toNat = 0 from rfl] at hzero
  omega

theorem mfPack_wellFormed (he : 1 ≤ e) (he' : e ≤ 254) (hm : 2 ^ 23 ≤ m) (hm' : m < 2 ^ 24) :
    mfWellFormed (mfPack sign e m) = true := by
  obtain ⟨-, hexp, -⟩ := mfPack_fields (sign := sign) (show e < 2 ^ 8 by omega) hm hm'
  rw [mfWellFormed_iff, hexp]
  exact .inr ⟨he, he'⟩

theorem mfPackChecked_of_mem {e : Int} (h : 1 ≤ e ∧ e ≤ 254) : mfPackChecked sign e m = some (mfPack sign e.toNat m) := if_pos h

theorem mfPackChecked_of_not_mem {e : Int} (h : e < 1 ∨ 254 < e) : mfPackChecked sign e m = none := if_neg (by omega)

end Pack

/-! ### The value of a word (R140) -/

/-- The factor of a sign. -/
def signFactor (sign : Bool) : ℚ := if sign then -1 else 1

section Value

variable {w : Word} {sign : Bool} {e m : Nat}

theorem mfValue_zero : mfValue 0 = 0 := if_pos rfl

theorem mfValue_of_ne (h : w ≠ 0) : mfValue w = signFactor (mfSign w) * mfMant w * 2 ^ ((mfExp w : Int) - 150) := if_neg h

theorem signFactor_xor (a b : Bool) : signFactor (a ^^ b) = signFactor a * signFactor b := by
  cases a <;> cases b <;> norm_num [signFactor]

theorem signFactor_mul_self (a : Bool) : signFactor a * signFactor a = 1 := by
  cases a <;> norm_num [signFactor]

theorem abs_signFactor (a : Bool) : |signFactor a| = 1 := by
  cases a <;> norm_num [signFactor]

theorem signFactor_of_ne {a b : Bool} (h : a ≠ b) : signFactor b = -signFactor a := by
  cases a <;> cases b <;> simp_all [signFactor]

theorem abs_mfValue_of_ne (h : w ≠ 0) : |mfValue w| = mfMant w * 2 ^ ((mfExp w : Int) - 150) := by
  rw [mfValue_of_ne h, abs_mul, abs_mul, abs_signFactor, one_mul, Nat.abs_cast, abs_of_pos (zpow_pos two_pos _)]

theorem mfValue_mfPack (he : 1 ≤ e) (he' : e < 2 ^ 8) (hm : 2 ^ 23 ≤ m) (hm' : m < 2 ^ 24) :
    mfValue (mfPack sign e m) = signFactor sign * m * 2 ^ ((e : Int) - 150) := by
  obtain ⟨hsign, hexp, hmant⟩ := mfPack_fields (sign := sign) he' hm hm'
  rw [mfValue_of_ne (mfPack_ne_zero he he' hm hm'), hsign, hexp, hmant]

/-- What `Pack` answers where its check passes. -/
theorem mfValue_of_packChecked {e : Int} (hm : 2 ^ 23 ≤ m) (hm' : m < 2 ^ 24) (h : mfPackChecked sign e m = some w) :
    mfValue w = signFactor sign * m * 2 ^ (e - 150) := by
  rw [mfPackChecked] at h
  split at h
  · rename_i he
    rw [← Option.some.inj h, mfValue_mfPack (by omega) (by omega) hm hm', Int.toNat_of_nonneg (by omega)]
  · cases h

end Value

/-! ### The operations as functions (R149) -/

section Answers

variable {s : State} {a b : Word}

theorem exec_mfU2f (n : Word) (s : State) : exec (.mfU2f n) s = mfAnswer .word (mfU2f n.toNat) s := rfl

theorem exec_mfMul (a b : Word) (s : State) : exec (.mfMul a b) s = mfAnswer .word (mfMul a b) s := rfl

theorem exec_mfAdd (a b : Word) (s : State) : exec (.mfAdd a b) s = mfAnswer .word (mfAdd a b) s := rfl

theorem exec_mfDiv (a b : Word) (s : State) : exec (.mfDiv a b) s = mfAnswer .int (mfDiv a b) s := rfl

theorem mfAnswer_some (f : Word → OpResult) (w : Word) (s : State) : mfAnswer f (some w) s = .next (s.answer (f w)) := rfl

theorem mfAnswer_none (f : Word → OpResult) (s : State) : mfAnswer f none s = .refused .mfDomain := rfl

/-- A packed result is answered where the exponent fits, and refused elsewhere. -/
theorem mfAnswer_packChecked (sign : Bool) (e : Int) (m : Nat) (s : State) :
    (1 ≤ e ∧ e ≤ 254 → mfAnswer .word (mfPackChecked sign e m) s = .next (s.answer (.word (mfPack sign e.toNat m))))
      ∧ (e < 1 ∨ 254 < e → mfAnswer .word (mfPackChecked sign e m) s = .refused .mfDomain) :=
  ⟨fun he => by rw [mfPackChecked_of_mem he, mfAnswer_some], fun he => by rw [mfPackChecked_of_not_mem he, mfAnswer_none]⟩

/-- The word that a minifloat operation answers is its result. -/
theorem eq_some_of_mfAnswer {r : Option Word} {w : Word} (h : mfAnswer .word r s = .next (s.answer (.word w))) : r = some w := by
  cases r with
  | none => cases h
  | some v =>
    have hresults := congrArg State.results (Host.Outcome.next.inj h)
    obtain ⟨-, hlast⟩ := List.append_inj' (show s.results ++ [.word v] = s.results ++ [.word w] from hresults) rfl
    cases hlast
    rfl

end Answers

/-! ### MF.U2F (R143) -/

theorem log2_of_bounds {n k : Nat} (h : 2 ^ k ≤ n) (h' : n < 2 ^ (k + 1)) : n.log2 = k :=
  (Nat.log2_eq_iff (by have := Nat.two_pow_pos k; omega)).2 ⟨h, h'⟩

theorem mfU2f_of_bounds {n k : Nat} (hn : n < 2 ^ 16) (h : 2 ^ k ≤ n) (h' : n < 2 ^ (k + 1)) :
    mfU2f n = some (mfPack false (127 + k) (n * 2 ^ (23 - k))) := by
  have hpos := Nat.two_pow_pos k
  rw [mfU2f, if_neg (by omega), if_pos hn, log2_of_bounds h h', Nat.shiftLeft_eq]

theorem mfValue_u2f {n k : Nat} (hn : n < 2 ^ 16) (h : 2 ^ k ≤ n) (h' : n < 2 ^ (k + 1)) :
    mfWellFormed (mfPack false (127 + k) (n * 2 ^ (23 - k))) = true
      ∧ mfValue (mfPack false (127 + k) (n * 2 ^ (23 - k))) = n := by
  have hk : k < 16 := (Nat.pow_lt_pow_iff_right (a := 2) (by omega)).1 (h.trans_lt hn)
  have hsplit : 2 ^ k * 2 ^ (23 - k) = 2 ^ 23 := by rw [← pow_add]; congr 1; omega
  have hlow : 2 ^ 23 ≤ n * 2 ^ (23 - k) := hsplit ▸ Nat.mul_le_mul_right _ h
  have hhigh : n * 2 ^ (23 - k) < 2 ^ 24 := by
    have := Nat.mul_lt_mul_of_pos_right h' (Nat.two_pow_pos (23 - k))
    rw [pow_succ, Nat.mul_right_comm, hsplit] at this
    exact this
  refine ⟨mfPack_wellFormed (by omega) (by omega) hlow hhigh, ?_⟩
  rw [mfValue_mfPack (by omega) (by omega) hlow hhigh]
  have hunit : (2 : ℚ) ^ (23 - k) * 2 ^ (((127 + k : Nat) : Int) - 150) = 1 := by
    rw [← zpow_natCast, ← zpow_add₀ two_ne_zero, show ((23 - k : Nat) : Int) + (((127 + k : Nat) : Int) - 150) = 0 by omega,
      zpow_zero]
  rw [show signFactor false = 1 from rfl, one_mul, Nat.cast_mul, mul_assoc, Nat.cast_pow, Nat.cast_ofNat, hunit, mul_one]

/-- Settles O10: every number of the domain has a highest bit. -/
theorem mfU2fConvertsExactly : Obligations.MfU2fConvertsExactly := by
  intro s n
  refine ⟨?_, fun k hn h h' => ?_, fun hn => ?_, fun hn => ?_⟩
  · rintro rfl
    rfl
  · rw [exec_mfU2f, mfU2f_of_bounds hn h h', mfAnswer_some]
  · by_cases hzero : n.toNat = 0
    · rw [exec_mfU2f, hzero]
      exact ⟨0, rfl, rfl, mfValue_zero⟩
    · have h := Nat.log2_self_le hzero
      have h' := Nat.lt_log2_self (n := n.toNat)
      rw [exec_mfU2f, mfU2f_of_bounds hn h h', mfAnswer_some]
      exact ⟨_, rfl, mfValue_u2f hn h h'⟩
  · rw [exec_mfU2f, mfU2f, if_neg (by omega), if_neg (by omega), mfAnswer_none]

/-! ### MF.MUL (R144) -/

section Mul

variable {a b : Word}

theorem mfMul_of_malformed (h : mfWellFormed a = false ∨ mfWellFormed b = false) : mfMul a b = none := by
  rw [mfMul, if_neg (not_wellFormed_both h)]

theorem mfMul_of_zero (ha : mfWellFormed a = true) (hb : mfWellFormed b = true) (h : a = 0 ∨ b = 0) : mfMul a b = some 0 := by
  rw [mfMul, ha, hb, if_pos (by rfl), if_pos h]

/-- The product of two mantissas has 47 or 48 bits. -/
theorem mfMant_mul_bounds (a b : Word) : 2 ^ 46 ≤ mfMant a * mfMant b ∧ mfMant a * mfMant b < 2 ^ 48 := by
  have hlow := Nat.mul_le_mul (le_mfMant a) (le_mfMant b)
  have hhigh := Nat.mul_lt_mul'' (mfMant_lt a) (mfMant_lt b)
  omega

/-- The result of two factors that are not zero: the product cut by `j` bits, where it has `24 + j`. -/
theorem mfMul_of_bounds {j : Nat} (ha : mfWellFormed a = true) (hb : mfWellFormed b = true) (hane : a ≠ 0) (hbne : b ≠ 0)
    (h : 2 ^ (23 + j) ≤ mfMant a * mfMant b) (h' : mfMant a * mfMant b < 2 ^ (24 + j)) :
    mfMul a b = mfPackChecked (mfSign a ^^ mfSign b) ((mfExp a : Int) + mfExp b - 150 + j) (mfMant a * mfMant b / 2 ^ j)
      ∧ (j = 23 ∨ j = 24) := by
  obtain ⟨hlow, hhigh⟩ := mfMant_mul_bounds a b
  have hj : j = 23 ∨ j = 24 := by
    have hupper : 23 + j < 48 := (Nat.pow_lt_pow_iff_right (a := 2) (by omega)).1 (h.trans_lt hhigh)
    have hlower : 46 < 24 + j := (Nat.pow_lt_pow_iff_right (a := 2) (by omega)).1 (hlow.trans_lt h')
    omega
  refine ⟨?_, hj⟩
  have hlog : (mfMant a * mfMant b).log2 = 23 + j := log2_of_bounds h (by rw [show 23 + j + 1 = 24 + j by omega]; exact h')
  rw [mfMul, ha, hb, if_pos (by rfl), if_neg (not_or.2 ⟨hane, hbne⟩)]
  dsimp only
  rw [hlog, Nat.shiftRight_eq_div_pow, show 24 - (47 - (23 + j)) = j by omega]
  congr 1
  omega

end Mul

/-- Settles O11: both normalisations are one formula. -/
theorem mfMulPacksTheTruncatedProduct : Obligations.MfMulPacksTheTruncatedProduct := by
  intro s a b
  refine ⟨fun h => ?_, fun ha hb h => ?_, fun e m ha hb hane hbne hcase => ?_⟩
  · rw [exec_mfMul, mfMul_of_malformed h, mfAnswer_none]
  · rw [exec_mfMul, mfMul_of_zero ha hb h, mfAnswer_some]
  · have hresult : mfMul a b = mfPackChecked (mfSign a ^^ mfSign b) e m := by
      obtain ⟨hlow, hhigh⟩ := mfMant_mul_bounds a b
      rcases hcase with ⟨hsmall, rfl, rfl⟩ | ⟨hlarge, rfl, rfl⟩
      · rw [(mfMul_of_bounds (j := 23) ha hb hane hbne hlow hsmall).1]
        congr 1
        omega
      · rw [(mfMul_of_bounds (j := 24) ha hb hane hbne hlarge hhigh).1]
        congr 1
        omega
    rw [exec_mfMul, hresult]
    exact mfAnswer_packChecked _ e m s

/-! ### MF.ADD (R145) -/

section Add

variable {a b hi lo : Word}

theorem mfAdd_of_malformed (h : mfWellFormed a = false ∨ mfWellFormed b = false) : mfAdd a b = none := by
  rw [mfAdd, if_neg (not_wellFormed_both h)]

theorem mfAdd_of_wellFormed (ha : mfWellFormed a = true) (hb : mfWellFormed b = true) :
    mfAdd a b = if a = 0 then some b else if b = 0 then some a
      else if mfMag b ≤ mfMag a then mfAddOrdered a b else mfAddOrdered b a := by
  rw [mfAdd, ha, hb]
  exact if_pos rfl

/-- The mantissa of the smaller operand, aligned with the larger one's: bits are dropped. -/
def aligned (hi lo : Word) : Nat := mfMant lo / 2 ^ (mfExp hi - mfExp lo)

/-- A shift by 24 or more drops every bit. -/
theorem aligned_eq (hi lo : Word) :
    (if mfExp hi - mfExp lo < 24 then mfMant lo / 2 ^ (mfExp hi - mfExp lo) else 0) = aligned hi lo := by
  by_cases hd : mfExp hi - mfExp lo < 24
  · exact if_pos hd
  · have hfar : 2 ^ 24 ≤ 2 ^ (mfExp hi - mfExp lo) := Nat.pow_le_pow_right (by omega) (Nat.le_of_not_lt hd)
    rw [if_neg hd, aligned, Nat.div_eq_of_lt ((mfMant_lt lo).trans_le hfar)]

theorem aligned_le (h : mfMag lo ≤ mfMag hi) : aligned hi lo ≤ mfMant hi := by
  have hhi := mfMag_eq_exp_mant hi
  have hlo := mfMag_eq_exp_mant lo
  have hmhi := le_mfMant hi
  have hmlo := mfMant_lt lo
  by_cases hexp : mfExp lo < mfExp hi
  · have htwo : 2 ^ 1 ≤ 2 ^ (mfExp hi - mfExp lo) := Nat.pow_le_pow_right (by omega) (by omega)
    have hhalf : aligned hi lo ≤ mfMant lo / 2 ^ 1 := Nat.div_le_div_left htwo (by omega)
    omega
  · have hdiff : mfExp hi - mfExp lo = 0 := by omega
    rw [aligned, hdiff, pow_zero, Nat.div_one]
    have := mfMant_lt hi
    have := le_mfMant lo
    omega

theorem mfAddOrdered_eq (hi lo : Word) :
    mfAddOrdered hi lo =
      if mfSign hi = mfSign lo then
        if 2 ^ 24 ≤ mfMant hi + aligned hi lo then
          mfPackChecked (mfSign hi) (mfExp hi + 1) ((mfMant hi + aligned hi lo) / 2)
        else mfPackChecked (mfSign hi) (mfExp hi) (mfMant hi + aligned hi lo)
      else if mfMant hi - aligned hi lo = 0 then some 0
      else mfPackChecked (mfSign hi) ((mfExp hi : Int) - (23 - (mfMant hi - aligned hi lo).log2 : Nat))
        ((mfMant hi - aligned hi lo) * 2 ^ (23 - (mfMant hi - aligned hi lo).log2)) := by
  rw [mfAddOrdered]
  simp only [Nat.shiftRight_eq_div_pow, Nat.shiftLeft_eq, aligned_eq, pow_one]

/-- The shift that brings a difference back to 24 bits is the only one. -/
theorem log2_of_normalised {t lz : Nat} (h : 2 ^ 23 ≤ t * 2 ^ lz) (h' : t * 2 ^ lz < 2 ^ 24) : 23 - t.log2 = lz ∧ t ≠ 0 := by
  have hne : t ≠ 0 := by
    rintro rfl
    rw [Nat.zero_mul] at h
    omega
  have hpos : 0 < 2 ^ lz := Nat.two_pow_pos lz
  have hlz : lz ≤ 23 := by
    have hsmall : 2 ^ lz < 2 ^ 24 := (Nat.le_mul_of_pos_left _ (Nat.pos_of_ne_zero hne)).trans_lt h'
    have := (Nat.pow_lt_pow_iff_right (a := 2) (by omega)).1 hsmall
    omega
  have hlow : 2 ^ (23 - lz) ≤ t := by
    refine Nat.le_of_mul_le_mul_right ?_ hpos
    rw [← pow_add, show 23 - lz + lz = 23 by omega]
    exact h
  have hhigh : t < 2 ^ (23 - lz + 1) := by
    refine Nat.lt_of_mul_lt_mul_right (a := 2 ^ lz) ?_
    rw [← pow_add, show 23 - lz + 1 + lz = 24 by omega]
    exact h'
  rw [log2_of_bounds hlow hhigh]
  exact ⟨by omega, hne⟩

theorem mfAddOrdered_of_sum (hsign : mfSign hi = mfSign lo) (h : mfMant hi + aligned hi lo < 2 ^ 24) :
    mfAddOrdered hi lo = mfPackChecked (mfSign hi) (mfExp hi) (mfMant hi + aligned hi lo) := by
  rw [mfAddOrdered_eq, if_pos hsign, if_neg (Nat.not_le.2 h)]

theorem mfAddOrdered_of_carry (hsign : mfSign hi = mfSign lo) (h : 2 ^ 24 ≤ mfMant hi + aligned hi lo) :
    mfAddOrdered hi lo = mfPackChecked (mfSign hi) (mfExp hi + 1) ((mfMant hi + aligned hi lo) / 2) := by
  rw [mfAddOrdered_eq, if_pos hsign, if_pos h]

theorem mfAddOrdered_of_cancel (hsign : mfSign hi ≠ mfSign lo) (h : mfMant hi = aligned hi lo) :
    mfAddOrdered hi lo = some 0 := by
  rw [mfAddOrdered_eq, if_neg hsign, if_pos (Nat.sub_eq_zero_of_le (Nat.le_of_eq h))]

theorem mfAddOrdered_of_difference {lz : Nat} (hsign : mfSign hi ≠ mfSign lo)
    (h : 2 ^ 23 ≤ (mfMant hi - aligned hi lo) * 2 ^ lz) (h' : (mfMant hi - aligned hi lo) * 2 ^ lz < 2 ^ 24) :
    mfAddOrdered hi lo = mfPackChecked (mfSign hi) ((mfExp hi : Int) - lz) ((mfMant hi - aligned hi lo) * 2 ^ lz) := by
  obtain ⟨hshift, hne⟩ := log2_of_normalised h h'
  rw [mfAddOrdered_eq, if_neg hsign, if_neg hne, hshift]

/-- Operands of equal magnitude and different signs cancel. -/
theorem mfAddOrdered_of_opposite (hmag : mfMag a = mfMag b) (hsign : mfSign a ≠ mfSign b) : mfAddOrdered a b = some 0 := by
  obtain ⟨hexp, hmant⟩ := exp_mant_of_mag hmag
  refine mfAddOrdered_of_cancel hsign ?_
  rw [aligned, hexp, Nat.sub_self, pow_zero, Nat.div_one, hmant]

theorem mfAddOrdered_comm_of_mag (hmag : mfMag a = mfMag b) : mfAddOrdered a b = mfAddOrdered b a := by
  by_cases hsign : mfSign a = mfSign b
  · rw [eq_of_sign_mag hsign hmag]
  · rw [mfAddOrdered_of_opposite hmag hsign, mfAddOrdered_of_opposite hmag.symm (Ne.symm hsign)]

/-- Commutative bit for bit. -/
theorem mfAdd_comm (a b : Word) : mfAdd a b = mfAdd b a := by
  by_cases hwf : mfWellFormed a = true ∧ mfWellFormed b = true
  · obtain ⟨ha, hb⟩ := hwf
    rw [mfAdd_of_wellFormed ha hb, mfAdd_of_wellFormed hb ha]
    by_cases hazero : a = 0
    · by_cases hbzero : b = 0
      · rw [hazero, hbzero]
      · rw [if_pos hazero, if_neg hbzero, if_pos hazero]
    · by_cases hbzero : b = 0
      · rw [if_neg hazero, if_pos hbzero, if_pos hbzero]
      · rw [if_neg hazero, if_neg hbzero, if_neg hbzero, if_neg hazero]
        rcases Nat.lt_trichotomy (mfMag a) (mfMag b) with hlt | heq | hgt
        · rw [if_neg (by omega), if_pos (by omega)]
        · rw [if_pos (by omega), if_pos (by omega), mfAddOrdered_comm_of_mag heq]
        · rw [if_pos (by omega), if_neg (by omega)]
  · have hbad : mfWellFormed a = false ∨ mfWellFormed b = false := by
      rw [not_and_or, Bool.not_eq_true, Bool.not_eq_true] at hwf
      exact hwf
    rw [mfAdd_of_malformed hbad, mfAdd_of_malformed hbad.symm]

/-- Operands that are not zero are ordered by magnitude. -/
theorem mfAdd_of_ordered (ha : mfWellFormed a = true) (hb : mfWellFormed b = true) (hane : a ≠ 0) (hbne : b ≠ 0)
    (h : (mfMag b ≤ mfMag a ∧ hi = a ∧ lo = b) ∨ (mfMag a < mfMag b ∧ hi = b ∧ lo = a)) :
    mfAdd a b = mfAddOrdered hi lo := by
  rw [mfAdd_of_wellFormed ha hb, if_neg hane, if_neg hbne]
  rcases h with ⟨hle, rfl, rfl⟩ | ⟨hlt, rfl, rfl⟩
  · exact if_pos hle
  · exact if_neg (Nat.not_le.2 hlt)

end Add

/-- Settles O12: the three outcomes of the ordered sum; operands of equal magnitude cancel or are the same word. -/
theorem mfAddAlignsAndTruncates : Obligations.MfAddAlignsAndTruncates := by
  intro s a b
  refine ⟨fun h => ?_, fun hazero hb => ?_, fun hbzero ha => ?_, fun hi lo ml m e ha hb hane hbne hord hml => ?_, ?_⟩
  · rw [exec_mfAdd, mfAdd_of_malformed h, mfAnswer_none]
  · rw [exec_mfAdd, mfAdd_of_wellFormed (by rw [hazero]; rfl) hb, if_pos hazero, mfAnswer_some]
  · rw [exec_mfAdd, mfAdd_comm, mfAdd_of_wellFormed (by rw [hbzero]; rfl) ha, if_pos hbzero, mfAnswer_some]
  · rw [aligned_eq] at hml
    subst hml
    rw [exec_mfAdd, mfAdd_of_ordered ha hb hane hbne hord]
    refine ⟨fun hsign hcancel => by rw [mfAddOrdered_of_cancel hsign hcancel, mfAnswer_some], fun hcase => ?_⟩
    have hresult : mfAddOrdered hi lo = mfPackChecked (mfSign hi) e m := by
      rcases hcase with ⟨hsign, hlarge, rfl, rfl⟩ | ⟨hsign, hsmall, rfl, rfl⟩ | ⟨hsign, hlow, hhigh, lz, rfl, rfl⟩
      · exact mfAddOrdered_of_carry hsign hlarge
      · exact mfAddOrdered_of_sum hsign hsmall
      · exact mfAddOrdered_of_difference hsign hlow hhigh
    rw [hresult]
    exact mfAnswer_packChecked _ e m s
  · rw [exec_mfAdd, exec_mfAdd, mfAdd_comm]

end Sys2Proof.Proofs.Minifloat
end


section
/-! PROOFS. The minifloat operations against the rational numbers (R148, R151). -/

namespace Sys2Proof.Proofs.MinifloatError

open Sys2Proof.Machine Sys2Proof.Safety Sys2Proof.Proofs.Minifloat

/-! ### Integer division against the exact quotient -/

theorem div_mul_le_cast (p q : Nat) : ((p / q * q : Nat) : ℚ) ≤ p := Nat.cast_le.2 (Nat.div_mul_le_self p q)

theorem cast_sub_lt_of_div {q : Nat} (hq : 0 < q) (p : Nat) : (p : ℚ) - (p / q * q : Nat) < q := by
  rw [sub_lt_iff_lt_add']
  exact_mod_cast Nat.lt_div_mul_add hq

/-- The unit of the larger exponent in units of the smaller one. -/
theorem unit_of_le {m n : Nat} (h : m ≤ n) :
    (2 : ℚ) ^ ((n : Int) - 150) = (2 ^ (n - m) : Nat) * 2 ^ ((m : Int) - 150) := by
  rw [show (n : Int) - 150 = ((n - m : Nat) : Int) + ((m : Int) - 150) by omega, zpow_add₀ two_ne_zero, zpow_natCast,
    Nat.cast_pow, Nat.cast_ofNat]

/-! ### MF.MUL (R151 (c)) -/

section Mul

variable {a b w : Word}

/-- The product and the result in the same unit: the result drops fewer than `2^j` of it, and the product has `24 + j`
bits. -/
theorem mul_in_units (ha : mfWellFormed a = true) (hb : mfWellFormed b = true) (hane : a ≠ 0) (hbne : b ≠ 0)
    (h : mfMul a b = some w) :
    ∃ (g u : ℚ) (j : Nat), |g| = 1 ∧ 0 < u ∧ 2 ^ (23 + j) ≤ mfMant a * mfMant b
      ∧ mfValue a * mfValue b = g * (mfMant a * mfMant b : Nat) * u
      ∧ mfValue w = g * (mfMant a * mfMant b / 2 ^ j * 2 ^ j : Nat) * u := by
  obtain ⟨hlow, hhigh⟩ := mfMant_mul_bounds a b
  have hbits : ∃ j, 2 ^ (23 + j) ≤ mfMant a * mfMant b ∧ mfMant a * mfMant b < 2 ^ (24 + j) := by
    by_cases hsmall : mfMant a * mfMant b < 2 ^ 47
    · exact ⟨23, hlow, hsmall⟩
    · exact ⟨24, Nat.le_of_not_lt hsmall, hhigh⟩
  obtain ⟨j, hj, hj'⟩ := hbits
  have hmant : 2 ^ 23 ≤ mfMant a * mfMant b / 2 ^ j :=
    (Nat.le_div_iff_mul_le (Nat.two_pow_pos j)).2 (by rw [← pow_add]; exact hj)
  have hmant' : mfMant a * mfMant b / 2 ^ j < 2 ^ 24 :=
    (Nat.div_lt_iff_lt_mul (Nat.two_pow_pos j)).2 (by rw [← pow_add]; exact hj')
  rw [(mfMul_of_bounds ha hb hane hbne hj hj').1] at h
  refine ⟨signFactor (mfSign a ^^ mfSign b), 2 ^ ((mfExp a : Int) + mfExp b - 300), j, abs_signFactor _, zpow_pos two_pos _,
    hj, ?_, ?_⟩
  · rw [mfValue_of_ne hane, mfValue_of_ne hbne, signFactor_xor,
      show (mfExp a : Int) + mfExp b - 300 = ((mfExp a : Int) - 150) + ((mfExp b : Int) - 150) by ring, zpow_add₀ two_ne_zero]
    push_cast
    ring
  · rw [mfValue_of_packChecked hmant hmant' h,
      show (mfExp a : Int) + mfExp b - 150 + j - 150 = ((mfExp a : Int) + mfExp b - 300) + j by ring, zpow_add₀ two_ne_zero,
      zpow_natCast]
    push_cast
    ring

/-- Truncating a product of at least `24 + j` bits to a multiple of `2^j`. -/
theorem truncated_within {g u : ℚ} {p j : Nat} (hg : |g| = 1) (hu : 0 < u) (hp : 2 ^ (23 + j) ≤ p) :
    |g * (p / 2 ^ j * 2 ^ j : Nat) * u| ≤ |g * p * u|
      ∧ |g * p * u| - |g * (p / 2 ^ j * 2 ^ j : Nat) * u| ≤ |g * p * u| / 2 ^ 22
      ∧ 0 ≤ g * (p / 2 ^ j * 2 ^ j : Nat) * u * (g * p * u) := by
  have hle := div_mul_le_cast p (2 ^ j)
  have hlt := cast_sub_lt_of_div (Nat.two_pow_pos j) p
  have hbits : ((2 ^ j : Nat) : ℚ) * 2 ^ 23 ≤ p := by
    rw [pow_add, Nat.mul_comm] at hp
    exact_mod_cast hp
  generalize hn : ((p / 2 ^ j * 2 ^ j : Nat) : ℚ) = n at hle hlt ⊢
  have hn0 : 0 ≤ n := by rw [← hn]; exact Nat.cast_nonneg _
  have hp0 : (0 : ℚ) ≤ p := Nat.cast_nonneg p
  rw [abs_mul, abs_mul, abs_mul, abs_mul, hg, one_mul, one_mul, abs_of_nonneg hn0, abs_of_nonneg hp0, abs_of_pos hu]
  refine ⟨mul_le_mul_of_nonneg_right hle hu.le, ?_, ?_⟩
  · rw [← sub_mul, div_eq_mul_inv, mul_right_comm]
    refine mul_le_mul_of_nonneg_right ?_ hu.le
    norm_num
    linarith
  · have hsq : g * g = 1 := by rw [← abs_mul_abs_self, hg, one_mul]
    calc (0 : ℚ) ≤ n * p * (u * u) := by positivity
      _ = g * g * (n * p * (u * u)) := by rw [hsq, one_mul]
      _ = g * n * u * (g * p * u) := by ring

end Mul

/-- Settles O14: a zero factor gives zero, any other product is truncated to 24 bits. -/
theorem mfMulErrorIsBounded : Obligations.MfMulErrorIsBounded := by
  intro s a b w ha hb h
  have hw := eq_some_of_mfAnswer (exec_mfMul a b s ▸ h)
  by_cases hzero : a = 0 ∨ b = 0
  · rw [mfMul_of_zero ha hb hzero] at hw
    have hprod : mfValue a * mfValue b = 0 := by
      rcases hzero with rfl | rfl
      · rw [mfValue_zero, zero_mul]
      · rw [mfValue_zero, mul_zero]
    rw [← Option.some.inj hw, mfValue_zero, hprod]
    norm_num
  · obtain ⟨hane, hbne⟩ := not_or.1 hzero
    obtain ⟨g, u, j, hg, hu, hp, hprod, hval⟩ := mul_in_units ha hb hane hbne hw
    rw [hprod, hval]
    exact truncated_within hg hu hp

/-! ### MF.ADD (R151 (d)) -/

section Add

variable {a b hi lo w : Word}

/-- A larger magnitude is a larger absolute value. -/
theorem abs_mfValue_lt_of_mag (hane : a ≠ 0) (hbne : b ≠ 0) (h : mfMag a < mfMag b) : |mfValue a| < |mfValue b| := by
  rw [abs_mfValue_of_ne hane, abs_mfValue_of_ne hbne]
  have ha := mfMag_eq_exp_mant a
  have hb := mfMag_eq_exp_mant b
  have hma := mfMant_lt a
  have hlb := le_mfMant b
  have hla := le_mfMant a
  have hmb := mfMant_lt b
  rcases Nat.lt_trichotomy (mfExp a) (mfExp b) with hlt | heq | hgt
  · have hexp : (2 : ℚ) ^ ((mfExp a : Int) - 150) * 2 ≤ 2 ^ ((mfExp b : Int) - 150) := by
      rw [← zpow_add_one₀ two_ne_zero]
      exact zpow_le_zpow_right₀ one_le_two (by omega)
    have hpos : (0 : ℚ) < 2 ^ ((mfExp a : Int) - 150) := zpow_pos two_pos _
    have hmant : (mfMant a : ℚ) < mfMant b * 2 := by exact_mod_cast (show mfMant a < mfMant b * 2 by omega)
    have hb0 : (0 : ℚ) ≤ mfMant b := Nat.cast_nonneg _
    nlinarith
  · rw [heq]
    have hmant : (mfMant a : ℚ) < mfMant b := by exact_mod_cast (show mfMant a < mfMant b by rw [heq] at ha; omega)
    exact mul_lt_mul_of_pos_right hmant (zpow_pos two_pos _)
  · omega

/-- The smaller operand in the larger one's unit; alignment drops less than one unit of it. -/
theorem lo_in_units (hlone : lo ≠ 0) (h : mfMag lo ≤ mfMag hi) :
    ∃ x : ℚ, mfValue lo = signFactor (mfSign lo) * x * 2 ^ ((mfExp hi : Int) - 150)
      ∧ aligned hi lo ≤ x ∧ x < aligned hi lo + 1 := by
  have hexp : mfExp lo ≤ mfExp hi := by
    have hhi := mfMag_eq_exp_mant hi
    have hlo := mfMag_eq_exp_mant lo
    have := mfMant_lt hi
    have := le_mfMant lo
    omega
  have hpos : (0 : ℚ) < (2 ^ (mfExp hi - mfExp lo) : Nat) := Nat.cast_pos.2 (Nat.two_pow_pos _)
  refine ⟨mfMant lo / (2 ^ (mfExp hi - mfExp lo) : Nat), ?_, ?_, ?_⟩
  · rw [mfValue_of_ne hlone, unit_of_le hexp]
    field_simp
  · exact Nat.cast_div_le
  · rw [aligned, ← Nat.floor_div_eq_div (K := ℚ)]
    exact Nat.lt_floor_add_one _

/-- A difference of fewer than 24 bits can be shifted back to 24. -/
theorem exists_normalised {t : Nat} (hne : t ≠ 0) (ht : t < 2 ^ 24) : ∃ lz, 2 ^ 23 ≤ t * 2 ^ lz ∧ t * 2 ^ lz < 2 ^ 24 := by
  have hlog : t.log2 < 24 := (Nat.log2_lt hne).2 ht
  have hlow := Nat.mul_le_mul_right (2 ^ (23 - t.log2)) (Nat.log2_self_le hne)
  have hhigh := Nat.mul_lt_mul_of_pos_right (Nat.lt_log2_self (n := t)) (Nat.two_pow_pos (23 - t.log2))
  rw [← pow_add, show t.log2 + (23 - t.log2) = 23 by omega] at hlow
  rw [← pow_add, show t.log2 + 1 + (23 - t.log2) = 24 by omega] at hhigh
  exact ⟨_, hlow, hhigh⟩

/-- The ordered sum in the larger operand's unit: a carry drops at most one unit, a difference nothing. -/
theorem ordered_in_units (hmag : mfMag lo ≤ mfMag hi) (h : mfAddOrdered hi lo = some w) :
    ∃ n : Nat, mfValue w = signFactor (mfSign hi) * n * 2 ^ ((mfExp hi : Int) - 150)
      ∧ (mfSign hi = mfSign lo → n ≤ mfMant hi + aligned hi lo ∧ mfMant hi + aligned hi lo ≤ n + 1)
      ∧ (mfSign hi ≠ mfSign lo → n + aligned hi lo = mfMant hi) := by
  have hal := aligned_le hmag
  have hm := le_mfMant hi
  have hm' := mfMant_lt hi
  by_cases hsign : mfSign hi = mfSign lo
  · by_cases hcarry : 2 ^ 24 ≤ mfMant hi + aligned hi lo
    · rw [mfAddOrdered_of_carry hsign hcarry] at h
      refine ⟨(mfMant hi + aligned hi lo) / 2 * 2, ?_, fun _ => by omega, fun hne => absurd hsign hne⟩
      rw [mfValue_of_packChecked (by omega) (by omega) h,
        show (mfExp hi : Int) + 1 - 150 = (mfExp hi : Int) - 150 + 1 by ring, zpow_add_one₀ two_ne_zero, Nat.cast_mul,
        Nat.cast_ofNat]
      ring
    · rw [mfAddOrdered_of_sum hsign (Nat.lt_of_not_le hcarry)] at h
      exact ⟨_, mfValue_of_packChecked (by omega) (by omega) h, fun _ => by omega, fun hne => absurd hsign hne⟩
  · by_cases hcancel : mfMant hi = aligned hi lo
    · rw [mfAddOrdered_of_cancel hsign hcancel] at h
      refine ⟨0, ?_, fun heq => absurd heq hsign, fun _ => by omega⟩
      rw [← Option.some.inj h, mfValue_zero, Nat.cast_zero, mul_zero, zero_mul]
    · obtain ⟨lz, hlow, hhigh⟩ := exists_normalised (t := mfMant hi - aligned hi lo) (by omega) (by omega)
      rw [mfAddOrdered_of_difference hsign hlow hhigh] at h
      refine ⟨mfMant hi - aligned hi lo, ?_, fun heq => absurd heq hsign, fun _ => by omega⟩
      rw [mfValue_of_packChecked hlow hhigh h, show (mfExp hi : Int) - 150 = (mfExp hi : Int) - lz - 150 + lz by ring,
        zpow_add₀ two_ne_zero, zpow_natCast, Nat.cast_mul, Nat.cast_pow, Nat.cast_ofNat]
      ring

/-- The ordered sum is within two units of the exact one, and has the larger operand's sign. -/
theorem ordered_error (hhine : hi ≠ 0) (hlone : lo ≠ 0) (hmag : mfMag lo ≤ mfMag hi) (h : mfAddOrdered hi lo = some w) :
    |mfValue w - (mfValue hi + mfValue lo)| ≤ |mfValue hi| / 2 ^ 22 ∧ 0 ≤ mfValue w * mfValue hi := by
  obtain ⟨x, hlo, hle, hlt⟩ := lo_in_units hlone hmag
  obtain ⟨n, hw, hsame, hother⟩ := ordered_in_units hmag h
  have hu : (0 : ℚ) < 2 ^ ((mfExp hi : Int) - 150) := zpow_pos two_pos _
  have hhi := mfValue_of_ne hhine
  have habs := abs_mfValue_of_ne hhine
  have hsq := signFactor_mul_self (mfSign hi)
  generalize (2 : ℚ) ^ ((mfExp hi : Int) - 150) = u at hlo hw hu hhi habs
  have hbits : (2 : ℚ) * 2 ^ 22 ≤ mfMant hi := by exact_mod_cast le_mfMant hi
  have herror : ∃ d : ℚ, mfValue w - (mfValue hi + mfValue lo) = signFactor (mfSign hi) * d * u ∧ |d| ≤ 2 := by
    by_cases hsign : mfSign hi = mfSign lo
    · obtain ⟨hn, hn'⟩ := hsame hsign
      have hcast : (n : ℚ) ≤ mfMant hi + aligned hi lo := by exact_mod_cast hn
      have hcast' : (mfMant hi : ℚ) + aligned hi lo ≤ n + 1 := by exact_mod_cast hn'
      refine ⟨n - (mfMant hi + x), by rw [hw, hhi, hlo, ← hsign]; ring, abs_le.2 ⟨by linarith, by linarith⟩⟩
    · have hcast : (n : ℚ) + aligned hi lo = mfMant hi := by exact_mod_cast hother hsign
      refine ⟨n - (mfMant hi - x), by rw [hw, hhi, hlo, signFactor_of_ne hsign]; ring,
        abs_le.2 ⟨by linarith, by linarith⟩⟩
  obtain ⟨d, hd, hdle⟩ := herror
  constructor
  · rw [hd, habs, abs_mul, abs_mul, abs_signFactor, one_mul, abs_of_pos hu, div_eq_mul_inv, mul_right_comm]
    refine mul_le_mul_of_nonneg_right ?_ hu.le
    norm_num
    linarith
  · calc (0 : ℚ) ≤ n * mfMant hi * (u * u) := by positivity
      _ = signFactor (mfSign hi) * signFactor (mfSign hi) * (n * mfMant hi * (u * u)) := by rw [hsq, one_mul]
      _ = mfValue w * mfValue hi := by rw [hw, hhi]; ring

/-- The result of MF.ADD, whichever operand is the larger. -/
theorem mfAdd_error (ha : mfWellFormed a = true) (hb : mfWellFormed b = true) (h : mfAdd a b = some w) :
    |mfValue w - (mfValue a + mfValue b)| ≤ max |mfValue a| |mfValue b| / 2 ^ 22
      ∧ (|mfValue b| ≤ |mfValue a| → 0 ≤ mfValue w * mfValue a) := by
  by_cases hazero : a = 0
  · rw [mfAdd_of_wellFormed ha hb, if_pos hazero] at h
    rw [← Option.some.inj h, hazero, mfValue_zero, zero_add, sub_self, abs_zero, mul_zero]
    exact ⟨by positivity, fun _ => le_refl 0⟩
  by_cases hbzero : b = 0
  · rw [mfAdd_of_wellFormed ha hb, if_neg hazero, if_pos hbzero] at h
    rw [← Option.some.inj h, hbzero, mfValue_zero, add_zero, sub_self, abs_zero]
    exact ⟨by positivity, fun _ => mul_self_nonneg _⟩
  by_cases hmag : mfMag b ≤ mfMag a
  · rw [mfAdd_of_ordered ha hb hazero hbzero (.inl ⟨hmag, rfl, rfl⟩)] at h
    obtain ⟨herror, hsign⟩ := ordered_error hazero hbzero hmag h
    exact ⟨herror.trans (div_le_div_of_nonneg_right (le_max_left _ _) (by positivity)), fun _ => hsign⟩
  · have hlt := Nat.lt_of_not_le hmag
    rw [mfAdd_of_ordered ha hb hazero hbzero (.inr ⟨hlt, rfl, rfl⟩)] at h
    obtain ⟨herror, -⟩ := ordered_error hbzero hazero hlt.le h
    rw [add_comm] at herror
    exact ⟨herror.trans (div_le_div_of_nonneg_right (le_max_right _ _) (by positivity)),
      fun hle => absurd hle (not_le.2 (abs_mfValue_lt_of_mag hazero hbzero hlt))⟩

end Add

/-- Settles O15: the sign clause for the second operand is that for the first one, by commutativity. -/
theorem mfAddErrorIsBounded : Obligations.MfAddErrorIsBounded := by
  intro s a b w ha hb h
  have hw := eq_some_of_mfAnswer (exec_mfAdd a b s ▸ h)
  obtain ⟨herror, hsign⟩ := mfAdd_error ha hb hw
  exact ⟨herror, hsign, (mfAdd_error hb ha (mfAdd_comm a b ▸ hw)).2⟩

/-! ### MF.DIV (R148) -/

section Div

variable {a b : Word}

theorem mfDiv_of_refused (h : mfWellFormed a = false ∨ mfWellFormed b = false ∨ b = 0) : mfDiv a b = none := by
  rw [mfDiv, if_neg]
  rcases h with h | h | h <;> simp [h]

theorem mfDiv_of_wellFormed (ha : mfWellFormed a = true) (hb : mfWellFormed b = true) (hbne : b ≠ 0) (hane : a ≠ 0) :
    mfDiv a b = if mfQuotient a b < 2 ^ 31 then
      some (BitVec.ofInt 32 (if mfSign a ^^ mfSign b then -(mfQuotient a b : Int) else mfQuotient a b)) else none := by
  rw [mfDiv, ha, hb, bne_iff_ne.2 hbne, if_pos (by rfl), if_neg hane]

theorem mfDiv_of_zero (hb : mfWellFormed b = true) (hbne : b ≠ 0) : mfDiv 0 b = some 0 := by
  rw [mfDiv, hb, bne_iff_ne.2 hbne, if_pos (by rfl), if_pos rfl]

theorem abs_mfValue_pos {w : Word} (h : w ≠ 0) : 0 < |mfValue w| := by
  have hmant : (0 : ℚ) < mfMant w := Nat.cast_pos.2 (Nat.lt_of_lt_of_le (by norm_num) (le_mfMant w))
  rw [abs_mfValue_of_ne h]
  positivity

/-- The exact quotient: a sign and a magnitude. -/
theorem div_eq_sign_mul (hane : a ≠ 0) (hbne : b ≠ 0) :
    mfValue a / mfValue b = signFactor (mfSign a ^^ mfSign b) * |mfValue a / mfValue b| := by
  have hsign {w : Word} (hw : w ≠ 0) : mfValue w = signFactor (mfSign w) * |mfValue w| := by
    rw [abs_mfValue_of_ne hw, ← mul_assoc, ← mfValue_of_ne hw]
  have hinv : (signFactor (mfSign b))⁻¹ = signFactor (mfSign b) := inv_eq_of_mul_eq_one_left (signFactor_mul_self _)
  rw [abs_div, signFactor_xor]
  conv_lhs => rw [hsign hane, hsign hbne, mul_div_mul_comm, div_eq_mul_inv (signFactor _), hinv]

/-- The quotient computed is the magnitude's integer part. -/
theorem mfQuotient_eq_floor (hane : a ≠ 0) (hbne : b ≠ 0) : mfQuotient a b = ⌊|mfValue a / mfValue b|⌋₊ := by
  rw [abs_div, abs_mfValue_of_ne hane, abs_mfValue_of_ne hbne, mfQuotient]
  split
  · rw [unit_of_le ‹_›, ← mul_assoc, mul_div_mul_right _ _ (zpow_ne_zero _ two_ne_zero), ← Nat.cast_mul,
      Nat.floor_div_eq_div, Nat.shiftLeft_eq]
  · rw [unit_of_le (m := mfExp a) (n := mfExp b) (by omega), ← mul_assoc,
      mul_div_mul_right _ _ (zpow_ne_zero _ two_ne_zero), ← Nat.cast_mul, Nat.floor_div_eq_div, Nat.shiftLeft_eq]

/-- A number given by sign and magnitude, truncated toward zero. -/
theorem truncate_sign_mul {sign : Bool} {y : ℚ} (hy : 0 < y) :
    (if 0 ≤ signFactor sign * y then ⌊signFactor sign * y⌋ else ⌈signFactor sign * y⌉)
      = if sign then -(⌊y⌋₊ : Int) else ⌊y⌋₊ := by
  rw [Int.natCast_floor_eq_floor hy.le]
  cases sign with
  | false => rw [show signFactor false = 1 from rfl, one_mul, if_pos hy.le]; rfl
  | true =>
    rw [show signFactor true = -1 from rfl, neg_one_mul, if_neg (not_le.2 (neg_lt_zero.2 hy)), Int.ceil_neg]
    rfl

/-- A quotient of magnitude below `2^31` is a signed 32-bit integer. -/
theorem toInt_signed {sign : Bool} {q : Nat} (h : q < 2 ^ 31) :
    (BitVec.ofInt 32 (if sign then -(q : Int) else q)).toInt = if sign then -(q : Int) else q := by
  have hrange : -2 ^ 31 ≤ (if sign then -(q : Int) else q) ∧ (if sign then -(q : Int) else q) < 2 ^ 31 := by
    split <;> constructor <;> omega
  exact BitVec.toInt_ofInt_eq_self (by omega) hrange.1 hrange.2

end Div

/-- Settles O13: the quotient computed is the integer part of the exact one's magnitude, and the sign is put back. -/
theorem mfDivTruncatesTheRealQuotient : Obligations.MfDivTruncatesTheRealQuotient := by
  intro s a b
  have hfits : |mfValue a / mfValue b| < 2 ^ 31 ↔ ⌊|mfValue a / mfValue b|⌋₊ < 2 ^ 31 := by
    rw [Nat.floor_lt (abs_nonneg _), Nat.cast_pow, Nat.cast_ofNat]
  refine ⟨fun h => ?_, fun ha hb hbne hlt => ?_, fun ha hb hbne hle => ?_⟩
  · rw [exec_mfDiv, mfDiv_of_refused h, mfAnswer_none]
  · by_cases hane : a = 0
    · subst hane
      refine ⟨0, by rw [exec_mfDiv, mfDiv_of_zero hb hbne, mfAnswer_some], ?_⟩
      rw [mfValue_zero, zero_div, if_pos (le_refl _), Int.floor_zero]
      rfl
    · have hq := hfits.1 hlt
      have hpos : 0 < |mfValue a / mfValue b| := by
        rw [abs_div]
        exact div_pos (abs_mfValue_pos hane) (abs_mfValue_pos hbne)
      have htruncate := truncate_sign_mul (sign := mfSign a ^^ mfSign b) hpos
      rw [← div_eq_sign_mul hane hbne] at htruncate
      rw [exec_mfDiv, mfDiv_of_wellFormed ha hb hbne hane, mfQuotient_eq_floor hane hbne, if_pos hq, mfAnswer_some, htruncate]
      exact ⟨_, rfl, toInt_signed hq⟩
  · have hane : a ≠ 0 := by
      rintro rfl
      rw [mfValue_zero, zero_div, abs_zero] at hle
      norm_num at hle
    rw [exec_mfDiv, mfDiv_of_wellFormed ha hb hbne hane, mfQuotient_eq_floor hane hbne,
      if_neg (fun h => not_lt.2 hle (hfits.2 h)), mfAnswer_none]

end Sys2Proof.Proofs.MinifloatError
end
